-- ==== Sys2Proof/Word.lean ====
section
/-! DEFINITION. The bit-vector types of the squoosh FLIF decoder core, by the widths of spec/10_state.md
(R21, R32 to R38). Everything the spec treats as bits is a `BitVec`; counts and indexes are `Nat`,
exact arithmetic (R9) is `Nat` or `Int`. -/

namespace Sys2Proof

/-- One byte of the INPUT space (R61). -/
abbrev Byte := BitVec 8

/-- A 32-bit register: a host register (R21), `rng`, `code`, a coordinate, a header varint. -/
abbrev Word := BitVec 32

/-- One stored sample or OUTPUT word, u16 (R38, R63). -/
abbrev Sample := BitVec 16

/-- One adaptive counter, u12: the probability of decision 0 in units of 1/4096 (R154). -/
abbrev Ctr := BitVec 12

/-- A bit position of the input, u35: `cur` and `lim` (R32). -/
abbrev BitPos := BitVec 35

/-- An index into the node arena, u13 (R37). -/
abbrev NodeIdx := BitVec 13

/-- A 2-bit plane number, one field `order[k]` of CHORDER (R97). -/
abbrev PlaneNo := BitVec 2

end Sys2Proof
end

