-- ==== Sys2Proof/Config.lean ====
section
/-! DEFINITION. The named parameters of R7 (fixed by decision, not open: 93_implementation_defined.md
section 2), and the free values: constants without a body, about which nothing can be proved. -/

namespace Sys2Proof

/-- R7 `RENORM_TOP` = 2^24: renormalise while `rng` is below it. -/
abbrev Config.renormTop : Word := 0x01000000

/-- R7 `PROB_ONE` = 4096 = 2^`PROB_BITS`. -/
abbrev Config.probOne : Nat := 4096

/-- R7 `PROB_INIT`: the initial value of every adaptive counter. -/
abbrev Config.probInit : Ctr := 2048

/-- R7 `ADAPT_SHIFT`. -/
abbrev Config.adaptShift : Nat := 5

/-- R7 `VARINT_MAX_BYTES`. -/
abbrev Config.varintMaxBytes : Nat := 5

/-- R7 `MAX_TREE_DEPTH`: the deepest node depth. -/
abbrev Config.maxTreeDepth : Nat := 12

/-- R7 `MAX_NODES` = 2^13 - 1. -/
abbrev Config.maxNodes : Nat := 8191

/-- R7 `NUM_PROPS`. -/
abbrev Config.numProps : Nat := 6

/-- R7 `THR_LIMIT`. -/
abbrev Config.thrLimit : Nat := 16

/-- R7 `NZ_CTRS`: the counters of one near-zero counter set. -/
abbrev Config.nzCtrs : Nat := 33

/-- R7 `META_CTRS`. -/
abbrev Config.metaCtrs : Nat := 41

/-- R7 `MAX_PIXELS` = 2^24. -/
abbrev Config.maxPixels : Nat := 16777216

/-- R7 `MAX_FRAMES`. -/
abbrev Config.maxFrames : Nat := 1

/-- R7 `MAX_CHANNELS`. -/
abbrev Config.maxChannels : Nat := 4

/-- R7 `MAX_DEPTH`: the largest bit depth. -/
abbrev Config.maxDepth : Nat := 16

/-- R7 `VERSION_ID`. -/
abbrev Config.versionId : Word := 1

/-- R7 `MAGIC`: the first four bytes of every stream. -/
abbrev Config.magic : List Byte := [0x46, 0x4C, 0x49, 0x46]

/-- The open parameter `PLATFORM_MAP` (92_eei_decisions.md D39): the byte the platform holds at an INPUT
address that no WRITE_INPUT move has written. FREE VALUE, one per address (log entry 4). -/
opaque Config.platformByte : Word → Byte

/-- The byte read at an INPUT address outside the u32 space, which only a host that breaks R341 (2) can
bring about (93_implementation_defined.md U1). FREE VALUE, fresh at each read (log entry 5). -/
opaque Config.freeByte : Nat → Byte

/-- Which of the values an INPUT byte has had since START a read returns, when the host wrote the byte
while BUSY (93_implementation_defined.md U2). FREE VALUE, fresh at each read (log entry 6). -/
opaque Config.freeChoice : Nat → Nat

/-- The value of an OUTPUT word the host has no right to interpret (93_implementation_defined.md U3).
FREE VALUE, fresh at each read (log entry 7). -/
opaque Config.freeWord : Nat → Sample

end Sys2Proof
end

