-- ==== Sys2Proof/Syntax.lean ====
section
/-! DEFINITION. The instruction syntax: one constructor of `Instr` per row of spec/opcode_table.json
(21 syntax elements, 28 operations of the units, 11 host commands; R110), and the shapes of their
operands. The stream has no opcodes: an element is selected by the sequencer's position (R41), and
its operand bits are read from the input by the element's own rule, so a raw element's constructor has
no operand. The codecs of those bits are in Decode.lean. -/

namespace Sys2Proof

/-- The seven error kinds, in the order of R300. -/
inductive ErrKind where
  /-- R301: one of the first four input bytes is wrong. -/
  | badMagic
  /-- R302: a header value this decoder refuses. -/
  | unsupportedFeature
  /-- R303: a bit was asked for at the end of the input. -/
  | truncatedInput
  /-- R304: a varint too long or too large. -/
  | malformedVarint
  /-- R305: a node record no tree can hold. -/
  | corruptTree
  /-- R306: a residual magnitude of `2^D` or more. -/
  | corruptPixelValue
  /-- R307: the planes disagree with the header. -/
  | channelCountMismatch
  deriving DecidableEq, Repr

/-- An error with its detail number, the `E(info)` of `raise E(info)` (R309). -/
structure Err where
  kind : ErrKind
  info : Word
  deriving DecidableEq, Repr

/-- A counter set of the layout of R170: the threshold set `META[8..40]`, or the set of a leaf. -/
inductive SetRef where
  /-- `META[8..40]`, the set THR is decoded with (R185). -/
  | thr
  /-- `NODE[n].ctr[0..32]`, the set RESID is decoded with (R104). -/
  | leaf (n : NodeIdx)
  deriving DecidableEq, Repr

/-- One adaptive counter (R100). -/
inductive CtrRef where
  /-- `META[i]`, i = 0 .. 40. -/
  | metaCtr (i : Nat)
  /-- `NODE[n].ctr[j]`, j = 0 .. 32. -/
  | leafCtr (n : NodeIdx) (j : Nat)
  deriving DecidableEq, Repr

/-- The property vector `P[0..5]` of a pixel (R240). -/
structure PropVec where
  p0 : Int
  p1 : Int
  p2 : Int
  p3 : Int
  p4 : Int
  p5 : Int
  deriving DecidableEq, Repr

/-- The instructions: one constructor per row of spec/opcode_table.json, in the table's order. -/
inductive Instr where
  -- the syntax elements
  /-- MAGIC (R93, R201). -/
  | magic
  /-- WIDTH (R94, R202). -/
  | width
  /-- HEIGHT (R94, R203). -/
  | height
  /-- CHANNELS (R95, R204). -/
  | channels
  /-- DEPTH (R95, R205). -/
  | depth
  /-- FLAGS (R96, R206). -/
  | flags
  /-- CHORDER (R97, R207). -/
  | chorder
  /-- NFRAMES (R98, R208). -/
  | nframes
  /-- METALEN (R98, R209). -/
  | metalen
  /-- METADATA (R98, R209). -/
  | metadata
  /-- ACINIT (R99, R151). -/
  | acinit
  /-- ACBYTE: one refill byte inside a renormalisation (R99, R153). -/
  | acbyte
  /-- NODE: one node record with its subtrees (R103, R182). -/
  | node
  /-- SPLIT: the leaf-or-split decision (R103, R183). -/
  | split
  /-- PROP: the split property id, three decisions (R101, R184). -/
  | prop
  /-- THR: the split threshold (R102, R185). -/
  | thr
  /-- RESID: the residual of the current pixel (R104, R241). -/
  | resid
  /-- ZERO of a near-zero integer decoded with the set `k` (R102, R171). -/
  | zero (k : SetRef)
  /-- SIGN (R102, R171). -/
  | sign (k : SetRef)
  /-- EXP[e], e = 0 .. 15 (R102, R171). -/
  | exp (k : SetRef) (e : Nat)
  /-- MANT[i], i = 0 .. 14 (R102, R171). -/
  | mant (k : SetRef) (i : Nat)
  -- the operations of the units
  /-- `read_bit()` (R132). -/
  | readBit
  /-- `read_uint(n)`, 0 ≤ n ≤ 32 (R133). -/
  | readUint (n : Nat)
  /-- `read_varint()` (R134). -/
  | readVarint
  /-- `skip_bytes(n)` (R135). -/
  | skipBytes (n : Word)
  /-- `ac_init()` (R151). -/
  | acInitOp
  /-- `decode_bit(p)`, 1 ≤ p ≤ 4095 (R152). -/
  | decodeBit (p : Ctr)
  /-- `renormalise()` (R153). -/
  | renormalise
  /-- `ctr_update(p, bit)` (R154). -/
  | ctrUpdate (p : Ctr) (bit : Bool)
  /-- `decode_ctx(K)` (R155). -/
  | decodeCtx (k : CtrRef)
  /-- `nz_decode(K, limit, E)` (R171). -/
  | nzDecode (k : SetRef) (limit : Nat) (e : Err)
  /-- `tree_decode()` (R181). -/
  | treeDecode
  /-- `decode_node(d)` (R182). -/
  | decodeNode (d : Nat)
  /-- `tree_decode_iterative()` (R188). -/
  | treeDecodeIterative
  /-- `tree_lookup(P)` (R186). -/
  | treeLookup (P : PropVec)
  /-- `parse_header()` (R200). -/
  | parseHeader
  /-- `parse_magic()` (R201). -/
  | parseMagic
  /-- `parse_flags()` (R206). -/
  | parseFlags
  /-- `parse_chorder()` (R207). -/
  | parseChorder
  /-- `sequencer_step`: one row of the transition table (R245). -/
  | sequencerStep
  /-- `plane_loop`: every plane, its tree and its passes (R231). -/
  | planeLoop
  /-- `pass_positions`: the positions of pass `pi` in order (R234). -/
  | passPositions
  /-- `neighbours` of (x, y) (R237). -/
  | neighbours
  /-- `ahead` neighbour of (x, y) in pass `pi` (R238). -/
  | ahead
  /-- `predict` (R239). -/
  | predict
  /-- `properties` (R240). -/
  | properties
  /-- `decode_pixel()` (R241). -/
  | decodePixel
  /-- `assemble()` (R270). -/
  | assemble
  /-- `raise E(info)` (R309). -/
  | raise (e : Err)
  -- the host commands
  /-- DECODE: CTRL written with bit 0 = 1 while not BUSY; `hi` is the ignored bits 31:1 (R286, R23). -/
  | decode (hi : BitVec 31)
  /-- START_WHILE_BUSY: the same write while BUSY (R287). -/
  | startWhileBusy (hi : BitVec 31)
  /-- CTRL_NOP: CTRL written with bit 0 = 0 (R23). -/
  | ctrlNop (hi : BitVec 31)
  /-- VERSION: a read of `HR[0]` (R288). -/
  | version
  /-- WRITE_IN_HANDLE (R25). -/
  | writeInHandle (v : Word)
  /-- WRITE_IN_SIZE (R26). -/
  | writeInSize (v : Word)
  /-- READ_REG: a read of `HR[n]` (R289). -/
  | readReg (n : Nat)
  /-- WRITE_RO_REG: a write to a read-only or absent register (R289). -/
  | writeRoReg (n : Nat) (v : Word)
  /-- READ_OUTPUT: a read of OUTPUT word `a` (R63). -/
  | readOutput (a : BitVec 26)
  /-- WRITE_INPUT: a write of one byte of the INPUT space (R61). -/
  | writeInput (a : Word) (b : Byte)
  /-- RESET: reset asserted (R340). -/
  | reset
  deriving DecidableEq, Repr

/-- The five kinds of move the host has (R285), as they reach the block: no bus is specified
(91_not_in_source.md N1), so a register is named by its number and a memory word by its address. -/
inductive HostMove where
  /-- `HR[n] <- v`. -/
  | writeReg (n : Nat) (v : Word)
  /-- read `HR[n]`. -/
  | readReg (n : Nat)
  /-- `INPUT[a] <- b`. -/
  | writeInput (a : Word) (b : Byte)
  /-- read `OUTPUT[a]`. -/
  | readOutput (a : BitVec 26)
  /-- assert and release reset. -/
  | assertReset
  deriving DecidableEq, Repr

/-- One entry of the machine's input queue: what happens next. Log entries 1 and 2. -/
inductive Issue where
  /-- The block takes one turn of its sequencer (R245). -/
  | turn
  /-- The host makes a move (R285). -/
  | move (m : HostMove)
  /-- One element or operation is run alone, as the unit vectors of 95_test_vectors.md do: the call
  `f(args)` of R10, `f` given by its row number in spec/opcode_table.json (counted from 0). -/
  | call (row : Nat) (args : List Int)
  deriving DecidableEq, Repr

/-- A varint field of the header: its value and the number of bytes it is written in (R94: the shortest
form or one with leading all-zero groups). -/
structure VarField where
  value : Nat
  bytes : Nat
  deriving DecidableEq, Repr

/-- The fields of a header, as R92 lays them out. -/
structure HeaderFields where
  width : VarField
  height : VarField
  channels : Byte
  depth : Byte
  flags : Byte
  chorder : Byte
  frames : VarField
  /-- Present in the stream only if FLAGS bit 1 is 1, as is `metadata`. -/
  metalen : VarField
  metadata : List Byte
  deriving DecidableEq, Repr

/-- A context tree as the stream describes it (R103). -/
inductive TreeShape where
  | leaf
  | split (prop : BitVec 3) (thr : Int) (left right : TreeShape)
  deriving DecidableEq, Repr

end Sys2Proof
end

