-- ==== Sys2Proof/WellFormed.lean ====
section
/-! DEFINITION. Well-formed instructions: every operand inside the contract its rule states. -/

namespace Sys2Proof

/-- The pairs (kind, ERR_INFO) that exist: the complete list of R308. -/
def Err.listed (e : Err) : Bool :=
  match e.kind with
  | .badMagic => decide (e.info.toNat ≤ 3)
  | .unsupportedFeature => decide (1 ≤ e.info.toNat) && decide (e.info.toNat ≤ 12)
  | .truncatedInput => decide (e.info = 0)
  | .malformedVarint => decide (e.info = 1) || decide (e.info = 2)
  | .corruptTree => decide (1 ≤ e.info.toNat) && decide (e.info.toNat ≤ 3)
  | .corruptPixelValue => decide (e.info = 0)
  | .channelCountMismatch => decide (e.info = 1) || decide (e.info = 2)

/-- R37: arena entries are `NODE[0..8190]`. That an operation called alone may name any of them for its counters, also
an entry not in use or a split node, is the model's choice (DESIGN CHOICE, log entry 30; unsafe). -/
def NodeIdx.present (n : NodeIdx) : Bool := decide (n.toNat < 8191)

/-- R170: a counter set that exists. R170 has sets of leaves of the current tree; the set of any other entry is the
model's choice (DESIGN CHOICE, log entry 30; unsafe). -/
def SetRef.present : SetRef → Bool
  | .thr => true
  | .leaf n => NodeIdx.present n

/-- R36, R37: a counter that exists; of an entry that is no leaf of the current tree, see log entry 30 (DESIGN CHOICE;
unsafe). -/
def CtrRef.present : CtrRef → Bool
  | .metaCtr i => decide (i ≤ 40)
  | .leafCtr n j => NodeIdx.present n && decide (j ≤ 32)

/-- R171: the error operand of `nz_decode` is `CorruptTree(3)` or `CorruptPixelValue(0)`; with
either kind of set (DESIGN CHOICE, log entry 30; unsafe). -/
def Err.nzOperand (e : Err) : Bool :=
  decide (e = ⟨.corruptTree, 3⟩) || decide (e = ⟨.corruptPixelValue, 0⟩)

/-- R240: a property lies in -65535 .. 65535. -/
def propInRange (v : Int) : Bool := decide (-65535 ≤ v) && decide (v ≤ 65535)

/-- R240 for the whole vector. -/
def PropVec.inRange (P : PropVec) : Bool :=
  propInRange P.p0 && propInRange P.p1 && propInRange P.p2 &&
    propInRange P.p3 && propInRange P.p4 && propInRange P.p5

/-- R289, R21: the register numbers whose write is ignored: all but CTRL, IN_HANDLE, IN_SIZE. -/
def ignoresWrites (n : Nat) : Bool := n != 1 && n != 3 && n != 4

/-- Every operand of the instruction is inside the contract its rule states. A read of `HR[0]` is the
row VERSION, so READ_REG is well formed for the other numbers (log entry 3). -/
def wellFormed : Instr → Bool
  | .zero k => k.present
  | .sign k => k.present
  | .exp k e => k.present && decide (e ≤ 15)
  | .mant k i => k.present && decide (i ≤ 14)
  | .readUint n => decide (n ≤ 32)
  | .decodeBit p => decide (1 ≤ p.toNat)
  | .decodeCtx k => k.present
  | .nzDecode k limit e => k.present && decide (1 ≤ limit) && decide (limit ≤ 16) && e.nzOperand
  | .decodeNode d => decide (d ≤ 12)
  | .treeLookup P => P.inRange
  | .raise e => e.listed
  | .readReg n => n != 0
  | .writeRoReg n _ => ignoresWrites n
  | .magic => true
  | .width => true
  | .height => true
  | .channels => true
  | .depth => true
  | .flags => true
  | .chorder => true
  | .nframes => true
  | .metalen => true
  | .metadata => true
  | .acinit => true
  | .acbyte => true
  | .node => true
  | .split => true
  | .prop => true
  | .thr => true
  | .resid => true
  | .readBit => true
  | .readVarint => true
  | .skipBytes _ => true
  | .acInitOp => true
  | .renormalise => true
  | .ctrUpdate _ _ => true
  | .treeDecode => true
  | .treeDecodeIterative => true
  | .parseHeader => true
  | .parseMagic => true
  | .parseFlags => true
  | .parseChorder => true
  | .sequencerStep => true
  | .planeLoop => true
  | .passPositions => true
  | .neighbours => true
  | .ahead => true
  | .predict => true
  | .properties => true
  | .decodePixel => true
  | .assemble => true
  | .decode _ => true
  | .startWhileBusy _ => true
  | .ctrlNop _ => true
  | .version => true
  | .writeInHandle _ => true
  | .writeInSize _ => true
  | .readOutput _ => true
  | .writeInput _ _ => true
  | .reset => true

/-- R94: a varint field that can be written in its number of bytes, 1 to 5, and fits u32. -/
def VarField.legal (v : VarField) : Bool :=
  decide (1 ≤ v.bytes) && decide (v.bytes ≤ Config.varintMaxBytes) &&
    decide (v.value < 128 ^ v.bytes) && decide (v.value < 2 ^ 32)

/-- `order[k]` = `h_chorder[2k+1:2k]` (R97). -/
def orderField (chorder : Byte) (k : Nat) : PlaneNo := chorder.extractLsb' (2 * k) 2

/-- R97: `order[0..C-1]` is a permutation of 0 .. C-1 and the fields above it are 0. -/
def chorderLegal (channels : Nat) (chorder : Byte) : Bool :=
  (List.range 4).all fun k =>
    if k < channels then
      decide ((orderField chorder k).toNat < channels) &&
        (List.range k).all fun j => orderField chorder j != orderField chorder k
    else orderField chorder k == 0

/-- R96, R206: a FLAGS byte that is legal for a channel count. -/
def flagsLegal (channels : Nat) (flags : Byte) : Bool :=
  decide (flags.toNat ≤ 3) || (decide (flags.toNat ≤ 7) && decide (3 ≤ channels))

/-- R92: every field of the header is legal, and METADATA has METALEN bytes where it is present. -/
def HeaderFields.legal (h : HeaderFields) : Bool :=
  h.width.legal && h.height.legal && h.frames.legal &&
    decide (1 ≤ h.width.value) && decide (1 ≤ h.height.value) &&
    decide (h.width.value * h.height.value ≤ Config.maxPixels) &&
    decide (1 ≤ h.channels.toNat) && decide (h.channels.toNat ≤ Config.maxChannels) &&
    decide (1 ≤ h.depth.toNat) && decide (h.depth.toNat ≤ Config.maxDepth) &&
    flagsLegal h.channels.toNat h.flags && chorderLegal h.channels.toNat h.chorder &&
    decide (h.frames.value = 1) &&
    (if h.flags.getLsbD 1 then h.metalen.legal && decide (h.metalen.value = h.metadata.length) else true)

/-- The depth of a tree: 0 for a single leaf (R103). -/
def TreeShape.height : TreeShape → Nat
  | .leaf => 0
  | .split _ _ l r => max l.height r.height + 1

/-- The number of nodes of a tree. -/
def TreeShape.size : TreeShape → Nat
  | .leaf => 1
  | .split _ _ l r => 1 + l.size + r.size

/-- R184, R185: every split names a property 0 .. 5 and a threshold in -65535 .. 65535. -/
def TreeShape.fieldsLegal : TreeShape → Bool
  | .leaf => true
  | .split prop thr l r => decide (prop.toNat < Config.numProps) && propInRange thr && l.fieldsLegal && r.fieldsLegal

/-- R183: a tree the stream may hold: legal fields, and no node deeper than 12. -/
def TreeShape.legal (t : TreeShape) : Bool := t.fieldsLegal && decide (t.height ≤ Config.maxTreeDepth)

end Sys2Proof
end

