-- ==== Sys2Proof/Decode.lean ====
section
/-! DEFINITION. Decoding, and after it encoding. Three things are decoded here: an entry of the input
queue (a turn, a host move, a call) into an instruction; a raw word of the opcode table into its
element; and, by their encoders, the fields of the stream (R92 to R103). What element stands at the
cursor is decided by the sequencer's position (R41), in Machine/Sequencer.lean. -/

namespace Sys2Proof

/-- Why a queue entry is no instruction. -/
inductive DecodeError where
  /-- The row is no element or operation that can be called. -/
  | noSuchRow (row : Nat)
  /-- The arguments do not fit the row's operands in number or range. -/
  | badOperands (row : Nat)
  /-- The operands lie outside the contract of the row's rule. -/
  | outsideContract (row : Nat)
  deriving DecidableEq, Repr

/-! ### Host moves -/

/-- The command a host move is (the `match` column of the table's CMD rows; R23, R286 to R289). Total:
every register number and every value has a meaning (93_implementation_defined.md U5). -/
def decodeMove (busy : Bool) : HostMove → Instr
  | .writeReg n v =>
    if n = 1 then
      if v.getLsbD 0 then
        if busy then .startWhileBusy (v.extractLsb' 1 31) else .decode (v.extractLsb' 1 31)
      else .ctrlNop (v.extractLsb' 1 31)
    else if n = 3 then .writeInHandle v
    else if n = 4 then .writeInSize v
    else .writeRoReg n v
  | .readReg n => if n = 0 then .version else .readReg n
  | .writeInput a b => .writeInput a b
  | .readOutput a => .readOutput a
  | .assertReset => .reset

/-! ### Calls -/

/-- The number of an error kind, ERR_CODE (R300). -/
def ErrKind.code : ErrKind → BitVec 3
  | .badMagic => 1
  | .unsupportedFeature => 2
  | .truncatedInput => 3
  | .malformedVarint => 4
  | .corruptTree => 5
  | .corruptPixelValue => 6
  | .channelCountMismatch => 7

/-- The kind with a given ERR_CODE (R300). -/
def errKindOf : Int → Option ErrKind
  | 1 => some .badMagic
  | 2 => some .unsupportedFeature
  | 3 => some .truncatedInput
  | 4 => some .malformedVarint
  | 5 => some .corruptTree
  | 6 => some .corruptPixelValue
  | 7 => some .channelCountMismatch
  | _ => none

/-- A call argument as a count. -/
def natArg (a : Int) : Option Nat := if 0 ≤ a then some a.toNat else none

/-- A call argument as an unsigned number of `w` bits. -/
def bitsArg (w : Nat) (a : Int) : Option (BitVec w) :=
  if 0 ≤ a ∧ a < 2 ^ w then some (BitVec.ofNat w a.toNat) else none

/-- A call argument as a counter set: -1 is THR, n is leaf n. -/
def setArg (a : Int) : Option SetRef :=
  if a = -1 then some .thr else (bitsArg 13 a).map .leaf

/-- Two call arguments as a counter: (-1, i) is `META[i]`, (n, j) is `NODE[n].ctr[j]`. -/
def ctrArg (a b : Int) : Option CtrRef :=
  if a = -1 then (natArg b).map .metaCtr
  else (bitsArg 13 a).bind fun n => (natArg b).map fun j => .leafCtr n j

/-- Two call arguments as an error with its detail number. -/
def errArg (a b : Int) : Option Err :=
  (errKindOf a).bind fun k => (bitsArg 32 b).map fun i => ⟨k, i⟩

/-- A call argument as a decision. -/
def boolArg (a : Int) : Option Bool :=
  if a = 0 then some false else if a = 1 then some true else none

/-- The element or operation a row number and its arguments name; rows are counted from 0 in the order of
spec/opcode_table.json. The row `sequencer_step` is the entry `turn`, and the command rows are host moves. -/
def decodeCall (row : Nat) (args : List Int) : Except DecodeError Instr :=
  let opt : Option Instr → Except DecodeError Instr := fun o => o.elim (.error (.badOperands row)) .ok
  match row, args with
  | 0, [] => .ok .magic
  | 1, [] => .ok .width
  | 2, [] => .ok .height
  | 3, [] => .ok .channels
  | 4, [] => .ok .depth
  | 5, [] => .ok .flags
  | 6, [] => .ok .chorder
  | 7, [] => .ok .nframes
  | 8, [] => .ok .metalen
  | 9, [] => .ok .metadata
  | 10, [] => .ok .acinit
  | 11, [] => .ok .acbyte
  | 12, [] => .ok .node
  | 13, [] => .ok .split
  | 14, [] => .ok .prop
  | 15, [] => .ok .thr
  | 16, [] => .ok .resid
  | 17, [k] => opt ((setArg k).map .zero)
  | 18, [k] => opt ((setArg k).map .sign)
  | 19, [k, e] => opt ((setArg k).bind fun k => (natArg e).map fun e => .exp k e)
  | 20, [k, i] => opt ((setArg k).bind fun k => (natArg i).map fun i => .mant k i)
  | 21, [] => .ok .readBit
  | 22, [n] => opt ((natArg n).map .readUint)
  | 23, [] => .ok .readVarint
  | 24, [n] => opt ((bitsArg 32 n).map .skipBytes)
  | 25, [] => .ok .acInitOp
  | 26, [p] => opt ((bitsArg 12 p).map .decodeBit)
  | 27, [] => .ok .renormalise
  | 28, [p, b] => opt ((bitsArg 12 p).bind fun p => (boolArg b).map fun b => .ctrUpdate p b)
  | 29, [a, b] => opt ((ctrArg a b).map .decodeCtx)
  | 30, [k, l, a, b] =>
    opt ((setArg k).bind fun k => (natArg l).bind fun l => (errArg a b).map fun e => .nzDecode k l e)
  | 31, [] => .ok .treeDecode
  | 32, [d] => opt ((natArg d).map .decodeNode)
  | 33, [] => .ok .treeDecodeIterative
  | 34, [a, b, c, d, e, f] => .ok (.treeLookup ⟨a, b, c, d, e, f⟩)
  | 35, [] => .ok .parseHeader
  | 36, [] => .ok .parseMagic
  | 37, [] => .ok .parseFlags
  | 38, [] => .ok .parseChorder
  | 40, [] => .ok .planeLoop
  | 41, [] => .ok .passPositions
  | 42, [] => .ok .neighbours
  | 43, [] => .ok .ahead
  | 44, [] => .ok .predict
  | 45, [] => .ok .properties
  | 46, [] => .ok .decodePixel
  | 47, [] => .ok .assemble
  | 48, [a, b] => opt ((errArg a b).map .raise)
  | row, _ => if row < 49 ∧ row ≠ 39 then .error (.badOperands row) else .error (.noSuchRow row)

/-- A call whose operands lie outside its rule's contract is rejected by name. -/
def checkContract (row : Nat) (i : Instr) : Except DecodeError Instr :=
  if wellFormed i then .ok i else .error (.outsideContract row)

/-- The instruction a queue entry stands for; `busy` is STATUS.BUSY, which decides whether a START is
DECODE or START_WHILE_BUSY (R286, R287). Total; a malformed call is rejected by name. -/
def decode (busy : Bool) : Issue → Except DecodeError Instr
  | .turn => .ok .sequencerStep
  | .move m => .ok (decodeMove busy m)
  | .call row args => (decodeCall row args).bind (checkContract row)

/-! ### Raw words of the opcode table -/

/-- A row of the opcode table whose element has bits of its own: how many, and which are fixed. -/
structure RawRow where
  instr : Instr
  nbits : Nat
  mask : Nat
  value : Nat
  deriving DecidableEq, Repr

/-- The raw rows by length, the row with fixed bits first, then the row every word of that length is legal
for. ZERO and SIGN have no bits in the stream (R91); the table's reader gives them a 16-bit pattern whose
bit 8 is the counter's number in the set, and it is read here as such, with the set THR (log entry 10). -/
def rawRows : List RawRow :=
  [ ⟨.magic, 32, 0xFFFFFFFF, 0x464C4946⟩, ⟨.acinit, 32, 0, 0⟩,
    ⟨.flags, 8, 0xF0, 0⟩, ⟨.acbyte, 8, 0, 0⟩,
    ⟨.zero .thr, 16, 0x100, 0⟩, ⟨.sign .thr, 16, 0x100, 0x100⟩ ]

/-- The big-endian number a byte string holds (R62). -/
def bytesToNat (bs : List Byte) : Nat := bs.foldl (fun v b => v * 256 + b.toNat) 0

/-- The element whose raw bits a byte string holds, read without a position: the first raw row of that
length whose fixed bits agree; `none` for a length no raw row has. -/
def decodeRaw (bs : List Byte) : Option Instr :=
  (rawRows.find? fun r => r.nbits == 8 * bs.length && (bytesToNat bs &&& r.mask) == r.value).map RawRow.instr

/-- The `n` bytes of a number, most significant first, as the stream stores a word (R62). -/
def natToBytes : Nat → Nat → List Byte
  | 0, _ => []
  | n + 1, w => BitVec.ofNat 8 (w / 256 ^ n) :: natToBytes n w

/-- The bytes of an `nbits`-bit word `w` as the stream holds them. -/
def wordBytes (nbits w : Nat) : List Byte := natToBytes ((nbits + 7) / 8) w

/-- What the decoder reads from a table word: its bytes as the stream holds them, given to `decodeRaw`. -/
def decodeTableWord (nbits w : Nat) : Option Instr := decodeRaw (wordBytes nbits w)

/-! ### Encoding: queue entries -/

/-- STATUS.BUSY under which an instruction's queue entry decodes to it (R286, R287). -/
def busyWhen : Instr → Bool
  | .startWhileBusy _ => true
  | _ => false

/-- A counter set as a call argument. -/
def setCode : SetRef → Int
  | .thr => -1
  | .leaf n => n.toNat

/-- A counter as two call arguments. -/
def ctrCode : CtrRef → List Int
  | .metaCtr i => [-1, i]
  | .leafCtr n j => [n.toNat, j]

/-- An error as two call arguments. -/
def errCode (e : Err) : List Int := [e.kind.code.toNat, e.info.toNat]

/-- The queue entry of an instruction. -/
def encode : Instr → Issue
  | .magic => .call 0 []
  | .width => .call 1 []
  | .height => .call 2 []
  | .channels => .call 3 []
  | .depth => .call 4 []
  | .flags => .call 5 []
  | .chorder => .call 6 []
  | .nframes => .call 7 []
  | .metalen => .call 8 []
  | .metadata => .call 9 []
  | .acinit => .call 10 []
  | .acbyte => .call 11 []
  | .node => .call 12 []
  | .split => .call 13 []
  | .prop => .call 14 []
  | .thr => .call 15 []
  | .resid => .call 16 []
  | .zero k => .call 17 [setCode k]
  | .sign k => .call 18 [setCode k]
  | .exp k e => .call 19 [setCode k, e]
  | .mant k i => .call 20 [setCode k, i]
  | .readBit => .call 21 []
  | .readUint n => .call 22 [n]
  | .readVarint => .call 23 []
  | .skipBytes n => .call 24 [n.toNat]
  | .acInitOp => .call 25 []
  | .decodeBit p => .call 26 [p.toNat]
  | .renormalise => .call 27 []
  | .ctrUpdate p b => .call 28 [p.toNat, b.toNat]
  | .decodeCtx k => .call 29 (ctrCode k)
  | .nzDecode k l e => .call 30 (setCode k :: (l : Int) :: errCode e)
  | .treeDecode => .call 31 []
  | .decodeNode d => .call 32 [d]
  | .treeDecodeIterative => .call 33 []
  | .treeLookup P => .call 34 [P.p0, P.p1, P.p2, P.p3, P.p4, P.p5]
  | .parseHeader => .call 35 []
  | .parseMagic => .call 36 []
  | .parseFlags => .call 37 []
  | .parseChorder => .call 38 []
  | .sequencerStep => .turn
  | .planeLoop => .call 40 []
  | .passPositions => .call 41 []
  | .neighbours => .call 42 []
  | .ahead => .call 43 []
  | .predict => .call 44 []
  | .properties => .call 45 []
  | .decodePixel => .call 46 []
  | .assemble => .call 47 []
  | .raise e => .call 48 (errCode e)
  | .decode hi => .move (.writeReg 1 (hi ++ 1#1))
  | .startWhileBusy hi => .move (.writeReg 1 (hi ++ 1#1))
  | .ctrlNop hi => .move (.writeReg 1 (hi ++ 0#1))
  | .version => .move (.readReg 0)
  | .writeInHandle v => .move (.writeReg 3 v)
  | .writeInSize v => .move (.writeReg 4 v)
  | .readReg n => .move (.readReg n)
  | .writeRoReg n v => .move (.writeReg n v)
  | .readOutput a => .move (.readOutput a)
  | .writeInput a b => .move (.writeInput a b)
  | .reset => .move .assertReset

/-! ### Encoding: the fields of the stream -/

/-- R94: the varint of `v` in `g` bytes, most significant group first, bit 7 set in all but the last. -/
def varintBytes : Nat → Nat → List Byte
  | 0, _ => []
  | g + 1, v => BitVec.ofNat 8 ((if g = 0 then 0 else 128) + v / 128 ^ g % 128) :: varintBytes g v

/-- The bytes of a varint field. -/
def VarField.encode (v : VarField) : List Byte := varintBytes v.bytes v.value

/-- R96: the FLAGS byte `rrrpttmi` with r = 0 and p = 0. -/
def flagsByte (interlaced hasMeta : Bool) (tid : BitVec 2) : Byte :=
  0#4 ++ tid ++ BitVec.ofBool hasMeta ++ BitVec.ofBool interlaced

/-- R97: the CHORDER byte with `order[k]` in bits 2k+1:2k. -/
def chorderByte (o0 o1 o2 o3 : PlaneNo) : Byte := o3 ++ o2 ++ o1 ++ o0

/-- R92: the bytes of a header, in stream order, with no padding. -/
def HeaderFields.encode (h : HeaderFields) : List Byte :=
  Config.magic ++ h.width.encode ++ h.height.encode ++ [h.channels, h.depth, h.flags, h.chorder] ++
    h.frames.encode ++ (if h.flags.getLsbD 1 then h.metalen.encode ++ h.metadata else [])

/-- Steps 3 and 4 of R102: EXP[0 .. e-1] are 1 and EXP[e] is 0 (counter 2 + i is EXP[i], R170). -/
def expDecisions (e : Nat) : List (Nat × Bool) :=
  (List.range e).map (fun i => (2 + i, true)) ++ [(2 + e, false)]

/-- Step 5 of R102: bits e-1 .. 0 of the magnitude (counter 18 + i is MANT[i], R170). -/
def mantDecisions (m : Nat) : Nat → List (Nat × Bool)
  | 0 => []
  | i + 1 => (18 + i, m.testBit i) :: mantDecisions m i

/-- R102: the decisions of a near-zero integer, each with its counter's index in the set. -/
def nzDecisions (v : Int) : List (Nat × Bool) :=
  if v = 0 then [(0, true)]
  else (0, false) :: (1, decide (v < 0)) :: expDecisions (Nat.log2 v.natAbs) ++ mantDecisions v.natAbs (Nat.log2 v.natAbs)

/-- R101: the three decisions of a property id, each with the number c of its counter `M.PROP[c]`. -/
def propDecisions (prop : BitVec 3) : List (Nat × Bool) :=
  let b2 := prop.getLsbD 2
  let b1 := prop.getLsbD 1
  [(1, b2), (2 + b2.toNat, b1), (4 + 2 * b2.toNat + b1.toNat, prop.getLsbD 0)]

/-- Counter `j` of a counter set (R170, R36: THR is `META[8..40]`). -/
def SetRef.ctr : SetRef → Nat → CtrRef
  | .thr, j => .metaCtr (8 + j)
  | .leaf n, j => .leafCtr n j

/-- The decisions of a near-zero integer decoded with the set `k` (R102). -/
def codedInt (k : SetRef) (v : Int) : List (CtrRef × Bool) :=
  (nzDecisions v).map fun d => (k.ctr d.1, d.2)

/-- The decisions of a property id (R101, R36: PROP[c] is `META[c]`). -/
def codedProp (prop : BitVec 3) : List (CtrRef × Bool) :=
  (propDecisions prop).map fun d => (.metaCtr d.1, d.2)

/-- R103: the decisions of a tree, in depth-first pre-order. -/
def codedTree : TreeShape → List (CtrRef × Bool)
  | .leaf => [(.metaCtr 0, false)]
  | .split prop t l r => (.metaCtr 0, true) :: codedProp prop ++ codedInt .thr t ++ codedTree l ++ codedTree r

end Sys2Proof
end

