-- ==== Sys2Proof/Machine/State.lean ====
section
/-! DEFINITION. The machine's state, whole (spec/10_state.md), as plain data, its value after reset
(R46), and the reasons a step can stop. Registers are grouped by the unit that owns them. -/

namespace Sys2Proof.Machine

/-- A sparse store: pairs (key, value) with strictly rising keys. A key that is not listed holds nothing. -/
abbrev Store (α : Type) := List (Nat × α)

/-- The sequencer states, R41. -/
inductive Seq where
  | idle
  | hdrMagic
  | hdrWidth
  | hdrHeight
  | hdrChannels
  | hdrDepth
  | hdrFlags
  | hdrChorder
  | hdrFrames
  | hdrMeta
  | acInit
  | awaitingTree
  | reconstructingPass
  | passComplete
  | planeComplete
  | assemble
  | doneOk
  | doneErr
  deriving DecidableEq, Repr

/-- The u5 code of a sequencer state (R41). -/
def Seq.code : Seq → BitVec 5
  | .idle => 0
  | .hdrMagic => 1
  | .hdrWidth => 2
  | .hdrHeight => 3
  | .hdrChannels => 4
  | .hdrDepth => 5
  | .hdrFlags => 6
  | .hdrChorder => 7
  | .hdrFrames => 8
  | .hdrMeta => 9
  | .acInit => 10
  | .awaitingTree => 11
  | .reconstructingPass => 12
  | .passComplete => 13
  | .planeComplete => 14
  | .assemble => 15
  | .doneOk => 16
  | .doneErr => 17

/-- The stored part of the host register file `HR[0..13]` (R21). VERSION, CTRL and OUT_HANDLE store
nothing (R22, R23, R27); of STATUS, ERR_CODE and BITS_HI only bits 2:0 exist (R24, R28, R31). -/
structure HostRegs where
  /-- STATUS bits 2:0: BUSY, DONE, ERR (R24). -/
  status : BitVec 3
  /-- IN_HANDLE (R25). -/
  inHandle : Word
  /-- IN_SIZE (R26). -/
  inSize : Word
  /-- ERR_CODE bits 2:0 (R28). -/
  errCode : BitVec 3
  /-- ERR_INFO (R29). -/
  errInfo : Word
  /-- OUT_WIDTH (R30). -/
  outWidth : Word
  /-- OUT_HEIGHT (R30). -/
  outHeight : Word
  /-- OUT_CHANNELS (R30). -/
  outChannels : Word
  /-- OUT_DEPTH (R30). -/
  outDepth : Word
  /-- BITS_LO (R31). -/
  bitsLo : Word
  /-- BITS_HI bits 2:0 (R31). -/
  bitsHi : BitVec 3
  deriving DecidableEq, Repr

/-- The Bit Reader's registers (R32). -/
structure BitReader where
  /-- Copy of IN_HANDLE taken at START. -/
  base : Word
  /-- Number of input bits. -/
  lim : BitPos
  /-- Index of the next bit to read. -/
  cur : BitPos
  deriving DecidableEq, Repr

/-- The Arithmetic Decoder's registers (R33). -/
structure ArithDecoder where
  /-- Width of the current interval. -/
  rng : Word
  /-- Offset of the coded value inside the interval. -/
  code : Word
  deriving DecidableEq, Repr

/-- The header registers (R34). -/
structure Header where
  width : Word
  height : Word
  channels : Byte
  depth : Byte
  flags : Byte
  chorder : Byte
  frames : Word
  metalen : Word
  deriving DecidableEq, Repr

/-- The sequencer's registers and the plane descriptors (R35, R39). -/
structure Sequencer where
  /-- The sequencer state (R41). -/
  seq : Seq
  /-- Plane index 0 .. 4. -/
  p : BitVec 3
  /-- Pass index 0 .. 9. -/
  pi : BitVec 4
  /-- Column of the pixel in the current pass. -/
  x : Word
  /-- Row of the pixel in the current pass. -/
  y : Word
  /-- Number of completed planes 0 .. 4. -/
  planesDone : BitVec 3
  /-- `pl_w[0..3]`: the width each plane was decoded with. -/
  plW : Vector Word 4
  /-- `pl_h[0..3]`: the height each plane was decoded with. -/
  plH : Vector Word 4
  deriving DecidableEq, Repr

/-- One entry of the node arena (R37). -/
structure Node where
  /-- True: a split node; false: a leaf. -/
  split : Bool
  /-- The split property id, u3. -/
  prop : BitVec 3
  /-- The split threshold, i32. -/
  thr : Word
  /-- Arena index of the left child. -/
  left : NodeIdx
  /-- Arena index of the right child. -/
  right : NodeIdx
  /-- The 33 counters of a leaf (layout of R170). -/
  ctr : Vector Ctr 33
  deriving DecidableEq, Repr

/-- The Context Model's registers and counter files (R36, R37, R40). -/
structure ContextModel where
  /-- `META[0..40]`. -/
  metaCtx : Vector Ctr 41
  /-- The node arena `NODE`. An index that is not listed reads as `Node.fresh` (log entry 8). -/
  nodes : Store Node
  /-- Number of arena entries in use. -/
  nn : BitVec 14
  /-- Depth of the node being decoded. -/
  depth : BitVec 4
  /-- Stack pointer of `TS`. -/
  sp : BitVec 4
  /-- `TS[0..11]`: the pending splits (index, depth). -/
  ts : Vector (NodeIdx × BitVec 4) 12
  deriving DecidableEq, Repr

/-- The machine's state: the block, the two spaces it shares with the host, and the model's own
fields (the last five). -/
structure State where
  /-- The host register file (R21). -/
  host : HostRegs
  /-- `base`, `lim`, `cur` (R32). -/
  br : BitReader
  /-- `rng`, `code` (R33). -/
  ac : ArithDecoder
  /-- The header registers (R34). -/
  hdr : Header
  /-- `seq`, `p`, `pi`, `x`, `y`, `pl_w`, `pl_h`, `planes_done` (R35, R39). -/
  sq : Sequencer
  /-- `META`, `NODE`, `nn`, `depth`, `sp`, `TS` (R36, R37, R40). -/
  cm : ContextModel
  /-- The plane store (R38), by `planeKey`. A sample that is listed carries the *written* mark (R42). -/
  plane : Store Sample
  /-- The INPUT space (R61), by byte address: the bytes WRITE_INPUT has written. -/
  input : Store Byte
  /-- The OUTPUT space (R63), by word address: the words of the last image assembled. -/
  output : Store Sample
  /-- MODEL: the values INPUT bytes had before a WRITE_INPUT inside the region of the running session
  (U2; log entry 6). -/
  stale : List Host.Cell
  /-- MODEL: what happens next (log entry 1). -/
  inputs : List Issue
  /-- MODEL: the value the last single operation returned (log entry 9). -/
  ret : List Int
  /-- MODEL: the value the host's last read returned (log entry 9). -/
  busData : Word
  /-- MODEL: how many free values have been drawn (log entries 5 to 7). -/
  freeCount : Nat
  deriving DecidableEq, Repr

/-- The reasons a step can fault. No run of the host's moves from reset reaches one (R20, R38, R67); each
is safe: the model stops where the spec gives no value, and proves nothing about the rest of the run. -/
inductive Fault where
  /-- Raised by a read of a plane sample that nothing has written in this session (R38). Safe. -/
  | unwrittenSample (p y x : Nat)
  /-- Raised by an access to a plane or a plane descriptor numbered above 3 (R38, R39). Safe. -/
  | noSuchPlane (p : Nat)
  /-- Raised by an access to a node arena entry above 8190 (R37). Safe. -/
  | noSuchNode (n : Nat)
  /-- Raised by an access to a counter that META or a counter set does not have (R36, R170). Safe. -/
  | noSuchCounter (k : CtrRef)
  /-- Raised by an access to a tree stack entry above 11 (R40). Safe. -/
  | noSuchStackEntry (i : Nat)
  /-- Raised where a rule asks for the parameters of a pass that is not in the pass list (R230). Safe. -/
  | noSuchPass (pi : Nat)
  /-- Raised where a property id is 6 or 7, which no stored node has (R184). Safe. -/
  | noSuchProperty (prop : Nat)
  /-- Raised by `tree_lookup` on an arena whose links form a cycle: the walk of R186 would not end. Safe. -/
  | walkNeverEnds
  /-- Raised by `plane_loop` when its bound on the number of turns is used up, which R244 excludes. Safe. -/
  | loopNeverEnds
  deriving DecidableEq, Repr

/-- The reasons a step can be refused. -/
inductive Refusal where
  /-- Raised by an arm of `exec` for an instruction that has no meaning yet. Safe. -/
  | notModelled (mnemonic : String)
  /-- Raised by `step` for a queue entry that is no call of an element or operation. Safe. -/
  | undecodable (e : DecodeError)
  deriving DecidableEq, Repr

/-- What an arena entry holds before it is allocated: a leaf whose counters are all `PROB_INIT`
(R187; log entry 8). -/
def Node.fresh : Node :=
  { split := false, prop := 0, thr := 0, left := 0, right := 0, ctr := Vector.replicate 33 Config.probInit }

/-- The host registers after reset (R46). -/
def HostRegs.reset : HostRegs :=
  { status := 0, inHandle := 0, inSize := 0, errCode := 0, errInfo := 0, outWidth := 0, outHeight := 0,
    outChannels := 0, outDepth := 0, bitsLo := 0, bitsHi := 0 }

/-- The machine right after reset (R46): `seq` and the host registers as stated; the working registers,
META, NODE, PLANE and OUTPUT, which R46 leaves unspecified, at the values of log entry 8. -/
def State.reset : State :=
  { host := HostRegs.reset
    br := { base := 0, lim := 0, cur := 0 }
    ac := { rng := 0, code := 0 }
    hdr := { width := 0, height := 0, channels := 0, depth := 0, flags := 0, chorder := 0, frames := 0, metalen := 0 }
    sq := { seq := .idle, p := 0, pi := 0, x := 0, y := 0, planesDone := 0,
            plW := Vector.replicate 4 0, plH := Vector.replicate 4 0 }
    cm := { metaCtx := Vector.replicate 41 Config.probInit, nodes := [], nn := 0, depth := 0, sp := 0,
            ts := Vector.replicate 12 (0, 0) }
    plane := []
    input := []
    output := []
    stale := []
    inputs := []
    ret := []
    busData := 0
    freeCount := 0 }

end Sys2Proof.Machine
end

