-- ==== Sys2Proof/Machine/Flags.lean ====
section
/-! DEFINITION. The flags. The block has no condition codes; its only flag-like state is STATUS (R24, R42)
and the *written* mark of a plane sample (R38), which is the sample's presence in the store. -/

namespace Sys2Proof.Machine

/-- STATUS after reset (R24, R46). -/
abbrev statusIdle : BitVec 3 := 0b000

/-- STATUS while a session runs: BUSY (R24, R45). -/
abbrev statusBusy : BitVec 3 := 0b001

/-- STATUS after success: DONE (R24, R275). -/
abbrev statusDone : BitVec 3 := 0b010

/-- STATUS after an error: DONE and ERR (R24, R309). -/
abbrev statusErr : BitVec 3 := 0b110

/-- STATUS bit 0, BUSY: a session is running (R24). -/
def State.busy (s : State) : Bool := s.host.status.getLsbD 0

/-- STATUS bit 1, DONE: a session has ended and none has started since (R24). -/
def State.done (s : State) : Bool := s.host.status.getLsbD 1

/-- STATUS bit 2, ERR: the session that ended did so with an error (R24). -/
def State.err (s : State) : Bool := s.host.status.getLsbD 2

end Sys2Proof.Machine
end

