-- ==== Sys2Proof/Machine/Ops.lean ====
section
/-! DEFINITION. The shared operations over state: what an operation answers, the sparse stores, the free
values, taking an error (R309), starting a session (R45), the host registers and the counters. -/

namespace Sys2Proof.Machine

/-! ### What an operation answers -/

/-- The answer of an operation of the block: a value and the state after it; or a session that has ended
because a `raise` was executed, after which nothing of the operation runs (R309); or a fault. -/
inductive Res (α : Type) where
  | ok (a : α) (s : State)
  | ended (s : State)
  | fault (f : Fault)

/-- Sequencing: the next operation runs on the state the first one left; an end or a fault stops it. -/
def Res.bind {α β : Type} (r : Res α) (k : α → State → Res β) : Res β :=
  match r with
  | .ok a s => k a s
  | .ended s => .ended s
  | .fault f => .fault f

/-- A computation that reads the state and writes nothing, as an operation. -/
def Res.ofExcept {α : Type} (r : Except Fault α) (s : State) : Res α :=
  match r with
  | .ok a => .ok a s
  | .error f => .fault f

/-- The outcome of an instruction that returns no value. A taken error is a next state (R309). -/
def Res.outcome {α : Type} (r : Res α) : Host.Outcome State Fault Refusal :=
  match r with
  | .ok _ s => .next s
  | .ended s => .next s
  | .fault f => .fault f

/-- The outcome of an instruction that returns a value: it is latched in `ret` (log entry 9). -/
def Res.outcomeRet {α : Type} (r : Res α) (f : α → List Int) : Host.Outcome State Fault Refusal :=
  match r with
  | .ok a s => .next { s with ret := f a }
  | .ended s => .next s
  | .fault f => .fault f

/-! ### Sparse stores -/

/-- What a store holds at a key. -/
def Store.get? {α : Type} : Store α → Nat → Option α
  | [], _ => none
  | (k, v) :: t, a => if a = k then some v else Store.get? t a

/-- The store with `v` at key `a`: the one place a store is written. Keeps the keys strictly rising. -/
def Store.put {α : Type} : Store α → Nat → α → Store α
  | [], a, v => [(a, v)]
  | (k, w) :: t, a, v =>
    if a < k then (a, v) :: (k, w) :: t
    else if a = k then (a, v) :: t
    else (k, w) :: Store.put t a v

/-- The store with nothing at key `a`. -/
def Store.remove {α : Type} : Store α → Nat → Store α
  | [], _ => []
  | (k, w) :: t, a => if a = k then t else (k, w) :: Store.remove t a

/-- Every key of the store is at least `b`, and the keys rise strictly. -/
def Store.risesFrom {α : Type} : Nat → Store α → Bool
  | _, [] => true
  | b, (k, _) :: t => decide (b ≤ k) && Store.risesFrom (k + 1) t

/-- The canonical form: keys strictly rising. -/
def Store.canonical {α : Type} (m : Store α) : Bool := Store.risesFrom 0 m

/-- The canonical form of every memory of the state; a `Node.fresh` entry is not listed, since that is what
an unlisted index reads as. -/
def State.memoryWf (s : State) : Bool :=
  Store.canonical s.input && Store.canonical s.output && Store.canonical s.plane &&
    Store.canonical s.cm.nodes && s.cm.nodes.all fun e => e.2 != Node.fresh

/-! ### Errors and sessions -/

/-- The end of the input (R303). -/
abbrev truncated : Err := ⟨.truncatedInput, 0⟩

/-- TAKING AN ERROR, the assignments of R309: the error registers, BITS from the cursor, STATUS = DONE and
ERR, and the sequencer in DONE_ERR. Nothing else is written: the planes, the tree, `rng`, `code` and the other
working registers, which R309 calls abandoned and no longer defined (U4), keep their last values. That is the
model's choice (DESIGN CHOICE, log entry 26; unsafe). -/
def takeError (e : Err) (s : State) : State :=
  { s with
    host := { s.host with
      errCode := e.kind.code
      errInfo := e.info
      bitsLo := s.br.cur.extractLsb' 0 32
      bitsHi := s.br.cur.extractLsb' 32 3
      status := statusErr }
    sq := { s.sq with seq := .doneErr } }

/-- `raise E(info)` inside an operation: the error is taken and nothing after it executes (R309). -/
def raiseErr {α : Type} (e : Err) (s : State) : Res α := .ended (takeError e s)

/-- R26, R131: the number of input bits that IN_SIZE gives, read as i32; 0 when it is not positive. -/
def limitOf (inSize : Word) : BitPos :=
  if 0 < inSize.toInt then BitVec.ofNat 35 (8 * inSize.toNat) else 0

/-- Session initialisation, the assignments of R45. Beside them, what R45 says holds no value at this point
and carries a mark in the model is cleared: the *written* marks of PLANE (R38), and the record of INPUT
bytes changed under a running session (R68 (a): START acquires). There is no return from an error: this and
reset are the only ways out of DONE_ERR (R312). -/
def startSession (s : State) : State :=
  { s with
    host := { s.host with
      status := statusBusy, errCode := 0, errInfo := 0, outWidth := 0, outHeight := 0,
      outChannels := 0, outDepth := 0, bitsLo := 0, bitsHi := 0 }
    br := { base := s.host.inHandle, lim := limitOf s.host.inSize, cur := 0 }
    sq := { s.sq with seq := .hdrMagic, p := 0, planesDone := 0 }
    cm := { s.cm with nn := 0 }
    plane := []
    stale := [] }

/-- The block back in its reset state (R340, R46). The INPUT space and the input queue are the host's and
stay, as do the model's latches and its count of free values. -/
def resetBlock (s : State) : State :=
  { State.reset with
    input := s.input, inputs := s.inputs, ret := s.ret, busData := s.busData, freeCount := s.freeCount }

/-! ### The host register file -/

/-- A read of `HR[n]` (R21 to R31, R289): no side effect; CTRL and every number above 13 read 0. -/
def readHostReg (s : State) : Nat → Word
  | 0 => Config.versionId
  | 1 => 0
  | 2 => s.host.status.setWidth 32
  | 3 => s.host.inHandle
  | 4 => s.host.inSize
  | 5 => 0
  | 6 => s.host.errCode.setWidth 32
  | 7 => s.host.errInfo
  | 8 => s.host.outWidth
  | 9 => s.host.outHeight
  | 10 => s.host.outChannels
  | 11 => s.host.outDepth
  | 12 => s.host.bitsLo
  | 13 => s.host.bitsHi.setWidth 32
  | _ => 0

/-- A write of CTRL (R23, R286, R287): bit 0 = 1 starts a session unless one is running; bits 31:1 are
ignored. -/
def writeCtrl (v : Word) (s : State) : State :=
  if v.getLsbD 0 then (if s.busy then s else startSession s) else s

/-- A write of `HR[n]` (R21, R25, R26, R289): a write to a read-only or absent register is ignored. -/
def writeHostReg (n : Nat) (v : Word) (s : State) : State :=
  match n with
  | 1 => writeCtrl v s
  | 3 => { s with host := { s.host with inHandle := v } }
  | 4 => { s with host := { s.host with inSize := v } }
  | _ => s

/-! ### The INPUT and OUTPUT spaces -/

/-- The byte the INPUT space holds at an address: what WRITE_INPUT wrote there, else the platform's. -/
def storedByte (s : State) (a : Nat) : Byte :=
  (Store.get? s.input a).getD (Config.platformByte (BitVec.ofNat 32 a))

/-- The values an INPUT address had before a write under the running session (U2). -/
def staleValues (s : State) (a : Nat) : List Byte := (s.stale.filter fun c => c.1 == a).map (·.2)

/-- The state after one free value has been drawn. -/
def drawn (s : State) : State := { s with freeCount := s.freeCount + 1 }

/-- A read of one INPUT byte by the session (R61): the byte the space holds; if the host wrote it while
BUSY, one of the values it has had since START, which one being free (U2); at an address outside the u32
space, a free byte (U1). -/
def inputByte (a : Nat) (s : State) : Byte × State :=
  if 2 ^ 32 ≤ a then (Config.freeByte s.freeCount, drawn s)
  else
    match staleValues s a with
    | [] => (storedByte s a, s)
    | old :: olds =>
      let had := storedByte s a :: old :: olds
      (had.getD (Config.freeChoice s.freeCount % had.length) (storedByte s a), drawn s)

/-- Whether an INPUT address lies in the region of the running session (R61, R71). -/
def inSessionRegion (s : State) (a : Nat) : Bool :=
  s.busy && decide (s.br.base.toNat ≤ a) && decide (a < s.br.base.toNat + s.br.lim.toNat / 8)

/-- The host writes one byte of the INPUT space (R61, R285). Inside the region of a running session the
byte's former value stays readable beside the new one (U2). -/
def writeInputByte (a : Word) (b : Byte) (s : State) : State :=
  { s with
    input := Store.put s.input a.toNat b
    stale := if inSessionRegion s a.toNat then (a.toNat, storedByte s a.toNat) :: s.stale else s.stale }

/-- The number of OUTPUT words the last session left specified: `W·H·C` after success, else none (R63). -/
def specifiedWords (s : State) : Nat :=
  if s.host.status = statusDone then s.host.outWidth.toNat * s.host.outHeight.toNat * s.host.outChannels.toNat else 0

/-- A read of one OUTPUT word by the host (R63): a specified word of the last image, else a free value (U3). -/
def outputWord (a : Nat) (s : State) : Sample × State :=
  if a < specifiedWords s then
    match Store.get? s.output a with
    | some w => (w, s)
    | none => (Config.freeWord s.freeCount, drawn s)
  else (Config.freeWord s.freeCount, drawn s)

/-! ### The plane store, the node arena and the counters -/

/-- The place of sample (p, y, x) in the plane store. Not observable (R38). -/
def planeKey (p y x : Nat) : Nat := (p * 2 ^ 32 + y) * 2 ^ 32 + x

/-- A read of `PLANE[p][y][x]` (R38): a sample that nothing has written in this session faults. -/
def sampleAt (s : State) (p y x : Nat) : Except Fault Nat :=
  if p < 4 then
    match Store.get? s.plane (planeKey p y x) with
    | some v => .ok v.toNat
    | none => .error (.unwrittenSample p y x)
  else .error (.noSuchPlane p)

/-- A write of `PLANE[p][y][x]` (R38, R241). R38 has samples with y < `H` and x < `W` only. At a position outside the
image, where only RESID or `decode_pixel` called alone can stand, the sample is stored apart from the image's,
without a fault. That is the model's choice (DESIGN CHOICE, log entry 27; unsafe). -/
def writeSample (p y x : Nat) (v : Sample) (s : State) : Res Unit :=
  if p < 4 then .ok () { s with plane := Store.put s.plane (planeKey p y x) v }
  else .fault (.noSuchPlane p)

/-- `NODE[n]` (R37); an entry nothing has written reads as `Node.fresh`. -/
def nodeAt (s : State) (n : Nat) : Node := (Store.get? s.cm.nodes n).getD Node.fresh

/-- The state with `NODE[n]` = `v`; a `Node.fresh` entry is left out of the list. -/
def setNode (n : Nat) (v : Node) (s : State) : State :=
  { s with cm := { s.cm with
      nodes := if v = Node.fresh then Store.remove s.cm.nodes n else Store.put s.cm.nodes n v } }

/-- A write of `NODE[n]` (R37). -/
def writeNode (n : Nat) (v : Node) (s : State) : Res Unit :=
  if n < Config.maxNodes then .ok () (setNode n v s) else .fault (.noSuchNode n)

/-- The value of a counter (R36, R37), if there is such a counter. R155 and R170 have counters of leaves of the current
tree; an entry not in use (n >= `nn`) or a split node, which only an operation called alone can name, answers the
counter it holds (DESIGN CHOICE, log entry 30; unsafe). -/
def ctrAt (k : CtrRef) (s : State) : Option Ctr :=
  match k with
  | .metaCtr i => s.cm.metaCtx[i]?
  | .leafCtr n j => if n.toNat < Config.maxNodes then (nodeAt s n.toNat).ctr[j]? else none

/-- The state with a counter replaced; in an entry that is no leaf of the current tree too (log entry 30). -/
def setCtr (k : CtrRef) (v : Ctr) (s : State) : State :=
  match k with
  | .metaCtr i => { s with cm := { s.cm with metaCtx := s.cm.metaCtx.setIfInBounds i v } }
  | .leafCtr n j =>
    setNode n.toNat { nodeAt s n.toNat with ctr := (nodeAt s n.toNat).ctr.setIfInBounds j v } s

/-- All counters of META set to `PROB_INIT` (R181). -/
def resetMeta (s : State) : State :=
  { s with cm := { s.cm with metaCtx := Vector.replicate 41 Config.probInit } }

end Sys2Proof.Machine
end

