-- ==== Sys2Proof/Machine/HostCommands.lean ====
section
/-! DEFINITION. The host commands (spec/47_host_commands.md): the meanings of the command rows. What a read
returns is latched in `busData` (log entry 9). The block has one mode, so no command is privileged (R315). -/

namespace Sys2Proof.Machine

/-- The value a host read returns. -/
def onBus (v : Word) (s : State) : State := { s with busData := v }

/-- The meaning of DECODE (R286): a write of CTRL with bit 0 = 1. -/
def execDecode (hi : BitVec 31) (s : State) : Host.Outcome State Fault Refusal := .next (writeCtrl (hi ++ 1#1) s)

/-- The meaning of START_WHILE_BUSY (R287): the same write; while BUSY it is ignored. -/
def execStartWhileBusy (hi : BitVec 31) (s : State) : Host.Outcome State Fault Refusal :=
  .next (writeHostReg 1 (hi ++ 1#1) s)

/-- The meaning of CTRL_NOP (R23): a write of CTRL with bit 0 = 0 does nothing. -/
def execCtrlNop (hi : BitVec 31) (s : State) : Host.Outcome State Fault Refusal := .next (writeCtrl (hi ++ 0#1) s)

/-- The meaning of VERSION (R288, R22). -/
def execVersion (s : State) : Host.Outcome State Fault Refusal := .next (onBus (readHostReg s 0) s)

/-- The meaning of WRITE_IN_HANDLE (R25). -/
def execWriteInHandle (v : Word) (s : State) : Host.Outcome State Fault Refusal := .next (writeHostReg 3 v s)

/-- The meaning of WRITE_IN_SIZE (R26). -/
def execWriteInSize (v : Word) (s : State) : Host.Outcome State Fault Refusal := .next (writeHostReg 4 v s)

/-- The meaning of READ_REG (R289, R21). -/
def execReadReg (n : Nat) (s : State) : Host.Outcome State Fault Refusal := .next (onBus (readHostReg s n) s)

/-- The meaning of WRITE_RO_REG (R289, R21): the write is ignored. -/
def execWriteRoReg (n : Nat) (v : Word) (s : State) : Host.Outcome State Fault Refusal :=
  .next (writeHostReg n v s)

/-- The meaning of READ_OUTPUT (R63): a word the host has no right to interpret is a free value (U3). -/
def execReadOutput (a : BitVec 26) (s : State) : Host.Outcome State Fault Refusal :=
  .next (onBus ((outputWord a.toNat s).1.setWidth 32) (outputWord a.toNat s).2)

/-- The meaning of WRITE_INPUT (R61, R71). -/
def execWriteInput (a : Word) (b : Byte) (s : State) : Host.Outcome State Fault Refusal :=
  .next (writeInputByte a b s)

/-- The meaning of RESET (R340, R46). -/
def execReset (s : State) : Host.Outcome State Fault Refusal := .next (resetBlock s)

end Sys2Proof.Machine
end

