-- ==== Sys2Proof/Machine/BitReader.lean ====
section
/-! DEFINITION. The Bit Reader (spec/40_bit_reader.md): `read_bit`, `read_uint`, `read_varint` and
`skip_bytes`, and the meanings of their rows. It is the only unit that reads INPUT and writes `cur` (R130). -/

namespace Sys2Proof.Machine

/-- `read_bit()`, R132: the test of the limit comes before the memory read; bit `cur` is bit
`7 - (cur mod 8)` of byte `cur div 8` of the region (R62). -/
def readBit (s : State) : Res Bool :=
  if s.br.lim ≤ s.br.cur then raiseErr truncated s
  else
    let r := inputByte (s.br.base.toNat + (s.br.cur >>> 3).toNat) s
    .ok (r.1.getLsbD (7 - (s.br.cur &&& 7).toNat)) { r.2 with br := { r.2.br with cur := s.br.cur + 1 } }

/-- The loop of R133: `n` more bits appended below `v`. -/
def readUintFrom : Nat → Word → State → Res Word
  | 0, v, s => .ok v s
  | n + 1, v, s => (readBit s).bind fun b s => readUintFrom n ((v <<< 1) ||| BitVec.setWidth 32 (BitVec.ofBool b)) s

/-- `read_uint(n)`, R133: the next n bits, the first the most significant. -/
def readUint (n : Nat) (s : State) : Res Word := readUintFrom n 0 s

/-- The loop of R134 with `k` bytes left to read; `v` is the exact value of the groups read so far. -/
def readVarintFrom : Nat → Nat → State → Res Word
  | 0, _, s => raiseErr ⟨.malformedVarint, 1⟩ s
  | k + 1, v, s =>
    (readUint 8 s).bind fun b s =>
      let v' := v * 128 + (b &&& 0x7F).toNat
      if 0xFFFFFFFF < v' then raiseErr ⟨.malformedVarint, 2⟩ s
      else if b &&& 0x80 = 0 then .ok (BitVec.ofNat 32 v') s
      else readVarintFrom k v' s

/-- `read_varint()`, R134: at most five bytes; the overflow test comes before the continuation test. -/
def readVarint (s : State) : Res Word := readVarintFrom Config.varintMaxBytes 0 s

/-- `skip_bytes(n)`, R135: the whole length is tested, exactly, before the cursor moves. -/
def skipBytes (n : Word) (s : State) : Res Unit :=
  if s.br.lim.toNat < s.br.cur.toNat + 8 * n.toNat then raiseErr truncated s
  else .ok () { s with br := { s.br with cur := BitVec.ofNat 35 (s.br.cur.toNat + 8 * n.toNat) } }

/-- The meaning of `read_bit` (R132). -/
def execReadBit (s : State) : Host.Outcome State Fault Refusal := (readBit s).outcomeRet fun b => [b.toNat]

/-- The meaning of `read_uint` (R133). -/
def execReadUint (n : Nat) (s : State) : Host.Outcome State Fault Refusal :=
  (readUint n s).outcomeRet fun v => [v.toNat]

/-- The meaning of `read_varint` (R134). -/
def execReadVarint (s : State) : Host.Outcome State Fault Refusal := (readVarint s).outcomeRet fun v => [v.toNat]

/-- The meaning of `skip_bytes` (R135). -/
def execSkipBytes (n : Word) (s : State) : Host.Outcome State Fault Refusal := (skipBytes n s).outcome

end Sys2Proof.Machine
end

