-- ==== Sys2Proof/Machine/Operands.lean ====
section
/-! DEFINITION. The operand forms: the named fields of the header registers (R34), the pass parameters
(R230 to R233), the positions of a pass (R234), and the values a pixel is decoded from: its neighbours, its
ahead neighbour, its prediction and its properties (R236 to R240). All are exact arithmetic (R35, R160). -/

namespace Sys2Proof.Machine

/-! ### Header fields (R34) -/

/-- `W` = `h_width`. -/
def State.W (s : State) : Nat := s.hdr.width.toNat

/-- `H` = `h_height`. -/
def State.H (s : State) : Nat := s.hdr.height.toNat

/-- `C` = `h_channels`. -/
def State.C (s : State) : Nat := s.hdr.channels.toNat

/-- `D` = `h_depth`. -/
def State.D (s : State) : Nat := s.hdr.depth.toNat

/-- `interlaced` = `h_flags[0]`. -/
def State.interlaced (s : State) : Bool := s.hdr.flags.getLsbD 0

/-- `has_meta` = `h_flags[1]`. -/
def State.hasMeta (s : State) : Bool := s.hdr.flags.getLsbD 1

/-- `tid` = `h_flags[3:2]`. -/
def tidOf (flags : Byte) : BitVec 2 := flags.extractLsb' 2 2

/-- `tid` of the header registers. -/
def State.tid (s : State) : BitVec 2 := tidOf s.hdr.flags

/-- `order[k]` of the header registers (R97). -/
def State.order (s : State) (k : Nat) : PlaneNo := orderField s.hdr.chorder k

/-- `2^D - 1`, the largest sample. With a depth outside 1 .. 16 it is the model's choice (DESIGN CHOICE, log entry 28;
unsafe). -/
def State.maxSample (s : State) : Nat := 2 ^ s.D - 1

/-- `MID` = 2^(D - 1) (R236), for the depths 1 .. 16. With a depth of 0, where it is 1, or above 16, which only an
operation called alone can meet, it is the model's choice (DESIGN CHOICE, log entry 28; unsafe). -/
def State.mid (s : State) : Nat := 2 ^ (s.D - 1)

/-! ### Passes -/

/-- The kinds of pass (R230): raster, vertical, horizontal. -/
inductive PassKind where
  | R
  | V
  | H
  deriving DecidableEq, Repr

/-- The parameters of a pass (R230). -/
structure Pass where
  kind : PassKind
  x0 : Nat
  y0 : Nat
  stepx : Nat
  stepy : Nat
  dx : Nat
  dy : Nat
  deriving DecidableEq, Repr

/-- The nine interlaced passes (R233). -/
def interlacedPasses : List Pass :=
  [ ⟨.R, 0, 0, 16, 16, 16, 16⟩,
    ⟨.V, 0, 8, 16, 16, 16, 8⟩, ⟨.H, 8, 0, 16, 8, 8, 8⟩,
    ⟨.V, 0, 4, 8, 8, 8, 4⟩, ⟨.H, 4, 0, 8, 4, 4, 4⟩,
    ⟨.V, 0, 2, 4, 4, 4, 2⟩, ⟨.H, 2, 0, 4, 2, 2, 2⟩,
    ⟨.V, 0, 1, 2, 2, 2, 1⟩, ⟨.H, 1, 0, 2, 1, 1, 1⟩ ]

/-- The pass list by mode: one raster pass (R232) or the nine interlaced passes (R233). -/
def passList (interlaced : Bool) : List Pass :=
  if interlaced then interlacedPasses else [⟨.R, 0, 0, 1, 1, 1, 1⟩]

/-- The parameters of pass `pi` (R230), if the mode has such a pass. -/
def passOf (interlaced : Bool) (pi : Nat) : Option Pass := (passList interlaced)[pi]?

/-- The parameters of the current pass. -/
def currentPass (s : State) : Except Fault Pass :=
  match passOf s.interlaced s.sq.pi.toNat with
  | some q => .ok q
  | none => .error (.noSuchPass s.sq.pi.toNat)

/-- A pass has a position inside a W by H image (R234). -/
def Pass.nonempty (q : Pass) (W H : Nat) : Bool := decide (q.x0 < W) && decide (q.y0 < H)

/-- The position after (x, y) in the pass (R234). -/
def Pass.advance (q : Pass) (W x y : Nat) : Nat × Nat :=
  if W ≤ x + q.stepx then (q.x0, y + q.stepy) else (x + q.stepx, y)

/-- The columns of one row of a pass, ascending (R234): `x0, x0 + stepx, ...` below `W`. -/
def Pass.columns (q : Pass) (W : Nat) : List Nat :=
  (List.range ((W - q.x0 + q.stepx - 1) / q.stepx)).map fun i => q.x0 + i * q.stepx

/-- The rows of a pass, ascending (R234): `y0, y0 + stepy, ...` below `H`. -/
def Pass.rows (q : Pass) (H : Nat) : List Nat :=
  (List.range ((H - q.y0 + q.stepy - 1) / q.stepy)).map fun j => q.y0 + j * q.stepy

/-- The positions (x, y) of a pass in a W by H image in raster order (R234). -/
def Pass.positions (q : Pass) (W H : Nat) : List (Nat × Nat) :=
  (q.rows H).flatMap fun y => (q.columns W).map fun x => (x, y)

/-! ### Neighbours -/

/-- The six neighbour values of a pixel (R237). -/
structure Neighbours where
  vW : Nat
  vN : Nat
  vNW : Nat
  vNE : Nat
  vNN : Nat
  vWW : Nat
  deriving DecidableEq, Repr

/-- vW, vN and vNW of the current pixel in a pass with lattice step (dx, dy), R237: a missing one is replaced
by a present one, and by `MID` only when there is none. -/
def nearNeighbours (s : State) (q : Pass) : Except Fault (Nat × Nat × Nat) :=
  let p := s.sq.p.toNat
  let x := s.sq.x.toNat
  let y := s.sq.y.toNat
  if q.dx ≤ x then
    if q.dy ≤ y then do
      let vW ← sampleAt s p y (x - q.dx)
      let vN ← sampleAt s p (y - q.dy) x
      let vNW ← sampleAt s p (y - q.dy) (x - q.dx)
      .ok (vW, vN, vNW)
    else do
      let vW ← sampleAt s p y (x - q.dx)
      .ok (vW, vW, vW)
  else if q.dy ≤ y then do
    let vN ← sampleAt s p (y - q.dy) x
    .ok (vN, vN, vN)
  else .ok (s.mid, s.mid, s.mid)

/-- The neighbours of the current pixel, R237: each read is guarded by a coordinate test. -/
def neighboursOf (s : State) : Except Fault Neighbours := do
  let q ← currentPass s
  let p := s.sq.p.toNat
  let x := s.sq.x.toNat
  let y := s.sq.y.toNat
  let near ← nearNeighbours s q
  let vNE ← if q.dy ≤ y ∧ x + q.dx < s.W then sampleAt s p (y - q.dy) (x + q.dx) else .ok near.2.1
  let vNN ← if 2 * q.dy ≤ y then sampleAt s p (y - 2 * q.dy) x else .ok near.2.1
  let vWW ← if 2 * q.dx ≤ x then sampleAt s p y (x - 2 * q.dx) else .ok near.1
  .ok ⟨near.1, near.2.1, near.2.2, vNE, vNN, vWW⟩

/-- The ahead neighbour `vA` of the current pixel, if `hasA` (R238). -/
def aheadOf (s : State) : Except Fault (Option Nat) := do
  let q ← currentPass s
  let p := s.sq.p.toNat
  let x := s.sq.x.toNat
  let y := s.sq.y.toNat
  match q.kind with
  | .R => .ok none
  | .V => if y + q.dy < s.H then (sampleAt s p (y + q.dy) x).map some else .ok none
  | .H => if x + q.dx < s.W then (sampleAt s p y (x + q.dx)).map some else .ok none

/-! ### Prediction and properties -/

/-- The middle one of three integers (R9). -/
def median3 (a b c : Int) : Int := max (min a b) (min (max a b) c)

/-- `clamp(v, lo, hi)` (R9). -/
def clamp (v lo hi : Int) : Int := if v < lo then lo else if hi < v then hi else v

/-- The neighbour on the known side of the gap of a pass (R239, R240): vN in a V pass, vW in an H pass. -/
def Neighbours.behind (nb : Neighbours) : PassKind → Nat
  | .V => nb.vN
  | _ => nb.vW

/-- The predictor, R239. -/
def predictFrom (kind : PassKind) (nb : Neighbours) (ahead : Option Nat) : Int :=
  match ahead with
  | some vA => (((nb.behind kind + vA) >>> 1 : Nat) : Int)
  | none => median3 nb.vW nb.vN ((nb.vW : Int) + nb.vN - nb.vNW)

/-- The property vector, R240. -/
def propertiesFrom (kind : PassKind) (nb : Neighbours) (ahead : Option Nat) : PropVec :=
  { p0 := (nb.vW : Int) - nb.vNW
    p1 := (nb.vNW : Int) - nb.vN
    p2 := (nb.vN : Int) - nb.vNE
    p3 := (nb.vNN : Int) - nb.vN
    p4 := (nb.vWW : Int) - nb.vW
    p5 := match ahead with
      | some vA => (nb.behind kind : Int) - vA
      | none => 0 }

/-- The prediction of the current pixel (R239). -/
def predictOf (s : State) : Except Fault Int := do
  let q ← currentPass s
  let nb ← neighboursOf s
  let a ← aheadOf s
  .ok (predictFrom q.kind nb a)

/-- The properties of the current pixel (R240). -/
def propertiesOf (s : State) : Except Fault PropVec := do
  let q ← currentPass s
  let nb ← neighboursOf s
  let a ← aheadOf s
  .ok (propertiesFrom q.kind nb a)

end Sys2Proof.Machine
end

