-- ==== Sys2Proof/Machine/HeaderParser.lean ====
section
/-! DEFINITION. The Header Parser (spec/44_header_parser.md): one operation per header element, and the
meanings of the element rows and of `parse_header`, `parse_magic`, `parse_flags`, `parse_chorder`. Each value
is checked as soon as it has been read (R200). The move to the next state is the sequencer's (R245). -/

namespace Sys2Proof.Machine

/-- `UnsupportedFeature(info)` (R302, R308). -/
def unsupported (info : Word) : Err := ⟨.unsupportedFeature, info⟩

/-- A write of the header registers. -/
def writeHeader (f : Header → Header) (s : State) : State := { s with hdr := f s.hdr }

/-- The loop of R201 over the expected bytes, `i` the index of the first. -/
def magicFrom : List Byte → Nat → State → Res Unit
  | [], _, s => .ok () s
  | m :: ms, i, s =>
    (readUint 8 s).bind fun b s =>
      if b = m.setWidth 32 then magicFrom ms (i + 1) s else raiseErr ⟨.badMagic, BitVec.ofNat 32 i⟩ s

/-- MAGIC, R201. Nothing is stored. -/
def parseMagic (s : State) : Res Unit := magicFrom Config.magic 0 s

/-- WIDTH, R202. -/
def parseWidth (s : State) : Res Unit :=
  (readVarint s).bind fun v s =>
    let s := writeHeader (fun h => { h with width := v }) s
    if v = 0 then raiseErr (unsupported 1) s else .ok () s

/-- HEIGHT, R203: zero before the product test; the product is exact. -/
def parseHeight (s : State) : Res Unit :=
  (readVarint s).bind fun v s =>
    let s := writeHeader (fun h => { h with height := v }) s
    if v = 0 then raiseErr (unsupported 2) s
    else if Config.maxPixels < s.W * s.H then raiseErr (unsupported 12) s
    else .ok () s

/-- CHANNELS, R204. -/
def parseChannels (s : State) : Res Unit :=
  (readUint 8 s).bind fun v s =>
    let s := writeHeader (fun h => { h with channels := v.setWidth 8 }) s
    if 1 ≤ s.C ∧ s.C ≤ Config.maxChannels then .ok () s else raiseErr (unsupported 3) s

/-- DEPTH, R205. -/
def parseDepth (s : State) : Res Unit :=
  (readUint 8 s).bind fun v s =>
    let s := writeHeader (fun h => { h with depth := v.setWidth 8 }) s
    if 1 ≤ s.D ∧ s.D ≤ Config.maxDepth then .ok () s else raiseErr (unsupported 4) s

/-- FLAGS, R206: the checks in this order, the first failure wins. -/
def parseFlags (s : State) : Res Unit :=
  (readUint 8 s).bind fun v s =>
    let s := writeHeader (fun h => { h with flags := v.setWidth 8 }) s
    if s.hdr.flags &&& 0xE0 ≠ 0 then raiseErr (unsupported 5) s
    else if s.hdr.flags &&& 0x10 ≠ 0 then raiseErr (unsupported 6) s
    else if 2 ≤ s.tid.toNat then raiseErr (unsupported 7) s
    else if s.tid = 1 ∧ s.C < 3 then raiseErr (unsupported 8) s
    else .ok () s

/-- The loop of R207 from `k` on, `n` values of `k` left; `seen` is the mask of planes already named. -/
def chorderLoop (channels : Nat) (chorder : Byte) : Nat → Nat → BitVec 4 → Bool
  | 0, _, _ => true
  | n + 1, k, seen =>
    let o := (orderField chorder k).toNat
    if k < channels then
      if channels ≤ o ∨ seen.getLsbD o then false
      else chorderLoop channels chorder n (k + 1) (seen ||| (1#4 <<< o))
    else if o ≠ 0 then false
    else chorderLoop channels chorder n (k + 1) seen

/-- CHORDER, R207. -/
def parseChorder (s : State) : Res Unit :=
  (readUint 8 s).bind fun v s =>
    let s := writeHeader (fun h => { h with chorder := v.setWidth 8 }) s
    if chorderLoop s.C s.hdr.chorder 4 0 0 then .ok () s else raiseErr (unsupported 9) s

/-- NFRAMES, R208. -/
def parseFrames (s : State) : Res Unit :=
  (readVarint s).bind fun v s =>
    let s := writeHeader (fun h => { h with frames := v }) s
    if v = 0 then raiseErr (unsupported 10) s
    else if Config.maxFrames < v.toNat then raiseErr (unsupported 11) s
    else .ok () s

/-- METALEN, R209: present, and read, only if `has_meta`. -/
def parseMetalen (s : State) : Res Unit :=
  if s.hasMeta then
    (readVarint s).bind fun v s => .ok () (writeHeader (fun h => { h with metalen := v }) s)
  else .ok () s

/-- METADATA, R209: skipped unread, only if `has_meta`. -/
def parseMetadata (s : State) : Res Unit := if s.hasMeta then skipBytes s.hdr.metalen s else .ok () s

/-- The whole of state HDR_META, R209. -/
def parseMeta (s : State) : Res Unit := (parseMetalen s).bind fun _ s => parseMetadata s

/-- The header elements in stream order, R200. -/
def parseHeader (s : State) : Res Unit :=
  (parseMagic s).bind fun _ s =>
  (parseWidth s).bind fun _ s =>
  (parseHeight s).bind fun _ s =>
  (parseChannels s).bind fun _ s =>
  (parseDepth s).bind fun _ s =>
  (parseFlags s).bind fun _ s =>
  (parseChorder s).bind fun _ s =>
  (parseFrames s).bind fun _ s => parseMeta s

/-- The meaning of the element MAGIC (R93, R201). -/
def execMagic (s : State) : Host.Outcome State Fault Refusal := (parseMagic s).outcome

/-- The meaning of the element WIDTH (R94, R202). -/
def execWidth (s : State) : Host.Outcome State Fault Refusal := (parseWidth s).outcome

/-- The meaning of the element HEIGHT (R94, R203). -/
def execHeight (s : State) : Host.Outcome State Fault Refusal := (parseHeight s).outcome

/-- The meaning of the element CHANNELS (R95, R204). -/
def execChannels (s : State) : Host.Outcome State Fault Refusal := (parseChannels s).outcome

/-- The meaning of the element DEPTH (R95, R205). -/
def execDepth (s : State) : Host.Outcome State Fault Refusal := (parseDepth s).outcome

/-- The meaning of the element FLAGS (R96, R206). -/
def execFlags (s : State) : Host.Outcome State Fault Refusal := (parseFlags s).outcome

/-- The meaning of the element CHORDER (R97, R207). -/
def execChorder (s : State) : Host.Outcome State Fault Refusal := (parseChorder s).outcome

/-- The meaning of the element NFRAMES (R98, R208). -/
def execNframes (s : State) : Host.Outcome State Fault Refusal := (parseFrames s).outcome

/-- The meaning of the element METALEN (R98, R209). -/
def execMetalen (s : State) : Host.Outcome State Fault Refusal := (parseMetalen s).outcome

/-- The meaning of the element METADATA (R98, R209). -/
def execMetadata (s : State) : Host.Outcome State Fault Refusal := (parseMetadata s).outcome

/-- The meaning of `parse_header` (R200). -/
def execParseHeader (s : State) : Host.Outcome State Fault Refusal := (parseHeader s).outcome

/-- The meaning of `parse_magic` (R201). -/
def execParseMagic (s : State) : Host.Outcome State Fault Refusal := (parseMagic s).outcome

/-- The meaning of `parse_flags` (R206). -/
def execParseFlags (s : State) : Host.Outcome State Fault Refusal := (parseFlags s).outcome

/-- The meaning of `parse_chorder` (R207). -/
def execParseChorder (s : State) : Host.Outcome State Fault Refusal := (parseChorder s).outcome

end Sys2Proof.Machine
end

