-- ==== Sys2Proof/Machine/ImageAssembler.lean ====
section
/-! DEFINITION. The Image Assembler (spec/46_image_assembler.md) and the meaning of `assemble`. -/

namespace Sys2Proof.Machine

/-- The defensive check of the plane descriptors, R271, over the planes `q` = 0 .. C-1 given as a list. -/
def checkPlanes : List Nat → State → Res Unit
  | [], s => .ok () s
  | q :: qs, s =>
    match s.sq.plW[q]?, s.sq.plH[q]? with
    | some w, some h =>
      if w ≠ s.hdr.width ∨ h ≠ s.hdr.height then raiseErr ⟨.channelCountMismatch, 2⟩ s else checkPlanes qs s
    | _, _ => .fault (.noSuchPlane q)

/-- The samples `s[0 .. C-1]` of pixel (x, y) (R270). -/
def gatherSamples (s : State) (x y : Nat) : List Nat → Except Fault (List Nat)
  | [] => .ok []
  | q :: qs => do
    let v ← sampleAt s q y x
    let vs ← gatherSamples s x y qs
    .ok (v :: vs)

/-- The inverse channel transform, R272: with SUBG, plane 0 is added back to planes 1 and 2 mod 2^D. With
fewer than three planes, which R206 refuses, it is added to those there are (DESIGN CHOICE, log entry 29; unsafe). -/
def inverseTransform (tid : BitVec 2) (depth : Nat) (v : List Nat) : List Nat :=
  if tid = 1 then
    let g := v.getD 0 0
    v.mapIdx fun q a => if q = 1 ∨ q = 2 then (a + g) % 2 ^ depth else a
  else v

/-- The output channels of pixel (x, y) in channel order (R273). Two cases that only `assemble` called alone can meet
are the model's choice (DESIGN CHOICE; unsafe): a channel with `order[k]` >= `C`, which R207 refuses, is 0 (log entry
29), and with a depth above 16 a word keeps the low 16 bits (log entry 28). -/
def pixelChannels (s : State) (x y : Nat) : Except Fault (List Sample) := do
  let v ← gatherSamples s x y (List.range s.C)
  let t := inverseTransform s.tid s.D v
  .ok ((List.range s.C).map fun k => BitVec.ofNat 16 (t.getD (s.order k).toNat 0))

/-- The OUTPUT words of `n` pixels from pixel number `i` in raster order (pixel i is (i mod W, i div W)),
with their word addresses `i·C + k` = `(y·W + x)·C + k` (R274), ascending. Words past the
OUTPUT space of R43, which only a `W`·`H` above `MAX_PIXELS` gives and R203 refuses, are stored all the same (DESIGN
CHOICE, log entry 29; unsafe). -/
def outputWords (s : State) : Nat → Nat → Except Fault (Store Sample)
  | 0, _ => .ok []
  | n + 1, i => do
    let ch ← pixelChannels s (i % s.W) (i / s.W)
    let rest ← outputWords s n (i + 1)
    .ok (ch.mapIdx (fun k w => (i * s.C + k, w)) ++ rest)

/-- Completion, the assignments of R275. The working registers keep their last values, which U4 leaves open (DESIGN
CHOICE, log entry 26; unsafe). -/
def completeSession (s : State) : State :=
  { s with
    host := { s.host with
      outWidth := s.hdr.width
      outHeight := s.hdr.height
      outChannels := s.hdr.channels.setWidth 32
      outDepth := s.hdr.depth.setWidth 32
      bitsLo := s.br.cur.extractLsb' 0 32
      bitsHi := s.br.cur.extractLsb' 32 3
      status := statusDone }
    sq := { s.sq with seq := .doneOk } }

/-- `assemble()`, R270: the check, the output words, completion. The words are written all at once (R276);
the former words of OUTPUT are unspecified from here on (R63) and are dropped. -/
def assemble (s : State) : Res Unit :=
  if s.sq.planesDone.toNat ≠ s.C then raiseErr ⟨.channelCountMismatch, 1⟩ s
  else
    (checkPlanes (List.range s.C) s).bind fun _ s =>
      (Res.ofExcept (outputWords s (s.W * s.H) 0) s).bind fun out s =>
        .ok () (completeSession { s with output := out })

/-- The meaning of `assemble` (R270). -/
def execAssemble (s : State) : Host.Outcome State Fault Refusal := (assemble s).outcome

end Sys2Proof.Machine
end

