-- ==== Sys2Proof/Machine/ArithDecoder.lean ====
section
/-! DEFINITION. The Arithmetic Decoder and the adaptive counters (spec/41_arithmetic_decoder.md), and the
meanings of their rows. It reaches the input only through `read_uint` (R150). -/

namespace Sys2Proof.Machine

/-- `ac_init()`, R151. -/
def acInit (s : State) : Res Unit :=
  (readUint 32 { s with ac := { s.ac with rng := 0xFFFFFFFF } }).bind fun v s =>
    .ok () { s with ac := { s.ac with code := v } }

/-- One ACBYTE: the body of the loop of R153. The shift of `code` is mod 2^32. -/
def refill (s : State) : Res Unit :=
  (readUint 8 s).bind fun b s =>
    .ok () { s with ac := { rng := s.ac.rng <<< 8, code := (s.ac.code <<< 8) ||| b } }

/-- The loop of R153 with at most `fuel` tests of its condition. -/
def renormLoop : Nat → State → Res Unit
  | 0, s => raiseErr truncated s
  | fuel + 1, s => if s.ac.rng < Config.renormTop then (refill s).bind fun _ s => renormLoop fuel s else .ok () s

/-- `renormalise()`, R153. Each refill takes 8 of the bits that remain, so the loop tests its condition at
most once more than there are whole bytes left, and the bound is never used up. -/
def renormalise (s : State) : Res Unit := renormLoop ((s.br.lim.toNat - s.br.cur.toNat) / 8 + 1) s

/-- The split point of the interval, R152: exact in 32 bits, since `rng >> 12` < 2^20 and p < 2^12 (R160). -/
def splitBound (rng : Word) (p : Ctr) : Word := (rng >>> 12) * p.setWidth 32

/-- `decode_bit(p)`, R152: the lower part of the interval stands for 0, the upper for 1. -/
def decodeBit (p : Ctr) (s : State) : Res Bool :=
  let bound := splitBound s.ac.rng p
  if s.ac.code < bound then
    (renormalise { s with ac := { s.ac with rng := bound } }).bind fun _ s => .ok false s
  else
    (renormalise { s with ac := { rng := s.ac.rng - bound, code := s.ac.code - bound } }).bind fun _ s => .ok true s

/-- `ctr_update(p, bit)`, R154: 1/32 of the remaining distance towards the outcome, rounded down. -/
def ctrUpdate (p : Ctr) (bit : Bool) : Ctr :=
  if bit then BitVec.ofNat 12 (p.toNat - p.toNat >>> Config.adaptShift)
  else BitVec.ofNat 12 (p.toNat + (Config.probOne - p.toNat) >>> Config.adaptShift)

/-- `decode_ctx(K)`, R155: decode with the counter's present value, then update it with the outcome; the
counter is not updated if the decision raises. -/
def decodeCtx (k : CtrRef) (s : State) : Res Bool :=
  match ctrAt k s with
  | none => .fault (.noSuchCounter k)
  | some p => (decodeBit p s).bind fun b s => .ok b (setCtr k (ctrUpdate p b) s)

/-- The meaning of the element ACINIT (R99, R151). -/
def execAcinit (s : State) : Host.Outcome State Fault Refusal := (acInit s).outcome

/-- The meaning of the element ACBYTE (R99, R153): it stands in the stream only where `rng` < 2^24, and is one
turn of the loop of R153 (log entry 11). -/
def execAcbyte (s : State) : Host.Outcome State Fault Refusal :=
  if s.ac.rng < Config.renormTop then (refill s).outcome else .next s

/-- The meaning of `ac_init` (R151). -/
def execAcInitOp (s : State) : Host.Outcome State Fault Refusal := (acInit s).outcome

/-- The meaning of `decode_bit` (R152). -/
def execDecodeBit (p : Ctr) (s : State) : Host.Outcome State Fault Refusal :=
  (decodeBit p s).outcomeRet fun b => [b.toNat]

/-- The meaning of `renormalise` (R153). -/
def execRenormalise (s : State) : Host.Outcome State Fault Refusal := (renormalise s).outcome

/-- The meaning of `ctr_update` (R154): a function of its operands, the result is returned. -/
def execCtrUpdate (p : Ctr) (bit : Bool) (s : State) : Host.Outcome State Fault Refusal :=
  .next { s with ret := [(ctrUpdate p bit).toNat] }

/-- The meaning of `decode_ctx` (R155). -/
def execDecodeCtx (k : CtrRef) (s : State) : Host.Outcome State Fault Refusal :=
  (decodeCtx k s).outcomeRet fun b => [b.toNat]

end Sys2Proof.Machine
end

