-- ==== Sys2Proof/Machine/NearZero.lean ====
section
/-! DEFINITION. The near-zero integer decoder (spec/42_near_zero_integer.md) and the meanings of its row and
of its parts ZERO, SIGN, EXP, MANT. -/

namespace Sys2Proof.Machine

/-- The exponent loop of R171: EXP[e], EXP[e+1], ... up to the first 0; `more` is how many further
exponents are below the limit, so the error is raised as soon as the count reaches it. -/
def nzExponent (k : SetRef) (err : Err) : Nat → Nat → State → Res Nat
  | 0, e, s =>
    (decodeCtx (k.ctr (2 + e)) s).bind fun b s => if b then raiseErr err s else .ok e s
  | more + 1, e, s =>
    (decodeCtx (k.ctr (2 + e)) s).bind fun b s => if b then nzExponent k err more (e + 1) s else .ok e s

/-- The mantissa loop of R171: MANT[i-1] down to MANT[0] below `m`. -/
def nzMantissa (k : SetRef) : Nat → Nat → State → Res Nat
  | 0, m, s => .ok m s
  | i + 1, m, s => (decodeCtx (k.ctr (18 + i)) s).bind fun b s => nzMantissa k i (2 * m + b.toNat) s

/-- `nz_decode(K, limit, E)`, R171, for a limit of 1 .. 16. The limit 0 acts as 1, and a limit above 16 lets the
exponent run on to the counters after EXP[15]: only a depth that no session accepts gives such a limit, and that is
the model's choice (DESIGN CHOICE, log entry 28; unsafe). -/
def nzDecode (k : SetRef) (limit : Nat) (err : Err) (s : State) : Res Int :=
  (decodeCtx (k.ctr 0) s).bind fun zero s =>
    if zero then .ok 0 s
    else
      (decodeCtx (k.ctr 1) s).bind fun neg s =>
        (nzExponent k err (limit - 1) 0 s).bind fun e s =>
          (nzMantissa k e 1 s).bind fun m s => .ok (if neg then -(m : Int) else m) s

/-- The limit and the error of a near-zero integer by the set it is decoded with: THR has 16 and
`CorruptTree(3)` (R185), RESID has `h_depth` and `CorruptPixelValue(0)` (R104, R241); for a depth outside 1 .. 16
see log entry 28 (DESIGN CHOICE; unsafe). -/
def setLimit (k : SetRef) (s : State) : Nat × Err :=
  match k with
  | .thr => (Config.thrLimit, ⟨.corruptTree, 3⟩)
  | .leaf _ => (s.hdr.depth.toNat, ⟨.corruptPixelValue, 0⟩)

/-- The meaning of the element ZERO (R102 step 1, R171). -/
def execZero (k : SetRef) (s : State) : Host.Outcome State Fault Refusal :=
  (decodeCtx (k.ctr 0) s).outcomeRet fun b => [b.toNat]

/-- The meaning of the element SIGN (R102 step 2, R171). -/
def execSign (k : SetRef) (s : State) : Host.Outcome State Fault Refusal :=
  (decodeCtx (k.ctr 1) s).outcomeRet fun b => [b.toNat]

/-- The meaning of the element EXP[e] (R102 steps 3 and 4, R171): a 1 at the last exponent below the limit is
reserved and raises the caller's error (R105). -/
def execExp (k : SetRef) (e : Nat) (s : State) : Host.Outcome State Fault Refusal :=
  ((decodeCtx (k.ctr (2 + e)) s).bind fun b t =>
    if b && decide ((setLimit k s).1 ≤ e + 1) then raiseErr (setLimit k s).2 t else .ok b t).outcomeRet
      fun b => [b.toNat]

/-- The meaning of the element MANT[i] (R102 step 5, R171). -/
def execMant (k : SetRef) (i : Nat) (s : State) : Host.Outcome State Fault Refusal :=
  (decodeCtx (k.ctr (18 + i)) s).outcomeRet fun b => [b.toNat]

/-- The meaning of `nz_decode` (R171). -/
def execNzDecode (k : SetRef) (limit : Nat) (e : Err) (s : State) : Host.Outcome State Fault Refusal :=
  (nzDecode k limit e s).outcomeRet fun v => [v]

end Sys2Proof.Machine
end

