-- ==== Sys2Proof/Machine/ContextTree.lean ====
section
/-! DEFINITION. The Context Model (spec/43_context_tree.md): tree decode in its recursive form (R181, R182)
and its iterative form (R188), the lookup (R186), and the meanings of their rows and elements. -/

namespace Sys2Proof.Machine

/-- The next free arena entry: `i = nn ; nn <- nn + 1` (R182); the arena has entries 0 .. 8190 (R37). -/
def allocNode (s : State) : Res Nat :=
  if s.cm.nn.toNat < Config.maxNodes then .ok s.cm.nn.toNat { s with cm := { s.cm with nn := s.cm.nn + 1 } }
  else .fault (.noSuchNode s.cm.nn.toNat)

/-- A new leaf: `NODE[i].split <- 0` and its 33 counters set to 2048 (R182, R187); the other fields keep
what they held. -/
def makeLeaf (i : Nat) (s : State) : Res Unit :=
  writeNode i { nodeAt s i with split := false, ctr := Vector.replicate 33 Config.probInit } s

/-- A new split node, without its right link (R182, R188): the left child is always entry i + 1. -/
def makeSplit (i : Nat) (prop : BitVec 3) (thr : Int) (s : State) : Res Unit :=
  writeNode i { nodeAt s i with
    split := true, prop := prop, thr := BitVec.ofInt 32 thr, left := BitVec.ofNat 13 (i + 1) } s

/-- `NODE[i].right <- r`. -/
def linkRight (i r : Nat) (s : State) : Res Unit :=
  writeNode i { nodeAt s i with right := BitVec.ofNat 13 r } s

/-- The three decisions of a property id (R101, R184), without the check. -/
def propBits (s : State) : Res Nat :=
  (decodeCtx (.metaCtr 1) s).bind fun b2 s =>
    (decodeCtx (.metaCtr (2 + b2.toNat)) s).bind fun b1 s =>
      (decodeCtx (.metaCtr (4 + 2 * b2.toNat + b1.toNat)) s).bind fun b0 s =>
        .ok (4 * b2.toNat + 2 * b1.toNat + b0.toNat) s

/-- PROP, R184: ids 6 and 7 are reserved. -/
def decodeProp (s : State) : Res (BitVec 3) :=
  (propBits s).bind fun id s =>
    if Config.numProps ≤ id then raiseErr ⟨.corruptTree, 2⟩ s else .ok (BitVec.ofNat 3 id) s

/-- THR, R185. -/
def decodeThr (s : State) : Res Int := nzDecode .thr Config.thrLimit ⟨.corruptTree, 3⟩ s

/-- SPLIT at depth `d`, R183: a node at depth 12 must be a leaf. -/
def decodeSplit (d : Nat) (s : State) : Res Bool :=
  (decodeCtx (.metaCtr 0) s).bind fun b s =>
    if b && decide (Config.maxTreeDepth ≤ d) then raiseErr ⟨.corruptTree, 1⟩ s else .ok b s

/-- The fields of a split node after its SPLIT decision: PROP, then THR (R182). -/
def decodeFields (i : Nat) (s : State) : Res Unit :=
  (decodeProp s).bind fun prop s => (decodeThr s).bind fun thr s => makeSplit i prop thr s

/-- `decode_node(d)`, R182, with `more` = 12 - d levels left below the node. A depth above 12 does not exist
and is taken as 12. -/
def decodeNodeFrom : Nat → State → Res Nat
  | 0, s =>
    (allocNode s).bind fun i s =>
      (decodeSplit Config.maxTreeDepth s).bind fun _ s => (makeLeaf i s).bind fun _ s => .ok i s
  | more + 1, s =>
    (allocNode s).bind fun i s =>
      (decodeCtx (.metaCtr 0) s).bind fun split s =>
        if split then
          (decodeFields i s).bind fun _ s =>
            (decodeNodeFrom more s).bind fun _ s =>
              (decodeNodeFrom more s).bind fun r s => (linkRight i r s).bind fun _ s => .ok i s
        else (makeLeaf i s).bind fun _ s => .ok i s

/-- `decode_node(d)`, R182. -/
def decodeNode (d : Nat) (s : State) : Res Nat := decodeNodeFrom (Config.maxTreeDepth - d) s

/-- `tree_decode()`, R181. -/
def treeDecode (s : State) : Res Unit :=
  (decodeNode 0 { resetMeta s with cm := { (resetMeta s).cm with nn := 0 } }).bind fun _ s => .ok () s

/-- A push of (i, depth) on the tree stack (R188). -/
def pushSplit (i : Nat) (s : State) : Res Unit :=
  if s.cm.sp.toNat < 12 then
    .ok () { s with cm := { s.cm with
      ts := s.cm.ts.setIfInBounds s.cm.sp.toNat (BitVec.ofNat 13 i, s.cm.depth), sp := s.cm.sp + 1 } }
  else .fault (.noSuchStackEntry s.cm.sp.toNat)

/-- A pop of the tree stack, `sp <- sp - 1 ; (s, d) = TS[sp]`, taken when `sp` is not 0 (R188). -/
def popSplit (s : State) : Res (NodeIdx × BitVec 4) :=
  match s.cm.ts[s.cm.sp.toNat - 1]? with
  | some e => .ok e { s with cm := { s.cm with sp := s.cm.sp - 1 } }
  | none => .fault (.noSuchStackEntry (s.cm.sp.toNat - 1))

/-- One turn of the loop of R188: one node record without its subtrees. True when the tree is complete. -/
def treeTurn (s : State) : Res Bool :=
  (allocNode s).bind fun i s =>
    (decodeSplit s.cm.depth.toNat s).bind fun split s =>
      if split then
        (decodeFields i s).bind fun _ s =>
          (pushSplit i s).bind fun _ s => .ok false { s with cm := { s.cm with depth := s.cm.depth + 1 } }
      else
        (makeLeaf i s).bind fun _ s =>
          if s.cm.sp = 0 then .ok true s
          else
            (popSplit s).bind fun e s =>
              (linkRight e.1.toNat s.cm.nn.toNat s).bind fun _ s =>
                .ok false { s with cm := { s.cm with depth := e.2 + 1 } }

/-- The loop of R188. Each turn takes an arena entry, so 8192 turns are never used up. -/
def treeLoop : Nat → State → Res Unit
  | 0, s => .fault (.noSuchNode s.cm.nn.toNat)
  | fuel + 1, s => (treeTurn s).bind fun complete s => if complete then .ok () s else treeLoop fuel s

/-- `tree_decode_iterative()`, R188. -/
def treeDecodeIterative (s : State) : Res Unit :=
  treeLoop (Config.maxNodes + 1)
    { resetMeta s with cm := { (resetMeta s).cm with nn := 0, sp := 0, depth := 0 } }

/-- `P[prop]`, for a property id 0 .. 5 (R240). -/
def propValue (P : PropVec) : Nat → Option Int
  | 0 => some P.p0
  | 1 => some P.p1
  | 2 => some P.p2
  | 3 => some P.p3
  | 4 => some P.p4
  | 5 => some P.p5
  | _ => none

/-- The walk of R186 from arena entry `n`: left if `P[prop]` > `thr`, right otherwise, until a leaf. -/
def lookupFrom (s : State) (P : PropVec) : Nat → Nat → Except Fault Nat
  | 0, _ => .error .walkNeverEnds
  | fuel + 1, n =>
    let node := nodeAt s n
    if node.split then
      match propValue P node.prop.toNat with
      | some v => lookupFrom s P fuel (if v > node.thr.toInt then node.left.toNat else node.right.toNat)
      | none => .error (.noSuchProperty node.prop.toNat)
    else .ok n

/-- `tree_lookup(P)`, R186. A walk that meets more than 8192 nodes has met one twice and never ends. -/
def treeLookup (s : State) (P : PropVec) : Except Fault Nat := lookupFrom s P 8193 0

/-- The meaning of the element NODE: the node record at the depth in `depth`, with its subtrees (R103, R182). -/
def execNode (s : State) : Host.Outcome State Fault Refusal :=
  (decodeNode s.cm.depth.toNat s).outcomeRet fun i => [i]

/-- The meaning of the element SPLIT, at the depth in `depth` (R103, R183). -/
def execSplit (s : State) : Host.Outcome State Fault Refusal :=
  (decodeSplit s.cm.depth.toNat s).outcomeRet fun b => [b.toNat]

/-- The meaning of the element PROP (R101, R184). -/
def execProp (s : State) : Host.Outcome State Fault Refusal := (decodeProp s).outcomeRet fun p => [p.toNat]

/-- The meaning of the element THR (R102, R185). -/
def execThr (s : State) : Host.Outcome State Fault Refusal := (decodeThr s).outcomeRet fun t => [t]

/-- The meaning of `tree_decode` (R181). -/
def execTreeDecode (s : State) : Host.Outcome State Fault Refusal := (treeDecode s).outcome

/-- The meaning of `decode_node` (R182): the index of the node is returned. -/
def execDecodeNode (d : Nat) (s : State) : Host.Outcome State Fault Refusal :=
  (decodeNode d s).outcomeRet fun i => [i]

/-- The meaning of `tree_decode_iterative` (R188). -/
def execTreeDecodeIterative (s : State) : Host.Outcome State Fault Refusal := (treeDecodeIterative s).outcome

/-- The meaning of `tree_lookup` (R186). -/
def execTreeLookup (P : PropVec) (s : State) : Host.Outcome State Fault Refusal :=
  (Res.ofExcept (treeLookup s P) s).outcomeRet fun n => [n]

end Sys2Proof.Machine
end

