-- ==== Sys2Proof/Machine/PlaneReconstructor.lean ====
section
/-! DEFINITION. The Plane Reconstructor (spec/45_plane_reconstructor.md): the pixel operation, and the meanings
of RESID and of `pass_positions`, `neighbours`, `ahead`, `predict`, `properties`, `decode_pixel`. The sequencer
and the plane loop are in Sequencer.lean. -/

namespace Sys2Proof.Machine

/-- What a pixel is decoded with: its prediction and the leaf its properties select (R239, R240, R186). -/
def pixelContext (s : State) : Except Fault (Int × Nat) := do
  let pred ← predictOf s
  let P ← propertiesOf s
  let n ← treeLookup s P
  .ok (pred, n)

/-- `decode_pixel()`, R241: the residual is decoded with the counters of the selected leaf and limit `D`;
the sum with the prediction is clamped to a sample (R242). Two cases are the model's choice (DESIGN CHOICE; unsafe): the
operation alone at a position outside the image (log entry 27), and with an `h_depth` of 0 or above 16, where the
limit is the depth as it is and the sample keeps the low 16 bits of the clamped sum (log entry 28). -/
def decodePixel (s : State) : Res Unit :=
  (Res.ofExcept (pixelContext s) s).bind fun c s =>
    (nzDecode (.leaf (BitVec.ofNat 13 c.2)) s.D ⟨.corruptPixelValue, 0⟩ s).bind fun r s =>
      writeSample s.sq.p.toNat s.sq.y.toNat s.sq.x.toNat
        (BitVec.ofInt 16 (clamp (c.1 + r) 0 s.maxSample)) s

/-- The meaning of the element RESID (R104, R241). -/
def execResid (s : State) : Host.Outcome State Fault Refusal := (decodePixel s).outcome

/-- The meaning of `decode_pixel` (R241). -/
def execDecodePixel (s : State) : Host.Outcome State Fault Refusal := (decodePixel s).outcome

/-- The meaning of `pass_positions` (R234): the positions of pass `pi`, as x, y, x, y, ... -/
def execPassPositions (s : State) : Host.Outcome State Fault Refusal :=
  (Res.ofExcept (currentPass s) s).outcomeRet fun q =>
    (q.positions s.W s.H).flatMap fun xy => [(xy.1 : Int), (xy.2 : Int)]

/-- The meaning of `neighbours` (R237): vW, vN, vNW, vNE, vNN, vWW are returned. -/
def execNeighbours (s : State) : Host.Outcome State Fault Refusal :=
  (Res.ofExcept (neighboursOf s) s).outcomeRet fun nb => [nb.vW, nb.vN, nb.vNW, nb.vNE, nb.vNN, nb.vWW]

/-- The meaning of `ahead` (R238): 1 and vA are returned if there is an ahead neighbour, else 0. -/
def execAhead (s : State) : Host.Outcome State Fault Refusal :=
  (Res.ofExcept (aheadOf s) s).outcomeRet fun a =>
    match a with
    | some v => [1, (v : Int)]
    | none => [0]

/-- The meaning of `predict` (R239). -/
def execPredict (s : State) : Host.Outcome State Fault Refusal :=
  (Res.ofExcept (predictOf s) s).outcomeRet fun v => [v]

/-- The meaning of `properties` (R240). -/
def execProperties (s : State) : Host.Outcome State Fault Refusal :=
  (Res.ofExcept (propertiesOf s) s).outcomeRet fun P => [P.p0, P.p1, P.p2, P.p3, P.p4, P.p5]

end Sys2Proof.Machine
end

