-- ==== Sys2Proof/Machine/Sequencer.lean ====
section
/-! DEFINITION. The sequencer (R245): which element stands at the cursor in a state, one row of the transition
table as one turn, the plane loop (R231), and the meanings of `sequencer_step`, `plane_loop` and `raise`. -/

namespace Sys2Proof.Machine

/-- The elements decoded in a sequencer state, in order (R41, the `state` column of the opcode table); the
empty list in the states where no element is decoded. Parts of an element (SPLIT, ZERO, ACBYTE, ...) are
decoded inside it. -/
def elementsAt : Seq → List Instr
  | .hdrMagic => [.magic]
  | .hdrWidth => [.width]
  | .hdrHeight => [.height]
  | .hdrChannels => [.channels]
  | .hdrDepth => [.depth]
  | .hdrFlags => [.flags]
  | .hdrChorder => [.chorder]
  | .hdrFrames => [.nframes]
  | .hdrMeta => [.metalen, .metadata]
  | .acInit => [.acinit]
  | .awaitingTree => [.node]
  | .reconstructingPass => [.resid]
  | .idle => []
  | .passComplete => []
  | .planeComplete => []
  | .assemble => []
  | .doneOk => []
  | .doneErr => []

/-- `seq <- S`. -/
def gotoSeq (q : Seq) (s : State) : State := { s with sq := { s.sq with seq := q } }

/-- The sequencer stands at (x, y). -/
def moveTo (xy : Nat × Nat) (s : State) : State :=
  { s with sq := { s.sq with x := BitVec.ofNat 32 xy.1, y := BitVec.ofNat 32 xy.2 } }

/-- An element is parsed and the sequencer goes on to the next state. -/
def parseThen (op : State → Res Unit) (next : Seq) (s : State) : Res Unit :=
  (op s).bind fun _ s => .ok () (gotoSeq next s)

/-- `pl_w[p] <- W ; pl_h[p] <- H` (R39, R231). -/
def recordPlane (s : State) : Res Unit :=
  if s.sq.p.toNat < 4 then
    .ok () { s with sq := { s.sq with
      plW := s.sq.plW.setIfInBounds s.sq.p.toNat s.hdr.width
      plH := s.sq.plH.setIfInBounds s.sq.p.toNat s.hdr.height } }
  else .fault (.noSuchPlane s.sq.p.toNat)

/-- The first position of the pass `pi`, and state 12 if the pass has a position, else 13 (R245, R234). -/
def enterPass (s : State) : Res Unit :=
  (Res.ofExcept (currentPass s) s).bind fun q s =>
    let s := moveTo (q.x0, q.y0) s
    .ok () (gotoSeq (if q.nonempty s.W s.H then .reconstructingPass else .passComplete) s)

/-- State 10 of R245. -/
def turnAcInit (s : State) : Res Unit :=
  (acInit s).bind fun _ s => .ok () { s with sq := { s.sq with p := 0, planesDone := 0, seq := .awaitingTree } }

/-- State 11 of R245: the tree is decoded in the iterative form (R188, log entry 12). -/
def turnTree (s : State) : Res Unit :=
  (recordPlane s).bind fun _ s =>
    (treeDecodeIterative s).bind fun _ s => enterPass { s with sq := { s.sq with pi := 0 } }

/-- State 12 of R245: one pixel, then the next position of the pass (R234). -/
def turnPixel (s : State) : Res Unit :=
  (decodePixel s).bind fun _ s =>
    (Res.ofExcept (currentPass s) s).bind fun q s =>
      let xy := q.advance s.W s.sq.x.toNat s.sq.y.toNat
      .ok () (gotoSeq (if xy.2 < s.H then .reconstructingPass else .passComplete) (moveTo xy s))

/-- State 13 of R245. -/
def turnPassComplete (s : State) : Res Unit :=
  let s := { s with sq := { s.sq with pi := s.sq.pi + 1 } }
  if s.sq.pi.toNat < (passList s.interlaced).length then enterPass s else .ok () (gotoSeq .planeComplete s)

/-- State 14 of R245. -/
def turnPlaneComplete (s : State) : Res Unit :=
  let s := { s with sq := { s.sq with planesDone := s.sq.planesDone + 1, p := s.sq.p + 1 } }
  .ok () (gotoSeq (if s.sq.p.toNat < s.C then .awaitingTree else .assemble) s)

/-- One turn of the sequencer: the action of its state and the move to the next (R245). In IDLE, DONE_OK and
DONE_ERR it waits: nothing changes until START. -/
def sequencerStep (s : State) : Res Unit :=
  match s.sq.seq with
  | .idle => .ok () s
  | .hdrMagic => parseThen parseMagic .hdrWidth s
  | .hdrWidth => parseThen parseWidth .hdrHeight s
  | .hdrHeight => parseThen parseHeight .hdrChannels s
  | .hdrChannels => parseThen parseChannels .hdrDepth s
  | .hdrDepth => parseThen parseDepth .hdrFlags s
  | .hdrFlags => parseThen parseFlags .hdrChorder s
  | .hdrChorder => parseThen parseChorder .hdrFrames s
  | .hdrFrames => parseThen parseFrames .hdrMeta s
  | .hdrMeta => parseThen parseMeta .acInit s
  | .acInit => turnAcInit s
  | .awaitingTree => turnTree s
  | .reconstructingPass => turnPixel s
  | .passComplete => turnPassComplete s
  | .planeComplete => turnPlaneComplete s
  | .assemble => assemble s
  | .doneOk => .ok () s
  | .doneErr => .ok () s

/-- Turns of the sequencer until it reaches ASSEMBLE, at most `fuel`. -/
def planeTurns : Nat → State → Res Unit
  | 0, s => if s.sq.seq = .assemble then .ok () s else .fault .loopNeverEnds
  | fuel + 1, s =>
    if s.sq.seq = .assemble then .ok () s else (sequencerStep s).bind fun _ s => planeTurns fuel s

/-- `plane_loop`, R231: the planes 0 .. C-1 one after the other, through states 11 to 14 of R245, up to
ASSEMBLE. Per plane there are at most W·H pixels, nine pass bookkeepings, one tree and one plane bookkeeping
(R244). Called alone with a `W`·`H` above `MAX_PIXELS` it decodes all those pixels (DESIGN CHOICE, log entry 29;
unsafe). -/
def planeLoop (s : State) : Res Unit :=
  let s := { s with sq := { s.sq with p := 0, planesDone := 0 } }
  if s.C = 0 then .ok () (gotoSeq .assemble s)
  else planeTurns (s.C * (s.W * s.H + 11)) (gotoSeq .awaitingTree s)

/-- The meaning of `sequencer_step` (R245). -/
def execSequencerStep (s : State) : Host.Outcome State Fault Refusal := (sequencerStep s).outcome

/-- The meaning of `plane_loop` (R231). -/
def execPlaneLoop (s : State) : Host.Outcome State Fault Refusal := (planeLoop s).outcome

/-- The meaning of `raise E(info)` (R309). -/
def execRaise (e : Err) (s : State) : Host.Outcome State Fault Refusal :=
  (raiseErr e s : Res Unit).outcome

end Sys2Proof.Machine
end

