-- ==== Sys2Proof/Machine/Dispatch.lean ====
section
/-! DEFINITION. One arm per constructor of `Instr`, in the order of spec/opcode_table.json, each one direct call of
the instruction's meaning. -/

namespace Sys2Proof.Machine

def exec (i : Instr) (s : State) : Host.Outcome State Fault Refusal :=
  match i with
  | .magic => Sys2Proof.Machine.execMagic s
  | .width => Sys2Proof.Machine.execWidth s
  | .height => Sys2Proof.Machine.execHeight s
  | .channels => Sys2Proof.Machine.execChannels s
  | .depth => Sys2Proof.Machine.execDepth s
  | .flags => Sys2Proof.Machine.execFlags s
  | .chorder => Sys2Proof.Machine.execChorder s
  | .nframes => Sys2Proof.Machine.execNframes s
  | .metalen => Sys2Proof.Machine.execMetalen s
  | .metadata => Sys2Proof.Machine.execMetadata s
  | .acinit => Sys2Proof.Machine.execAcinit s
  | .acbyte => Sys2Proof.Machine.execAcbyte s
  | .node => Sys2Proof.Machine.execNode s
  | .split => Sys2Proof.Machine.execSplit s
  | .prop => Sys2Proof.Machine.execProp s
  | .thr => Sys2Proof.Machine.execThr s
  | .resid => Sys2Proof.Machine.execResid s
  | .zero k => Sys2Proof.Machine.execZero k s
  | .sign k => Sys2Proof.Machine.execSign k s
  | .exp k e => Sys2Proof.Machine.execExp k e s
  | .mant k j => Sys2Proof.Machine.execMant k j s
  | .readBit => Sys2Proof.Machine.execReadBit s
  | .readUint n => Sys2Proof.Machine.execReadUint n s
  | .readVarint => Sys2Proof.Machine.execReadVarint s
  | .skipBytes n => Sys2Proof.Machine.execSkipBytes n s
  | .acInitOp => Sys2Proof.Machine.execAcInitOp s
  | .decodeBit p => Sys2Proof.Machine.execDecodeBit p s
  | .renormalise => Sys2Proof.Machine.execRenormalise s
  | .ctrUpdate p bit => Sys2Proof.Machine.execCtrUpdate p bit s
  | .decodeCtx k => Sys2Proof.Machine.execDecodeCtx k s
  | .nzDecode k limit e => Sys2Proof.Machine.execNzDecode k limit e s
  | .treeDecode => Sys2Proof.Machine.execTreeDecode s
  | .decodeNode d => Sys2Proof.Machine.execDecodeNode d s
  | .treeDecodeIterative => Sys2Proof.Machine.execTreeDecodeIterative s
  | .treeLookup P => Sys2Proof.Machine.execTreeLookup P s
  | .parseHeader => Sys2Proof.Machine.execParseHeader s
  | .parseMagic => Sys2Proof.Machine.execParseMagic s
  | .parseFlags => Sys2Proof.Machine.execParseFlags s
  | .parseChorder => Sys2Proof.Machine.execParseChorder s
  | .sequencerStep => Sys2Proof.Machine.execSequencerStep s
  | .planeLoop => Sys2Proof.Machine.execPlaneLoop s
  | .passPositions => Sys2Proof.Machine.execPassPositions s
  | .neighbours => Sys2Proof.Machine.execNeighbours s
  | .ahead => Sys2Proof.Machine.execAhead s
  | .predict => Sys2Proof.Machine.execPredict s
  | .properties => Sys2Proof.Machine.execProperties s
  | .decodePixel => Sys2Proof.Machine.execDecodePixel s
  | .assemble => Sys2Proof.Machine.execAssemble s
  | .raise e => Sys2Proof.Machine.execRaise e s
  | .decode hi => Sys2Proof.Machine.execDecode hi s
  | .startWhileBusy hi => Sys2Proof.Machine.execStartWhileBusy hi s
  | .ctrlNop hi => Sys2Proof.Machine.execCtrlNop hi s
  | .version => Sys2Proof.Machine.execVersion s
  | .writeInHandle v => Sys2Proof.Machine.execWriteInHandle v s
  | .writeInSize v => Sys2Proof.Machine.execWriteInSize v s
  | .readReg n => Sys2Proof.Machine.execReadReg n s
  | .writeRoReg n v => Sys2Proof.Machine.execWriteRoReg n v s
  | .readOutput a => Sys2Proof.Machine.execReadOutput a s
  | .writeInput a b => Sys2Proof.Machine.execWriteInput a b s
  | .reset => Sys2Proof.Machine.execReset s

end Sys2Proof.Machine
end

