-- ==== Sys2Proof/Machine/Fetch.lean ====
section
/-! DEFINITION. What happens next: the head of the input queue, or the block's own turn (log entry 1); and
placing an instruction where the next step finds it. -/

namespace Sys2Proof.Machine

/-- The next entry, and the state with it taken from the queue. With an empty queue the host is silent and the
block takes its turn (R12, R244). -/
def nextIssue (s : State) : Issue × State :=
  match s.inputs with
  | [] => (.turn, s)
  | i :: rest => (i, { s with inputs := rest })

/-- The store with the bytes at consecutive addresses from `a`. -/
def placeBytes : Nat → List Byte → Store Byte → Store Byte
  | _, [], m => m
  | a, b :: bs, m => placeBytes (a + 1) bs (Store.put m a b)

/-- The entry of an instruction read from a table word; a word that is no instruction becomes an entry that is
refused, since the table has rows 0 to 59. -/
def tableIssue (o : Option Instr) : Issue :=
  match o with
  | some i => encode i
  | none => .call 60 []

/-- A table word placed where the next step runs it: its entry is the whole queue, and its bytes stand at the
cursor, inside the limit. ZERO and SIGN have no bytes; they need an interval, which ACINIT opens (R151). -/
def placeWord (nbits w : Nat) (s : State) : State :=
  let s := { s with inputs := [tableIssue (decodeTableWord nbits w)] }
  match decodeTableWord nbits w with
  | some (.zero _) => { s with ac := { s.ac with rng := 0xFFFFFFFF } }
  | some (.sign _) => { s with ac := { s.ac with rng := 0xFFFFFFFF } }
  | _ =>
    { s with
      input := placeBytes (s.br.base.toNat + s.br.cur.toNat / 8) (wordBytes nbits w) s.input
      br := { s.br with lim := s.br.cur + BitVec.ofNat 35 nbits } }

end Sys2Proof.Machine
end

