-- ==== Sys2Proof/Machine/Step.lean ====
section
/-! DEFINITION. One step of the machine: the next entry is decoded and executed. -/

namespace Sys2Proof.Machine

/-- One step: the next entry is taken, decoded with STATUS.BUSY as it stands, and executed; an entry that is no
instruction is refused by name. -/
def step (s : State) : Host.Outcome State Fault Refusal :=
  match decode s.busy (nextIssue s).1 with
  | .ok i => exec i (nextIssue s).2
  | .error e => .refused (.undecodable e)

/-- The state whose next step runs the instruction of a table word (log entry 10). -/
def State.withFetchWord (s : State) (nbits w : Nat) : State := placeWord nbits w s

end Sys2Proof.Machine
end

