-- ==== Sys2Proof/Safety.lean ====
section
/-! DEFINITION. What a safe run is, and the vocabulary of the statements: what stands in the input at the
cursor, which decisions a state takes, what a tree in the arena looks like, which positions a pixel is decoded
from, and the invariants. Everything a test must evaluate is a `Bool`. -/

namespace Sys2Proof.Machine

/-! ### Safe runs -/

/-- The queue holds only turns of the block and moves of the host (R285): no operation is called alone. -/
def hostDriven (q : List Issue) : Bool :=
  q.all fun i => match i with
    | .turn => true
    | .move _ => true
    | .call _ _ => false

/-- A safe run: `k` steps from `s` meet no fault and no refusal. -/
def RunsSafely (k : Nat) (s : State) : Prop := ∃ t, Host.Core.run Sys2Proof.core k s = .next t

/-- The same state with another queue. -/
def State.withInputs (q : List Issue) (s : State) : State := { s with inputs := q }

/-! ### The input at the cursor -/

/-- What the host owes (R341 (2), (4)): the region lies inside the u32 space, and no byte of it has been
written since START. -/
def State.inputOwned (s : State) : Bool :=
  decide (s.stale = []) && decide (8 * s.br.base.toNat + s.br.lim.toNat ≤ 2 ^ 35)

/-- `n` more bits of an owned region can be read. -/
def State.readable (s : State) (n : Nat) : Bool := s.inputOwned && decide (s.br.cur.toNat + n ≤ s.br.lim.toNat)

/-- Bit number `c` of the input (R62). -/
def State.bitAt (s : State) (c : Nat) : Bool := (storedByte s (s.br.base.toNat + c / 8)).getLsbD (7 - c % 8)

/-- The number whose binary digits are those of `v` followed by the `n` input bits from number `c` on. -/
def State.bitsFrom (s : State) : Nat → Nat → Nat → Nat
  | 0, _, v => v
  | n + 1, c, v => s.bitsFrom n (c + 1) (2 * v + (s.bitAt c).toNat)

/-- The next `n` bits of the input as an unsigned number, the first the most significant (R133). -/
def State.peek (s : State) (n : Nat) : Nat := s.bitsFrom n s.br.cur.toNat 0

/-- The `g` bytes of the input from bit number `c` on. -/
def State.bytesFrom (s : State) : Nat → Nat → List Byte
  | 0, _ => []
  | g + 1, c => BitVec.ofNat 8 (s.bitsFrom 8 c 0) :: s.bytesFrom g (c + 8)

/-- The next `g` bytes of the input. -/
def State.peekBytes (s : State) (g : Nat) : List Byte := s.bytesFrom g s.br.cur.toNat

/-- The cursor `n` bits further. -/
def State.advance (n : Nat) (s : State) : State :=
  { s with br := { s.br with cur := s.br.cur + BitVec.ofNat 35 n } }

/-- The cursor at the end of the input, where a read that runs out leaves it (R133). -/
def State.exhausted (s : State) : State := { s with br := { s.br with cur := s.br.lim } }

/-- The state with these values returned (log entry 9). -/
def State.returning (r : List Int) (s : State) : State := { s with ret := r }

/-! ### Decisions -/

/-- The state after the decisions `ds`, each made with its counter, if those are the decisions that
`decode_ctx` takes from `s` on (R155); otherwise `none`. -/
def takes (s : State) : List (CtrRef × Bool) → Option State
  | [] => some s
  | d :: ds =>
    match decodeCtx d.1 s with
    | .ok b t => if b = d.2 then takes t ds else none
    | _ => none

/-- ZERO = 0, SIGN, and then EXP[0 .. limit - 1] all 1: the magnitude is known to be 2^limit or more (R173). -/
def tooLarge (k : SetRef) (limit : Nat) (neg : Bool) : List (CtrRef × Bool) :=
  (k.ctr 0, false) :: (k.ctr 1, neg) :: (List.range limit).map fun e => (k.ctr (2 + e), true)

/-- R152's split point, computed exactly. -/
def State.bound (s : State) (p : Nat) : Nat := s.ac.rng.toNat / 4096 * p

/-- The decision R152 takes with probability `p`: 1 if the coded value is at or above the split point. -/
def State.chosen (s : State) (p : Nat) : Bool := decide (s.bound p ≤ s.ac.code.toNat)

/-- The width of the part of the interval the decision stands for (R152). -/
def State.widthAfter (s : State) (p : Nat) : Nat :=
  if s.chosen p then s.ac.rng.toNat - s.bound p else s.bound p

/-- The offset of the coded value inside that part (R152). -/
def State.offsetAfter (s : State) (p : Nat) : Nat :=
  if s.chosen p then s.ac.code.toNat - s.bound p else s.ac.code.toNat

/-- The number of refill bytes that bring a width to 2^24 or more (R153), for a width above 0. -/
def refills (width : Nat) : Nat :=
  if 2 ^ 24 ≤ width then 0 else if 2 ^ 16 ≤ width then 1 else if 2 ^ 8 ≤ width then 2 else 3

/-- The registers after an interval of width `width` at offset `offset` has been refilled with `k` bytes
(R153). -/
def State.refilled (width offset : Word) (k : Nat) (s : State) : State :=
  { s.advance (8 * k) with
    ac := { rng := width <<< (8 * k), code := (offset <<< (8 * k)) ||| BitVec.ofNat 32 (s.peek (8 * k)) } }

/-- The state after a decision with probability `p` and its refills (R152, R153). -/
def State.decided (p : Nat) (s : State) : State :=
  s.refilled (BitVec.ofNat 32 (s.widthAfter p)) (BitVec.ofNat 32 (s.offsetAfter p)) (refills (s.widthAfter p))

/-- `t` is `s` with the error `e` taken at cursor `c` (R309). The registers of the Arithmetic Decoder and the
Context Model are abandoned with the session, and nothing is said of them. -/
def EndsWith (e : Err) (c : BitPos) (s t : State) : Prop :=
  t = { takeError e { s with br := { s.br with cur := c } } with ac := t.ac, cm := t.cm }

/-! ### Turns of the sequencer -/

/-- The state after `n` turns of the sequencer, if none of them ends the session by an error or faults. -/
def turnsTo : Nat → State → Option State
  | 0, s => some s
  | n + 1, s =>
    match sequencerStep s with
    | .ok _ t => turnsTo n t
    | _ => none

/-! ### Trees -/

/-- The arena holds the tree from entry `i` on, in pre-order (R103, R182): the left child of `NODE[i]` is
`NODE[i + 1]`, the right child the entry after the left subtree. -/
def treeAt (s : State) : TreeShape → Nat → Bool
  | .leaf, i => !(nodeAt s i).split
  | .split prop thr l r, i =>
    let n := nodeAt s i
    n.split && decide (n.prop = prop) && decide (n.thr.toInt = thr) && decide (n.left.toNat = i + 1) &&
      decide (n.right.toNat = i + 1 + l.size) && treeAt s l (i + 1) && treeAt s r (i + 1 + l.size)

/-- The arena entries of the leaves of a tree whose root is entry `i`. -/
def leavesFrom : TreeShape → Nat → List Nat
  | .leaf, i => [i]
  | .split _ _ l r, i => leavesFrom l (i + 1) ++ leavesFrom r (i + 1 + l.size)

/-- The arena entry of the leaf a property vector selects in a tree whose root is entry `i`, walking the tree
itself (R186): left if the property is above the threshold, right otherwise. -/
def selectFrom (P : PropVec) : TreeShape → Nat → Nat
  | .leaf, i => i
  | .split prop thr l r, i =>
    if (propValue P prop.toNat).getD 0 > thr then selectFrom P l (i + 1) else selectFrom P r (i + 1 + l.size)

/-- The state at the start of a tree: META at 2048 and the arena empty (R181). -/
def State.treeStart (s : State) : State := { resetMeta s with cm := { (resetMeta s).cm with nn := 0 } }

/-- The same state with an arena in which every entry is fresh: all its counters are 2048 (R187, log entry 8). -/
def State.freshLeaves (s : State) : State := { s with cm := { s.cm with nodes := [] } }

/-- The same state up to the arena and the registers of tree decode (R40). -/
def State.withTree (cm : ContextModel) (s : State) : State :=
  { s with cm := { s.cm with nodes := cm.nodes, nn := cm.nn, depth := cm.depth, sp := cm.sp, ts := cm.ts } }

/-! ### Positions and neighbours -/

/-- Position (x, y) belongs to the pass in a W by H image (R234). -/
def Pass.has (q : Pass) (W H x y : Nat) : Bool :=
  decide (x < W) && decide (y < H) && decide (q.x0 ≤ x) && decide (q.y0 ≤ y) &&
    decide ((x - q.x0) % q.stepx = 0) && decide ((y - q.y0) % q.stepy = 0)

/-- Raster order: by row, then by column (R234). -/
def rasterBefore (a b : Nat × Nat) : Bool := decide (a.2 < b.2) || (decide (a.2 = b.2) && decide (a.1 < b.1))

/-- The positions R237 and R238 read for the pixel at (x, y) of a pass. -/
def neighbourReads (q : Pass) (W H x y : Nat) : List (Nat × Nat) :=
  (if q.dx ≤ x then [(x - q.dx, y)] else []) ++
  (if q.dy ≤ y then [(x, y - q.dy)] else []) ++
  (if q.dx ≤ x ∧ q.dy ≤ y then [(x - q.dx, y - q.dy)] else []) ++
  (if q.dy ≤ y ∧ x + q.dx < W then [(x + q.dx, y - q.dy)] else []) ++
  (if 2 * q.dy ≤ y then [(x, y - 2 * q.dy)] else []) ++
  (if 2 * q.dx ≤ x then [(x - 2 * q.dx, y)] else []) ++
  (if q.kind = .V ∧ y + q.dy < H then [(x, y + q.dy)] else []) ++
  (if q.kind = .H ∧ x + q.dx < W then [(x + q.dx, y)] else [])

/-- The neighbours of (x, y) by R237, where `v x' y'` is the sample at (x', y') and `m` is `MID`. -/
def neighboursBy (q : Pass) (W m x y : Nat) (v : Nat → Nat → Nat) : Neighbours :=
  let hasW := q.dx ≤ x
  let hasN := q.dy ≤ y
  let vW := if hasW then v (x - q.dx) y else if hasN then v x (y - q.dy) else m
  let vN := if hasN then v x (y - q.dy) else if hasW then v (x - q.dx) y else m
  { vW := vW
    vN := vN
    vNW := if hasW ∧ hasN then v (x - q.dx) (y - q.dy) else if hasW then vW else vN
    vNE := if hasN ∧ x + q.dx < W then v (x + q.dx) (y - q.dy) else vN
    vNN := if 2 * q.dy ≤ y then v x (y - 2 * q.dy) else vN
    vWW := if 2 * q.dx ≤ x then v (x - 2 * q.dx) y else vW }

/-- The ahead neighbour of (x, y) by R238. -/
def aheadBy (q : Pass) (W H x y : Nat) (v : Nat → Nat → Nat) : Option Nat :=
  if q.kind = .V ∧ y + q.dy < H then some (v x (y + q.dy))
  else if q.kind = .H ∧ x + q.dx < W then some (v (x + q.dx) y)
  else none

/-- The decisions of the pixel (x, y) of a pass, of an image whose samples are `v`, with the tree `T`: its residual
against the prediction of R239, coded with the counters of the leaf that its properties select (R104, R240, R241). -/
def codedPixel (q : Pass) (W H D : Nat) (T : TreeShape) (v : Nat → Nat → Nat) (x y : Nat) : List (CtrRef × Bool) :=
  let nb := neighboursBy q W (2 ^ (D - 1)) x y v
  let a := aheadBy q W H x y v
  codedInt (.leaf (BitVec.ofNat 13 (selectFrom (propertiesFrom q.kind nb a) T 0)))
    ((v x y : Int) - predictFrom q.kind nb a)

/-- The decisions of all pixels of a plane, in the order of the passes and their positions (R231 to R234). -/
def codedPixels (interlaced : Bool) (W H D : Nat) (T : TreeShape) (v : Nat → Nat → Nat) : List (CtrRef × Bool) :=
  (passList interlaced).flatMap fun q => (q.positions W H).flatMap fun c => codedPixel q W H D T v c.1 c.2

/-- The state after the decisions that code the tree of a plane, from fresh counters of META (R181), and then the
decisions `ds`, from fresh leaf counters (R187), if those are the decisions taken. -/
def planeTakes (T : TreeShape) (ds : List (CtrRef × Bool)) (s : State) : Option State :=
  match takes s.treeStart (codedTree T) with
  | some t => takes t.freshLeaves ds
  | none => none

/-- The state after the decisions of plane after plane. -/
def planesTake (s : State) : List (TreeShape × List (CtrRef × Bool)) → Option State
  | [] => some s
  | d :: ds =>
    match planeTakes d.1 d.2 s with
    | some t => planesTake t ds
    | none => none

/-- The current pixel: pass `q` is the current pass, (x, y) is inside the image, and every sample R237 and R238
read for it is `v` of its position. -/
def PixelReads (s : State) (q : Pass) (v : Nat → Nat → Nat) : Prop :=
  passOf s.interlaced s.sq.pi.toNat = some q ∧ s.sq.x.toNat < s.W ∧ s.sq.y.toNat < s.H ∧
    ∀ c ∈ neighbourReads q s.W s.H s.sq.x.toNat s.sq.y.toNat, sampleAt s s.sq.p.toNat c.2 c.1 = .ok (v c.1 c.2)

/-! ### Invariants -/

/-- The cursor invariant (R136). -/
def cursorInv (s : State) : Bool :=
  decide (s.br.cur.toNat ≤ s.br.lim.toNat) && decide (s.br.lim.toNat ≤ 8 * (2 ^ 31 - 1))

/-- A counter inside 31 .. 4065 (R157). -/
def ctrInRange (p : Ctr) : Bool := decide (31 ≤ p.toNat) && decide (p.toNat ≤ 4065)

/-- Every counter is inside 31 .. 4065 (R157). -/
def countersInv (s : State) : Bool :=
  s.cm.metaCtx.toList.all ctrInRange && s.cm.nodes.all fun e => e.2.ctr.toList.all ctrInRange

/-- The header fields that have been parsed before a sequencer state are legal (R210). -/
def headerLegalAt (q : Seq) (h : Header) : Bool :=
  let n := q.code.toNat
  decide (n = 17) ||
    (decide (n < 3 ∨ 1 ≤ h.width.toNat) &&
      decide (n < 4 ∨ 1 ≤ h.height.toNat ∧ h.width.toNat * h.height.toNat ≤ Config.maxPixels) &&
      decide (n < 5 ∨ 1 ≤ h.channels.toNat ∧ h.channels.toNat ≤ Config.maxChannels) &&
      decide (n < 6 ∨ 1 ≤ h.depth.toNat ∧ h.depth.toNat ≤ Config.maxDepth) &&
      decide (n < 7 ∨ flagsLegal h.channels.toNat h.flags = true) &&
      decide (n < 8 ∨ chorderLegal h.channels.toNat h.chorder = true) &&
      decide (n < 9 ∨ h.frames = 1))

/-- STATUS as the sequencer's state has it (R24, R41). -/
def statusAt : Seq → BitVec 3
  | .idle => statusIdle
  | .doneOk => statusDone
  | .doneErr => statusErr
  | _ => statusBusy

/-- The result registers `HR[6..13]` as the sequencer's state has them: 0 before and during a session, the image
after success, the error and nothing of an image after a failure (R24, R28, R30, R31, R289). -/
def resultsAt (s : State) : Bool :=
  match s.sq.seq with
  | .doneOk =>
    decide (s.host.errCode = 0) && decide (s.host.errInfo = 0) && decide (s.host.outWidth = s.hdr.width) &&
      decide (s.host.outHeight = s.hdr.height) && decide (s.host.outChannels = s.hdr.channels.setWidth 32) &&
      decide (s.host.outDepth = s.hdr.depth.setWidth 32) && decide (s.host.bitsHi ++ s.host.bitsLo = s.br.cur)
  | .doneErr =>
    decide (s.host.errCode ≠ 0) && decide (s.host.outWidth = 0) && decide (s.host.outHeight = 0) &&
      decide (s.host.outChannels = 0) && decide (s.host.outDepth = 0) &&
      decide (s.host.bitsHi ++ s.host.bitsLo = s.br.cur)
  | _ =>
    decide (s.host.errCode = 0) && decide (s.host.errInfo = 0) && decide (s.host.outWidth = 0) &&
      decide (s.host.outHeight = 0) && decide (s.host.outChannels = 0) && decide (s.host.outDepth = 0) &&
      decide (s.host.bitsLo = 0) && decide (s.host.bitsHi = 0)

/-- What holds between any two steps of a machine whose queue is the host's (log entry 2): STATUS and the results
agree with the sequencer (R24, R289), the parsed header is legal (R210), the cursor stands at a byte (R137), and
from AC_INIT to the end of a session the interval is at least 2^24 wide (R156). -/
def sessionInv (s : State) : Bool :=
  hostDriven s.inputs && decide (s.host.status = statusAt s.sq.seq) && resultsAt s &&
    headerLegalAt s.sq.seq s.hdr && decide (s.br.cur.toNat % 8 = 0) && decide (s.br.lim.toNat % 8 = 0) &&
    decide (s.sq.seq.code.toNat ≤ 10 ∨ s.sq.seq = .doneErr ∨ 2 ^ 24 ≤ s.ac.rng.toNat)

/-- Sample (p, y, x) has been written in this session (R38). -/
def written (s : State) (p x y : Nat) : Prop := ∃ v, sampleAt s p y x = .ok v

/-- Every sample of plane `p` has been written. -/
def planeWritten (s : State) (p : Nat) : Prop := ∀ x y, x < s.W → y < s.H → written s p x y

/-- Every position of the passes before `n` has been written in the current plane. -/
def passesWritten (s : State) (n : Nat) : Prop :=
  ∀ i q x y, i < n → passOf s.interlaced i = some q → q.has s.W s.H x y = true → written s s.sq.p.toNat x y

/-- The arena holds a legal tree from entry 0 (R189). -/
def treeReady (s : State) : Prop := ∃ T : TreeShape, T.legal = true ∧ treeAt s T 0 = true

/-- The planes before `n` are complete, and recorded with the header's dimensions (R39, R231). -/
def planesReady (s : State) (n : Nat) : Prop :=
  ∀ q, q < n → planeWritten s q ∧ s.sq.plW[q]? = some s.hdr.width ∧ s.sq.plH[q]? = some s.hdr.height

/-- What the payload states of a session rely on (R20, R235, R343): the planes before `p` are complete; the
current plane has its tree, and every position before the current one has been written. -/
def progressInv (s : State) : Prop :=
  match s.sq.seq with
  | .awaitingTree => s.sq.p.toNat < s.C ∧ s.sq.planesDone = s.sq.p ∧ planesReady s s.sq.p.toNat
  | .reconstructingPass =>
    s.sq.p.toNat < s.C ∧ s.sq.planesDone = s.sq.p ∧ planesReady s s.sq.p.toNat ∧ treeReady s ∧
      s.sq.plW[s.sq.p.toNat]? = some s.hdr.width ∧ s.sq.plH[s.sq.p.toNat]? = some s.hdr.height ∧
      passesWritten s s.sq.pi.toNat ∧
      ∃ q, passOf s.interlaced s.sq.pi.toNat = some q ∧ q.has s.W s.H s.sq.x.toNat s.sq.y.toNat = true ∧
        ∀ x y, q.has s.W s.H x y = true → rasterBefore (x, y) (s.sq.x.toNat, s.sq.y.toNat) = true →
          written s s.sq.p.toNat x y
  | .passComplete =>
    s.sq.p.toNat < s.C ∧ s.sq.planesDone = s.sq.p ∧ planesReady s s.sq.p.toNat ∧ treeReady s ∧
      s.sq.plW[s.sq.p.toNat]? = some s.hdr.width ∧ s.sq.plH[s.sq.p.toNat]? = some s.hdr.height ∧
      s.sq.pi.toNat < (passList s.interlaced).length ∧ passesWritten s (s.sq.pi.toNat + 1)
  | .planeComplete =>
    s.sq.p.toNat < s.C ∧ s.sq.planesDone = s.sq.p ∧ planesReady s (s.sq.p.toNat + 1)
  | .assemble => s.sq.planesDone.toNat = s.C ∧ planesReady s s.C
  | _ => True

end Sys2Proof.Machine
end

