-- ==== Sys2Proof/Certificates/Slice0/Obligations.lean ====
section
/-! DEFINITION. The statements for the provers, in the order of OBLIGATIONS.json. Each docstring names the rules of
spec/ its statement formalises. A next state `takeError e s` keeps the session state that R309 leaves undefined after an
error (planes, tree, rng, code), and a completed session keeps its working registers (U4): those clauses of a statement
are the model's choice, log entry 26. -/

open Sys2Proof Sys2Proof.Machine

/-- A step executes the instruction its queue entry decodes to (R245, R285, R12). -/
def Obligations.StepRunsTheDecodedInstruction : Prop :=
  (∀ s : State, s.inputs = [] → step s = exec .sequencerStep s) ∧
  (∀ (s : State) (q : Issue) (rest : List Issue) (i : Instr), s.inputs = q :: rest → decode s.busy q = .ok i →
    step s = exec i (s.withInputs rest)) ∧
  (∀ (s : State) (q : Issue) (rest : List Issue) (e : DecodeError), s.inputs = q :: rest →
    decode s.busy q = .error e → step s = .refused (.undecodable e))

/-- Words written out from the spec's encodings decode to their elements and commands (R93, R96, R99, R23, R110).
The four raw words are read without a position, which no rule of the spec does (R41, R110: position selects): that
0x06 alone is FLAGS, 0x11 ACBYTE and a 32-bit word other than 46 4C 49 46 ACINIT is the model's choice, log entry
10. That a read of register 0 is VERSION and not READ_REG is log entry 3. -/
def Obligations.WrittenOutWordsDecode : Prop :=
  decodeTableWord 32 0x464C4946 = some .magic ∧ decodeTableWord 32 0x13FFF800 = some .acinit ∧
  decodeTableWord 8 0x06 = some .flags ∧ decodeTableWord 8 0x11 = some .acbyte ∧
  decode false (.move (.writeReg 1 1)) = .ok (.decode 0) ∧
  decode true (.move (.writeReg 1 1)) = .ok (.startWhileBusy 0) ∧
  decode false (.move (.writeReg 1 0xFFFFFFFE)) = .ok (.ctrlNop 0x7FFFFFFF) ∧
  decode true (.move (.readReg 0)) = .ok .version ∧
  decode true (.move (.writeReg 3 0x1000)) = .ok (.writeInHandle 0x1000) ∧
  decode true (.move (.writeReg 4 15)) = .ok (.writeInSize 15) ∧
  decode true (.move (.writeReg 2 7)) = .ok (.writeRoReg 2 7) ∧
  decode true (.move (.writeReg 14 7)) = .ok (.writeRoReg 14 7)

/-- Decoding the encoding of any well-formed instruction gives it back (R110, R285, R286, R287). The numbers of the
entries of called operations are the model's own (log entry 2). A read of register 0 is VERSION, so READ_REG of
number 0 is not well formed and is left out (log entry 3). -/
def Obligations.DecodeOfEncodeIsTheInstruction : Prop :=
  ∀ i : Instr, wellFormed i = true → decode (busyWhen i) (encode i) = .ok i

/-- RESET completes and leaves every host register and the sequencer at the stated reset value (R46). -/
def Obligations.ResetLeavesTheStatedValues : Prop :=
  (∀ s : State, ∃ t, exec .reset s = .next t ∧ t.sq.seq = .idle ∧ readHostReg t 0 = 1 ∧
    ∀ n, 1 ≤ n → readHostReg t n = 0) ∧
  State.reset.sq.seq = .idle ∧ readHostReg State.reset 0 = 1 ∧ ∀ n, 1 ≤ n → readHostReg State.reset n = 0

/-- DECODE while not busy performs exactly the assignments of session initialisation (R45, R286, R26, R38, R68). -/
def Obligations.DecodeStartsASession : Prop :=
  ∀ (s : State) (hi : BitVec 31), s.busy = false →
    exec (.decode hi) s = .next
      { s with
        host := { s.host with
          status := 0b001, errCode := 0, errInfo := 0, outWidth := 0, outHeight := 0, outChannels := 0,
          outDepth := 0, bitsLo := 0, bitsHi := 0 }
        br := {
          base := s.host.inHandle
          lim := if 0 < s.host.inSize.toInt then BitVec.ofNat 35 (8 * s.host.inSize.toNat) else 0
          cur := 0 }
        sq := { s.sq with seq := .hdrMagic, p := 0, planesDone := 0 }
        cm := { s.cm with nn := 0 }
        plane := []
        stale := [] }

/-- What every write of a host register does, and that nothing else changes (R23, R25, R26, R287, R289, R21). -/
def Obligations.HostRegisterWrites : Prop :=
  (∀ (s : State) (hi : BitVec 31), exec (.ctrlNop hi) s = .next s) ∧
  (∀ (s : State) (hi : BitVec 31), s.busy = true → exec (.startWhileBusy hi) s = .next s) ∧
  (∀ (s : State) (v : Word), exec (.writeInHandle v) s = .next { s with host := { s.host with inHandle := v } }) ∧
  (∀ (s : State) (v : Word), exec (.writeInSize v) s = .next { s with host := { s.host with inSize := v } }) ∧
  (∀ (s : State) (n : Nat) (v : Word), n ≠ 1 → n ≠ 3 → n ≠ 4 → exec (.writeRoReg n v) s = .next s)

/-- What every read of a host register returns, without a side effect (R21, R22, R23, R24, R27, R31, R288, R289). -/
def Obligations.HostRegisterReads : Prop :=
  ∀ s : State,
    exec .version s = .next { s with busData := 1 } ∧
    ∀ n : Nat,
      (let v : Word :=
        if n = 0 then 1
        else if n = 2 then BitVec.setWidth 32 s.host.status
        else if n = 3 then s.host.inHandle
        else if n = 4 then s.host.inSize
        else if n = 6 then BitVec.setWidth 32 s.host.errCode
        else if n = 7 then s.host.errInfo
        else if n = 8 then s.host.outWidth
        else if n = 9 then s.host.outHeight
        else if n = 10 then s.host.outChannels
        else if n = 11 then s.host.outDepth
        else if n = 12 then s.host.bitsLo
        else if n = 13 then BitVec.setWidth 32 s.host.bitsHi
        else 0
       exec (.readReg n) s = .next { s with busData := v })

/-- WRITE_INPUT stores its byte at its address and leaves every other byte of INPUT as it was (R61, R71, R285). -/
def Obligations.WriteInputStoresOneByte : Prop :=
  ∀ (s : State) (a : Word) (b : Byte), ∃ t,
    exec (.writeInput a b) s = .next t ∧
    storedByte t a.toNat = b ∧
    (∀ a', a' ≠ a.toNat → storedByte t a' = storedByte s a') ∧
    t = { s with input := t.input, stale := t.stale } ∧
    (inSessionRegion s a.toNat = false → t.stale = s.stale)

/-- READ_OUTPUT always completes, gives the word of the last image, and changes nothing else (R63, R65, R289). -/
def Obligations.OutputReadsHaveNoSideEffect : Prop :=
  ∀ (s : State) (a : BitVec 26),
    (∃ w f, exec (.readOutput a) s = .next { s with busData := w, freeCount := f }) ∧
    (∀ w : Sample, s.host.status = 0b010 →
      a.toNat < s.host.outWidth.toNat * s.host.outHeight.toNat * s.host.outChannels.toNat →
      Store.get? s.output a.toNat = some w →
      exec (.readOutput a) s = .next { s with busData := BitVec.setWidth 32 w })

/-- raise E(info) performs exactly the assignments of the terminal error action (R309). That nothing else changes,
also not the session state that R309 calls abandoned and no longer defined (planes, tree, rng, code), is the model's
choice, log entry 26. -/
def Obligations.RaiseIsTerminal : Prop :=
  (∀ (s : State) (k : ErrKind) (info : Word),
    exec (.raise ⟨k, info⟩) s = .next
      { s with
        host := { s.host with
          errCode := match k with
            | .badMagic => 1
            | .unsupportedFeature => 2
            | .truncatedInput => 3
            | .malformedVarint => 4
            | .corruptTree => 5
            | .corruptPixelValue => 6
            | .channelCountMismatch => 7
          errInfo := info
          bitsLo := s.br.cur.extractLsb' 0 32
          bitsHi := s.br.cur.extractLsb' 32 3
          status := 0b110 }
        sq := { s.sq with seq := .doneErr } }) ∧
  (∀ s : State, s.sq.seq = .doneErr → exec .sequencerStep s = .next s)

/-- read_bit delivers the next bit and advances the cursor by one, or ends the session at the limit (R132). That
every other register keeps its value, also the session state that R309 calls abandoned and no longer defined, is the
model's choice, log entry 26. -/
def Obligations.ReadBitDeliversTheNextBit : Prop :=
  ∀ s : State,
    (s.readable 1 = true →
      exec .readBit s = .next ((s.advance 1).returning [((s.bitAt s.br.cur.toNat).toNat : Int)])) ∧
    (s.br.lim.toNat ≤ s.br.cur.toNat → exec .readBit s = .next (takeError ⟨.truncatedInput, 0⟩ s))

/-- read_uint(n) returns the next n bits, the first the most significant; running out consumes what was there
(R133). What an error clause says of the session state (planes, tree, rng, code), which R309 calls abandoned and no
longer defined, is the model's choice, log entry 26. -/
def Obligations.ReadUintReadsMostSignificantFirst : Prop :=
  (∀ (s : State) (n : Nat), n ≤ 32 →
    (s.readable n = true → exec (.readUint n) s = .next ((s.advance n).returning [(s.peek n : Int)])) ∧
    (s.inputOwned = true → s.br.cur.toNat ≤ s.br.lim.toNat → s.br.lim.toNat < s.br.cur.toNat + n →
      exec (.readUint n) s = .next (takeError ⟨.truncatedInput, 0⟩ s.exhausted))) ∧
  (∀ s : State, s.br.cur.toNat % 8 = 0 →
    s.peek 8 = (storedByte s (s.br.base.toNat + s.br.cur.toNat / 8)).toNat)

/-- read_varint returns the value of every varint, in the shortest form or with leading all-zero groups (R94, R134).
-/
def Obligations.ReadVarintReadsEveryForm : Prop :=
  ∀ (s : State) (v : VarField), v.legal = true → s.readable (8 * v.bytes) = true →
    s.peekBytes v.bytes = v.encode →
    exec .readVarint s = .next ((s.advance (8 * v.bytes)).returning [(v.value : Int)])

/-- Five continuing bytes: overflow is MalformedVarint(2), else a fifth continuation bit is MalformedVarint(1)
(R134, R304, R310). What an error clause says of the session state (planes, tree, rng, code), which R309 calls
abandoned and no longer defined, is the model's choice, log entry 26. -/
def Obligations.FiveByteVarints : Prop :=
  ∀ (s : State) (v : Nat) (c : Bool), v < 2 ^ 35 → s.readable 40 = true →
    s.peekBytes 5 = (varintBytes 5 v).take 4 ++ [BitVec.ofNat 8 (128 * c.toNat + v % 128)] →
    exec .readVarint s = .next
      (if 2 ^ 32 ≤ v then takeError ⟨.malformedVarint, 2⟩ (s.advance 40)
       else if c then takeError ⟨.malformedVarint, 1⟩ (s.advance 40)
       else (s.advance 40).returning [(v : Int)])

/-- skip_bytes(n) advances the cursor by 8n, or ends the session with the cursor unchanged (R135). What an error
clause says of the session state (planes, tree, rng, code), which R309 calls abandoned and no longer defined, is the
model's choice, log entry 26. -/
def Obligations.SkipBytesTestsTheWholeLength : Prop :=
  ∀ (s : State) (n : Word),
    (s.br.cur.toNat + 8 * n.toNat ≤ s.br.lim.toNat →
      exec (.skipBytes n) s = .next
        { s with br := { s.br with cur := BitVec.ofNat 35 (s.br.cur.toNat + 8 * n.toNat) } }) ∧
    (s.br.lim.toNat < s.br.cur.toNat + 8 * n.toNat →
      exec (.skipBytes n) s = .next (takeError ⟨.truncatedInput, 0⟩ s))

/-- ac_init sets rng to 2^32 - 1 and loads code with the next 32 bits (R151). What an error clause says of the
session state (planes, tree, rng, code), which R309 calls abandoned and no longer defined, is the model's choice,
log entry 26. -/
def Obligations.AcInitLoadsTheWindow : Prop :=
  ∀ (s : State) (i : Instr), i = .acInitOp ∨ i = .acinit →
    (s.readable 32 = true →
      exec i s = .next { s.advance 32 with ac := { rng := 0xFFFFFFFF, code := BitVec.ofNat 32 (s.peek 32) } }) ∧
    (s.inputOwned = true → s.br.cur.toNat ≤ s.br.lim.toNat → s.br.lim.toNat < s.br.cur.toNat + 32 →
      ∃ t, exec i s = .next t ∧ EndsWith ⟨.truncatedInput, 0⟩ s.br.lim s t ∧ t.cm = s.cm)

/-- decode_bit(p) takes the part of the interval the coded value lies in, then refills it, at most two bytes (R152,
R153, R156, R107). What an error clause says of the session state (planes, tree, rng, code), which R309 calls
abandoned and no longer defined, is the model's choice, log entry 26. -/
def Obligations.DecodeBitNarrowsAndRefills : Prop :=
  ∀ (s : State) (p : Ctr), 1 ≤ p.toNat → 2 ^ 24 ≤ s.ac.rng.toNat →
    refills (s.widthAfter p.toNat) ≤ 2 ∧
    (s.readable (8 * refills (s.widthAfter p.toNat)) = true →
      exec (.decodeBit p) s = .next ((s.decided p.toNat).returning [((s.chosen p.toNat).toNat : Int)])) ∧
    (s.inputOwned = true → s.br.cur.toNat ≤ s.br.lim.toNat →
      s.br.lim.toNat < s.br.cur.toNat + 8 * refills (s.widthAfter p.toNat) →
      ∃ t, exec (.decodeBit p) s = .next t ∧ EndsWith ⟨.truncatedInput, 0⟩ s.br.lim s t)

/-- renormalise shifts in exactly the bytes that bring rng to 2^24 or more; one ACBYTE is one such byte (R153, R99).
What an error clause says of the session state (planes, tree, rng, code), which R309 calls abandoned and no longer
defined, is the model's choice, log entry 26. -/
def Obligations.RenormaliseRefillsToTheThreshold : Prop :=
  (∀ s : State, 0 < s.ac.rng.toNat →
    (s.readable (8 * refills s.ac.rng.toNat) = true →
      exec .renormalise s = .next (s.refilled s.ac.rng s.ac.code (refills s.ac.rng.toNat))) ∧
    (s.inputOwned = true → s.br.cur.toNat ≤ s.br.lim.toNat →
      s.br.lim.toNat < s.br.cur.toNat + 8 * refills s.ac.rng.toNat →
      ∃ t, exec .renormalise s = .next t ∧ EndsWith ⟨.truncatedInput, 0⟩ s.br.lim s t)) ∧
  (∀ s : State, s.ac.rng.toNat < 2 ^ 24 → s.readable 8 = true →
    exec .acbyte s = .next (s.refilled s.ac.rng s.ac.code 1))

/-- ctr_update(p, bit) moves the counter by 1/32 of the remaining distance, rounded down (R154). -/
def Obligations.CtrUpdateMovesTowardsTheOutcome : Prop :=
  ∀ (s : State) (p : Ctr),
    exec (.ctrUpdate p false) s = .next (s.returning [((p.toNat + (4096 - p.toNat) / 32 : Nat) : Int)]) ∧
    exec (.ctrUpdate p true) s = .next (s.returning [((p.toNat - p.toNat / 32 : Nat) : Int)])

/-- decode_ctx(K) decides with K's value and then updates K alone; a truncated decision leaves K as it was (R155,
R156, R157, R36, R37). What an error clause says of the session state (planes, tree, rng, code), which R309 calls
abandoned and no longer defined, is the model's choice, log entry 26. That the counters of an arena entry that is no
leaf of the current tree, which R155 and R170 do not have, are used and updated alike is the model's choice, log
entry 30. -/
def Obligations.DecodeCtxUpdatesItsCounter : Prop :=
  (∀ (s : State) (k : CtrRef) (p : Ctr), ctrAt k s = some p → 31 ≤ p.toNat → p.toNat ≤ 4065 →
    2 ^ 24 ≤ s.ac.rng.toNat →
    refills (s.widthAfter p.toNat) ≤ 1 ∧
    (s.readable (8 * refills (s.widthAfter p.toNat)) = true →
      exec (.decodeCtx k) s = .next
        ((setCtr k (ctrUpdate p (s.chosen p.toNat)) (s.decided p.toNat)).returning
          [((s.chosen p.toNat).toNat : Int)])) ∧
    (s.inputOwned = true → s.br.cur.toNat ≤ s.br.lim.toNat →
      s.br.lim.toNat < s.br.cur.toNat + 8 * refills (s.widthAfter p.toNat) →
      ∃ t, exec (.decodeCtx k) s = .next t ∧ EndsWith ⟨.truncatedInput, 0⟩ s.br.lim s t ∧ t.cm = s.cm)) ∧
  (∀ (s : State) (k k' : CtrRef) (p v : Ctr), s.memoryWf = true → ctrAt k s = some p →
    ctrAt k' (setCtr k v s) = if k' = k then some v else ctrAt k' s)

/-- nz_decode returns the integer whose decisions the state takes, and raises E when the exponent reaches the limit
(R102, R171, R173). What an error clause says of the session state (planes, tree, rng, code), which R309 calls
abandoned and no longer defined, is the model's choice, log entry 26. That the counters of an arena entry that is no
leaf of the current tree, which R155 and R170 do not have, are used and updated alike is the model's choice, log
entry 30. -/
def Obligations.NzDecodesTheCodedInteger : Prop :=
  ∀ (k : SetRef) (limit : Nat) (e : Err), wellFormed (.nzDecode k limit e) = true →
    (∀ (s t : State) (v : Int), v.natAbs < 2 ^ limit → takes s (codedInt k v) = some t →
      exec (.nzDecode k limit e) s = .next (t.returning [v])) ∧
    (∀ (s t : State) (neg : Bool), takes s (tooLarge k limit neg) = some t →
      exec (.nzDecode k limit e) s = .next (takeError e t))

/-- Every integer nz_decode answers is below 2^limit and was coded by its one decision sequence (R172, R102). That
the counters of an arena entry that is no leaf of the current tree, which R155 and R170 do not have, are used and
updated alike is the model's choice, log entry 30. -/
def Obligations.NzResultIsUniquelyCoded : Prop :=
  ∀ (k : SetRef) (limit : Nat) (e : Err) (s t : State) (v : Int),
    wellFormed (.nzDecode k limit e) = true → nzDecode k limit e s = .ok v t →
    v.natAbs < 2 ^ limit ∧ takes s (codedInt k v) = some t

/-- ZERO, SIGN, EXP[e] and MANT[i] are one decision each, with the counter their number gives (R100, R102, R105,
R170). For EXP of a leaf with a depth outside 1 .. 16 the limit is the model's choice, log entry 28. What an error
clause says of the session state (planes, tree, rng, code), which R309 calls abandoned and no longer defined, is the
model's choice, log entry 26. That the counters of an arena entry that is no leaf of the current tree, which R155
and R170 do not have, are used and updated alike is the model's choice, log entry 30. -/
def Obligations.NzPartsUseTheirOwnCounters : Prop :=
  ∀ (s t : State) (b : Bool) (j : Nat),
    (takes s [(.metaCtr 8, b)] = some t → exec (.zero .thr) s = .next (t.returning [(b.toNat : Int)])) ∧
    (takes s [(.metaCtr 9, b)] = some t → exec (.sign .thr) s = .next (t.returning [(b.toNat : Int)])) ∧
    (takes s [(.metaCtr (10 + j), b)] = some t → exec (.exp .thr j) s = .next
      (if b = true ∧ 16 ≤ j + 1 then takeError ⟨.corruptTree, 3⟩ t else t.returning [(b.toNat : Int)])) ∧
    (takes s [(.metaCtr (26 + j), b)] = some t →
      exec (.mant .thr j) s = .next (t.returning [(b.toNat : Int)])) ∧
    ∀ n : NodeIdx,
      (takes s [(.leafCtr n 0, b)] = some t → exec (.zero (.leaf n)) s = .next (t.returning [(b.toNat : Int)])) ∧
      (takes s [(.leafCtr n 1, b)] = some t → exec (.sign (.leaf n)) s = .next (t.returning [(b.toNat : Int)])) ∧
      (takes s [(.leafCtr n (2 + j), b)] = some t → exec (.exp (.leaf n) j) s = .next
        (if b = true ∧ s.hdr.depth.toNat ≤ j + 1 then takeError ⟨.corruptPixelValue, 0⟩ t
         else t.returning [(b.toNat : Int)])) ∧
      (takes s [(.leafCtr n (18 + j), b)] = some t →
        exec (.mant (.leaf n) j) s = .next (t.returning [(b.toNat : Int)]))

/-- SPLIT is one decision with META[0]; 1 at depth 12 is CorruptTree(1) (R183, R103, R305). That SPLIT run alone
stands at the depth in the depth register, and that a depth above 12 is taken as 12, is the model's choice, log
entry 15. What an error clause says of the session state (planes, tree, rng, code), which R309 calls abandoned and
no longer defined, is the model's choice, log entry 26. -/
def Obligations.SplitIsOneDecision : Prop :=
  ∀ (s t : State) (b : Bool), takes s [(.metaCtr 0, b)] = some t →
    exec .split s = .next
      (if b = true ∧ 12 ≤ s.cm.depth.toNat then takeError ⟨.corruptTree, 1⟩ t else t.returning [(b.toNat : Int)])

/-- PROP reads the id most significant bit first through META[1..7]; ids 6 and 7 are CorruptTree(2) (R184, R101).
What an error clause says of the session state (planes, tree, rng, code), which R309 calls abandoned and no longer
defined, is the model's choice, log entry 26. -/
def Obligations.PropIsThreeDecisions : Prop :=
  ∀ (s t : State) (b2 b1 b0 : Bool),
    takes s [(.metaCtr 1, b2), (.metaCtr (2 + b2.toNat), b1), (.metaCtr (4 + 2 * b2.toNat + b1.toNat), b0)] = some t →
    exec .prop s = .next
      (if 4 * b2.toNat + 2 * b1.toNat + b0.toNat < 6
       then t.returning [((4 * b2.toNat + 2 * b1.toNat + b0.toNat : Nat) : Int)]
       else takeError ⟨.corruptTree, 2⟩ t)

/-- THR is a near-zero integer with META[8..40] and limit 16; a larger exponent is CorruptTree(3) (R185). What an
error clause says of the session state (planes, tree, rng, code), which R309 calls abandoned and no longer defined,
is the model's choice, log entry 26. -/
def Obligations.ThrIsANearZeroInteger : Prop :=
  (∀ (s t : State) (v : Int), -65535 ≤ v → v ≤ 65535 → takes s (codedInt .thr v) = some t →
    exec .thr s = .next (t.returning [v])) ∧
  (∀ (s t : State) (neg : Bool), takes s (tooLarge .thr 16 neg) = some t →
    exec .thr s = .next (takeError ⟨.corruptTree, 3⟩ t))

/-- NODE and decode_node(d) store the coded subtree in pre-order from the next free arena entry (R103, R182, R187,
R189). That NODE run alone stands at the depth in the depth register is the model's choice, log entry 15. -/
def Obligations.NodeRecordIsStoredInPreOrder : Prop :=
  ∀ (T : TreeShape) (d : Nat) (s t : State), s.memoryWf = true → T.fieldsLegal = true → d + T.height ≤ 12 →
    s.cm.nn.toNat + T.size ≤ 8191 → takes s (codedTree T) = some t →
    ∃ u : State,
      exec (.decodeNode d) s = .next u ∧ (s.cm.depth.toNat = d → exec .node s = .next u) ∧
      u = { t with cm := { t.cm with nodes := u.cm.nodes, nn := s.cm.nn + BitVec.ofNat 14 T.size },
                   ret := [(s.cm.nn.toNat : Int)] } ∧
      treeAt u T s.cm.nn.toNat = true ∧
      (∀ j ∈ leavesFrom T s.cm.nn.toNat, (nodeAt u j).ctr = Vector.replicate 33 2048) ∧
      (∀ j, j < s.cm.nn.toNat ∨ s.cm.nn.toNat + T.size ≤ j → nodeAt u j = nodeAt s j)

/-- A split at depth 12 ends the session with CorruptTree(1) before its property is decoded (R183, R182, R305). That
NODE run alone stands at the depth in the depth register is the model's choice, log entry 15. What an error clause
says of the session state (planes, tree, rng, code), which R309 calls abandoned and no longer defined, is the
model's choice, log entry 26. -/
def Obligations.SplitAtDepthTwelveIsCorrupt : Prop :=
  ∀ s t : State, s.cm.nn.toNat < 8191 → takes s [(.metaCtr 0, true)] = some t →
    ∃ u, exec (.decodeNode 12) s = .next u ∧ (s.cm.depth = 12 → exec .node s = .next u) ∧
      u = takeError ⟨.corruptTree, 1⟩ { t with cm := { t.cm with nn := s.cm.nn + 1 } }

/-- tree_decode and its iterative form build the coded tree from entry 0, with fresh leaf counters (R181, R182,
R188, R187). -/
def Obligations.TreeDecodeBuildsTheCodedTree : Prop :=
  ∀ (T : TreeShape) (s t : State), s.memoryWf = true → T.legal = true →
    takes s.treeStart (codedTree T) = some t →
    ∀ i : Instr, i = .treeDecode ∨ i = .treeDecodeIterative →
    ∃ u : State,
      exec i s = .next u ∧ t.withTree u.cm = u ∧ u.cm.nn.toNat = T.size ∧
      (i = .treeDecode → u.cm.depth = s.cm.depth ∧ u.cm.sp = s.cm.sp ∧ u.cm.ts = s.cm.ts) ∧
      treeAt u T 0 = true ∧
      (∀ j ∈ leavesFrom T 0, (nodeAt u j).ctr = Vector.replicate 33 2048) ∧
      (∀ j, T.size ≤ j → nodeAt u j = nodeAt s j)

/-- The recursive and the iterative form of tree decode do the same on every input (R188). -/
def Obligations.TreeFormsAgree : Prop :=
  ∀ s : State, s.memoryWf = true →
    (∃ t u, treeDecode s = .ok () t ∧ treeDecodeIterative s = .ok () u ∧ t.withTree u.cm = u ∧
      t.cm.nn = u.cm.nn ∧ ∀ j, nodeAt t j = nodeAt u j) ∨
    (∃ t u, treeDecode s = .ended t ∧ treeDecodeIterative s = .ended u ∧ t.withTree u.cm = u)

/-- tree_lookup returns the leaf reached by going left above the threshold and right otherwise (R186). -/
def Obligations.LookupFollowsTheTree : Prop :=
  ∀ (T : TreeShape) (P : PropVec) (s : State), T.legal = true → treeAt s T 0 = true →
    exec (.treeLookup P) s = .next (s.returning [(selectFrom P T 0 : Int)])

/-- MAGIC accepts 46 4C 49 46; the first wrong byte i is BadMagic(i), a proper prefix is TruncatedInput (R201). What
an error clause says of the session state (planes, tree, rng, code), which R309 calls abandoned and no longer
defined, is the model's choice, log entry 26. -/
def Obligations.MagicIsComparedByteByByte : Prop :=
  ∀ (s : State) (i : Instr), i = .magic ∨ i = .parseMagic →
    (s.readable 32 = true → s.peekBytes 4 = [0x46, 0x4C, 0x49, 0x46] → exec i s = .next (s.advance 32)) ∧
    (∀ n, n < 4 → s.readable (8 * (n + 1)) = true →
      s.peekBytes n = List.take n [0x46, 0x4C, 0x49, 0x46] →
      s.peekBytes (n + 1) ≠ List.take (n + 1) [0x46, 0x4C, 0x49, 0x46] →
      exec i s = .next (takeError ⟨.badMagic, BitVec.ofNat 32 n⟩ (s.advance (8 * (n + 1))))) ∧
    (∀ n, n < 4 → s.readable (8 * n) = true → s.br.lim.toNat < s.br.cur.toNat + 8 * (n + 1) →
      s.peekBytes n = List.take n [0x46, 0x4C, 0x49, 0x46] →
      exec i s = .next (takeError ⟨.truncatedInput, 0⟩ s.exhausted))

/-- WIDTH and HEIGHT store their varint; 0 is UnsupportedFeature(1) or (2), more than 2^24 pixels is (12) (R202,
R203, R94, R302). What an error clause says of the session state (planes, tree, rng, code), which R309 calls
abandoned and no longer defined, is the model's choice, log entry 26. -/
def Obligations.DimensionsAreStoredAndChecked : Prop :=
  ∀ (s : State) (v : VarField), v.legal = true → s.readable (8 * v.bytes) = true →
    s.peekBytes v.bytes = v.encode →
    (let t : State := { s.advance (8 * v.bytes) with hdr := { s.hdr with width := BitVec.ofNat 32 v.value } }
     exec .width s = .next (if v.value = 0 then takeError ⟨.unsupportedFeature, 1⟩ t else t)) ∧
    (let t : State := { s.advance (8 * v.bytes) with hdr := { s.hdr with height := BitVec.ofNat 32 v.value } }
     exec .height s = .next
      (if v.value = 0 then takeError ⟨.unsupportedFeature, 2⟩ t
       else if 16777216 < s.hdr.width.toNat * v.value then takeError ⟨.unsupportedFeature, 12⟩ t
       else t))

/-- CHANNELS and DEPTH store their byte; outside 1..4 is UnsupportedFeature(3), outside 1..16 is (4) (R204, R205,
R95). What an error clause says of the session state (planes, tree, rng, code), which R309 calls abandoned and no
longer defined, is the model's choice, log entry 26. -/
def Obligations.ChannelsAndDepthAreChecked : Prop :=
  ∀ s : State, s.readable 8 = true →
    (let t : State := { s.advance 8 with hdr := { s.hdr with channels := BitVec.ofNat 8 (s.peek 8) } }
     exec .channels s = .next
      (if 1 ≤ s.peek 8 ∧ s.peek 8 ≤ 4 then t else takeError ⟨.unsupportedFeature, 3⟩ t)) ∧
    (let t : State := { s.advance 8 with hdr := { s.hdr with depth := BitVec.ofNat 8 (s.peek 8) } }
     exec .depth s = .next
      (if 1 ≤ s.peek 8 ∧ s.peek 8 ≤ 16 then t else takeError ⟨.unsupportedFeature, 4⟩ t))

/-- FLAGS stores its byte and is refused by the first failing check of R206 (R206). What an error clause says of the
session state (planes, tree, rng, code), which R309 calls abandoned and no longer defined, is the model's choice,
log entry 26. -/
def Obligations.FlagsAreCheckedInOrder : Prop :=
  ∀ (s : State) (i : Instr), i = .flags ∨ i = .parseFlags → s.readable 8 = true →
    (let v := s.peek 8
     let t : State := { s.advance 8 with hdr := { s.hdr with flags := BitVec.ofNat 8 v } }
     exec i s = .next
      (if v / 32 ≠ 0 then takeError ⟨.unsupportedFeature, 5⟩ t
       else if v / 16 % 2 = 1 then takeError ⟨.unsupportedFeature, 6⟩ t
       else if 2 ≤ v / 4 % 4 then takeError ⟨.unsupportedFeature, 7⟩ t
       else if v / 4 % 4 = 1 ∧ s.hdr.channels.toNat < 3 then takeError ⟨.unsupportedFeature, 8⟩ t
       else t))

/-- CHORDER is accepted exactly if it names each plane once and is 0 above the channel count (R207). What an error
clause says of the session state (planes, tree, rng, code), which R309 calls abandoned and no longer defined, is the
model's choice, log entry 26. -/
def Obligations.ChorderMustBeAPermutation : Prop :=
  ∀ (s : State) (i : Instr), i = .chorder ∨ i = .parseChorder → s.readable 8 = true →
    (let v := s.peek 8
     let t : State := { s.advance 8 with hdr := { s.hdr with chorder := BitVec.ofNat 8 v } }
     ((∀ k, k < 4 → k < s.C → v / 4 ^ k % 4 < s.C ∧ ∀ j, j < k → v / 4 ^ j % 4 ≠ v / 4 ^ k % 4) ∧
       (∀ k, k < 4 → s.C ≤ k → v / 4 ^ k % 4 = 0) → exec i s = .next t) ∧
     (¬ ((∀ k, k < 4 → k < s.C → v / 4 ^ k % 4 < s.C ∧ ∀ j, j < k → v / 4 ^ j % 4 ≠ v / 4 ^ k % 4) ∧
       (∀ k, k < 4 → s.C ≤ k → v / 4 ^ k % 4 = 0)) →
       exec i s = .next (takeError ⟨.unsupportedFeature, 9⟩ t)))

/-- NFRAMES must be 1; METALEN and METADATA are read, and skipped, exactly if has_meta is set (R208, R209, R98).
What an error clause says of the session state (planes, tree, rng, code), which R309 calls abandoned and no longer
defined, is the model's choice, log entry 26. -/
def Obligations.FramesAndMetadataAreRead : Prop :=
  (∀ (s : State) (v : VarField), v.legal = true → s.readable (8 * v.bytes) = true →
    s.peekBytes v.bytes = v.encode →
    (let t : State := { s.advance (8 * v.bytes) with hdr := { s.hdr with frames := BitVec.ofNat 32 v.value } }
     exec .nframes s = .next
      (if v.value = 0 then takeError ⟨.unsupportedFeature, 10⟩ t
       else if 1 < v.value then takeError ⟨.unsupportedFeature, 11⟩ t
       else t)) ∧
    (s.hdr.flags.getLsbD 1 = true → exec .metalen s = .next
      { s.advance (8 * v.bytes) with hdr := { s.hdr with metalen := BitVec.ofNat 32 v.value } })) ∧
  (∀ s : State, s.hdr.flags.getLsbD 1 = true →
    (s.br.cur.toNat + 8 * s.hdr.metalen.toNat ≤ s.br.lim.toNat →
      exec .metadata s = .next (s.advance (8 * s.hdr.metalen.toNat))) ∧
    (s.br.lim.toNat < s.br.cur.toNat + 8 * s.hdr.metalen.toNat →
      exec .metadata s = .next (takeError ⟨.truncatedInput, 0⟩ s))) ∧
  (∀ s : State, s.hdr.flags.getLsbD 1 = false → exec .metalen s = .next s ∧ exec .metadata s = .next s)

/-- parse_header of the bytes of any legal header stores its fields and stops right after them (R92, R200, R210,
R209). -/
def Obligations.HeaderOfItsEncodingIsParsed : Prop :=
  ∀ (h : HeaderFields) (s : State), h.legal = true → s.readable (8 * h.encode.length) = true →
    s.peekBytes h.encode.length = h.encode →
    exec .parseHeader s = .next
      { s.advance (8 * h.encode.length) with
        hdr := {
          width := BitVec.ofNat 32 h.width.value
          height := BitVec.ofNat 32 h.height.value
          channels := h.channels
          depth := h.depth
          flags := h.flags
          chorder := h.chorder
          frames := 1
          metalen := if h.flags.getLsbD 1 then BitVec.ofNat 32 h.metalen.value else s.hdr.metalen } }

/-- pass_positions returns exactly the positions of the pass inside the image, in raster order (R234). -/
def Obligations.PassPositionsAreItsPositions : Prop :=
  ∀ (s : State) (q : Pass), passOf s.interlaced s.sq.pi.toNat = some q →
    ∃ L : List (Nat × Nat),
      exec .passPositions s = .next (s.returning (L.flatMap fun c => [(c.1 : Int), (c.2 : Int)])) ∧
      (∀ x y, (x, y) ∈ L ↔ x < s.W ∧ y < s.H ∧ ∃ i j, x = q.x0 + i * q.stepx ∧ y = q.y0 + j * q.stepy) ∧
      L.Pairwise (fun a b => rasterBefore a b = true) ∧
      (L = [] ↔ s.W ≤ q.x0 ∨ s.H ≤ q.y0) ∧
      (∀ c, L.head? = some c → c = (q.x0, q.y0)) ∧
      (∀ L1 a b L2, L = L1 ++ a :: b :: L2 → q.advance s.W a.1 a.2 = b) ∧
      (∀ a, L.getLast? = some a → s.H ≤ (q.advance s.W a.1 a.2).2)

/-- Every position of an image belongs to exactly one pass, in either mode (R235, R232, R233). -/
def Obligations.EveryPositionIsInOnePass : Prop :=
  ∀ (interlaced : Bool) (W H x y : Nat), x < W → y < H →
    ∃! i : Nat, ∃ q, passOf interlaced i = some q ∧ q.has W H x y = true

/-- Every position R237 and R238 read for a pixel is inside the image and was decoded before it (R235, R237, R238,
R343). -/
def Obligations.NeighboursComeEarlier : Prop :=
  ∀ (interlaced : Bool) (i W H x y : Nat) (q : Pass), passOf interlaced i = some q → q.has W H x y = true →
    ∀ c ∈ neighbourReads q W H x y, ∃ j r, passOf interlaced j = some r ∧ r.has W H c.1 c.2 = true ∧
      (j < i ∨ j = i ∧ rasterBefore c (x, y) = true)

/-- neighbours and ahead return the values of R237 and R238 (R237, R238). For a depth outside 1 .. 16, which R236
does not have, MID is the model's choice, log entry 28. -/
def Obligations.NeighboursAreReadByR237 : Prop :=
  ∀ (s : State) (q : Pass) (v : Nat → Nat → Nat), PixelReads s q v →
    (let n := neighboursBy q s.W (2 ^ (s.D - 1)) s.sq.x.toNat s.sq.y.toNat v
     exec .neighbours s = .next
      (s.returning [(n.vW : Int), (n.vN : Int), (n.vNW : Int), (n.vNE : Int), (n.vNN : Int), (n.vWW : Int)])) ∧
    exec .ahead s = .next (s.returning
      (match aheadBy q s.W s.H s.sq.x.toNat s.sq.y.toNat v with
       | some a => [1, (a : Int)]
       | none => [0]))

/-- predict returns the average across the gap, or the median of vW, vN and the gradient, within the sample range
(R239). For a depth outside 1 .. 16, which R236 does not have, MID is the model's choice, log entry 28. -/
def Obligations.PredictionIsAverageOrMedian : Prop :=
  ∀ (s : State) (q : Pass) (v : Nat → Nat → Nat), PixelReads s q v →
    (let n := neighboursBy q s.W (2 ^ (s.D - 1)) s.sq.x.toNat s.sq.y.toNat v
     let g : Int := (n.vW : Int) + n.vN - n.vNW
     ∃ pred : Int, exec .predict s = .next (s.returning [pred]) ∧
      (match aheadBy q s.W s.H s.sq.x.toNat s.sq.y.toNat v with
       | some a => pred = (((if q.kind = .V then n.vN else n.vW) + a) / 2 : Nat)
       | none =>
         (pred = n.vW ∨ pred = n.vN ∨ pred = g) ∧
         2 ≤ ([(n.vW : Int), n.vN, g].filter fun z => decide (z ≤ pred)).length ∧
         2 ≤ ([(n.vW : Int), n.vN, g].filter fun z => decide (pred ≤ z)).length) ∧
      (1 ≤ s.D → s.D ≤ 16 →
        (∀ c ∈ neighbourReads q s.W s.H s.sq.x.toNat s.sq.y.toNat, v c.1 c.2 ≤ 2 ^ s.D - 1) →
        0 ≤ pred ∧ pred ≤ 2 ^ s.D - 1))

/-- properties returns the six differences of R240, each within -(2^D - 1) .. 2^D - 1 (R240). For a depth outside 1
.. 16, which R236 does not have, MID is the model's choice, log entry 28. -/
def Obligations.PropertiesAreNeighbourDifferences : Prop :=
  ∀ (s : State) (q : Pass) (v : Nat → Nat → Nat), PixelReads s q v →
    (let n := neighboursBy q s.W (2 ^ (s.D - 1)) s.sq.x.toNat s.sq.y.toNat v
     let p5 : Int := match aheadBy q s.W s.H s.sq.x.toNat s.sq.y.toNat v with
       | some a => (if q.kind = .V then (n.vN : Int) else n.vW) - a
       | none => 0
     let P : List Int := [(n.vW : Int) - n.vNW, (n.vNW : Int) - n.vN, (n.vN : Int) - n.vNE, (n.vNN : Int) - n.vN,
       (n.vWW : Int) - n.vW, p5]
     exec .properties s = .next (s.returning P) ∧
     (1 ≤ s.D → s.D ≤ 16 →
       (∀ c ∈ neighbourReads q s.W s.H s.sq.x.toNat s.sq.y.toNat, v c.1 c.2 ≤ 2 ^ s.D - 1) →
       ∀ d ∈ P, -(2 ^ s.D - 1) ≤ d ∧ d ≤ 2 ^ s.D - 1) ∧
     (neighbourReads q s.W s.H s.sq.x.toNat s.sq.y.toNat = [] → P = [0, 0, 0, 0, 0, 0]))

/-- decode_pixel and RESID write clamp(pred + r) at (p, x, y) alone, or raise CorruptPixelValue(0) (R241). What an
error clause says of the session state (planes, tree, rng, code), which R309 calls abandoned and no longer defined,
is the model's choice, log entry 26. -/
def Obligations.PixelIsPredictionPlusResidual : Prop :=
  ∀ (s : State) (q : Pass) (v : Nat → Nat → Nat) (T : TreeShape) (i : Instr),
    i = .decodePixel ∨ i = .resid → PixelReads s q v → s.sq.p.toNat < 4 → 1 ≤ s.D → s.D ≤ 16 →
    T.legal = true → treeAt s T 0 = true →
    (let nb := neighboursBy q s.W (2 ^ (s.D - 1)) s.sq.x.toNat s.sq.y.toNat v
     let a := aheadBy q s.W s.H s.sq.x.toNat s.sq.y.toNat v
     let leaf : SetRef := .leaf (BitVec.ofNat 13 (selectFrom (propertiesFrom q.kind nb a) T 0))
     (∀ (t : State) (r : Int), r.natAbs < 2 ^ s.D → takes s (codedInt leaf r) = some t →
       ∃ u, exec i s = .next u ∧ u = { t with plane := u.plane } ∧
        sampleAt u s.sq.p.toNat s.sq.y.toNat s.sq.x.toNat =
          .ok (max 0 (min (predictFrom q.kind nb a + r) (2 ^ s.D - 1))).toNat ∧
        ∀ p' y' x', y' < 2 ^ 32 → x' < 2 ^ 32 →
          ¬ (p' = s.sq.p.toNat ∧ y' = s.sq.y.toNat ∧ x' = s.sq.x.toNat) →
          sampleAt u p' y' x' = sampleAt s p' y' x') ∧
     (∀ (t : State) (neg : Bool), takes s (tooLarge leaf s.D neg) = some t →
       exec i s = .next (takeError ⟨.corruptPixelValue, 0⟩ t)))

/-- assemble writes every channel of every pixel at its word, and the host reads it there (R270, R272, R273, R274,
R275, R63). That every working register, plane and tree keeps its value after the finished session, where U4 allows
any value, is the model's choice, log entry 26. So are the word's low 16 bits for a depth above 16 (log entry 28)
and the transform with fewer than three planes (log entry 29). -/
def Obligations.AssembleWritesTheImage : Prop :=
  ∀ (s : State) (v : Nat → Nat → Nat → Nat), s.sq.planesDone.toNat = s.C → 1 ≤ s.C → s.C ≤ 4 →
    s.W * s.H ≤ 16777216 →
    (∀ q, q < s.C → s.sq.plW[q]? = some s.hdr.width ∧ s.sq.plH[q]? = some s.hdr.height) →
    (∀ q x y, q < s.C → x < s.W → y < s.H → sampleAt s q y x = .ok (v q x y)) →
    (∀ k, k < s.C → (s.order k).toNat < s.C) →
    ∃ t, exec .assemble s = .next t ∧
      t = { s with
        host := { s.host with
          outWidth := s.hdr.width, outHeight := s.hdr.height, outChannels := BitVec.setWidth 32 s.hdr.channels,
          outDepth := BitVec.setWidth 32 s.hdr.depth, bitsLo := s.br.cur.extractLsb' 0 32,
          bitsHi := s.br.cur.extractLsb' 32 3, status := 0b010 }
        sq := { s.sq with seq := .doneOk }
        output := t.output } ∧
      ∀ x y k, x < s.W → y < s.H → k < s.C →
        (let q := (s.order k).toNat
         let z := if s.tid = 1 ∧ (q = 1 ∨ q = 2) then (v q x y + v 0 x y) % 2 ^ s.D else v q x y
         Store.get? t.output ((y * s.W + x) * s.C + k) = some (BitVec.ofNat 16 z) ∧
         exec (.readOutput (BitVec.ofNat 26 ((y * s.W + x) * s.C + k))) t =
          .next { t with busData := BitVec.setWidth 32 (BitVec.ofNat 16 z) })

/-- assemble raises ChannelCountMismatch before it writes a word (R271). What an error clause says of the session
state (planes, tree, rng, code), which R309 calls abandoned and no longer defined, is the model's choice, log entry
26. -/
def Obligations.AssembleChecksThePlanes : Prop :=
  ∀ s : State,
    (s.sq.planesDone.toNat ≠ s.C → exec .assemble s = .next (takeError ⟨.channelCountMismatch, 1⟩ s)) ∧
    (s.sq.planesDone.toNat = s.C → s.C ≤ 4 →
      (∃ q w h, q < s.C ∧ s.sq.plW[q]? = some w ∧ s.sq.plH[q]? = some h ∧ (w ≠ s.hdr.width ∨ h ≠ s.hdr.height)) →
      exec .assemble s = .next (takeError ⟨.channelCountMismatch, 2⟩ s))

/-- sequencer_step waits in IDLE and DONE, and moves through passes and planes as R245 says (R245, R230). -/
def Obligations.SequencerWaitsAndKeepsTheBooks : Prop :=
  (∀ s : State, s.sq.seq = .idle ∨ s.sq.seq = .doneOk ∨ s.sq.seq = .doneErr → exec .sequencerStep s = .next s) ∧
  (∀ (s : State) (q : Pass), s.sq.seq = .passComplete → passOf s.interlaced (s.sq.pi.toNat + 1) = some q →
    exec .sequencerStep s = .next { s with sq := { s.sq with
      pi := s.sq.pi + 1, x := BitVec.ofNat 32 q.x0, y := BitVec.ofNat 32 q.y0,
      seq := if q.x0 < s.W ∧ q.y0 < s.H then .reconstructingPass else .passComplete } }) ∧
  (∀ s : State, s.sq.seq = .passComplete → s.sq.pi.toNat + 1 = (if s.hdr.flags.getLsbD 0 then 9 else 1) →
    exec .sequencerStep s = .next { s with sq := { s.sq with pi := s.sq.pi + 1, seq := .planeComplete } }) ∧
  (∀ s : State, s.sq.seq = .planeComplete → s.sq.p.toNat ≤ 3 →
    exec .sequencerStep s = .next { s with sq := { s.sq with
      planesDone := s.sq.planesDone + 1, p := s.sq.p + 1,
      seq := if s.sq.p.toNat + 1 < s.C then .awaitingTree else .assemble } })

/-- sequencer_step is the element of the state followed by the transition of R245; an error stays in DONE_ERR (R245,
R41, R309, R188). R245 names tree_decode() in AWAITING_TREE; that the turn runs its iterative form, which R188 says
is equivalent, and so leaves depth, sp and TS as that form does, is log entry 12. -/
def Obligations.SequencerRunsTheElementOfItsState : Prop :=
  (∀ (s t : State) (i : Instr) (q : Seq),
    (s.sq.seq, i, q) ∈ ([(.hdrMagic, .magic, .hdrWidth), (.hdrWidth, .width, .hdrHeight),
      (.hdrHeight, .height, .hdrChannels), (.hdrChannels, .channels, .hdrDepth), (.hdrDepth, .depth, .hdrFlags),
      (.hdrFlags, .flags, .hdrChorder), (.hdrChorder, .chorder, .hdrFrames), (.hdrFrames, .nframes, .hdrMeta)] :
        List (Seq × Instr × Seq)) →
    exec i s = .next t →
    exec .sequencerStep s = .next (if t.sq.seq = .doneErr then t else { t with sq := { t.sq with seq := q } })) ∧
  (∀ s t : State, s.sq.seq = .hdrMeta → exec .metalen s = .next t →
    (t.sq.seq = .doneErr → exec .sequencerStep s = .next t) ∧
    (∀ u, t.sq.seq ≠ .doneErr → exec .metadata t = .next u →
      exec .sequencerStep s = .next (if u.sq.seq = .doneErr then u else { u with sq := { u.sq with seq := .acInit } }))) ∧
  (∀ s t : State, s.sq.seq = .acInit → exec .acinit s = .next t →
    exec .sequencerStep s = .next (if t.sq.seq = .doneErr then t
      else { t with sq := { t.sq with p := 0, planesDone := 0, seq := .awaitingTree } })) ∧
  (∀ s t : State, s.sq.seq = .awaitingTree → s.sq.p.toNat < 4 → 1 ≤ s.W → 1 ≤ s.H →
    exec .treeDecodeIterative { s with sq := { s.sq with
      plW := s.sq.plW.setIfInBounds s.sq.p.toNat s.hdr.width
      plH := s.sq.plH.setIfInBounds s.sq.p.toNat s.hdr.height } } = .next t →
    exec .sequencerStep s = .next (if t.sq.seq = .doneErr then t
      else { t with sq := { t.sq with pi := 0, x := 0, y := 0, seq := .reconstructingPass } })) ∧
  (∀ (s t : State) (q : Pass), s.sq.seq = .reconstructingPass → passOf s.interlaced s.sq.pi.toNat = some q →
    s.W ≤ 16777216 → s.H ≤ 16777216 → s.sq.x.toNat < s.W → s.sq.y.toNat < s.H →
    exec .resid s = .next t →
    (let nextRow := s.W ≤ s.sq.x.toNat + q.stepx
     let y' := if nextRow then s.sq.y.toNat + q.stepy else s.sq.y.toNat
     exec .sequencerStep s = .next (if t.sq.seq = .doneErr then t
      else { t with sq := { t.sq with
        x := BitVec.ofNat 32 (if nextRow then q.x0 else s.sq.x.toNat + q.stepx)
        y := BitVec.ofNat 32 y'
        seq := if y' < s.H then .reconstructingPass else .passComplete } }))) ∧
  (∀ s : State, s.sq.seq = .assemble → exec .sequencerStep s = exec .assemble s)

/-- plane_loop is the turns of the sequencer from the first plane's tree up to ASSEMBLE (R231, R245). Where
plane_loop, run alone, begins and ends, and its bound of C*(W*H + 11) turns, are the model's reading, log entry 22.
-/
def Obligations.PlaneLoopRunsItsTurns : Prop :=
  ∀ (s t : State) (n : Nat), 1 ≤ s.C → n ≤ s.C * (s.W * s.H + 11) →
    turnsTo n { s with sq := { s.sq with p := 0, planesDone := 0, seq := .awaitingTree } } = some t →
    t.sq.seq = .assemble → exec .planeLoop s = .next t

/-- Every step keeps the canonical form of INPUT, OUTPUT, PLANE and NODE (R43, R61, R63, R38, R37). That RESET
empties NODE, PLANE and OUTPUT is the model's choice of reset values, log entry 8 (R46 leaves these registers
unspecified). -/
def Obligations.MemoriesStayCanonical : Prop :=
  ∀ s t : State, s.memoryWf = true → step s = .next t → t.memoryWf = true

/-- Every step keeps cur <= lim <= 8(2^31 - 1), and cur moves back only by START or reset (R136, R32). That RESET
sets cur, base and lim to 0 is the model's choice, log entry 8. -/
def Obligations.CursorStaysInTheInput : Prop :=
  (∀ s t : State, cursorInv s = true → step s = .next t → cursorInv t = true) ∧
  (∀ s t : State, step s = .next t →
    t.br.base = s.br.base ∧ t.br.lim = s.br.lim ∧ s.br.cur.toNat ≤ t.br.cur.toNat ∨
      t.br.cur = 0 ∧ ∃ i, decode s.busy (nextIssue s).1 = .ok i ∧
        (i = .reset ∨ s.busy = false ∧ ∃ hi, i = .decode hi ∨ i = .startWhileBusy hi))

/-- Every step keeps every adaptive counter within 31 .. 4065 (R157, R154). That the counters are in range after
RESET, all at 2048, is the model's choice of reset values, log entry 8 (R46 leaves these registers unspecified). -/
def Obligations.CountersStayInRange : Prop :=
  ∀ s t : State, countersInv s = true → step s = .next t → countersInv t = true

/-- Every step of a host-driven machine keeps STATUS, the results, the parsed header, alignment and rng in order
(R24, R289, R210, R137, R156, R30). That cur and lim are multiples of 8 after RESET, both 0, is the model's choice
of reset values, log entry 8 (R46 leaves these registers unspecified). -/
def Obligations.SessionInvariantIsKept : Prop :=
  ∀ s t : State, sessionInv s = true → step s = .next t → sessionInv t = true

/-- The reset state meets every invariant (R46, R340). That cur, lim and the counters are as the invariants say, 0
and 2048, is the model's choice of reset values, log entry 8 (R46 leaves these registers unspecified). -/
def Obligations.ResetMeetsTheInvariants : Prop :=
  State.reset.memoryWf = true ∧ cursorInv State.reset = true ∧ countersInv State.reset = true ∧
    sessionInv State.reset = true ∧ progressInv State.reset

/-- A host-driven machine never faults and is never refused: no step reads what was not written (R20, R38, R67,
R235, R321). That the session invariant holds after RESET rests on cur = lim = 0, which is the model's choice of
reset values, log entry 8 (R46 leaves these registers unspecified). -/
def Obligations.SessionsNeverFault : Prop :=
  ∀ s : State, s.memoryWf = true → sessionInv s = true → progressInv s →
    ∃ t, step s = .next t ∧ t.memoryWf = true ∧ sessionInv t = true ∧ progressInv t

/-- Whatever moves the host makes and whatever bytes it writes, no run from reset faults or is refused (R321, R67,
R285). The runs start at the model's reset values, log entry 8 (R46 leaves the working registers unspecified), and
no claim about another start is made. -/
def Obligations.HostRunsAreSafe : Prop :=
  ∀ (q : List Issue) (k : Nat), hostDriven q = true → RunsSafely k (State.reset.withInputs q)

/-- Only the host writes INPUT, IN_HANDLE and IN_SIZE; only assembling, START and reset touch their part (R24, R25,
R26, R61, R71, R276, R315). That RESET leaves INPUT as it is is the model's reading, log entry 17. -/
def Obligations.WhoWritesWhat : Prop :=
  ∀ (i : Instr) (s t : State), wellFormed i = true → exec i s = .next t →
    ((∀ a b, i ≠ .writeInput a b) → t.input = s.input) ∧
    ((∀ v, i ≠ .writeInHandle v) → i ≠ .reset → t.host.inHandle = s.host.inHandle) ∧
    ((∀ v, i ≠ .writeInSize v) → i ≠ .reset → t.host.inSize = s.host.inSize) ∧
    (i ≠ .assemble → ¬(i = .sequencerStep ∧ s.sq.seq = .assemble) → i ≠ .reset → t.output = s.output) ∧
    ((∀ hi, i ≠ .decode hi ∧ i ≠ .startWhileBusy hi) → i ≠ .reset →
      t.br.base = s.br.base ∧ t.br.lim = s.br.lim) ∧
    (t.host.status = s.host.status ∨ t.host.status = 0b001 ∧ (∃ hi, i = .decode hi ∨ i = .startWhileBusy hi) ∨
      t.host.status = 0 ∧ i = .reset ∨ t.host.status = 0b010 ∧ t.sq.seq = .doneOk ∨
      t.host.status = 0b110 ∧ t.sq.seq = .doneErr)

/-- A running session reaches DONE_OK or DONE_ERR within a bounded number of turns, whatever its input holds (R345,
R244, R321). -/
def Obligations.EverySessionEnds : Prop :=
  ∀ s : State, s.memoryWf = true → sessionInv s = true → progressInv s → s.inputs = [] → s.sq.seq ≠ .idle →
    ∃ (k : Nat) (t : State), k ≤ 11 + 4 * (9 * (16777216 + 1) + 2) ∧ Host.Core.run Sys2Proof.core k s = .next t ∧
      (t.sq.seq = .doneOk ∨ t.sq.seq = .doneErr) ∧ t.host.status.getLsbD 1 = true ∧ t.host.status.getLsbD 0 = false

/-- plane_loop completes in ASSEMBLE with the image whose trees and residuals the state's decisions code (R231,
R234, R237, R239, R240, R241, R186, R187, R181, R39). Where plane_loop, run alone, begins and ends is the model's
reading, log entry 22. -/
def Obligations.PlaneLoopDecodesTheCodedImage : Prop :=
  ∀ (s t : State) (T : Nat → TreeShape) (v : Nat → Nat → Nat → Nat), s.memoryWf = true →
    1 ≤ s.W → 1 ≤ s.H → s.W * s.H ≤ 16777216 → 1 ≤ s.C → s.C ≤ 4 → 1 ≤ s.D → s.D ≤ 16 →
    (∀ p, p < s.C → (T p).legal = true) →
    (∀ p x y, p < s.C → x < s.W → y < s.H → v p x y < 2 ^ s.D) →
    planesTake s ((List.range s.C).map fun p =>
      (T p, codedPixels s.interlaced s.W s.H s.D (T p) (v p))) = some t →
    ∃ u, exec .planeLoop s = .next u ∧ u = { t with cm := u.cm, sq := u.sq, plane := u.plane } ∧
      u.sq.seq = .assemble ∧ u.sq.p.toNat = s.C ∧ u.sq.planesDone.toNat = s.C ∧
      (∀ q, q < s.C → u.sq.plW[q]? = some s.hdr.width ∧ u.sq.plH[q]? = some s.hdr.height) ∧
      (∀ q, s.C ≤ q → u.sq.plW[q]? = s.sq.plW[q]? ∧ u.sq.plH[q]? = s.sq.plH[q]?) ∧
      ∀ p x y, x < 2 ^ 32 → y < 2 ^ 32 →
        sampleAt u p y x = if p < s.C ∧ x < s.W ∧ y < s.H then .ok (v p x y) else sampleAt s p y x
end

