-- ==== Sys2Proof/Laws/State.lean ====
section
/-! SUPPORT. The fields of a state after each named update: one lemma per field, true by `rfl`, so that no proof
unfolds a record update. -/

namespace Sys2Proof.Machine

/-! ### `drawn` -/

@[simp] theorem drawn_host (s : State) : (drawn s).host = s.host := rfl

@[simp] theorem drawn_br (s : State) : (drawn s).br = s.br := rfl

@[simp] theorem drawn_ac (s : State) : (drawn s).ac = s.ac := rfl

@[simp] theorem drawn_hdr (s : State) : (drawn s).hdr = s.hdr := rfl

@[simp] theorem drawn_sq (s : State) : (drawn s).sq = s.sq := rfl

@[simp] theorem drawn_cm (s : State) : (drawn s).cm = s.cm := rfl

@[simp] theorem drawn_plane (s : State) : (drawn s).plane = s.plane := rfl

@[simp] theorem drawn_input (s : State) : (drawn s).input = s.input := rfl

@[simp] theorem drawn_output (s : State) : (drawn s).output = s.output := rfl

@[simp] theorem drawn_stale (s : State) : (drawn s).stale = s.stale := rfl

@[simp] theorem drawn_inputs (s : State) : (drawn s).inputs = s.inputs := rfl

@[simp] theorem drawn_ret (s : State) : (drawn s).ret = s.ret := rfl

@[simp] theorem drawn_busData (s : State) : (drawn s).busData = s.busData := rfl

@[simp] theorem drawn_freeCount (s : State) : (drawn s).freeCount = s.freeCount + 1 := rfl

/-! ### `takeError` -/

@[simp] theorem takeError_host (e : Err) (s : State) :
    (takeError e s).host = { s.host with errCode := e.kind.code, errInfo := e.info, bitsLo := s.br.cur.extractLsb' 0 32, bitsHi := s.br.cur.extractLsb' 32 3, status := statusErr } := rfl

@[simp] theorem takeError_br (e : Err) (s : State) : (takeError e s).br = s.br := rfl

@[simp] theorem takeError_ac (e : Err) (s : State) : (takeError e s).ac = s.ac := rfl

@[simp] theorem takeError_hdr (e : Err) (s : State) : (takeError e s).hdr = s.hdr := rfl

@[simp] theorem takeError_sq (e : Err) (s : State) : (takeError e s).sq = { s.sq with seq := .doneErr } := rfl

@[simp] theorem takeError_cm (e : Err) (s : State) : (takeError e s).cm = s.cm := rfl

@[simp] theorem takeError_plane (e : Err) (s : State) : (takeError e s).plane = s.plane := rfl

@[simp] theorem takeError_input (e : Err) (s : State) : (takeError e s).input = s.input := rfl

@[simp] theorem takeError_output (e : Err) (s : State) : (takeError e s).output = s.output := rfl

@[simp] theorem takeError_stale (e : Err) (s : State) : (takeError e s).stale = s.stale := rfl

@[simp] theorem takeError_inputs (e : Err) (s : State) : (takeError e s).inputs = s.inputs := rfl

@[simp] theorem takeError_ret (e : Err) (s : State) : (takeError e s).ret = s.ret := rfl

@[simp] theorem takeError_busData (e : Err) (s : State) : (takeError e s).busData = s.busData := rfl

@[simp] theorem takeError_freeCount (e : Err) (s : State) : (takeError e s).freeCount = s.freeCount := rfl

/-! ### `startSession` -/

@[simp] theorem startSession_host (s : State) :
    (startSession s).host = { s.host with status := statusBusy, errCode := 0, errInfo := 0, outWidth := 0, outHeight := 0, outChannels := 0, outDepth := 0, bitsLo := 0, bitsHi := 0 } := rfl

@[simp] theorem startSession_br (s : State) :
    (startSession s).br = { base := s.host.inHandle, lim := limitOf s.host.inSize, cur := 0 } := rfl

@[simp] theorem startSession_ac (s : State) : (startSession s).ac = s.ac := rfl

@[simp] theorem startSession_hdr (s : State) : (startSession s).hdr = s.hdr := rfl

@[simp] theorem startSession_sq (s : State) :
    (startSession s).sq = { s.sq with seq := .hdrMagic, p := 0, planesDone := 0 } := rfl

@[simp] theorem startSession_cm (s : State) : (startSession s).cm = { s.cm with nn := 0 } := rfl

@[simp] theorem startSession_plane (s : State) : (startSession s).plane = [] := rfl

@[simp] theorem startSession_input (s : State) : (startSession s).input = s.input := rfl

@[simp] theorem startSession_output (s : State) : (startSession s).output = s.output := rfl

@[simp] theorem startSession_stale (s : State) : (startSession s).stale = [] := rfl

@[simp] theorem startSession_inputs (s : State) : (startSession s).inputs = s.inputs := rfl

@[simp] theorem startSession_ret (s : State) : (startSession s).ret = s.ret := rfl

@[simp] theorem startSession_busData (s : State) : (startSession s).busData = s.busData := rfl

@[simp] theorem startSession_freeCount (s : State) : (startSession s).freeCount = s.freeCount := rfl

/-! ### `resetBlock` -/

@[simp] theorem resetBlock_host (s : State) : (resetBlock s).host = HostRegs.reset := rfl

@[simp] theorem resetBlock_br (s : State) : (resetBlock s).br = { base := 0, lim := 0, cur := 0 } := rfl

@[simp] theorem resetBlock_ac (s : State) : (resetBlock s).ac = State.reset.ac := rfl

@[simp] theorem resetBlock_hdr (s : State) : (resetBlock s).hdr = State.reset.hdr := rfl

@[simp] theorem resetBlock_sq (s : State) : (resetBlock s).sq = State.reset.sq := rfl

@[simp] theorem resetBlock_cm (s : State) : (resetBlock s).cm = State.reset.cm := rfl

@[simp] theorem resetBlock_plane (s : State) : (resetBlock s).plane = [] := rfl

@[simp] theorem resetBlock_input (s : State) : (resetBlock s).input = s.input := rfl

@[simp] theorem resetBlock_output (s : State) : (resetBlock s).output = [] := rfl

@[simp] theorem resetBlock_stale (s : State) : (resetBlock s).stale = [] := rfl

@[simp] theorem resetBlock_inputs (s : State) : (resetBlock s).inputs = s.inputs := rfl

@[simp] theorem resetBlock_ret (s : State) : (resetBlock s).ret = s.ret := rfl

@[simp] theorem resetBlock_busData (s : State) : (resetBlock s).busData = s.busData := rfl

@[simp] theorem resetBlock_freeCount (s : State) : (resetBlock s).freeCount = s.freeCount := rfl

/-! ### `setNode` -/

@[simp] theorem setNode_host (n : Nat) (v : Node) (s : State) : (setNode n v s).host = s.host := rfl

@[simp] theorem setNode_br (n : Nat) (v : Node) (s : State) : (setNode n v s).br = s.br := rfl

@[simp] theorem setNode_ac (n : Nat) (v : Node) (s : State) : (setNode n v s).ac = s.ac := rfl

@[simp] theorem setNode_hdr (n : Nat) (v : Node) (s : State) : (setNode n v s).hdr = s.hdr := rfl

@[simp] theorem setNode_sq (n : Nat) (v : Node) (s : State) : (setNode n v s).sq = s.sq := rfl

@[simp] theorem setNode_cm (n : Nat) (v : Node) (s : State) :
    (setNode n v s).cm = { s.cm with nodes := if v = Node.fresh then Store.remove s.cm.nodes n else Store.put s.cm.nodes n v } := rfl

@[simp] theorem setNode_plane (n : Nat) (v : Node) (s : State) : (setNode n v s).plane = s.plane := rfl

@[simp] theorem setNode_input (n : Nat) (v : Node) (s : State) : (setNode n v s).input = s.input := rfl

@[simp] theorem setNode_output (n : Nat) (v : Node) (s : State) : (setNode n v s).output = s.output := rfl

@[simp] theorem setNode_stale (n : Nat) (v : Node) (s : State) : (setNode n v s).stale = s.stale := rfl

@[simp] theorem setNode_inputs (n : Nat) (v : Node) (s : State) : (setNode n v s).inputs = s.inputs := rfl

@[simp] theorem setNode_ret (n : Nat) (v : Node) (s : State) : (setNode n v s).ret = s.ret := rfl

@[simp] theorem setNode_busData (n : Nat) (v : Node) (s : State) : (setNode n v s).busData = s.busData := rfl

@[simp] theorem setNode_freeCount (n : Nat) (v : Node) (s : State) : (setNode n v s).freeCount = s.freeCount := rfl

/-! ### `resetMeta` -/

@[simp] theorem resetMeta_host (s : State) : (resetMeta s).host = s.host := rfl

@[simp] theorem resetMeta_br (s : State) : (resetMeta s).br = s.br := rfl

@[simp] theorem resetMeta_ac (s : State) : (resetMeta s).ac = s.ac := rfl

@[simp] theorem resetMeta_hdr (s : State) : (resetMeta s).hdr = s.hdr := rfl

@[simp] theorem resetMeta_sq (s : State) : (resetMeta s).sq = s.sq := rfl

@[simp] theorem resetMeta_cm (s : State) :
    (resetMeta s).cm = { s.cm with metaCtx := Vector.replicate 41 Config.probInit } := rfl

@[simp] theorem resetMeta_plane (s : State) : (resetMeta s).plane = s.plane := rfl

@[simp] theorem resetMeta_input (s : State) : (resetMeta s).input = s.input := rfl

@[simp] theorem resetMeta_output (s : State) : (resetMeta s).output = s.output := rfl

@[simp] theorem resetMeta_stale (s : State) : (resetMeta s).stale = s.stale := rfl

@[simp] theorem resetMeta_inputs (s : State) : (resetMeta s).inputs = s.inputs := rfl

@[simp] theorem resetMeta_ret (s : State) : (resetMeta s).ret = s.ret := rfl

@[simp] theorem resetMeta_busData (s : State) : (resetMeta s).busData = s.busData := rfl

@[simp] theorem resetMeta_freeCount (s : State) : (resetMeta s).freeCount = s.freeCount := rfl

/-! ### `writeHeader` -/

@[simp] theorem writeHeader_host (f : Header → Header) (s : State) : (writeHeader f s).host = s.host := rfl

@[simp] theorem writeHeader_br (f : Header → Header) (s : State) : (writeHeader f s).br = s.br := rfl

@[simp] theorem writeHeader_ac (f : Header → Header) (s : State) : (writeHeader f s).ac = s.ac := rfl

@[simp] theorem writeHeader_hdr (f : Header → Header) (s : State) : (writeHeader f s).hdr = f s.hdr := rfl

@[simp] theorem writeHeader_sq (f : Header → Header) (s : State) : (writeHeader f s).sq = s.sq := rfl

@[simp] theorem writeHeader_cm (f : Header → Header) (s : State) : (writeHeader f s).cm = s.cm := rfl

@[simp] theorem writeHeader_plane (f : Header → Header) (s : State) : (writeHeader f s).plane = s.plane := rfl

@[simp] theorem writeHeader_input (f : Header → Header) (s : State) : (writeHeader f s).input = s.input := rfl

@[simp] theorem writeHeader_output (f : Header → Header) (s : State) : (writeHeader f s).output = s.output := rfl

@[simp] theorem writeHeader_stale (f : Header → Header) (s : State) : (writeHeader f s).stale = s.stale := rfl

@[simp] theorem writeHeader_inputs (f : Header → Header) (s : State) : (writeHeader f s).inputs = s.inputs := rfl

@[simp] theorem writeHeader_ret (f : Header → Header) (s : State) : (writeHeader f s).ret = s.ret := rfl

@[simp] theorem writeHeader_busData (f : Header → Header) (s : State) : (writeHeader f s).busData = s.busData := rfl

@[simp] theorem writeHeader_freeCount (f : Header → Header) (s : State) :
    (writeHeader f s).freeCount = s.freeCount := rfl

/-! ### `gotoSeq` -/

@[simp] theorem gotoSeq_host (q : Seq) (s : State) : (gotoSeq q s).host = s.host := rfl

@[simp] theorem gotoSeq_br (q : Seq) (s : State) : (gotoSeq q s).br = s.br := rfl

@[simp] theorem gotoSeq_ac (q : Seq) (s : State) : (gotoSeq q s).ac = s.ac := rfl

@[simp] theorem gotoSeq_hdr (q : Seq) (s : State) : (gotoSeq q s).hdr = s.hdr := rfl

@[simp] theorem gotoSeq_sq (q : Seq) (s : State) : (gotoSeq q s).sq = { s.sq with seq := q } := rfl

@[simp] theorem gotoSeq_cm (q : Seq) (s : State) : (gotoSeq q s).cm = s.cm := rfl

@[simp] theorem gotoSeq_plane (q : Seq) (s : State) : (gotoSeq q s).plane = s.plane := rfl

@[simp] theorem gotoSeq_input (q : Seq) (s : State) : (gotoSeq q s).input = s.input := rfl

@[simp] theorem gotoSeq_output (q : Seq) (s : State) : (gotoSeq q s).output = s.output := rfl

@[simp] theorem gotoSeq_stale (q : Seq) (s : State) : (gotoSeq q s).stale = s.stale := rfl

@[simp] theorem gotoSeq_inputs (q : Seq) (s : State) : (gotoSeq q s).inputs = s.inputs := rfl

@[simp] theorem gotoSeq_ret (q : Seq) (s : State) : (gotoSeq q s).ret = s.ret := rfl

@[simp] theorem gotoSeq_busData (q : Seq) (s : State) : (gotoSeq q s).busData = s.busData := rfl

@[simp] theorem gotoSeq_freeCount (q : Seq) (s : State) : (gotoSeq q s).freeCount = s.freeCount := rfl

/-! ### `moveTo` -/

@[simp] theorem moveTo_host (xy : Nat × Nat) (s : State) : (moveTo xy s).host = s.host := rfl

@[simp] theorem moveTo_br (xy : Nat × Nat) (s : State) : (moveTo xy s).br = s.br := rfl

@[simp] theorem moveTo_ac (xy : Nat × Nat) (s : State) : (moveTo xy s).ac = s.ac := rfl

@[simp] theorem moveTo_hdr (xy : Nat × Nat) (s : State) : (moveTo xy s).hdr = s.hdr := rfl

@[simp] theorem moveTo_sq (xy : Nat × Nat) (s : State) :
    (moveTo xy s).sq = { s.sq with x := BitVec.ofNat 32 xy.1, y := BitVec.ofNat 32 xy.2 } := rfl

@[simp] theorem moveTo_cm (xy : Nat × Nat) (s : State) : (moveTo xy s).cm = s.cm := rfl

@[simp] theorem moveTo_plane (xy : Nat × Nat) (s : State) : (moveTo xy s).plane = s.plane := rfl

@[simp] theorem moveTo_input (xy : Nat × Nat) (s : State) : (moveTo xy s).input = s.input := rfl

@[simp] theorem moveTo_output (xy : Nat × Nat) (s : State) : (moveTo xy s).output = s.output := rfl

@[simp] theorem moveTo_stale (xy : Nat × Nat) (s : State) : (moveTo xy s).stale = s.stale := rfl

@[simp] theorem moveTo_inputs (xy : Nat × Nat) (s : State) : (moveTo xy s).inputs = s.inputs := rfl

@[simp] theorem moveTo_ret (xy : Nat × Nat) (s : State) : (moveTo xy s).ret = s.ret := rfl

@[simp] theorem moveTo_busData (xy : Nat × Nat) (s : State) : (moveTo xy s).busData = s.busData := rfl

@[simp] theorem moveTo_freeCount (xy : Nat × Nat) (s : State) : (moveTo xy s).freeCount = s.freeCount := rfl

/-! ### `onBus` -/

@[simp] theorem onBus_host (v : Word) (s : State) : (onBus v s).host = s.host := rfl

@[simp] theorem onBus_br (v : Word) (s : State) : (onBus v s).br = s.br := rfl

@[simp] theorem onBus_ac (v : Word) (s : State) : (onBus v s).ac = s.ac := rfl

@[simp] theorem onBus_hdr (v : Word) (s : State) : (onBus v s).hdr = s.hdr := rfl

@[simp] theorem onBus_sq (v : Word) (s : State) : (onBus v s).sq = s.sq := rfl

@[simp] theorem onBus_cm (v : Word) (s : State) : (onBus v s).cm = s.cm := rfl

@[simp] theorem onBus_plane (v : Word) (s : State) : (onBus v s).plane = s.plane := rfl

@[simp] theorem onBus_input (v : Word) (s : State) : (onBus v s).input = s.input := rfl

@[simp] theorem onBus_output (v : Word) (s : State) : (onBus v s).output = s.output := rfl

@[simp] theorem onBus_stale (v : Word) (s : State) : (onBus v s).stale = s.stale := rfl

@[simp] theorem onBus_inputs (v : Word) (s : State) : (onBus v s).inputs = s.inputs := rfl

@[simp] theorem onBus_ret (v : Word) (s : State) : (onBus v s).ret = s.ret := rfl

@[simp] theorem onBus_busData (v : Word) (s : State) : (onBus v s).busData = v := rfl

@[simp] theorem onBus_freeCount (v : Word) (s : State) : (onBus v s).freeCount = s.freeCount := rfl

/-! ### `completeSession` -/

@[simp] theorem completeSession_host (s : State) :
    (completeSession s).host = { s.host with outWidth := s.hdr.width, outHeight := s.hdr.height, outChannels := s.hdr.channels.setWidth 32, outDepth := s.hdr.depth.setWidth 32, bitsLo := s.br.cur.extractLsb' 0 32, bitsHi := s.br.cur.extractLsb' 32 3, status := statusDone } := rfl

@[simp] theorem completeSession_br (s : State) : (completeSession s).br = s.br := rfl

@[simp] theorem completeSession_ac (s : State) : (completeSession s).ac = s.ac := rfl

@[simp] theorem completeSession_hdr (s : State) : (completeSession s).hdr = s.hdr := rfl

@[simp] theorem completeSession_sq (s : State) : (completeSession s).sq = { s.sq with seq := .doneOk } := rfl

@[simp] theorem completeSession_cm (s : State) : (completeSession s).cm = s.cm := rfl

@[simp] theorem completeSession_plane (s : State) : (completeSession s).plane = s.plane := rfl

@[simp] theorem completeSession_input (s : State) : (completeSession s).input = s.input := rfl

@[simp] theorem completeSession_output (s : State) : (completeSession s).output = s.output := rfl

@[simp] theorem completeSession_stale (s : State) : (completeSession s).stale = s.stale := rfl

@[simp] theorem completeSession_inputs (s : State) : (completeSession s).inputs = s.inputs := rfl

@[simp] theorem completeSession_ret (s : State) : (completeSession s).ret = s.ret := rfl

@[simp] theorem completeSession_busData (s : State) : (completeSession s).busData = s.busData := rfl

@[simp] theorem completeSession_freeCount (s : State) : (completeSession s).freeCount = s.freeCount := rfl

/-! ### `writeInputByte` -/

@[simp] theorem writeInputByte_host (a : Word) (b : Byte) (s : State) : (writeInputByte a b s).host = s.host := rfl

@[simp] theorem writeInputByte_br (a : Word) (b : Byte) (s : State) : (writeInputByte a b s).br = s.br := rfl

@[simp] theorem writeInputByte_ac (a : Word) (b : Byte) (s : State) : (writeInputByte a b s).ac = s.ac := rfl

@[simp] theorem writeInputByte_hdr (a : Word) (b : Byte) (s : State) : (writeInputByte a b s).hdr = s.hdr := rfl

@[simp] theorem writeInputByte_sq (a : Word) (b : Byte) (s : State) : (writeInputByte a b s).sq = s.sq := rfl

@[simp] theorem writeInputByte_cm (a : Word) (b : Byte) (s : State) : (writeInputByte a b s).cm = s.cm := rfl

@[simp] theorem writeInputByte_plane (a : Word) (b : Byte) (s : State) : (writeInputByte a b s).plane = s.plane := rfl

@[simp] theorem writeInputByte_input (a : Word) (b : Byte) (s : State) :
    (writeInputByte a b s).input = Store.put s.input a.toNat b := rfl

@[simp] theorem writeInputByte_output (a : Word) (b : Byte) (s : State) :
    (writeInputByte a b s).output = s.output := rfl

@[simp] theorem writeInputByte_stale (a : Word) (b : Byte) (s : State) :
    (writeInputByte a b s).stale = if inSessionRegion s a.toNat then (a.toNat, storedByte s a.toNat) :: s.stale else s.stale := rfl

@[simp] theorem writeInputByte_inputs (a : Word) (b : Byte) (s : State) :
    (writeInputByte a b s).inputs = s.inputs := rfl

@[simp] theorem writeInputByte_ret (a : Word) (b : Byte) (s : State) : (writeInputByte a b s).ret = s.ret := rfl

@[simp] theorem writeInputByte_busData (a : Word) (b : Byte) (s : State) :
    (writeInputByte a b s).busData = s.busData := rfl

@[simp] theorem writeInputByte_freeCount (a : Word) (b : Byte) (s : State) :
    (writeInputByte a b s).freeCount = s.freeCount := rfl

/-! ### `advance` -/

@[simp] theorem advance_host (n : Nat) (s : State) : (s.advance n).host = s.host := rfl

@[simp] theorem advance_br (n : Nat) (s : State) :
    (s.advance n).br = { s.br with cur := s.br.cur + BitVec.ofNat 35 n } := rfl

@[simp] theorem advance_ac (n : Nat) (s : State) : (s.advance n).ac = s.ac := rfl

@[simp] theorem advance_hdr (n : Nat) (s : State) : (s.advance n).hdr = s.hdr := rfl

@[simp] theorem advance_sq (n : Nat) (s : State) : (s.advance n).sq = s.sq := rfl

@[simp] theorem advance_cm (n : Nat) (s : State) : (s.advance n).cm = s.cm := rfl

@[simp] theorem advance_plane (n : Nat) (s : State) : (s.advance n).plane = s.plane := rfl

@[simp] theorem advance_input (n : Nat) (s : State) : (s.advance n).input = s.input := rfl

@[simp] theorem advance_output (n : Nat) (s : State) : (s.advance n).output = s.output := rfl

@[simp] theorem advance_stale (n : Nat) (s : State) : (s.advance n).stale = s.stale := rfl

@[simp] theorem advance_inputs (n : Nat) (s : State) : (s.advance n).inputs = s.inputs := rfl

@[simp] theorem advance_ret (n : Nat) (s : State) : (s.advance n).ret = s.ret := rfl

@[simp] theorem advance_busData (n : Nat) (s : State) : (s.advance n).busData = s.busData := rfl

@[simp] theorem advance_freeCount (n : Nat) (s : State) : (s.advance n).freeCount = s.freeCount := rfl

/-! ### `exhausted` -/

@[simp] theorem exhausted_host (s : State) : (s.exhausted).host = s.host := rfl

@[simp] theorem exhausted_br (s : State) : (s.exhausted).br = { s.br with cur := s.br.lim } := rfl

@[simp] theorem exhausted_ac (s : State) : (s.exhausted).ac = s.ac := rfl

@[simp] theorem exhausted_hdr (s : State) : (s.exhausted).hdr = s.hdr := rfl

@[simp] theorem exhausted_sq (s : State) : (s.exhausted).sq = s.sq := rfl

@[simp] theorem exhausted_cm (s : State) : (s.exhausted).cm = s.cm := rfl

@[simp] theorem exhausted_plane (s : State) : (s.exhausted).plane = s.plane := rfl

@[simp] theorem exhausted_input (s : State) : (s.exhausted).input = s.input := rfl

@[simp] theorem exhausted_output (s : State) : (s.exhausted).output = s.output := rfl

@[simp] theorem exhausted_stale (s : State) : (s.exhausted).stale = s.stale := rfl

@[simp] theorem exhausted_inputs (s : State) : (s.exhausted).inputs = s.inputs := rfl

@[simp] theorem exhausted_ret (s : State) : (s.exhausted).ret = s.ret := rfl

@[simp] theorem exhausted_busData (s : State) : (s.exhausted).busData = s.busData := rfl

@[simp] theorem exhausted_freeCount (s : State) : (s.exhausted).freeCount = s.freeCount := rfl

/-! ### `returning` -/

@[simp] theorem returning_host (r : List Int) (s : State) : (s.returning r).host = s.host := rfl

@[simp] theorem returning_br (r : List Int) (s : State) : (s.returning r).br = s.br := rfl

@[simp] theorem returning_ac (r : List Int) (s : State) : (s.returning r).ac = s.ac := rfl

@[simp] theorem returning_hdr (r : List Int) (s : State) : (s.returning r).hdr = s.hdr := rfl

@[simp] theorem returning_sq (r : List Int) (s : State) : (s.returning r).sq = s.sq := rfl

@[simp] theorem returning_cm (r : List Int) (s : State) : (s.returning r).cm = s.cm := rfl

@[simp] theorem returning_plane (r : List Int) (s : State) : (s.returning r).plane = s.plane := rfl

@[simp] theorem returning_input (r : List Int) (s : State) : (s.returning r).input = s.input := rfl

@[simp] theorem returning_output (r : List Int) (s : State) : (s.returning r).output = s.output := rfl

@[simp] theorem returning_stale (r : List Int) (s : State) : (s.returning r).stale = s.stale := rfl

@[simp] theorem returning_inputs (r : List Int) (s : State) : (s.returning r).inputs = s.inputs := rfl

@[simp] theorem returning_ret (r : List Int) (s : State) : (s.returning r).ret = r := rfl

@[simp] theorem returning_busData (r : List Int) (s : State) : (s.returning r).busData = s.busData := rfl

@[simp] theorem returning_freeCount (r : List Int) (s : State) : (s.returning r).freeCount = s.freeCount := rfl

/-! ### `treeStart` -/

@[simp] theorem treeStart_host (s : State) : (s.treeStart).host = s.host := rfl

@[simp] theorem treeStart_br (s : State) : (s.treeStart).br = s.br := rfl

@[simp] theorem treeStart_ac (s : State) : (s.treeStart).ac = s.ac := rfl

@[simp] theorem treeStart_hdr (s : State) : (s.treeStart).hdr = s.hdr := rfl

@[simp] theorem treeStart_sq (s : State) : (s.treeStart).sq = s.sq := rfl

@[simp] theorem treeStart_cm (s : State) :
    (s.treeStart).cm = { s.cm with metaCtx := Vector.replicate 41 Config.probInit, nn := 0 } := rfl

@[simp] theorem treeStart_plane (s : State) : (s.treeStart).plane = s.plane := rfl

@[simp] theorem treeStart_input (s : State) : (s.treeStart).input = s.input := rfl

@[simp] theorem treeStart_output (s : State) : (s.treeStart).output = s.output := rfl

@[simp] theorem treeStart_stale (s : State) : (s.treeStart).stale = s.stale := rfl

@[simp] theorem treeStart_inputs (s : State) : (s.treeStart).inputs = s.inputs := rfl

@[simp] theorem treeStart_ret (s : State) : (s.treeStart).ret = s.ret := rfl

@[simp] theorem treeStart_busData (s : State) : (s.treeStart).busData = s.busData := rfl

@[simp] theorem treeStart_freeCount (s : State) : (s.treeStart).freeCount = s.freeCount := rfl

/-! ### `withInputs` -/

@[simp] theorem withInputs_host (q : List Issue) (s : State) : (s.withInputs q).host = s.host := rfl

@[simp] theorem withInputs_br (q : List Issue) (s : State) : (s.withInputs q).br = s.br := rfl

@[simp] theorem withInputs_ac (q : List Issue) (s : State) : (s.withInputs q).ac = s.ac := rfl

@[simp] theorem withInputs_hdr (q : List Issue) (s : State) : (s.withInputs q).hdr = s.hdr := rfl

@[simp] theorem withInputs_sq (q : List Issue) (s : State) : (s.withInputs q).sq = s.sq := rfl

@[simp] theorem withInputs_cm (q : List Issue) (s : State) : (s.withInputs q).cm = s.cm := rfl

@[simp] theorem withInputs_plane (q : List Issue) (s : State) : (s.withInputs q).plane = s.plane := rfl

@[simp] theorem withInputs_input (q : List Issue) (s : State) : (s.withInputs q).input = s.input := rfl

@[simp] theorem withInputs_output (q : List Issue) (s : State) : (s.withInputs q).output = s.output := rfl

@[simp] theorem withInputs_stale (q : List Issue) (s : State) : (s.withInputs q).stale = s.stale := rfl

@[simp] theorem withInputs_inputs (q : List Issue) (s : State) : (s.withInputs q).inputs = q := rfl

@[simp] theorem withInputs_ret (q : List Issue) (s : State) : (s.withInputs q).ret = s.ret := rfl

@[simp] theorem withInputs_busData (q : List Issue) (s : State) : (s.withInputs q).busData = s.busData := rfl

@[simp] theorem withInputs_freeCount (q : List Issue) (s : State) : (s.withInputs q).freeCount = s.freeCount := rfl

/-! ### `setCtr` -/

@[simp] theorem setCtr_host (k : CtrRef) (v : Ctr) (s : State) : (setCtr k v s).host = s.host := by cases k <;> rfl

@[simp] theorem setCtr_br (k : CtrRef) (v : Ctr) (s : State) : (setCtr k v s).br = s.br := by cases k <;> rfl

@[simp] theorem setCtr_ac (k : CtrRef) (v : Ctr) (s : State) : (setCtr k v s).ac = s.ac := by cases k <;> rfl

@[simp] theorem setCtr_hdr (k : CtrRef) (v : Ctr) (s : State) : (setCtr k v s).hdr = s.hdr := by cases k <;> rfl

@[simp] theorem setCtr_sq (k : CtrRef) (v : Ctr) (s : State) : (setCtr k v s).sq = s.sq := by cases k <;> rfl

@[simp] theorem setCtr_plane (k : CtrRef) (v : Ctr) (s : State) : (setCtr k v s).plane = s.plane := by cases k <;> rfl

@[simp] theorem setCtr_input (k : CtrRef) (v : Ctr) (s : State) : (setCtr k v s).input = s.input := by cases k <;> rfl

@[simp] theorem setCtr_output (k : CtrRef) (v : Ctr) (s : State) : (setCtr k v s).output = s.output := by cases k <;> rfl

@[simp] theorem setCtr_stale (k : CtrRef) (v : Ctr) (s : State) : (setCtr k v s).stale = s.stale := by cases k <;> rfl

@[simp] theorem setCtr_inputs (k : CtrRef) (v : Ctr) (s : State) : (setCtr k v s).inputs = s.inputs := by cases k <;> rfl

@[simp] theorem setCtr_ret (k : CtrRef) (v : Ctr) (s : State) : (setCtr k v s).ret = s.ret := by cases k <;> rfl

@[simp] theorem setCtr_busData (k : CtrRef) (v : Ctr) (s : State) : (setCtr k v s).busData = s.busData := by cases k <;> rfl

@[simp] theorem setCtr_freeCount (k : CtrRef) (v : Ctr) (s : State) : (setCtr k v s).freeCount = s.freeCount := by cases k <;> rfl

end Sys2Proof.Machine
end

