-- ==== Sys2Proof/Laws/Res.lean ====
section
/-! SUPPORT. Peeling the answers of operations apart: what a sequence answers, and a postcondition rule that says
once what an operation can do. -/

namespace Sys2Proof.Machine

@[simp] theorem Res.bind_ok {α β : Type} (a : α) (s : State) (k : α → State → Res β) : (Res.ok a s).bind k = k a s := rfl

@[simp] theorem Res.bind_ended {α β : Type} (s : State) (k : α → State → Res β) :
    (Res.ended s : Res α).bind k = .ended s := rfl

@[simp] theorem Res.bind_fault {α β : Type} (f : Fault) (k : α → State → Res β) :
    (Res.fault f : Res α).bind k = .fault f := rfl

theorem Res.bind_eq_ok {α β : Type} {r : Res α} {k : α → State → Res β} {b : β} {t : State} :
    r.bind k = .ok b t ↔ ∃ a u, r = .ok a u ∧ k a u = .ok b t := by
  cases r <;> simp

theorem Res.bind_eq_ended {α β : Type} {r : Res α} {k : α → State → Res β} {t : State} :
    r.bind k = .ended t ↔ r = .ended t ∨ ∃ a u, r = .ok a u ∧ k a u = .ended t := by
  cases r <;> simp

theorem Res.bind_eq_fault {α β : Type} {r : Res α} {k : α → State → Res β} {f : Fault} :
    r.bind k = .fault f ↔ r = .fault f ∨ ∃ a u, r = .ok a u ∧ k a u = .fault f := by
  cases r <;> simp

theorem Res.bind_assoc {α β γ : Type} (r : Res α) (k : α → State → Res β) (l : β → State → Res γ) :
    (r.bind k).bind l = r.bind fun a s => (k a s).bind l := by
  cases r <;> rfl

@[simp] theorem Res.outcome_ok {α : Type} (a : α) (s : State) : (Res.ok a s).outcome = .next s := rfl

@[simp] theorem Res.outcome_ended {α : Type} (s : State) : (Res.ended s : Res α).outcome = .next s := rfl

@[simp] theorem Res.outcome_fault {α : Type} (f : Fault) : (Res.fault f : Res α).outcome = .fault f := rfl

@[simp] theorem Res.outcomeRet_ok {α : Type} (a : α) (s : State) (f : α → List Int) :
    (Res.ok a s).outcomeRet f = .next (s.returning (f a)) := rfl

@[simp] theorem Res.outcomeRet_ended {α : Type} (s : State) (f : α → List Int) :
    (Res.ended s : Res α).outcomeRet f = .next s := rfl

@[simp] theorem Res.outcomeRet_fault {α : Type} (g : Fault) (f : α → List Int) :
    (Res.fault g : Res α).outcomeRet f = .fault g := rfl

@[simp] theorem Res.ofExcept_ok {α : Type} (a : α) (s : State) : Res.ofExcept (.ok a) s = .ok a s := rfl

@[simp] theorem Res.ofExcept_error {α : Type} (f : Fault) (s : State) :
    Res.ofExcept (.error f : Except Fault α) s = .fault f := rfl

/-- A raise is the taken error (R309). -/
theorem raiseErr_eq {α : Type} (e : Err) (s : State) : (raiseErr e s : Res α) = .ended (takeError e s) := rfl

/-- What an operation can do: `Q` of the value and the state it answers, `E` of the state in which it ends the
session, `F` of the fault it stops with. -/
def Res.Post {α : Type} (Q : α → State → Prop) (E : State → Prop) (F : Fault → Prop) : Res α → Prop
  | .ok a s => Q a s
  | .ended s => E s
  | .fault f => F f

theorem Res.Post.bind {α β : Type} {r : Res α} {k : α → State → Res β} {P : α → State → Prop}
    {Q : β → State → Prop} {E : State → Prop} {F : Fault → Prop}
    (h : r.Post P E F) (hk : ∀ a s, P a s → (k a s).Post Q E F) : (r.bind k).Post Q E F := by
  cases r with
  | ok a s => exact hk a s h
  | ended s => exact h
  | fault f => exact h

theorem Res.Post.imp {α : Type} {r : Res α} {P Q : α → State → Prop} {E E' : State → Prop} {F F' : Fault → Prop}
    (h : r.Post P E F) (hq : ∀ a s, P a s → Q a s) (he : ∀ s, E s → E' s) (hf : ∀ f, F f → F' f) :
    r.Post Q E' F' := by
  cases r with
  | ok a s => exact hq a s h
  | ended s => exact he s h
  | fault f => exact hf f h

/-- What the next state of an instruction without a value satisfies. -/
theorem Res.Post.outcome {α : Type} {r : Res α} {P : State → Prop} {F : Fault → Prop}
    (h : r.Post (fun _ s => P s) P F) {t : State} (ht : r.outcome = .next t) : P t := by
  cases r with
  | ok a s => simp only [Res.outcome_ok, Host.Outcome.next.injEq] at ht; exact ht ▸ h
  | ended s => simp only [Res.outcome_ended, Host.Outcome.next.injEq] at ht; exact ht ▸ h
  | fault f => simp at ht

/-- What the next state of an instruction with a value satisfies, for a property `ret` has no part in. -/
theorem Res.Post.outcomeRet {α : Type} {r : Res α} {f : α → List Int} {P : State → Prop} {F : Fault → Prop}
    (h : r.Post (fun _ s => P s) P F) (hr : ∀ s v, P s → P (s.returning v)) {t : State}
    (ht : r.outcomeRet f = .next t) : P t := by
  cases r with
  | ok a s =>
    simp only [Res.outcomeRet_ok, Host.Outcome.next.injEq] at ht
    exact ht ▸ hr s _ h
  | ended s => simp only [Res.outcomeRet_ended, Host.Outcome.next.injEq] at ht; exact ht ▸ h
  | fault g => simp at ht

end Sys2Proof.Machine
end

