-- ==== Sys2Proof/Laws/Store.lean ====
section
/-! SUPPORT. The sparse stores: a read after a write, and the canonical form is kept. -/

namespace Sys2Proof.Machine

variable {α : Type}

theorem Store.get?_put_same (m : Store α) (a : Nat) (v : α) : Store.get? (Store.put m a v) a = some v := by
  induction m with
  | nil => simp [Store.put, Store.get?]
  | cons e t ih =>
    obtain ⟨k, w⟩ := e
    simp only [Store.put]
    split_ifs with h1 h2
    · simp [Store.get?]
    · simp [Store.get?]
    · simp [Store.get?, h2, ih]

theorem Store.get?_put_other (m : Store α) {a b : Nat} (v : α) (h : b ≠ a) :
    Store.get? (Store.put m a v) b = Store.get? m b := by
  induction m with
  | nil => simp [Store.put, Store.get?, h]
  | cons e t ih =>
    obtain ⟨k, w⟩ := e
    simp only [Store.put]
    split_ifs with h1 h2
    · simp [Store.get?, h]
    · subst h2; simp [Store.get?, h]
    · simp [Store.get?, ih]

theorem Store.get?_put (m : Store α) (a b : Nat) (v : α) :
    Store.get? (Store.put m a v) b = if b = a then some v else Store.get? m b := by
  split_ifs with h
  · rw [h, Store.get?_put_same]
  · exact Store.get?_put_other m v h

theorem Store.get?_remove_other (m : Store α) {a b : Nat} (h : b ≠ a) :
    Store.get? (Store.remove m a) b = Store.get? m b := by
  induction m with
  | nil => rfl
  | cons e t ih =>
    obtain ⟨k, w⟩ := e
    simp only [Store.remove]
    split_ifs with h1
    · subst h1; simp [Store.get?, h]
    · simp [Store.get?, ih]

theorem Store.risesFrom_mono {m : Store α} {b c : Nat} (h : b ≤ c) (hm : Store.risesFrom c m = true) :
    Store.risesFrom b m = true := by
  cases m with
  | nil => rfl
  | cons e t =>
    simp only [Store.risesFrom, Bool.and_eq_true, decide_eq_true_eq] at hm ⊢
    exact ⟨by omega, hm.2⟩

theorem Store.risesFrom_put {m : Store α} {b a : Nat} (v : α) (hb : b ≤ a) (hm : Store.risesFrom b m = true) :
    Store.risesFrom b (Store.put m a v) = true := by
  induction m generalizing b with
  | nil => simp [Store.put, Store.risesFrom, hb]
  | cons e t ih =>
    obtain ⟨k, w⟩ := e
    simp only [Store.risesFrom, Bool.and_eq_true, decide_eq_true_eq] at hm
    simp only [Store.put]
    split_ifs with h1 h2
    · simp only [Store.risesFrom, Bool.and_eq_true, decide_eq_true_eq]
      exact ⟨hb, by omega, hm.2⟩
    · subst h2; simp only [Store.risesFrom, Bool.and_eq_true, decide_eq_true_eq]; exact hm
    · simp only [Store.risesFrom, Bool.and_eq_true, decide_eq_true_eq]
      exact ⟨hm.1, ih (by omega) hm.2⟩

theorem Store.risesFrom_remove {m : Store α} {b : Nat} (a : Nat) (hm : Store.risesFrom b m = true) :
    Store.risesFrom b (Store.remove m a) = true := by
  induction m generalizing b with
  | nil => rfl
  | cons e t ih =>
    obtain ⟨k, w⟩ := e
    simp only [Store.risesFrom, Bool.and_eq_true, decide_eq_true_eq] at hm
    simp only [Store.remove]
    split_ifs with h1
    · exact Store.risesFrom_mono (by omega) hm.2
    · simp only [Store.risesFrom, Bool.and_eq_true, decide_eq_true_eq]
      exact ⟨hm.1, ih hm.2⟩

/-- A write keeps the canonical form. -/
theorem Store.canonical_put {m : Store α} (a : Nat) (v : α) (hm : m.canonical = true) :
    Store.canonical (Store.put m a v) = true :=
  Store.risesFrom_put v (Nat.zero_le a) hm

/-- Removing an entry keeps the canonical form. -/
theorem Store.canonical_remove {m : Store α} (a : Nat) (hm : m.canonical = true) :
    Store.canonical (Store.remove m a) = true :=
  Store.risesFrom_remove a hm

theorem Store.get?_of_risesFrom {m : Store α} {b a : Nat} (hm : Store.risesFrom b m = true) (h : a < b) :
    Store.get? m a = none := by
  induction m generalizing b with
  | nil => rfl
  | cons e t ih =>
    obtain ⟨k, w⟩ := e
    simp only [Store.risesFrom, Bool.and_eq_true, decide_eq_true_eq] at hm
    have hk : a ≠ k := by omega
    simp [Store.get?, hk, ih hm.2 (by omega)]

theorem Store.get?_remove_same_from {m : Store α} {b : Nat} (a : Nat) (hm : Store.risesFrom b m = true) :
    Store.get? (Store.remove m a) a = none := by
  induction m generalizing b with
  | nil => rfl
  | cons e t ih =>
    obtain ⟨k, w⟩ := e
    simp only [Store.risesFrom, Bool.and_eq_true, decide_eq_true_eq] at hm
    simp only [Store.remove]
    split_ifs with h1
    · exact Store.get?_of_risesFrom hm.2 (by omega)
    · simp [Store.get?, h1, ih hm.2]

theorem Store.get?_remove_same {m : Store α} (a : Nat) (hm : m.canonical = true) :
    Store.get? (Store.remove m a) a = none :=
  Store.get?_remove_same_from a hm

theorem Store.mem_put {m : Store α} {a : Nat} {v : α} {e : Nat × α} (h : e ∈ Store.put m a v) :
    e = (a, v) ∨ e ∈ m := by
  induction m with
  | nil => simpa [Store.put] using h
  | cons e' t ih =>
    obtain ⟨k, w⟩ := e'
    simp only [Store.put] at h
    split_ifs at h with h1 h2
    · simpa using h
    · simp only [List.mem_cons] at h ⊢; tauto
    · simp only [List.mem_cons] at h ⊢
      rcases h with h | h
      · tauto
      · rcases ih h with h | h <;> tauto

theorem Store.mem_remove {m : Store α} {a : Nat} {e : Nat × α} (h : e ∈ Store.remove m a) : e ∈ m := by
  induction m with
  | nil => simpa [Store.remove] using h
  | cons e' t ih =>
    obtain ⟨k, w⟩ := e'
    simp only [Store.remove] at h
    split_ifs at h with h1
    · exact List.mem_cons_of_mem _ h
    · simp only [List.mem_cons] at h ⊢
      rcases h with h | h
      · exact .inl h
      · exact .inr (ih h)

theorem Store.mem_of_get? {m : Store α} {a : Nat} {v : α} (h : Store.get? m a = some v) : (a, v) ∈ m := by
  induction m with
  | nil => simp [Store.get?] at h
  | cons e t ih =>
    obtain ⟨k, w⟩ := e
    simp only [Store.get?] at h
    split_ifs at h with h1
    · simp_all
    · exact List.mem_cons_of_mem _ (ih h)

/-! ### The stores of the state -/

/-- `memoryWf` taken apart. -/
theorem memoryWf_iff (s : State) : s.memoryWf = true ↔
    Store.canonical s.input = true ∧ Store.canonical s.output = true ∧ Store.canonical s.plane = true ∧
      Store.canonical s.cm.nodes = true ∧ ∀ e ∈ s.cm.nodes, e.2 ≠ Node.fresh := by
  simp [State.memoryWf, and_assoc]

/-- A write of an arena entry keeps the canonical form of every memory. -/
theorem setNode_memoryWf (n : Nat) (v : Node) {s : State} (h : s.memoryWf = true) :
    (setNode n v s).memoryWf = true := by
  rw [memoryWf_iff] at h ⊢
  obtain ⟨h1, h2, h3, h4, h5⟩ := h
  refine ⟨h1, h2, h3, ?_, ?_⟩
  · simp only [setNode_cm]
    split_ifs
    · exact Store.canonical_remove n h4
    · exact Store.canonical_put n v h4
  · intro e he
    simp only [setNode_cm] at he
    split_ifs at he with hv
    · exact h5 e (Store.mem_remove he)
    · rcases Store.mem_put he with rfl | he
      · exact hv
      · exact h5 e he

/-- A write of a counter keeps the canonical form of every memory. -/
theorem setCtr_memoryWf (k : CtrRef) (v : Ctr) {s : State} (h : s.memoryWf = true) :
    (setCtr k v s).memoryWf = true := by
  cases k with
  | metaCtr i => exact h
  | leafCtr n j => exact setNode_memoryWf _ _ h

/-- A write of an INPUT byte keeps the canonical form of every memory. -/
theorem writeInputByte_memoryWf (a : Word) (b : Byte) {s : State} (h : s.memoryWf = true) :
    (writeInputByte a b s).memoryWf = true := by
  rw [memoryWf_iff] at h ⊢
  exact ⟨Store.canonical_put _ _ h.1, h.2.1, h.2.2.1, h.2.2.2.1, h.2.2.2.2⟩

/-- A write of a sample keeps the canonical form of every memory. -/
theorem writeSample_memoryWf {p y x : Nat} {v : Sample} {s t : State} {u : Unit} (h : s.memoryWf = true)
    (ht : writeSample p y x v s = .ok u t) : t.memoryWf = true := by
  simp only [writeSample] at ht
  split_ifs at ht
  simp only [Res.ok.injEq, true_and] at ht
  subst ht
  rw [memoryWf_iff] at h ⊢
  exact ⟨h.1, h.2.1, Store.canonical_put _ _ h.2.2.1, h.2.2.2.1, h.2.2.2.2⟩

/-- The reset state's memories are canonical. -/
theorem reset_memoryWf : State.reset.memoryWf = true := by decide

/-- What an arena entry reads as after a write (R37). -/
theorem nodeAt_setNode (n : Nat) (v : Node) {s : State} (h : s.memoryWf = true) (m : Nat) :
    nodeAt (setNode n v s) m = if m = n then v else nodeAt s m := by
  rw [memoryWf_iff] at h
  simp only [nodeAt, setNode_cm]
  split_ifs with h1 h2 h2
  · subst h2; rw [Store.get?_remove_same _ h.2.2.2.1]; simp [h1]
  · rw [Store.get?_remove_other _ h2]
  · subst h2; rw [Store.get?_put_same]; rfl
  · rw [Store.get?_put_other _ _ h2]

/-- The place of a sample tells its coordinates apart (R38). -/
theorem planeKey_inj {p y x p' y' x' : Nat} (hy : y < 2 ^ 32) (hx : x < 2 ^ 32) (hy' : y' < 2 ^ 32)
    (hx' : x' < 2 ^ 32) (h : planeKey p y x = planeKey p' y' x') : p = p' ∧ y = y' ∧ x = x' := by
  simp only [planeKey] at h
  omega

end Sys2Proof.Machine
end

