-- ==== Sys2Proof/Laws/BitReader.lean ====
section
/-! SUPPORT. What each operation of the Bit Reader can do (R130 to R137): on an input the host owns, in terms of
the bits at the cursor; and on any state, what it leaves alone. -/

namespace Sys2Proof.Machine

/-! ### The bits at the cursor -/

theorem readable_iff (s : State) (n : Nat) :
    s.readable n = true ↔ s.inputOwned = true ∧ s.br.cur.toNat + n ≤ s.br.lim.toNat := by
  simp [State.readable]

theorem inputOwned_iff (s : State) :
    s.inputOwned = true ↔ s.stale = [] ∧ 8 * s.br.base.toNat + s.br.lim.toNat ≤ 2 ^ 35 := by
  simp [State.inputOwned]

theorem readable_of_le {s : State} {m n : Nat} (h : s.readable n = true) (hm : m ≤ n) : s.readable m = true := by
  rw [readable_iff] at h ⊢
  exact ⟨h.1, by omega⟩

/-- Bits are those of the input space, whatever else the state holds. -/
theorem bitsFrom_congr {s t : State} (hi : s.input = t.input) (hb : s.br.base = t.br.base) (n c v : Nat) :
    s.bitsFrom n c v = t.bitsFrom n c v := by
  induction n generalizing c v with
  | zero => rfl
  | succ n ih => simp only [State.bitsFrom, State.bitAt, storedByte, hi, hb, ih]

theorem bytesFrom_congr {s t : State} (hi : s.input = t.input) (hb : s.br.base = t.br.base) (g c : Nat) :
    s.bytesFrom g c = t.bytesFrom g c := by
  induction g generalizing c with
  | zero => rfl
  | succ g ih => simp only [State.bytesFrom, ih, bitsFrom_congr hi hb]

theorem bitsFrom_bounds (s : State) (n c v : Nat) :
    v * 2 ^ n ≤ s.bitsFrom n c v ∧ s.bitsFrom n c v < (v + 1) * 2 ^ n := by
  induction n generalizing c v with
  | zero => simp [State.bitsFrom]
  | succ n ih =>
    simp only [State.bitsFrom]
    have hb := Bool.toNat_le (s.bitAt c)
    obtain ⟨h1, h2⟩ := ih (c + 1) (2 * v + (s.bitAt c).toNat)
    have e : 2 ^ (n + 1) = 2 * 2 ^ n := by ring
    constructor
    · refine le_trans ?_ h1
      rw [e, ← mul_assoc]
      exact Nat.mul_le_mul_right _ (by omega)
    · refine lt_of_lt_of_le h2 ?_
      rw [e, ← mul_assoc]
      exact Nat.mul_le_mul_right _ (by omega)

/-- `n` bits make a number below 2^n. -/
theorem peek_lt (s : State) (n : Nat) : s.peek n < 2 ^ n := by
  have := (bitsFrom_bounds s n s.br.cur.toNat 0).2
  simpa [State.peek] using this

theorem bitsFrom_add (s : State) (m n c v : Nat) :
    s.bitsFrom (m + n) c v = s.bitsFrom n (c + m) (s.bitsFrom m c v) := by
  induction m generalizing c v with
  | zero => simp [State.bitsFrom]
  | succ m ih =>
    have : m + 1 + n = (m + n) + 1 := by omega
    rw [this]
    simp only [State.bitsFrom, ih]
    congr 1
    omega

theorem bitsFrom_shift (s : State) (n c v : Nat) : s.bitsFrom n c v = v * 2 ^ n + s.bitsFrom n c 0 := by
  induction n generalizing c v with
  | zero => simp [State.bitsFrom]
  | succ n ih =>
    simp only [State.bitsFrom]
    rw [ih (c + 1) (2 * v + _), ih (c + 1) (2 * 0 + _)]
    ring

/-! ### Moving the cursor -/

@[simp] theorem advance_bitsFrom (k : Nat) (s : State) (n c v : Nat) :
    (s.advance k).bitsFrom n c v = s.bitsFrom n c v :=
  bitsFrom_congr (s := s.advance k) (t := s) rfl rfl n c v

@[simp] theorem advance_bytesFrom (k : Nat) (s : State) (g c : Nat) :
    (s.advance k).bytesFrom g c = s.bytesFrom g c :=
  bytesFrom_congr (s := s.advance k) (t := s) rfl rfl g c

@[simp] theorem advance_inputOwned (k : Nat) (s : State) : (s.advance k).inputOwned = s.inputOwned := rfl

theorem advance_zero (s : State) : s.advance 0 = s := by
  simp [State.advance]

theorem advance_advance (m n : Nat) (s : State) : (s.advance m).advance n = s.advance (m + n) := by
  simp [State.advance, BitVec.add_assoc, ← BitVec.ofNat_add]

/-- The cursor of a readable state moves without wrapping. -/
theorem advance_cur {s : State} {n : Nat} (h : s.br.cur.toNat + n ≤ s.br.lim.toNat) :
    (s.advance n).br.cur.toNat = s.br.cur.toNat + n := by
  have := s.br.lim.isLt
  simp only [advance_br, BitVec.toNat_add, BitVec.toNat_ofNat]
  omega

theorem readable_advance {s : State} {m n : Nat} (h : s.readable (m + n) = true) : (s.advance m).readable n = true := by
  rw [readable_iff] at h ⊢
  rw [advance_cur (by omega)]
  exact ⟨h.1, by simp only [advance_br]; omega⟩

/-! ### `read_bit` -/

theorem cur_div (c : BitPos) : (c >>> 3).toNat = c.toNat / 8 := by
  simp [BitVec.toNat_ushiftRight, Nat.shiftRight_eq_div_pow]

theorem cur_mod (c : BitPos) : (c &&& 7).toNat = c.toNat % 8 := by
  have : (7 : BitPos).toNat = 2 ^ 3 - 1 := rfl
  rw [BitVec.toNat_and, this, Nat.and_two_pow_sub_one_eq_mod]

/-- A read inside an owned region gives the byte the space holds and changes nothing (R61). -/
theorem inputByte_owned {s : State} {c : Nat} (h : s.inputOwned = true) (hc : c < s.br.lim.toNat) :
    inputByte (s.br.base.toNat + c / 8) s = (storedByte s (s.br.base.toNat + c / 8), s) := by
  rw [inputOwned_iff] at h
  have : ¬ 2 ^ 32 ≤ s.br.base.toNat + c / 8 := by omega
  simp only [inputByte, if_neg this, staleValues, h.1, List.filter_nil, List.map_nil]

/-- R132: a bit that remains is delivered and the cursor grows by one. -/
theorem readBit_readable {s : State} (h : s.readable 1 = true) :
    readBit s = .ok (s.bitAt s.br.cur.toNat) (s.advance 1) := by
  rw [readable_iff] at h
  have hc : ¬ s.br.lim ≤ s.br.cur := by rw [BitVec.le_def]; omega
  simp only [readBit, if_neg hc, cur_div, cur_mod, inputByte_owned h.1 (show s.br.cur.toNat < s.br.lim.toNat by omega)]
  rfl

/-- R132: at the end of the input the session ends with `TruncatedInput`, the cursor unchanged. -/
theorem readBit_truncated {s : State} (h : s.br.lim.toNat ≤ s.br.cur.toNat) :
    readBit s = .ended (takeError truncated s) := by
  simp only [readBit, BitVec.le_def, h, if_true, raiseErr_eq]

/-! ### `read_uint` -/

theorem readUintFrom_readable {n m : Nat} {s : State} (h : s.readable n = true) :
    readUintFrom n (BitVec.ofNat 32 m) s = .ok (BitVec.ofNat 32 (s.bitsFrom n s.br.cur.toNat m)) (s.advance n) := by
  induction n generalizing m s with
  | zero => simp [readUintFrom, State.bitsFrom, advance_zero]
  | succ n ih =>
    have h1 : s.readable (1 + n) = true := by rwa [Nat.add_comm]
    simp only [readUintFrom, readBit_readable (readable_of_le h (by omega)), Res.bind_ok]
    have e : (BitVec.ofNat 32 m <<< 1 ||| BitVec.setWidth 32 (BitVec.ofBool (s.bitAt s.br.cur.toNat))) =
        BitVec.ofNat 32 (2 * m + (s.bitAt s.br.cur.toNat).toNat) := by
      cases s.bitAt s.br.cur.toNat
      · apply BitVec.eq_of_toNat_eq
        simp [Nat.shiftLeft_eq, Nat.mul_comm]
      · simp only [BitVec.ofBool_true, Bool.toNat_true]
        have : BitVec.ofNat 32 (2 * m + 1) = (BitVec.ofNat 32 m) <<< 1 + 1#32 := by
          apply BitVec.eq_of_toNat_eq
          simp [Nat.shiftLeft_eq, Nat.mul_comm]
        rw [this, BitVec.add_eq_or_of_and_eq_zero]
        · rfl
        · ext i hi
          simp only [BitVec.getElem_and, BitVec.getElem_shiftLeft, BitVec.getElem_zero]
          rcases Nat.eq_zero_or_pos i with rfl | hi0
          · simp
          · have : (1#32)[i] = false := by
              rw [BitVec.getElem_one]; simp; omega
            simp [this]
    rw [e, ih (readable_advance h1), advance_advance, Nat.add_comm 1 n]
    have hc : (s.advance 1).br.cur.toNat = s.br.cur.toNat + 1 := advance_cur (by rw [readable_iff] at h; omega)
    rw [hc]
    simp [State.bitsFrom]

/-- R133: the next `n` bits, the first the most significant. -/
theorem readUint_readable {n : Nat} {s : State} (h : s.readable n = true) :
    readUint n s = .ok (BitVec.ofNat 32 (s.peek n)) (s.advance n) :=
  readUintFrom_readable h

theorem readUintFrom_truncated {n : Nat} {v : Word} {s : State} (ho : s.inputOwned = true)
    (hc : s.br.cur.toNat ≤ s.br.lim.toNat) (h : s.br.lim.toNat < s.br.cur.toNat + n) :
    readUintFrom n v s = .ended (takeError truncated s.exhausted) := by
  induction n generalizing v s with
  | zero => omega
  | succ n ih =>
    by_cases he : s.br.lim.toNat ≤ s.br.cur.toNat
    · have e : s.br.lim = s.br.cur := BitVec.eq_of_toNat_eq (by omega)
      have e' : s.exhausted = s := by rw [State.exhausted, e]
      rw [e']
      simp only [readUintFrom, readBit_truncated he, Res.bind_ended]
    · have hr : s.readable 1 = true := by rw [readable_iff]; exact ⟨ho, by omega⟩
      have hcur : (s.advance 1).br.cur.toNat = s.br.cur.toNat + 1 := advance_cur (by omega)
      simp only [readUintFrom, readBit_readable hr, Res.bind_ok]
      rw [ih (s := s.advance 1) ho (by rw [hcur]; simp only [advance_br]; omega)
        (by rw [hcur]; simp only [advance_br]; omega)]
      rfl

/-- R133: fewer than `n` bits remain; the bits that were present have been consumed. -/
theorem readUint_truncated {n : Nat} {s : State} (ho : s.inputOwned = true) (hc : s.br.cur.toNat ≤ s.br.lim.toNat)
    (h : s.br.lim.toNat < s.br.cur.toNat + n) : readUint n s = .ended (takeError truncated s.exhausted) :=
  readUintFrom_truncated ho hc h

/-! ### On any state -/

/-- The state after `n` bits have been read: the cursor has moved and free values may have been drawn. -/
def ReadTo (n : Nat) (s t : State) : Prop :=
  (n = 0 ∨ s.br.cur.toNat + n ≤ s.br.lim.toNat) ∧ ∃ f, t = { s.advance n with freeCount := f }

/-- A session that has ended because the input ran out: the cursor is at the limit, or was already beyond it. -/
def RanOut (s t : State) : Prop :=
  ∃ c f, t = takeError truncated { s with br := { s.br with cur := c }, freeCount := f } ∧
    (c = s.br.lim ∨ c = s.br.cur ∧ s.br.lim.toNat ≤ s.br.cur.toNat)

theorem inputByte_snd (a : Nat) (s : State) : (inputByte a s).2 = s ∨ (inputByte a s).2 = drawn s := by
  simp only [inputByte]
  split_ifs
  · exact .inr rfl
  · cases staleValues s a with
    | nil => exact .inl rfl
    | cons o os => exact .inr rfl

theorem ReadTo.zero (s : State) : ReadTo 0 s s := ⟨.inl rfl, s.freeCount, by rw [advance_zero]⟩

theorem ReadTo.trans {m n : Nat} {s t u : State} (h : ReadTo m s t) (h' : ReadTo n t u) : ReadTo (m + n) s u := by
  obtain ⟨h1, f, rfl⟩ := h
  obtain ⟨h2, g, rfl⟩ := h'
  refine ⟨?_, g, ?_⟩
  · rcases h2 with rfl | h2
    · simpa using h1
    · rcases h1 with rfl | h1
      · right
        simpa [advance_zero] using h2
      · right
        have := advance_cur (s := s) (n := m) h1
        simp only [advance_br] at this h2 ⊢
        rw [this] at h2
        omega
  · rw [← advance_advance]; rfl

theorem RanOut.after {m : Nat} {s t u : State} (h : ReadTo m s t) (h' : RanOut t u) : RanOut s u := by
  obtain ⟨h1, f, rfl⟩ := h
  obtain ⟨c, g, rfl, h2⟩ := h'
  refine ⟨c, g, rfl, ?_⟩
  rcases h2 with h2 | ⟨h2, h3⟩
  · exact .inl h2
  · rcases h1 with rfl | h1
    · right
      simp only [advance_zero] at h2 h3
      exact ⟨h2, h3⟩
    · left
      have := advance_cur (s := s) (n := m) h1
      simp only [advance_br] at this h2 h3
      rw [h2]
      apply BitVec.eq_of_toNat_eq
      omega

/-- All `read_bit` can do, on any state. -/
theorem readBit_post (s : State) :
    (readBit s).Post (fun _ t => ReadTo 1 s t) (fun t => RanOut s t) (fun _ => False) := by
  simp only [readBit]
  split_ifs with h
  · rw [BitVec.le_def] at h
    exact ⟨s.br.cur, s.freeCount, rfl, .inr ⟨rfl, h⟩⟩
  · rw [BitVec.le_def] at h
    refine ⟨.inr (by omega), (inputByte (s.br.base.toNat + (s.br.cur >>> 3).toNat) s).2.freeCount, ?_⟩
    rcases inputByte_snd (s.br.base.toNat + (s.br.cur >>> 3).toNat) s with e | e <;> rw [e] <;> rfl

theorem readUintFrom_post (n : Nat) (v : Word) (s : State) :
    (readUintFrom n v s).Post (fun _ t => ReadTo n s t) (fun t => RanOut s t) (fun _ => False) := by
  induction n generalizing v s with
  | zero => exact ReadTo.zero s
  | succ n ih =>
    exact (readBit_post s).bind fun b t ht =>
      (ih _ t).imp (fun _ u hu => by rw [Nat.add_comm]; exact ht.trans hu) (fun u hu => RanOut.after ht hu)
        fun _ h => h

/-- All `read_uint` can do, on any state. -/
theorem readUint_post (n : Nat) (s : State) :
    (readUint n s).Post (fun _ t => ReadTo n s t) (fun t => RanOut s t) (fun _ => False) :=
  readUintFrom_post n 0 s

theorem readUintFrom_lt (n : Nat) (v : Word) (s : State) {m : Nat} (hn : m + n ≤ 32) (hv : v.toNat < 2 ^ m) :
    (readUintFrom n v s).Post (fun w _ => w.toNat < 2 ^ (m + n)) (fun _ => True) (fun _ => True) := by
  induction n generalizing v s m with
  | zero => exact hv
  | succ n ih =>
    cases hr : readBit s with
    | ok b t =>
      simp only [readUintFrom, hr, Res.bind_ok]
      have : m + (n + 1) = (m + 1) + n := by omega
      rw [this]
      apply ih _ t (by omega)
      rw [BitVec.toNat_or, BitVec.toNat_shiftLeft]
      have h1 : v.toNat <<< 1 % 2 ^ 32 = 2 * v.toNat := by
        have : 2 ^ (m + 1) ≤ 2 ^ 32 := Nat.pow_le_pow_right (by norm_num) (by omega)
        rw [Nat.shiftLeft_eq, pow_succ] at *
        omega
      rw [h1]
      apply Nat.or_lt_two_pow
      · rw [pow_succ]; omega
      · cases b
        · simp
        · have : 2 ^ 1 ≤ 2 ^ (m + 1) := Nat.pow_le_pow_right (by norm_num) (by omega)
          simp
    | ended t => simp only [readUintFrom, hr, Res.bind_ended]; trivial
    | fault f => simp only [readUintFrom, hr, Res.bind_fault]; trivial

/-- `read_uint(n)` answers a number of `n` bits. -/
theorem readUint_lt (n : Nat) (s : State) (hn : n ≤ 32) :
    (readUint n s).Post (fun w _ => w.toNat < 2 ^ n) (fun _ => True) (fun _ => True) := by
  have := readUintFrom_lt n 0 s (m := 0) (by omega) (by simp)
  rwa [Nat.zero_add] at this

/-! ### `read_varint` and `skip_bytes` -/

/-- A session ended inside an operation that has moved only the cursor. -/
def EndedBy (e : Err) (s t : State) : Prop := ∃ n u, ReadTo (8 * n) s u ∧ t = takeError e u

theorem readVarintFrom_post (k v : Nat) (s : State) :
    (readVarintFrom k v s).Post (fun _ t => ∃ n, n ≤ k ∧ ReadTo (8 * n) s t)
      (fun t => RanOut s t ∨ EndedBy ⟨.malformedVarint, 1⟩ s t ∨ EndedBy ⟨.malformedVarint, 2⟩ s t) (fun _ => False) := by
  induction k generalizing v s with
  | zero => exact .inr (.inl ⟨0, s, ReadTo.zero s, rfl⟩)
  | succ k ih =>
    simp only [readVarintFrom]
    refine ((readUint_post 8 s).imp (Q := fun _ t => ReadTo 8 s t) (fun _ _ h => h) (fun _ h => .inl h)
      (fun _ h => h)).bind fun b t ht => ?_
    split_ifs with h1 h2
    · exact .inr (.inr ⟨1, t, ht, rfl⟩)
    · exact ⟨1, by omega, ht⟩
    · refine (ih _ t).imp ?_ ?_ (fun _ h => h)
      · rintro _ u ⟨n, hn, hu⟩
        exact ⟨n + 1, by omega, by rw [Nat.mul_add, Nat.add_comm]; exact ht.trans hu⟩
      · rintro u (hu | ⟨n, w, hw, rfl⟩ | ⟨n, w, hw, rfl⟩)
        · exact .inl (RanOut.after ht hu)
        · exact .inr (.inl ⟨n + 1, w, by rw [Nat.mul_add, Nat.add_comm]; exact ht.trans hw, rfl⟩)
        · exact .inr (.inr ⟨n + 1, w, by rw [Nat.mul_add, Nat.add_comm]; exact ht.trans hw, rfl⟩)

/-- All `read_varint` can do, on any state (R134). -/
theorem readVarint_post (s : State) :
    (readVarint s).Post (fun _ t => ∃ n, n ≤ 5 ∧ ReadTo (8 * n) s t)
      (fun t => RanOut s t ∨ EndedBy ⟨.malformedVarint, 1⟩ s t ∨ EndedBy ⟨.malformedVarint, 2⟩ s t)
      (fun _ => False) := readVarintFrom_post 5 0 s

/-- R135: the whole length remains. -/
theorem skipBytes_ok {n : Word} {s : State} (h : s.br.cur.toNat + 8 * n.toNat ≤ s.br.lim.toNat) :
    skipBytes n s = .ok () (s.advance (8 * n.toNat)) := by
  have : ¬ s.br.lim.toNat < s.br.cur.toNat + 8 * n.toNat := by omega
  simp only [skipBytes, if_neg this, State.advance]
  rw [BitVec.ofNat_add]
  simp

/-- R135: fewer bytes remain; the cursor stays. -/
theorem skipBytes_truncated {n : Word} {s : State} (h : s.br.lim.toNat < s.br.cur.toNat + 8 * n.toNat) :
    skipBytes n s = .ended (takeError truncated s) := by
  simp only [skipBytes, if_pos h, raiseErr_eq]

end Sys2Proof.Machine
end

