-- ==== Sys2Proof/Laws/ArithDecoder.lean ====
section
/-! SUPPORT. What each operation of the Arithmetic Decoder can do (R150 to R157): on an input the host owns, in
exact arithmetic; and on any state, what it leaves alone. -/

namespace Sys2Proof.Machine

/-! ### Refills -/

theorem ofNat_shiftLeft_or (a b : Nat) (hb : b < 2 ^ 8) :
    (BitVec.ofNat 32 a <<< 8) ||| BitVec.ofNat 32 b = BitVec.ofNat 32 (a * 2 ^ 8 + b) := by
  have h : BitVec.ofNat 32 (a * 2 ^ 8 + b) = BitVec.ofNat 32 a <<< 8 + BitVec.ofNat 32 b := by
    apply BitVec.eq_of_toNat_eq
    simp [Nat.shiftLeft_eq]
  rw [h, BitVec.add_eq_or_of_and_eq_zero]
  apply BitVec.eq_of_getLsbD_eq
  intro i hi
  simp only [BitVec.getLsbD_and, BitVec.getLsbD_shiftLeft, BitVec.getLsbD_ofNat]
  by_cases h8 : i < 8
  · simp [h8]
  · have : b.testBit i = false := Nat.testBit_lt_two_pow (lt_of_lt_of_le hb (Nat.pow_le_pow_right (by norm_num) (by omega)))
    simp [this]

/-- Shifting in one more byte. -/
theorem shiftIn_or (x : Word) (k a b : Nat) (hb : b < 2 ^ 8) :
    ((x <<< (8 * k) ||| BitVec.ofNat 32 a) <<< 8) ||| BitVec.ofNat 32 b =
      x <<< (8 * (k + 1)) ||| BitVec.ofNat 32 (a * 2 ^ 8 + b) := by
  rw [← ofNat_shiftLeft_or a b hb, BitVec.shiftLeft_or_distrib, BitVec.or_assoc, ← BitVec.shiftLeft_add]
  rfl

@[simp] theorem refilled_bitsFrom (w o : Word) (k : Nat) (s : State) (n c v : Nat) :
    (s.refilled w o k).bitsFrom n c v = s.bitsFrom n c v :=
  bitsFrom_congr (s := s.refilled w o k) (t := s) rfl rfl n c v

@[simp] theorem refilled_br (w o : Word) (k : Nat) (s : State) : (s.refilled w o k).br = (s.advance (8 * k)).br := rfl

@[simp] theorem refilled_ac (w o : Word) (k : Nat) (s : State) : (s.refilled w o k).ac =
    { rng := w <<< (8 * k), code := (o <<< (8 * k)) ||| BitVec.ofNat 32 (s.peek (8 * k)) } := rfl

@[simp] theorem refilled_cm (w o : Word) (k : Nat) (s : State) : (s.refilled w o k).cm = s.cm := rfl

theorem refilled_zero (w o : Word) (s : State) : s.refilled w o 0 = { s with ac := { rng := w, code := o } } := by
  simp [State.refilled, advance_zero, State.peek, State.bitsFrom]

/-- Refilling once more is refilling with one byte more. -/
theorem refilled_succ (w o : Word) (k : Nat) (s : State) (h : s.br.cur.toNat + 8 * (k + 1) ≤ s.br.lim.toNat) :
    (s.refilled w o k).refilled (s.refilled w o k).ac.rng (s.refilled w o k).ac.code 1 = s.refilled w o (k + 1) := by
  have hc : (s.advance (8 * k)).br.cur.toNat = s.br.cur.toNat + 8 * k := advance_cur (by omega)
  have hp : (s.refilled w o k).peek 8 = s.bitsFrom 8 (s.br.cur.toNat + 8 * k) 0 := by
    simp only [State.peek, refilled_br, hc]
    exact refilled_bitsFrom w o k s 8 _ 0
  have hlt : s.bitsFrom 8 (s.br.cur.toNat + 8 * k) 0 < 2 ^ 8 := by
    simpa using (bitsFrom_bounds s 8 (s.br.cur.toNat + 8 * k) 0).2
  have hsum : s.peek (8 * (k + 1)) = s.peek (8 * k) * 2 ^ 8 + s.bitsFrom 8 (s.br.cur.toNat + 8 * k) 0 := by
    simp only [State.peek, Nat.mul_add, Nat.mul_one, bitsFrom_add]
    rw [bitsFrom_shift]
  have hcode : ((o <<< (8 * k)) ||| BitVec.ofNat 32 (s.peek (8 * k))) <<< 8 ||| BitVec.ofNat 32 (s.bitsFrom 8 (s.br.cur.toNat + 8 * k) 0)
      = o <<< (8 * (k + 1)) ||| BitVec.ofNat 32 (s.peek (8 * (k + 1))) := by
    rw [hsum]; exact shiftIn_or o k _ _ hlt
  have hrng : (w <<< (8 * k)) <<< 8 = w <<< (8 * (k + 1)) := by rw [← BitVec.shiftLeft_add]; rfl
  have hadv : (s.advance (8 * k)).advance 8 = s.advance (8 * (k + 1)) := by rw [advance_advance]; rfl
  have e1 : (s.refilled w o k).refilled (s.refilled w o k).ac.rng (s.refilled w o k).ac.code 1 =
      { (s.advance (8 * k)).advance 8 with
        ac := { rng := (w <<< (8 * k)) <<< 8,
                code := ((o <<< (8 * k)) ||| BitVec.ofNat 32 (s.peek (8 * k))) <<< 8 |||
                  BitVec.ofNat 32 ((s.refilled w o k).peek 8) } } := rfl
  rw [e1, hp, hcode, hrng, hadv]
  rfl

/-- One ACBYTE (R153). -/
theorem refill_readable {s : State} (h : s.readable 8 = true) :
    refill s = .ok () (s.refilled s.ac.rng s.ac.code 1) := by
  simp only [refill, readUint_readable h, Res.bind_ok]
  rfl

theorem refill_truncated {s : State} (ho : s.inputOwned = true) (hc : s.br.cur.toNat ≤ s.br.lim.toNat)
    (h : s.br.lim.toNat < s.br.cur.toNat + 8) : refill s = .ended (takeError truncated s.exhausted) := by
  simp only [refill, readUint_truncated ho hc h, Res.bind_ended]

theorem refills_le (w : Nat) : refills w ≤ 3 := by unfold refills; split_ifs <;> omega

/-- The bytes of R153 are enough, and no fewer are. -/
theorem refills_spec {w : Nat} (h0 : 0 < w) :
    2 ^ 24 ≤ w * 2 ^ (8 * refills w) ∧ ∀ j < refills w, w * 2 ^ (8 * j) < 2 ^ 24 := by
  unfold refills
  split_ifs with h1 h2 h3
  · exact ⟨by simpa using h1, by intro j hj; omega⟩
  · refine ⟨by norm_num at h2 ⊢; omega, fun j hj => ?_⟩
    have : j = 0 := by omega
    subst this; norm_num at h1 ⊢; omega
  · refine ⟨by norm_num at h3 ⊢; omega, fun j hj => ?_⟩
    have : j = 0 ∨ j = 1 := by omega
    rcases this with rfl | rfl <;> norm_num at h1 h2 ⊢ <;> omega
  · refine ⟨by norm_num; omega, fun j hj => ?_⟩
    have : j = 0 ∨ j = 1 ∨ j = 2 := by omega
    rcases this with rfl | rfl | rfl <;> norm_num at h1 h2 h3 ⊢ <;> omega

theorem shiftLeft_toNat {w : Word} {n : Nat} (h : w.toNat * 2 ^ n < 2 ^ 32) : (w <<< n).toNat = w.toNat * 2 ^ n := by
  rw [BitVec.toNat_shiftLeft, Nat.shiftLeft_eq, Nat.mod_eq_of_lt h]

theorem shiftLeft_zero' (w : Word) : w <<< (8 * 0) = w := by simp

/-- The loop of R153 from the `j`-th byte on. -/
theorem renormLoop_refilled {w o : Word} {s : State} (h0 : 0 < w.toNat)
    (hr : s.readable (8 * refills w.toNat) = true) (n j fuel : Nat) (hj : j + n = refills w.toNat) (hf : n < fuel) :
    renormLoop fuel (s.refilled w o j) = .ok () (s.refilled w o (refills w.toNat)) := by
  obtain ⟨hk, hlt⟩ := refills_spec h0
  have h3 := refills_le w.toNat
  rw [readable_iff] at hr
  induction n generalizing j fuel with
  | zero =>
    obtain ⟨f, rfl⟩ : ∃ f, fuel = f + 1 := ⟨fuel - 1, by omega⟩
    have hj' : j = refills w.toNat := by omega
    have hb : w.toNat * 2 ^ (8 * j) < 2 ^ 32 := by
      rcases Nat.eq_zero_or_pos j with rfl | hp
      · simpa using w.isLt
      · have h2 := hlt (j - 1) (by omega)
        have : 2 ^ (8 * j) = 2 ^ (8 * (j - 1)) * 2 ^ 8 := by rw [← pow_add]; congr 1; omega
        rw [this, ← mul_assoc]
        omega
    have : ¬ (s.refilled w o j).ac.rng < Config.renormTop := by
      rw [BitVec.lt_def, refilled_ac, shiftLeft_toNat hb, hj']
      simpa using hk
    simp only [renormLoop, if_neg this]
    rw [hj']
  | succ n ih =>
    obtain ⟨f, rfl⟩ : ∃ f, fuel = f + 1 := ⟨fuel - 1, by omega⟩
    have h2 := hlt j (by omega)
    have hb : w.toNat * 2 ^ (8 * j) < 2 ^ 32 := by omega
    have : (s.refilled w o j).ac.rng < Config.renormTop := by
      rw [BitVec.lt_def, refilled_ac, shiftLeft_toNat hb]
      simpa using h2
    have hcur : (s.advance (8 * j)).br.cur.toNat = s.br.cur.toNat + 8 * j := advance_cur (by omega)
    have hread : (s.refilled w o j).readable 8 = true := by
      rw [readable_iff]
      exact ⟨hr.1, by rw [refilled_br, hcur]; simp only [advance_br]; omega⟩
    simp only [renormLoop, if_pos this, refill_readable hread, Res.bind_ok]
    rw [refilled_succ w o j s (by omega)]
    exact ih (j + 1) f (by omega) (by omega)

/-- R153: the bytes that bring the width to 2^24 remain. -/
theorem renormalise_readable {s : State} (h0 : 0 < s.ac.rng.toNat)
    (hr : s.readable (8 * refills s.ac.rng.toNat) = true) :
    renormalise s = .ok () (s.refilled s.ac.rng s.ac.code (refills s.ac.rng.toNat)) := by
  have e : s.refilled s.ac.rng s.ac.code 0 = s := refilled_zero _ _ s
  have := renormLoop_refilled (o := s.ac.code) h0 hr (refills s.ac.rng.toNat) 0
    ((s.br.lim.toNat - s.br.cur.toNat) / 8 + 1) (by omega) (by rw [readable_iff] at hr; omega)
  rwa [e] at this

theorem renormLoop_truncated {w o : Word} {s : State} (h0 : 0 < w.toNat) (ho : s.inputOwned = true)
    (h : s.br.lim.toNat < s.br.cur.toNat + 8 * refills w.toNat) (n j fuel : Nat) (hj : j + n = refills w.toNat)
    (hc : s.br.cur.toNat + 8 * j ≤ s.br.lim.toNat) :
    ∃ t, renormLoop fuel (s.refilled w o j) = .ended t ∧
      (fuel ≤ (s.br.lim.toNat - s.br.cur.toNat) / 8 - j ∨ EndsWith truncated s.br.lim s t ∧ t.cm = s.cm) := by
  obtain ⟨hk, hlt⟩ := refills_spec h0
  have h3 := refills_le w.toNat
  induction n generalizing j fuel with
  | zero => omega
  | succ n ih =>
    rcases Nat.eq_zero_or_pos fuel with rfl | hf
    · exact ⟨_, rfl, .inl (Nat.zero_le _)⟩
    obtain ⟨f, rfl⟩ : ∃ f, fuel = f + 1 := ⟨fuel - 1, by omega⟩
    have h2 := hlt j (by omega)
    have hb : w.toNat * 2 ^ (8 * j) < 2 ^ 32 := by omega
    have hcond : (s.refilled w o j).ac.rng < Config.renormTop := by
      rw [BitVec.lt_def, refilled_ac, shiftLeft_toNat hb]
      simpa using h2
    have hcur : (s.advance (8 * j)).br.cur.toNat = s.br.cur.toNat + 8 * j := advance_cur (by omega)
    by_cases hr : s.br.cur.toNat + 8 * (j + 1) ≤ s.br.lim.toNat
    · have hread : (s.refilled w o j).readable 8 = true := by
        rw [readable_iff]
        exact ⟨ho, by rw [refilled_br, hcur]; simp only [advance_br]; omega⟩
      obtain ⟨t, ht, hor⟩ := ih (j + 1) f (by omega) hr
      refine ⟨t, ?_, ?_⟩
      · simp only [renormLoop, if_pos hcond, refill_readable hread, Res.bind_ok]
        rw [refilled_succ w o j s hr]
        exact ht
      · rcases hor with hor | hor
        · exact .inl (by omega)
        · exact .inr hor
    · have htr := refill_truncated (s := s.refilled w o j) ho
        (by rw [refilled_br, hcur]; simp only [advance_br]; omega)
        (by rw [refilled_br, hcur]; simp only [advance_br]; omega)
      exact ⟨takeError truncated (s.refilled w o j).exhausted,
        by simp only [renormLoop, if_pos hcond, htr, Res.bind_ended], .inr ⟨rfl, rfl⟩⟩

/-- R153: a byte that is needed is missing. -/
theorem renormalise_truncated {s : State} (h0 : 0 < s.ac.rng.toNat) (ho : s.inputOwned = true)
    (hc : s.br.cur.toNat ≤ s.br.lim.toNat) (h : s.br.lim.toNat < s.br.cur.toNat + 8 * refills s.ac.rng.toNat) :
    ∃ t, renormalise s = .ended t ∧ EndsWith truncated s.br.lim s t ∧ t.cm = s.cm := by
  have e : s.refilled s.ac.rng s.ac.code 0 = s := refilled_zero _ _ s
  obtain ⟨t, ht, hor⟩ := renormLoop_truncated (o := s.ac.code) h0 ho h (refills s.ac.rng.toNat) 0
    ((s.br.lim.toNat - s.br.cur.toNat) / 8 + 1) (by omega) (by omega)
  rw [e] at ht
  exact ⟨t, ht, by rcases hor with hor | hor; · omega
                   · exact hor⟩

/-! ### Decisions -/

theorem splitBound_toNat (r : Word) (p : Ctr) : (splitBound r p).toNat = r.toNat / 4096 * p.toNat := by
  have h1 := r.isLt
  have h2 := p.isLt
  have h3 : r.toNat / 4096 < 2 ^ 20 := by omega
  have h4 : r.toNat / 4096 * p.toNat < 2 ^ 20 * 2 ^ 12 := Nat.mul_lt_mul'' h3 h2
  have hd : (r >>> 12).toNat = r.toNat / 4096 := by
    rw [BitVec.toNat_ushiftRight, Nat.shiftRight_eq_div_pow]
  have hp : (p.setWidth 32).toNat = p.toNat := by
    rw [BitVec.toNat_setWidth]; exact Nat.mod_eq_of_lt (by omega)
  rw [splitBound, BitVec.toNat_mul, hd, hp]
  exact Nat.mod_eq_of_lt (by norm_num at h4 ⊢; exact h4)

/-- R152: the split point lies strictly inside the interval, by at least 2^12 on each side. -/
theorem bound_inside {s : State} {p : Nat} (h1 : 1 ≤ p) (h2 : p ≤ 4095) (hr : 2 ^ 24 ≤ s.ac.rng.toNat) :
    2 ^ 12 ≤ s.bound p ∧ s.bound p + 2 ^ 12 ≤ s.ac.rng.toNat := by
  have hq : 2 ^ 12 ≤ s.ac.rng.toNat / 4096 := by omega
  unfold State.bound
  generalize hb : s.ac.rng.toNat / 4096 = q at *
  have hqr : q * 4096 ≤ s.ac.rng.toNat := by omega
  constructor
  · calc 2 ^ 12 ≤ q * 1 := by omega
      _ ≤ q * p := Nat.mul_le_mul_left _ h1
  · have : q * p ≤ q * 4095 := Nat.mul_le_mul_left _ h2
    omega

theorem widthAfter_pos {s : State} {p : Nat} (h1 : 1 ≤ p) (h2 : p ≤ 4095) (hr : 2 ^ 24 ≤ s.ac.rng.toNat) :
    2 ^ 12 ≤ s.widthAfter p := by
  obtain ⟨ha, hb⟩ := bound_inside h1 h2 hr
  unfold State.widthAfter
  split_ifs <;> omega

theorem widthAfter_lt (s : State) (p : Nat) (h2 : p ≤ 4095) : s.widthAfter p < 2 ^ 32 := by
  have h1 := s.ac.rng.isLt
  unfold State.widthAfter State.bound
  have h3 : s.ac.rng.toNat / 4096 < 2 ^ 20 := by omega
  have : s.ac.rng.toNat / 4096 * p ≤ (2 ^ 20) * 4095 := Nat.mul_le_mul (by omega) h2
  split_ifs <;> omega

/-- The registers a decision leaves before its refills. -/
def State.narrowed (p : Nat) (s : State) : State :=
  { s with ac := { rng := BitVec.ofNat 32 (s.widthAfter p), code := BitVec.ofNat 32 (s.offsetAfter p) } }

theorem refilled_narrowed (w o : Word) (k p : Nat) (s : State) : (s.narrowed p).refilled w o k = s.refilled w o k := by
  have e : (s.narrowed p).peek (8 * k) = s.peek (8 * k) :=
    bitsFrom_congr (s := s.narrowed p) (t := s) rfl rfl _ _ _
  simp only [State.refilled, e]
  rfl

/-- R152, on any state: the interval is narrowed, then renormalised. -/
theorem decodeBit_eq (p : Ctr) (s : State) :
    decodeBit p s = (renormalise (s.narrowed p.toNat)).bind fun _ t => .ok (s.chosen p.toNat) t := by
  have hb := splitBound_toNat s.ac.rng p
  have hlt := (splitBound s.ac.rng p).isLt
  have hc := s.ac.code.isLt
  have hr := s.ac.rng.isLt
  have hle : (splitBound s.ac.rng p).toNat ≤ s.ac.rng.toNat := by
    rw [hb]
    have : s.ac.rng.toNat / 4096 * p.toNat ≤ s.ac.rng.toNat / 4096 * 4096 := Nat.mul_le_mul_left _ (by omega)
    omega
  have e : s.bound p.toNat = (splitBound s.ac.rng p).toNat := hb.symm
  simp only [decodeBit, State.narrowed, State.chosen, State.widthAfter, State.offsetAfter, e]
  by_cases h : s.ac.code < splitBound s.ac.rng p
  · have h' : ¬ (splitBound s.ac.rng p).toNat ≤ s.ac.code.toNat := by rw [BitVec.lt_def] at h; omega
    simp only [if_pos h, h', decide_false, Bool.false_eq_true, if_false, BitVec.ofNat_toNat, BitVec.setWidth_eq]
  · have h' : (splitBound s.ac.rng p).toNat ≤ s.ac.code.toNat := by rw [BitVec.lt_def] at h; omega
    have e1 : s.ac.rng - splitBound s.ac.rng p = BitVec.ofNat 32 (s.ac.rng.toNat - (splitBound s.ac.rng p).toNat) := by
      apply BitVec.eq_of_toNat_eq
      rw [BitVec.toNat_sub, BitVec.toNat_ofNat]
      omega
    have e2 : s.ac.code - splitBound s.ac.rng p = BitVec.ofNat 32 (s.ac.code.toNat - (splitBound s.ac.rng p).toNat) := by
      apply BitVec.eq_of_toNat_eq
      rw [BitVec.toNat_sub, BitVec.toNat_ofNat]
      omega
    simp only [if_neg h, h', decide_true, if_true, e1, e2]

/-- R152 and R153: the refill bytes remain. -/
theorem decodeBit_readable {p : Ctr} {s : State} (h1 : 1 ≤ p.toNat) (hr : 2 ^ 24 ≤ s.ac.rng.toNat)
    (h : s.readable (8 * refills (s.widthAfter p.toNat)) = true) :
    decodeBit p s = .ok (s.chosen p.toNat) (s.decided p.toNat) := by
  have hp : p.toNat ≤ 4095 := by have := p.isLt; omega
  have hw : (BitVec.ofNat 32 (s.widthAfter p.toNat)).toNat = s.widthAfter p.toNat := by
    rw [BitVec.toNat_ofNat]; exact Nat.mod_eq_of_lt (widthAfter_lt s _ hp)
  have hpos := widthAfter_pos h1 hp hr
  have := renormalise_readable (s := s.narrowed p.toNat) (by simp only [State.narrowed]; rw [hw]; omega)
    (by simp only [State.narrowed]; rw [hw]; exact h)
  rw [decodeBit_eq, this, refilled_narrowed]
  simp only [Res.bind_ok, State.narrowed, hw]
  rfl

/-- R152 and R153: a refill byte is missing. -/
theorem decodeBit_truncated {p : Ctr} {s : State} (h1 : 1 ≤ p.toNat) (hr : 2 ^ 24 ≤ s.ac.rng.toNat)
    (ho : s.inputOwned = true) (hc : s.br.cur.toNat ≤ s.br.lim.toNat)
    (h : s.br.lim.toNat < s.br.cur.toNat + 8 * refills (s.widthAfter p.toNat)) :
    ∃ t, decodeBit p s = .ended t ∧ EndsWith truncated s.br.lim s t ∧ t.cm = s.cm := by
  have hp : p.toNat ≤ 4095 := by have := p.isLt; omega
  have hw : (BitVec.ofNat 32 (s.widthAfter p.toNat)).toNat = s.widthAfter p.toNat := by
    rw [BitVec.toNat_ofNat]; exact Nat.mod_eq_of_lt (widthAfter_lt s _ hp)
  have hpos := widthAfter_pos h1 hp hr
  obtain ⟨t, ht, he, hcm⟩ := renormalise_truncated (s := s.narrowed p.toNat)
    (by simp only [State.narrowed]; rw [hw]; omega) ho hc (by simp only [State.narrowed]; rw [hw]; exact h)
  refine ⟨t, by rw [decodeBit_eq, ht]; rfl, ?_, hcm⟩
  exact he

/-! ### `ac_init` -/

/-- R151: the 32 bits remain. -/
theorem acInit_readable {s : State} (h : s.readable 32 = true) :
    acInit s = .ok () { s.advance 32 with ac := { rng := 0xFFFFFFFF, code := BitVec.ofNat 32 (s.peek 32) } } := by
  have hr := readUint_readable (n := 32) (s := { s with ac := { s.ac with rng := 0xFFFFFFFF } }) h
  have e : ({ s with ac := { s.ac with rng := 0xFFFFFFFF } } : State).peek 32 = s.peek 32 :=
    bitsFrom_congr (s := { s with ac := { s.ac with rng := 0xFFFFFFFF } }) (t := s) rfl rfl _ _ _
  simp only [acInit, hr, Res.bind_ok, e]
  rfl

/-- R151: fewer than 32 bits remain. -/
theorem acInit_truncated {s : State} (ho : s.inputOwned = true) (hc : s.br.cur.toNat ≤ s.br.lim.toNat)
    (h : s.br.lim.toNat < s.br.cur.toNat + 32) :
    ∃ t, acInit s = .ended t ∧ EndsWith truncated s.br.lim s t := by
  have hr := readUint_truncated (n := 32) (s := { s with ac := { s.ac with rng := 0xFFFFFFFF } }) ho hc h
  exact ⟨takeError truncated { s.exhausted with ac := { s.ac with rng := 0xFFFFFFFF } },
    by simp only [acInit, hr, Res.bind_ended]; rfl, rfl⟩

/-! ### On any state -/

theorem refill_post (s : State) :
    (refill s).Post (fun _ t => ∃ u a, ReadTo 8 s u ∧ t = { u with ac := a }) (fun t => RanOut s t) (fun _ => False) :=
  (readUint_post 8 s).bind fun _ u hu => ⟨u, _, hu, rfl⟩

/-- The state after bytes have been read and the interval registers have changed. -/
def RefilledTo (s t : State) : Prop := ∃ n u a, ReadTo (8 * n) s u ∧ t = { u with ac := a }

theorem readTo_ac {n : Nat} {s u : State} (a : ArithDecoder) (h : ReadTo n s u) :
    ReadTo n { s with ac := a } { u with ac := a } := by
  obtain ⟨h1, f, rfl⟩ := h
  exact ⟨h1, f, rfl⟩

theorem readTo_ac' {n : Nat} {s u : State} (a : ArithDecoder) (h : ReadTo n { s with ac := a } u) :
    ∃ v, ReadTo n s v ∧ u = { v with ac := a } := by
  obtain ⟨h1, f, rfl⟩ := h
  exact ⟨{ s.advance n with freeCount := f }, ⟨h1, f, rfl⟩, rfl⟩

theorem RefilledTo.refl (s : State) : RefilledTo s s := ⟨0, s, s.ac, ReadTo.zero s, rfl⟩

theorem RefilledTo.trans {s t u : State} (h : RefilledTo s t) (h' : RefilledTo t u) : RefilledTo s u := by
  obtain ⟨m, v, a, hv, rfl⟩ := h
  obtain ⟨n, w, b, hw, rfl⟩ := h'
  obtain ⟨x, hx, rfl⟩ := readTo_ac' a hw
  exact ⟨m + n, x, b, by rw [Nat.mul_add]; exact hv.trans hx, rfl⟩

/-- A session that has ended because a refill ran out. -/
def RefillRanOut (s t : State) : Prop := ∃ a u, RanOut s u ∧ t = { u with ac := a }

theorem RefillRanOut.of_ranOut {s t : State} (h : RanOut s t) : RefillRanOut s t := ⟨t.ac, t, h, rfl⟩

theorem RefillRanOut.after {s t u : State} (h : RefilledTo s t) (h' : RefillRanOut t u) : RefillRanOut s u := by
  obtain ⟨n, v, a, hv, rfl⟩ := h
  obtain ⟨b, w, ⟨c, f, rfl, hc⟩, rfl⟩ := h'
  exact ⟨b, takeError truncated { v with br := { v.br with cur := c }, freeCount := f },
    RanOut.after hv ⟨c, f, rfl, hc⟩, rfl⟩

/-- A session ended because a refill ran out, or because the loop of R153 was bounded. -/
def OutOfInput (s t : State) : Prop := RefillRanOut s t ∨ ∃ u, RefilledTo s u ∧ t = takeError truncated u

theorem OutOfInput.after {s t u : State} (h : RefilledTo s t) (h' : OutOfInput t u) : OutOfInput s u := by
  rcases h' with h' | ⟨w, hw, rfl⟩
  · exact .inl (RefillRanOut.after h h')
  · exact .inr ⟨w, h.trans hw, rfl⟩

theorem renormLoop_post (fuel : Nat) (s : State) :
    (renormLoop fuel s).Post (fun _ t => RefilledTo s t ∧ 2 ^ 24 ≤ t.ac.rng.toNat) (fun t => OutOfInput s t)
      (fun _ => False) := by
  induction fuel generalizing s with
  | zero => exact .inr ⟨s, RefilledTo.refl s, rfl⟩
  | succ n ih =>
    simp only [renormLoop]
    split_ifs with h
    · refine ((refill_post s).imp (fun _ _ h => h) (fun _ h => .inl (RefillRanOut.of_ranOut h)) (fun _ h => h)).bind ?_
      rintro _ t ⟨u, a, hu, rfl⟩
      have hs : RefilledTo s { u with ac := a } := ⟨1, u, a, hu, rfl⟩
      exact (ih _).imp (fun _ v hv => ⟨hs.trans hv.1, hv.2⟩) (fun v hv => OutOfInput.after hs hv) fun _ h => h
    · rw [BitVec.lt_def] at h
      exact ⟨RefilledTo.refl s, by simpa using h⟩

/-- All `renormalise` can do, on any state: it answers with an interval of width 2^24 or more. -/
theorem renormalise_post (s : State) :
    (renormalise s).Post (fun _ t => RefilledTo s t ∧ 2 ^ 24 ≤ t.ac.rng.toNat) (fun t => OutOfInput s t)
      (fun _ => False) := renormLoop_post _ s

/-- All `decode_bit` can do, on any state. -/
theorem decodeBit_post (p : Ctr) (s : State) :
    (decodeBit p s).Post (fun _ t => RefilledTo s t ∧ 2 ^ 24 ≤ t.ac.rng.toNat) (fun t => OutOfInput s t)
      (fun _ => False) := by
  have hs : RefilledTo s (s.narrowed p.toNat) := ⟨0, s, _, ReadTo.zero s, rfl⟩
  rw [decodeBit_eq]
  exact ((renormalise_post _).imp (fun _ t ht => ⟨hs.trans ht.1, ht.2⟩) (fun t ht => OutOfInput.after hs ht)
    fun _ h => h).bind fun _ t ht => ht

/-- All `ac_init` can do, on any state. -/
theorem acInit_post (s : State) :
    (acInit s).Post (fun _ t => ∃ u c, ReadTo 32 s u ∧ t = { u with ac := { rng := 0xFFFFFFFF, code := c } })
      (fun t => RefillRanOut s t) (fun _ => False) := by
  refine ((readUint_post 32 _).imp (fun _ _ h => h) (fun t h => ?_) (fun _ h => h)).bind fun v t ht => ?_
  · obtain ⟨c, f, rfl, hc⟩ := h
    exact ⟨_, takeError truncated { s with br := { s.br with cur := c }, freeCount := f }, ⟨c, f, rfl, hc⟩, rfl⟩
  · obtain ⟨u, hu, rfl⟩ := readTo_ac' _ ht
    exact ⟨u, v, hu, rfl⟩

/-! ### Counters -/

/-- R157: the update keeps a counter inside 31 .. 4065. -/
theorem ctrUpdate_inRange {p : Ctr} (b : Bool) (h : ctrInRange p = true) : ctrInRange (ctrUpdate p b) = true := by
  have := p.isLt
  simp only [ctrInRange, Bool.and_eq_true, decide_eq_true_eq] at h ⊢
  cases b
  · simp only [ctrUpdate, Bool.false_eq_true, if_false, Nat.shiftRight_eq_div_pow, BitVec.toNat_ofNat]
    rw [Nat.mod_eq_of_lt] <;> simp only [Config.adaptShift, Config.probOne] <;> omega
  · simp only [ctrUpdate, if_true, Nat.shiftRight_eq_div_pow, BitVec.toNat_ofNat]
    rw [Nat.mod_eq_of_lt] <;> simp only [Config.adaptShift] <;> omega

theorem ctrAt_present {k : CtrRef} {s : State} {p : Ctr} (h : ctrAt k s = some p) : k.present = true := by
  cases k with
  | metaCtr i =>
    simp only [ctrAt, Vector.getElem?_eq_some_iff] at h
    obtain ⟨hi, -⟩ := h
    simp [CtrRef.present]; omega
  | leafCtr n j =>
    simp only [ctrAt] at h
    split_ifs at h with hn
    rw [Vector.getElem?_eq_some_iff] at h
    obtain ⟨hj, -⟩ := h
    simp only [CtrRef.present, NodeIdx.present, Bool.and_eq_true, decide_eq_true_eq]
    exact ⟨hn, by omega⟩

/-- A counter that exists can be read. -/
theorem ctrAt_isSome {k : CtrRef} {s : State} (h : k.present = true) : ∃ p, ctrAt k s = some p := by
  cases k with
  | metaCtr i =>
    simp only [CtrRef.present, decide_eq_true_eq] at h
    exact ⟨s.cm.metaCtx[i], by simp only [ctrAt]; exact Vector.getElem?_eq_getElem (by omega)⟩
  | leafCtr n j =>
    simp only [CtrRef.present, NodeIdx.present, Bool.and_eq_true, decide_eq_true_eq] at h
    exact ⟨(nodeAt s n.toNat).ctr[j], by
      simp only [ctrAt]
      rw [if_pos h.1]
      exact Vector.getElem?_eq_getElem (by omega)⟩

/-- All `decode_ctx` can do, on any state. -/
theorem decodeCtx_post (k : CtrRef) (s : State) :
    (decodeCtx k s).Post
      (fun b t => ∃ u p, ctrAt k s = some p ∧ RefilledTo s u ∧ 2 ^ 24 ≤ u.ac.rng.toNat ∧ t = setCtr k (ctrUpdate p b) u)
      (fun t => OutOfInput s t) (fun f => f = .noSuchCounter k ∧ k.present = false) := by
  simp only [decodeCtx]
  cases hk : ctrAt k s with
  | none =>
    refine ⟨rfl, ?_⟩
    by_contra hp
    obtain ⟨p, hp⟩ := ctrAt_isSome (s := s) (by simpa using hp)
    rw [hp] at hk
    exact Option.some_ne_none _ hk
  | some p =>
    exact ((decodeBit_post p s).imp (fun _ _ h => h) (fun _ h => h) (fun _ h => h.elim)).bind fun b t ht =>
      ⟨t, p, rfl, ht.1, ht.2, rfl⟩

/-- R36, R170: a write of a counter changes that counter and no other. -/
theorem ctrAt_setCtr {k k' : CtrRef} {s : State} {p v : Ctr} (hw : s.memoryWf = true) (h : ctrAt k s = some p) :
    ctrAt k' (setCtr k v s) = if k' = k then some v else ctrAt k' s := by
  cases k with
  | metaCtr i =>
    simp only [ctrAt, Vector.getElem?_eq_some_iff] at h
    obtain ⟨hi, -⟩ := h
    cases k' with
    | metaCtr j =>
      simp only [ctrAt, setCtr, CtrRef.metaCtr.injEq]
      by_cases hj : j = i
      · subst hj; simp [hi]
      · have : i ≠ j := fun e => hj e.symm
        simp [hj, this]
    | leafCtr n j => simp [ctrAt, setCtr, nodeAt]
  | leafCtr n j =>
    simp only [ctrAt] at h
    split_ifs at h with hn
    rw [Vector.getElem?_eq_some_iff] at h
    obtain ⟨hj, -⟩ := h
    cases k' with
    | metaCtr i => simp [ctrAt, setCtr]
    | leafCtr m i =>
      simp only [ctrAt, setCtr, nodeAt_setNode _ _ hw, CtrRef.leafCtr.injEq]
      by_cases hm : m = n
      · subst hm
        by_cases hi : i = j
        · subst hi; simp [hn, hj]
        · have : j ≠ i := fun e => hi e.symm
          simp [hi, this]
      · have : m.toNat ≠ n.toNat := fun e => hm (BitVec.eq_of_toNat_eq e)
        simp [hm, this]

/-- R155: the refill bytes remain. -/
theorem decodeCtx_readable {k : CtrRef} {p : Ctr} {s : State} (hk : ctrAt k s = some p) (h1 : 1 ≤ p.toNat)
    (hr : 2 ^ 24 ≤ s.ac.rng.toNat) (h : s.readable (8 * refills (s.widthAfter p.toNat)) = true) :
    decodeCtx k s = .ok (s.chosen p.toNat) (setCtr k (ctrUpdate p (s.chosen p.toNat)) (s.decided p.toNat)) := by
  simp only [decodeCtx, hk, decodeBit_readable h1 hr h, Res.bind_ok]

/-- R155: a refill byte is missing; no counter changes. -/
theorem decodeCtx_truncated {k : CtrRef} {p : Ctr} {s : State} (hk : ctrAt k s = some p) (h1 : 1 ≤ p.toNat)
    (hr : 2 ^ 24 ≤ s.ac.rng.toNat) (ho : s.inputOwned = true) (hc : s.br.cur.toNat ≤ s.br.lim.toNat)
    (h : s.br.lim.toNat < s.br.cur.toNat + 8 * refills (s.widthAfter p.toNat)) :
    ∃ t, decodeCtx k s = .ended t ∧ EndsWith truncated s.br.lim s t ∧ t.cm = s.cm := by
  obtain ⟨t, ht, he⟩ := decodeBit_truncated h1 hr ho hc h
  exact ⟨t, by simp only [decodeCtx, hk, ht, Res.bind_ended], he⟩

end Sys2Proof.Machine
end

