-- ==== Sys2Proof/Laws/Plane.lean ====
section
/-! SUPPORT. The positions of a pass (R234), what the plane store holds (R38), and what the reads, the prediction
and the properties of a pixel are (R237 to R241). -/

namespace Sys2Proof.Machine

/-! ### Passes -/

/-- The bounds of a pass's parameters (R232, R233). -/
theorem passOf_bounds {interlaced : Bool} {i : Nat} {q : Pass} (h : passOf interlaced i = some q) :
    q.x0 ≤ 8 ∧ q.y0 ≤ 8 ∧ 1 ≤ q.stepx ∧ q.stepx ≤ 16 ∧ 1 ≤ q.stepy ∧ q.stepy ≤ 16 ∧ 1 ≤ q.dx ∧ 1 ≤ q.dy := by
  have hm := List.mem_of_getElem? h
  have hall : ∀ q ∈ passList interlaced,
      q.x0 ≤ 8 ∧ q.y0 ≤ 8 ∧ 1 ≤ q.stepx ∧ q.stepx ≤ 16 ∧ 1 ≤ q.stepy ∧ q.stepy ≤ 16 ∧ 1 ≤ q.dx ∧ 1 ≤ q.dy := by
    cases interlaced <;> decide
  exact hall q hm

/-- There are nine passes with the interlaced flag and one without (R232, R233). -/
theorem passList_length (interlaced : Bool) : (passList interlaced).length = if interlaced then 9 else 1 := by
  cases interlaced <;> rfl

theorem passOf_isSome {interlaced : Bool} {i : Nat} :
    (passOf interlaced i).isSome = true ↔ i < (passList interlaced).length := by
  simp [passOf]

theorem currentPass_eq_ok {s : State} {q : Pass} :
    currentPass s = .ok q ↔ passOf s.interlaced s.sq.pi.toNat = some q := by
  unfold currentPass
  cases h : passOf s.interlaced s.sq.pi.toNat <;> simp

/-! ### Positions -/

/-- The terms of an arithmetic progression below a bound, as a list of the right length. -/
theorem mem_progression {a d n x : Nat} (hd : 1 ≤ d) :
    (x ∈ (List.range ((n - a + d - 1) / d)).map fun i => a + i * d) ↔ x < n ∧ a ≤ x ∧ (x - a) % d = 0 := by
  simp only [List.mem_map, List.mem_range]
  constructor
  · rintro ⟨i, hi, rfl⟩
    have h1 : i + 1 ≤ (n - a + d - 1) / d := hi
    rw [Nat.le_div_iff_mul_le hd, Nat.add_mul] at h1
    refine ⟨by omega, by omega, ?_⟩
    rw [Nat.add_sub_cancel_left, Nat.mul_mod_left]
  · rintro ⟨h1, h2, h3⟩
    refine ⟨(x - a) / d, ?_, ?_⟩
    · rw [Nat.lt_iff_add_one_le, Nat.le_div_iff_mul_le hd, Nat.add_mul]
      have := Nat.div_mul_le_self (x - a) d
      omega
    · have := Nat.div_add_mod (x - a) d
      rw [h3, Nat.mul_comm] at this
      omega

theorem Pass.mem_columns {q : Pass} {W x : Nat} (h : 1 ≤ q.stepx) :
    x ∈ q.columns W ↔ x < W ∧ q.x0 ≤ x ∧ (x - q.x0) % q.stepx = 0 := mem_progression h

theorem Pass.mem_rows {q : Pass} {H y : Nat} (h : 1 ≤ q.stepy) :
    y ∈ q.rows H ↔ y < H ∧ q.y0 ≤ y ∧ (y - q.y0) % q.stepy = 0 := mem_progression h

theorem Pass.has_iff {q : Pass} {W H x y : Nat} : q.has W H x y = true ↔
    (x < W ∧ q.x0 ≤ x ∧ (x - q.x0) % q.stepx = 0) ∧ y < H ∧ q.y0 ≤ y ∧ (y - q.y0) % q.stepy = 0 := by
  simp only [Pass.has, Bool.and_eq_true, decide_eq_true_eq]
  tauto

/-- The positions of a pass are those that belong to it (R234). -/
theorem Pass.mem_positions {q : Pass} {W H x y : Nat} (hx : 1 ≤ q.stepx) (hy : 1 ≤ q.stepy) :
    (x, y) ∈ q.positions W H ↔ q.has W H x y = true := by
  rw [Pass.has_iff, ← Pass.mem_columns hx, ← Pass.mem_rows hy]
  simp only [Pass.positions, List.mem_flatMap, List.mem_map, Prod.mk.injEq]
  constructor
  · rintro ⟨b, hb, a, ha, rfl, rfl⟩
    exact ⟨ha, hb⟩
  · rintro ⟨ha, hb⟩
    exact ⟨y, hb, x, ha, rfl, rfl⟩

/-- A pass with a first position inside the image has that position, and a pass without has none. -/
theorem Pass.nonempty_iff {q : Pass} {W H : Nat} :
    q.nonempty W H = true ↔ q.has W H q.x0 q.y0 = true := by
  rw [Pass.has_iff]
  simp [Pass.nonempty]

theorem Pass.has_nonempty {q : Pass} {W H x y : Nat} (h : q.has W H x y = true) : q.nonempty W H = true := by
  rw [Pass.has_iff] at h
  simp only [Pass.nonempty, Bool.and_eq_true, decide_eq_true_eq]
  omega

theorem progression_next {a d x : Nat} (ha : a ≤ x) (hm : (x - a) % d = 0) :
    (x + d - a) % d = 0 := by
  rw [show x + d - a = (x - a) + d by omega, Nat.add_mod_right, hm]

/-- Between two neighbouring terms of a progression there is no other. -/
theorem progression_gap {a d x z : Nat} (ha : a ≤ x) (hm : (x - a) % d = 0) (hz : a ≤ z) (hzm : (z - a) % d = 0)
    (h : z < x + d) : z ≤ x := by
  have h1 := Nat.div_add_mod (x - a) d
  have h2 := Nat.div_add_mod (z - a) d
  rw [hm] at h1
  rw [hzm] at h2
  by_contra hc
  have h3 : (x - a) / d < (z - a) / d := by
    by_contra h4
    have := Nat.mul_le_mul_left d (Nat.le_of_not_lt h4)
    omega
  have h5 := Nat.mul_le_mul_left d (Nat.succ_le_of_lt h3)
  rw [Nat.mul_succ] at h5
  omega

/-- The step to the next position: it is the next one of the pass in raster order, or the pass is over (R234). -/
theorem Pass.advance_spec {q : Pass} {W H x y : Nat} (hx : 1 ≤ q.stepx) (hy : 1 ≤ q.stepy)
    (h : q.has W H x y = true) :
    (q.advance W x y).1 < W ∧
    (if (q.advance W x y).2 < H then
      q.has W H (q.advance W x y).1 (q.advance W x y).2 = true ∧
      ∀ x' y', q.has W H x' y' = true →
        (rasterBefore (x', y') (q.advance W x y) = true ↔ rasterBefore (x', y') (x, y) = true ∨ (x', y') = (x, y))
    else
      ∀ x' y', q.has W H x' y' = true → rasterBefore (x', y') (x, y) = true ∨ (x', y') = (x, y)) := by
  rw [Pass.has_iff] at h
  obtain ⟨⟨h1, h2, h3⟩, h4, h5, h6⟩ := h
  have px := progression_next h2 h3
  have py := progression_next h5 h6
  unfold Pass.advance
  split_ifs with hw hh
  all_goals refine ⟨by simp only; omega, ?_⟩
  all_goals simp only [Pass.has_iff, rasterBefore, Bool.or_eq_true, Bool.and_eq_true, decide_eq_true_eq,
    Prod.mk.injEq] at *
  · refine ⟨⟨⟨by omega, Nat.le_refl _, by simp⟩, hh, by omega, py⟩, ?_⟩
    rintro x' y' ⟨⟨a1, a2, a3⟩, a4, a5, a6⟩
    have gx : x' < x + q.stepx := by omega
    have gx := progression_gap h2 h3 a2 a3 gx
    have gy := fun hlt => progression_gap h5 h6 a5 a6 hlt
    constructor
    · intro hlt
      have := gy (by omega)
      omega
    · omega
  · rintro x' y' ⟨⟨a1, a2, a3⟩, a4, a5, a6⟩
    have gx := progression_gap h2 h3 a2 a3 (by omega)
    have gy := progression_gap h5 h6 a5 a6 (by omega)
    omega
  · refine ⟨⟨⟨by omega, by omega, px⟩, h4, h5, h6⟩, ?_⟩
    rintro x' y' ⟨⟨a1, a2, a3⟩, a4, a5, a6⟩
    have gx := fun hlt => progression_gap h2 h3 a2 a3 hlt
    constructor
    · intro hlt
      by_cases hy' : y' = y
      · have := gx (by omega)
        omega
      · omega
    · omega

theorem rasterBefore_irrefl (a : Nat × Nat) : rasterBefore a a = false := by simp [rasterBefore]

theorem rasterBefore_asymm {a b : Nat × Nat} (h : rasterBefore a b = true) : rasterBefore b a = false := by
  simp only [rasterBefore, Bool.or_eq_true, Bool.and_eq_true, decide_eq_true_eq] at h
  simp only [rasterBefore, Bool.or_eq_false_iff, Bool.and_eq_false_iff, decide_eq_false_iff_not]
  omega

/-- The terms of an arithmetic progression rise. -/
theorem progression_sorted {a d n : Nat} (hd : 1 ≤ d) :
    ((List.range n).map fun i => a + i * d).Pairwise (· < ·) := by
  rw [List.pairwise_map]
  refine List.pairwise_lt_range.imp fun h => ?_
  have := Nat.mul_lt_mul_of_pos_right h hd
  omega

/-- The positions of a pass stand in raster order (R234). -/
theorem Pass.positions_sorted {q : Pass} {W H : Nat} (hx : 1 ≤ q.stepx) (hy : 1 ≤ q.stepy) :
    (q.positions W H).Pairwise fun a b => rasterBefore a b = true := by
  unfold Pass.positions
  rw [List.pairwise_flatMap]
  constructor
  · intro y _
    rw [List.pairwise_map]
    exact (progression_sorted hx).imp fun h => by simp [rasterBefore, h]
  · refine (progression_sorted hy).imp fun {y y'} h => ?_
    intro a ha b hb
    simp only [List.mem_map] at ha hb
    obtain ⟨_, -, rfl⟩ := ha
    obtain ⟨_, -, rfl⟩ := hb
    simp [rasterBefore, h]

/-- R234: the advance leads from each position to the next one in the list of positions. -/
theorem Pass.advance_succ {q : Pass} {W H : Nat} (hx : 1 ≤ q.stepx) (hy : 1 ≤ q.stepy) {L1 L2 : List (Nat × Nat)}
    {a b : Nat × Nat} (h : q.positions W H = L1 ++ a :: b :: L2) : q.advance W a.1 a.2 = b := by
  have hs := Pass.positions_sorted (W := W) (H := H) hx hy
  have hm : ∀ c, q.has W H c.1 c.2 = true ↔ c ∈ L1 ++ a :: b :: L2 := fun c => by
    rw [← h, ← Pass.mem_positions hx hy]
  have ha := (hm a).2 (by simp)
  rw [h, List.pairwise_append] at hs
  obtain ⟨-, hs, h1⟩ := hs
  rw [List.pairwise_cons, List.pairwise_cons] at hs
  obtain ⟨ha2, hb2, -⟩ := hs
  have hab := ha2 b (by simp)
  obtain ⟨-, hspec⟩ := Pass.advance_spec hx hy ha
  have hb := (hm b).2 (by simp)
  split_ifs at hspec with hH
  · obtain ⟨hn, hiff⟩ := hspec
    have hni := hiff b.1 b.2 hb
    have hna := (hiff a.1 a.2 ha).2 (.inr rfl)
    have hnb : ¬ rasterBefore b (q.advance W a.1 a.2) = true := by
      intro hc
      rcases hni.1 hc with hc | hc
      · rw [rasterBefore_asymm hab] at hc; exact Bool.noConfusion hc
      · rw [show b = a from hc, rasterBefore_irrefl] at hab; exact Bool.noConfusion hab
    have hmem := (hm (q.advance W a.1 a.2)).1 hn
    rw [List.mem_append, List.mem_cons, List.mem_cons] at hmem
    rcases hmem with hc | hc | hc | hc
    · have := h1 _ hc a (by simp)
      rw [rasterBefore_asymm hna] at this; exact Bool.noConfusion this
    · have hna' : rasterBefore a (q.advance W a.1 a.2) = true := hna
      rw [hc, rasterBefore_irrefl] at hna'; exact Bool.noConfusion hna'
    · exact hc
    · exact absurd (hb2 _ hc) hnb
  · rcases hspec b.1 b.2 hb with hc | hc
    · have hc' : rasterBefore b a = true := hc
      rw [rasterBefore_asymm hab] at hc'; exact Bool.noConfusion hc'
    · rw [show b = a from hc, rasterBefore_irrefl] at hab; exact Bool.noConfusion hab

/-- R234: after the last position of a pass the advance leaves the image. -/
theorem Pass.advance_last {q : Pass} {W H : Nat} (hx : 1 ≤ q.stepx) (hy : 1 ≤ q.stepy) {L1 : List (Nat × Nat)}
    {a : Nat × Nat} (h : q.positions W H = L1 ++ [a]) : H ≤ (q.advance W a.1 a.2).2 := by
  have hs := Pass.positions_sorted (W := W) (H := H) hx hy
  have hm : ∀ c, q.has W H c.1 c.2 = true ↔ c ∈ L1 ++ [a] := fun c => by rw [← h, ← Pass.mem_positions hx hy]
  have ha := (hm a).2 (by simp)
  obtain ⟨-, hspec⟩ := Pass.advance_spec hx hy ha
  by_contra hc
  rw [if_pos (by omega)] at hspec
  obtain ⟨hn, hiff⟩ := hspec
  have hna : rasterBefore a (q.advance W a.1 a.2) = true := (hiff a.1 a.2 ha).2 (.inr rfl)
  have hmem := (hm (q.advance W a.1 a.2)).1 hn
  rw [h, List.pairwise_append] at hs
  rw [List.mem_append, List.mem_singleton] at hmem
  rcases hmem with hc | hc
  · have := hs.2.2 _ hc a (by simp)
    rw [rasterBefore_asymm hna] at this; exact Bool.noConfusion this
  · rw [hc, rasterBefore_irrefl] at hna; exact Bool.noConfusion hna

/-- A pass with a position has its first position first. -/
theorem Pass.positions_head {q : Pass} {W H : Nat} (hx : 1 ≤ q.stepx) (hy : 1 ≤ q.stepy) {a : Nat × Nat}
    {L : List (Nat × Nat)} (h : q.positions W H = a :: L) : a = (q.x0, q.y0) := by
  have hs := Pass.positions_sorted (W := W) (H := H) hx hy
  have ha : q.has W H a.1 a.2 = true := by rw [← Pass.mem_positions hx hy, h]; simp
  have h0 := Pass.nonempty_iff.1 (Pass.has_nonempty ha)
  rw [← Pass.mem_positions hx hy, h, List.mem_cons] at h0
  rcases h0 with h0 | h0
  · exact h0.symm
  · rw [h, List.pairwise_cons] at hs
    have := hs.1 _ h0
    rw [Pass.has_iff] at ha
    simp only [rasterBefore, Bool.or_eq_true, Bool.and_eq_true, decide_eq_true_eq] at this
    omega

theorem Pass.positions_eq_nil {q : Pass} {W H : Nat} (hx : 1 ≤ q.stepx) (hy : 1 ≤ q.stepy) :
    q.positions W H = [] ↔ q.nonempty W H = false := by
  constructor
  · intro h
    by_contra hc
    have := Pass.nonempty_iff.1 (by simpa using hc)
    rw [← Pass.mem_positions hx hy, h] at this
    exact List.not_mem_nil this
  · intro h
    rw [List.eq_nil_iff_forall_not_mem]
    intro c hc
    have := Pass.has_nonempty ((Pass.mem_positions hx hy).1 (show (c.1, c.2) ∈ _ from hc))
    rw [h] at this
    exact Bool.noConfusion this

/-! ### The plane store -/

/-- A written sample reads back, and every other sample reads as before (R38). -/
theorem writeSample_spec {p y x : Nat} (v : Sample) (s : State) (hp : p < 4) :
    ∃ t, writeSample p y x v s = .ok () t ∧ t = { s with plane := t.plane } ∧
      sampleAt t p y x = .ok v.toNat ∧
      ∀ p' y' x', planeKey p' y' x' ≠ planeKey p y x → sampleAt t p' y' x' = sampleAt s p' y' x' := by
  refine ⟨_, by rw [writeSample, if_pos hp], rfl, ?_, ?_⟩
  · simp [sampleAt, hp, Store.get?_put_same]
  · intro p' y' x' hne
    simp [sampleAt, Store.get?_put_other _ _ hne]

/-- Samples depend on nothing but the plane store. -/
theorem sampleAt_congr {s t : State} (h : t.plane = s.plane) (p y x : Nat) : sampleAt t p y x = sampleAt s p y x := by
  simp [sampleAt, h]

/-! ### The reads of a pixel -/

/-- The near neighbours of a pixel whose reads are known (R237). -/
theorem nearNeighbours_ok {s : State} {q : Pass} {v : Nat → Nat → Nat}
    (hr : ∀ c ∈ neighbourReads q s.W s.H s.sq.x.toNat s.sq.y.toNat, sampleAt s s.sq.p.toNat c.2 c.1 = .ok (v c.1 c.2)) :
    nearNeighbours s q =
      (let n := neighboursBy q s.W (2 ^ (s.D - 1)) s.sq.x.toNat s.sq.y.toNat v
       .ok (n.vW, n.vN, n.vNW)) := by
  simp only [neighbourReads, List.forall_mem_append] at hr
  obtain ⟨⟨⟨⟨⟨⟨⟨h1, h2⟩, h3⟩, -⟩, -⟩, -⟩, -⟩, -⟩ := hr
  simp only [nearNeighbours, neighboursBy, State.mid]
  by_cases hw : q.dx ≤ s.sq.x.toNat <;> by_cases hn : q.dy ≤ s.sq.y.toNat
  all_goals simp only [hw, hn, and_self, and_true, and_false, if_true, if_false, List.mem_cons,
    List.not_mem_nil, or_false, forall_eq] at h1 h2 h3 ⊢
  · simp only [h1, h2, h3]; rfl
  · simp only [h1]; rfl
  · simp only [h2]; rfl

/-- The neighbours of a pixel whose reads are known (R237). -/
theorem neighboursOf_ok {s : State} {q : Pass} {v : Nat → Nat → Nat} (h : PixelReads s q v) :
    neighboursOf s = .ok (neighboursBy q s.W (2 ^ (s.D - 1)) s.sq.x.toNat s.sq.y.toNat v) := by
  obtain ⟨hq, -, -, hr⟩ := h
  have hnear := nearNeighbours_ok hr
  simp only [neighbourReads, List.forall_mem_append] at hr
  obtain ⟨⟨⟨⟨⟨-, h4⟩, h5⟩, h6⟩, -⟩, -⟩ := hr
  have e4 : (if q.dy ≤ s.sq.y.toNat ∧ s.sq.x.toNat + q.dx < s.W then
      sampleAt s s.sq.p.toNat (s.sq.y.toNat - q.dy) (s.sq.x.toNat + q.dx)
      else .ok (neighboursBy q s.W (2 ^ (s.D - 1)) s.sq.x.toNat s.sq.y.toNat v).vN) =
      .ok (neighboursBy q s.W (2 ^ (s.D - 1)) s.sq.x.toNat s.sq.y.toNat v).vNE := by
    simp only [neighboursBy]
    split_ifs with hc <;> simp_all
  have e5 : (if 2 * q.dy ≤ s.sq.y.toNat then sampleAt s s.sq.p.toNat (s.sq.y.toNat - 2 * q.dy) s.sq.x.toNat
      else .ok (neighboursBy q s.W (2 ^ (s.D - 1)) s.sq.x.toNat s.sq.y.toNat v).vN) =
      .ok (neighboursBy q s.W (2 ^ (s.D - 1)) s.sq.x.toNat s.sq.y.toNat v).vNN := by
    simp only [neighboursBy]
    split_ifs with hc <;> simp_all
  have e6 : (if 2 * q.dx ≤ s.sq.x.toNat then sampleAt s s.sq.p.toNat s.sq.y.toNat (s.sq.x.toNat - 2 * q.dx)
      else .ok (neighboursBy q s.W (2 ^ (s.D - 1)) s.sq.x.toNat s.sq.y.toNat v).vW) =
      .ok (neighboursBy q s.W (2 ^ (s.D - 1)) s.sq.x.toNat s.sq.y.toNat v).vWW := by
    simp only [neighboursBy]
    split_ifs with hc <;> simp_all
  simp only [neighboursOf, currentPass_eq_ok.2 hq, hnear, bind, Except.bind]
  clear h4 h5 h6 hnear
  generalize neighboursBy q s.W (2 ^ (s.D - 1)) s.sq.x.toNat s.sq.y.toNat v = n at e4 e5 e6 ⊢
  obtain ⟨vW, vN, vNW, vNE, vNN, vWW⟩ := n
  split_ifs at e4 e5 e6 ⊢ <;> simp_all

/-- The ahead neighbour of a pixel whose reads are known (R238). -/
theorem aheadOf_ok {s : State} {q : Pass} {v : Nat → Nat → Nat} (h : PixelReads s q v) :
    aheadOf s = .ok (aheadBy q s.W s.H s.sq.x.toNat s.sq.y.toNat v) := by
  obtain ⟨hq, -, -, hr⟩ := h
  simp only [neighbourReads, List.forall_mem_append] at hr
  obtain ⟨⟨-, h7⟩, h8⟩ := hr
  simp only [aheadOf, currentPass_eq_ok.2 hq, bind, Except.bind, aheadBy]
  cases hk : q.kind <;> simp only [hk, true_and, false_and, if_false, reduceCtorEq] at h7 h8 ⊢
  · split_ifs with hc
    · simp only [if_pos hc, List.mem_cons, List.not_mem_nil, or_false, forall_eq] at h7
      simp only [h7]; rfl
    · rfl
  · split_ifs with hc
    · simp only [if_pos hc, List.mem_cons, List.not_mem_nil, or_false, forall_eq] at h8
      simp only [h8]; rfl
    · rfl

/-- The prediction of a pixel whose reads are known (R239). -/
theorem predictOf_ok {s : State} {q : Pass} {v : Nat → Nat → Nat} (h : PixelReads s q v) :
    predictOf s = .ok (predictFrom q.kind (neighboursBy q s.W (2 ^ (s.D - 1)) s.sq.x.toNat s.sq.y.toNat v)
      (aheadBy q s.W s.H s.sq.x.toNat s.sq.y.toNat v)) := by
  simp only [predictOf, currentPass_eq_ok.2 h.1, neighboursOf_ok h, aheadOf_ok h, bind, Except.bind]

/-- The properties of a pixel whose reads are known (R240). -/
theorem propertiesOf_ok {s : State} {q : Pass} {v : Nat → Nat → Nat} (h : PixelReads s q v) :
    propertiesOf s = .ok (propertiesFrom q.kind (neighboursBy q s.W (2 ^ (s.D - 1)) s.sq.x.toNat s.sq.y.toNat v)
      (aheadBy q s.W s.H s.sq.x.toNat s.sq.y.toNat v)) := by
  simp only [propertiesOf, currentPass_eq_ok.2 h.1, neighboursOf_ok h, aheadOf_ok h, bind, Except.bind]

/-- The reads of a pixel are known once every position it reads has been written. -/
theorem pixelReads_of_written {s : State} {q : Pass} (hq : passOf s.interlaced s.sq.pi.toNat = some q)
    (hx : s.sq.x.toNat < s.W) (hy : s.sq.y.toNat < s.H)
    (h : ∀ c ∈ neighbourReads q s.W s.H s.sq.x.toNat s.sq.y.toNat, written s s.sq.p.toNat c.1 c.2) :
    PixelReads s q fun x y => match sampleAt s s.sq.p.toNat y x with | .ok v => v | .error _ => 0 := by
  refine ⟨hq, hx, hy, fun c hc => ?_⟩
  obtain ⟨v, hv⟩ := h c hc
  simp [hv]

/-! ### Values -/

/-- The median of three lies between any bounds two of them lie between. -/
theorem median3_bounds {a b c lo hi : Int} (ha : lo ≤ a) (hb : lo ≤ b) (ha' : a ≤ hi) (hb' : b ≤ hi) :
    lo ≤ median3 a b c ∧ median3 a b c ≤ hi := by
  unfold median3
  omega

/-- Clamping (R9). -/
theorem clamp_eq (v lo hi : Int) (h : lo ≤ hi) : clamp v lo hi = max lo (min v hi) := by
  unfold clamp
  split_ifs <;> omega

theorem forall_mem_guard {α : Type} {p : Prop} [Decidable p] {a : α} {Q : α → Prop} :
    (∀ c ∈ (if p then [a] else []), Q c) ↔ (p → Q a) := by
  split_ifs with h <;> simp [h]

/-- Every neighbour value is a sample the pixel reads, or `MID` (R237). -/
theorem neighboursBy_all {q : Pass} {W H m x y : Nat} {v : Nat → Nat → Nat} {Q : Nat → Prop} (hm : Q m)
    (hv : ∀ c ∈ neighbourReads q W H x y, Q (v c.1 c.2)) :
    Q (neighboursBy q W m x y v).vW ∧ Q (neighboursBy q W m x y v).vN ∧ Q (neighboursBy q W m x y v).vNW ∧
      Q (neighboursBy q W m x y v).vNE ∧ Q (neighboursBy q W m x y v).vNN ∧ Q (neighboursBy q W m x y v).vWW ∧
      ∀ a, aheadBy q W H x y v = some a → Q a := by
  simp only [neighbourReads, List.forall_mem_append, forall_mem_guard] at hv
  obtain ⟨⟨⟨⟨⟨⟨⟨h1, h2⟩, h3⟩, h4⟩, h5⟩, h6⟩, h7⟩, h8⟩ := hv
  have hW : Q (if q.dx ≤ x then v (x - q.dx) y else if q.dy ≤ y then v x (y - q.dy) else m) := by
    split_ifs with a b
    exacts [h1 a, h2 b, hm]
  have hN : Q (if q.dy ≤ y then v x (y - q.dy) else if q.dx ≤ x then v (x - q.dx) y else m) := by
    split_ifs with a b
    exacts [h2 a, h1 b, hm]
  refine ⟨hW, hN, ?_, ?_, ?_, ?_, ?_⟩
  · simp only [neighboursBy]
    generalize (if q.dx ≤ x then v (x - q.dx) y else if q.dy ≤ y then v x (y - q.dy) else m) = w at *
    generalize (if q.dy ≤ y then v x (y - q.dy) else if q.dx ≤ x then v (x - q.dx) y else m) = n at *
    split_ifs with a b
    exacts [h3 a, hW, hN]
  · simp only [neighboursBy]
    generalize (if q.dy ≤ y then v x (y - q.dy) else if q.dx ≤ x then v (x - q.dx) y else m) = n at *
    split_ifs with a
    exacts [h4 a, hN]
  · simp only [neighboursBy]
    generalize (if q.dy ≤ y then v x (y - q.dy) else if q.dx ≤ x then v (x - q.dx) y else m) = n at *
    split_ifs with a
    exacts [h5 a, hN]
  · simp only [neighboursBy]
    generalize (if q.dx ≤ x then v (x - q.dx) y else if q.dy ≤ y then v x (y - q.dy) else m) = w at *
    split_ifs with a
    exacts [h6 a, hW]
  · intro a ha
    unfold aheadBy at ha
    split_ifs at ha with hc hd
    · exact Option.some.inj ha ▸ h7 hc
    · exact Option.some.inj ha ▸ h8 hd

end Sys2Proof.Machine
end

