-- ==== Sys2Proof/Laws/Assembler.lean ====
section
/-! SUPPORT. What assembling an image can do (R270 to R276). -/

namespace Sys2Proof.Machine

/-! ### The check of the planes (R271) -/

/-- The check passes when every plane is recorded with the header's dimensions. -/
theorem checkPlanes_ok {s : State} {qs : List Nat}
    (h : ∀ q ∈ qs, s.sq.plW[q]? = some s.hdr.width ∧ s.sq.plH[q]? = some s.hdr.height) :
    checkPlanes qs s = .ok () s := by
  induction qs with
  | nil => rfl
  | cons q qs ih =>
    obtain ⟨h1, h2⟩ := h q (by simp)
    simp only [checkPlanes, h1, h2, ne_eq, not_true_eq_false, or_self, if_false]
    exact ih fun q hq => h q (by simp [hq])

/-- The check ends the session when some plane is not, all being planes of the block. -/
theorem checkPlanes_mismatch {s : State} {qs : List Nat} (hlt : ∀ q ∈ qs, q < 4)
    (h : ∃ q ∈ qs, s.sq.plW[q]? ≠ some s.hdr.width ∨ s.sq.plH[q]? ≠ some s.hdr.height) :
    checkPlanes qs s = .ended (takeError ⟨.channelCountMismatch, 2⟩ s) := by
  induction qs with
  | nil => simp at h
  | cons q qs ih =>
    have hq := hlt q (by simp)
    simp only [checkPlanes, Vector.getElem?_eq_getElem hq]
    split_ifs with hc
    · rfl
    · refine ih (fun q hq => hlt q (by simp [hq])) ?_
      obtain ⟨q', hq', hne⟩ := h
      rcases List.mem_cons.1 hq' with rfl | hq'
      · simp only [not_or, ne_eq, not_not] at hc
        simp [Vector.getElem?_eq_getElem hq, hc.1, hc.2] at hne
      · exact ⟨q', hq', hne⟩

/-- Everything the check can do: go on with nothing changed, end the session, or meet a plane that does not exist. -/
theorem checkPlanes_post (qs : List Nat) (s : State) : (checkPlanes qs s).Post (fun _ t => t = s)
    (fun t => t = takeError ⟨.channelCountMismatch, 2⟩ s) (fun f => ∃ q, f = .noSuchPlane q) := by
  induction qs with
  | nil => rfl
  | cons q qs ih =>
    unfold checkPlanes
    split
    · split_ifs
      · rfl
      · exact ih
    · exact ⟨q, rfl⟩

/-! ### One pixel (R272, R273) -/

theorem gatherSamples_ok {s : State} {x y : Nat} {v : Nat → Nat} {qs : List Nat}
    (h : ∀ q ∈ qs, sampleAt s q y x = .ok (v q)) : gatherSamples s x y qs = .ok (qs.map v) := by
  induction qs with
  | nil => rfl
  | cons q qs ih =>
    simp only [gatherSamples, h q (by simp), ih fun q hq => h q (by simp [hq]), bind, Except.bind, List.map_cons]

/-- The inverse transform changes planes 1 and 2 alone, and only with SUBG (R272). -/
theorem inverseTransform_getD {tid : BitVec 2} {depth n : Nat} {v : Nat → Nat} {q : Nat} (hq : q < n) :
    (inverseTransform tid depth ((List.range n).map v)).getD q 0 =
      if tid = 1 ∧ (q = 1 ∨ q = 2) then (v q + v 0) % 2 ^ depth else v q := by
  have hn : 0 < n := by omega
  unfold inverseTransform
  by_cases ht : tid = 1
  · simp [ht, List.getD_eq_getElem?_getD, hq, hn]
  · rw [if_neg ht, if_neg fun h => ht h.1]
    simp [List.getD_eq_getElem?_getD, hq]

/-- The output channels of a pixel whose samples are known (R272, R273). -/
theorem pixelChannels_ok {s : State} {x y : Nat} {v : Nat → Nat}
    (h : ∀ q, q < s.C → sampleAt s q y x = .ok (v q)) (ho : ∀ k, k < s.C → (s.order k).toNat < s.C) :
    pixelChannels s x y = .ok ((List.range s.C).map fun k =>
      BitVec.ofNat 16 (if s.tid = 1 ∧ ((s.order k).toNat = 1 ∨ (s.order k).toNat = 2)
        then (v (s.order k).toNat + v 0) % 2 ^ s.D else v (s.order k).toNat)) := by
  simp only [pixelChannels, gatherSamples_ok (v := v) (fun q hq => h q (List.mem_range.1 hq)), bind, Except.bind]
  congr 1
  apply List.map_congr_left
  intro k hk
  rw [inverseTransform_getD (ho k (List.mem_range.1 hk))]

/-- A pixel has one channel for every plane. -/
theorem pixelChannels_length {s : State} {x y : Nat} {ch : List Sample} (h : pixelChannels s x y = .ok ch) :
    ch.length = s.C := by
  unfold pixelChannels at h
  cases hg : gatherSamples s x y (List.range s.C) with
  | error f => simp [hg, bind, Except.bind] at h
  | ok v =>
    simp only [hg, bind, Except.bind, Except.ok.injEq] at h
    simp [← h]

/-! ### The words of the image (R274) -/

theorem Store.risesFrom_append {m l : Store α} {b c : Nat} (hm : Store.risesFrom b m = true)
    (hl : Store.risesFrom c l = true) (hb : b ≤ c) (h : ∀ e ∈ m, e.1 < c) : Store.risesFrom b (m ++ l) = true := by
  induction m generalizing b with
  | nil => exact Store.risesFrom_mono hb hl
  | cons e m ih =>
    obtain ⟨k, v⟩ := e
    simp only [List.cons_append, Store.risesFrom, Bool.and_eq_true, decide_eq_true_eq] at hm ⊢
    refine ⟨hm.1, ih hm.2 ?_ fun e he => h e (by simp [he])⟩
    have := h (k, v) (by simp)
    simpa using this

theorem Store.get?_append_of_lt {m l : Store α} {c a : Nat} (h : ∀ e ∈ m, e.1 < c) (ha : c ≤ a) :
    Store.get? (m ++ l) a = Store.get? l a := by
  induction m with
  | nil => rfl
  | cons e m ih =>
    obtain ⟨k, v⟩ := e
    have hk := h (k, v) (by simp)
    simp only at hk
    simp only [List.cons_append, Store.get?]
    rw [if_neg (by omega)]
    exact ih fun e he => h e (by simp [he])

theorem Store.get?_append_of_some {m l : Store α} {a : Nat} {v : α} (h : Store.get? m a = some v) :
    Store.get? (m ++ l) a = some v := by
  induction m with
  | nil => simp [Store.get?] at h
  | cons e m ih =>
    obtain ⟨k, w⟩ := e
    simp only [List.cons_append, Store.get?] at h ⊢
    split_ifs at h ⊢
    · exact h
    · exact ih h

/-- The words of one pixel stand at consecutive addresses. -/
theorem wordsAt_spec (ch : List Sample) (b : Nat) :
    Store.risesFrom b (ch.mapIdx fun k w => (b + k, w)) = true ∧
      (∀ e ∈ ch.mapIdx fun k w => (b + k, w), e.1 < b + ch.length) ∧
      ∀ k (hk : k < ch.length), Store.get? (ch.mapIdx fun k w => (b + k, w)) (b + k) = some ch[k] := by
  induction ch generalizing b with
  | nil => simp [Store.risesFrom]
  | cons w ch ih =>
    obtain ⟨h1, h2, h3⟩ := ih (b + 1)
    have hshift : (ch.mapIdx fun k w => (b + (k + 1), w)) = ch.mapIdx fun k w => (b + 1 + k, w) := by
      congr 1; funext k w; simp only [Prod.mk.injEq, and_true]; omega
    simp only [List.mapIdx_cons, hshift, Store.risesFrom, Nat.add_zero, le_refl, decide_true, Bool.true_and, h1,
      true_and, List.length_cons]
    refine ⟨?_, ?_⟩
    · intro e he
      rcases List.mem_cons.1 he with rfl | he
      · simp
      · have := h2 e he; omega
    · intro k hk
      cases k with
      | zero => simp [Store.get?]
      | succ k =>
        have := h3 k (by omega)
        simp only [Store.get?]
        rw [if_neg (by omega), List.getElem_cons_succ, ← this]
        congr 1; omega

/-- The words of `n` pixels from pixel `i` on: they stand at rising addresses, and channel `k` of pixel `j` at
`j·C + k` (R274). -/
theorem outputWords_spec {s : State} {n i : Nat} {out : Store Sample} (h : outputWords s n i = .ok out) :
    Store.risesFrom (i * s.C) out = true ∧ (∀ e ∈ out, e.1 < (i + n) * s.C) ∧
      ∀ j k, i ≤ j → j < i + n → k < s.C →
        ∃ ch, pixelChannels s (j % s.W) (j / s.W) = .ok ch ∧ Store.get? out (j * s.C + k) = ch[k]? := by
  induction n generalizing i out with
  | zero =>
    simp only [outputWords, Except.ok.injEq] at h
    subst h
    refine ⟨rfl, by simp, fun j k h1 h2 => by omega⟩
  | succ n ih =>
    unfold outputWords at h
    cases hc : pixelChannels s (i % s.W) (i / s.W) with
    | error f => simp [hc, bind, Except.bind] at h
    | ok ch =>
      cases hr : outputWords s n (i + 1) with
      | error f => simp [hc, hr, bind, Except.bind] at h
      | ok rest =>
        simp only [hc, hr, bind, Except.bind, Except.ok.injEq] at h
        subst h
        obtain ⟨r1, r2, r3⟩ := ih hr
        obtain ⟨w1, w2, w3⟩ := wordsAt_spec ch (i * s.C)
        have hlen := pixelChannels_length hc
        have hsucc : (i + 1) * s.C = i * s.C + s.C := Nat.succ_mul i s.C
        rw [hlen] at w2
        refine ⟨Store.risesFrom_append w1 r1 (by omega) fun e he => by have := w2 e he; omega, ?_, ?_⟩
        · intro e he
          rcases List.mem_append.1 he with he | he
          · have := w2 e he
            have : (i + 1) * s.C ≤ (i + (n + 1)) * s.C := Nat.mul_le_mul_right _ (by omega)
            omega
          · have := r2 e he
            rwa [show i + 1 + n = i + (n + 1) by omega] at this
        · intro j k h1 h2 hk
          by_cases hj : j = i
          · subst hj
            refine ⟨ch, hc, ?_⟩
            have := w3 k (by omega)
            rw [Store.get?_append_of_some this, List.getElem?_eq_getElem]
          · obtain ⟨ch', hc', hg⟩ := r3 j k (by omega) (by omega) hk
            refine ⟨ch', hc', ?_⟩
            rw [Store.get?_append_of_lt (c := (i + 1) * s.C) (fun e he => by have := w2 e he; omega), hg]
            have : (i + 1) * s.C ≤ j * s.C := Nat.mul_le_mul_right _ (by omega)
            omega

/-- The words are there whenever every pixel has its channels. -/
theorem outputWords_ok {s : State} {n i : Nat}
    (h : ∀ j, i ≤ j → j < i + n → ∃ ch, pixelChannels s (j % s.W) (j / s.W) = .ok ch) :
    ∃ out, outputWords s n i = .ok out := by
  induction n generalizing i with
  | zero => exact ⟨[], rfl⟩
  | succ n ih =>
    obtain ⟨ch, hc⟩ := h i (by omega) (by omega)
    obtain ⟨rest, hr⟩ := ih (i := i + 1) fun j h1 h2 => h j (by omega) (by omega)
    exact ⟨_, by simp only [outputWords, hc, hr, bind, Except.bind]; rfl⟩

/-! ### Assembling -/

/-- Everything `assemble` can do: the whole image is written and the session completes; or it ends with
ChannelCountMismatch and nothing is written; or a plane or a sample it needs is not there (R270, R271, R276). -/
theorem assemble_cases (s : State) :
    (∃ out, assemble s = .ok () (completeSession { s with output := out }) ∧
      s.sq.planesDone.toNat = s.C ∧ outputWords s (s.W * s.H) 0 = .ok out) ∨
    (∃ info, assemble s = .ended (takeError ⟨.channelCountMismatch, info⟩ s)) ∨
    (∃ f, assemble s = .fault f) := by
  unfold assemble
  split_ifs with h
  · exact .inr (.inl ⟨1, rfl⟩)
  · have hp := checkPlanes_post (List.range s.C) s
    cases hc : checkPlanes (List.range s.C) s with
    | ended t => rw [hc] at hp; exact .inr (.inl ⟨2, congrArg Res.ended (hp : t = _)⟩)
    | fault f => exact .inr (.inr ⟨f, rfl⟩)
    | ok a t =>
      rw [hc] at hp
      have hp : t = s := hp
      subst hp
      cases ho : outputWords t (t.W * t.H) 0 with
      | error f => exact .inr (.inr ⟨f, by simp [ho]⟩)
      | ok out => exact .inl ⟨out, by simp [ho], by omega, rfl⟩

end Sys2Proof.Machine
end

