-- ==== Sys2Proof/Laws/NearZero.lean ====
section
/-! SUPPORT. Runs of decisions, and what the near-zero integer decoder can do (R170 to R173): it inverts the coding
of R102, and it answers nothing else. -/

namespace Sys2Proof.Machine

/-! ### Runs of decisions -/

theorem takes_nil (s : State) : takes s [] = some s := rfl

theorem takes_cons {s t : State} {k : CtrRef} {b : Bool} {ds : List (CtrRef × Bool)} :
    takes s ((k, b) :: ds) = some t ↔ ∃ u, decodeCtx k s = .ok b u ∧ takes u ds = some t := by
  simp only [takes]
  cases decodeCtx k s with
  | ok b' u =>
    by_cases h : b' = b
    · subst h; simp
    · simp only [if_neg h, Res.ok.injEq]
      constructor
      · intro h'; exact absurd h' (by simp)
      · rintro ⟨_, ⟨rfl, -⟩, -⟩; exact absurd rfl h
  | ended u => simp
  | fault f => simp

theorem takes_one {s t : State} {k : CtrRef} {b : Bool} : takes s [(k, b)] = some t ↔ decodeCtx k s = .ok b t := by
  rw [takes_cons]
  simp [takes]

theorem takes_append {s t : State} {ds es : List (CtrRef × Bool)} :
    takes s (ds ++ es) = some t ↔ ∃ u, takes s ds = some u ∧ takes u es = some t := by
  induction ds generalizing s with
  | nil => simp [takes]
  | cons d ds ih =>
    obtain ⟨k, b⟩ := d
    simp only [List.cons_append, takes_cons, ih]
    constructor
    · rintro ⟨u, h, v, hv, ht⟩; exact ⟨v, ⟨u, h, hv⟩, ht⟩
    · rintro ⟨v, ⟨u, h, hv⟩, ht⟩; exact ⟨u, h, v, hv, ht⟩

/-! ### The exponent -/

/-- EXP[e .. e + n - 1] all 1. -/
def expOnes (k : SetRef) : Nat → Nat → List (CtrRef × Bool)
  | 0, _ => []
  | n + 1, e => (k.ctr (2 + e), true) :: expOnes k n (e + 1)

theorem expOnes_eq (k : SetRef) (n e : Nat) :
    expOnes k n e = (List.range n).map fun i => (k.ctr (2 + (e + i)), true) := by
  induction n generalizing e with
  | zero => rfl
  | succ n ih =>
    rw [expOnes, ih, List.range_succ_eq_map, List.map_cons, List.map_map]
    simp only [Nat.add_zero, List.cons.injEq, true_and]
    apply List.map_congr_left
    intro i _
    simp only [Function.comp, Nat.succ_eq_add_one]
    congr 2
    omega

/-- The count stops at the first 0 below the limit. -/
theorem nzExponent_ok {k : SetRef} {err : Err} {n more e : Nat} {s t : State} (h : n ≤ more)
    (ht : takes s (expOnes k n e ++ [(k.ctr (2 + (e + n)), false)]) = some t) :
    nzExponent k err more e s = .ok (e + n) t := by
  induction n generalizing more e s with
  | zero =>
    simp only [expOnes, List.nil_append, Nat.add_zero, takes_one] at ht
    cases more <;> simp [nzExponent, ht]
  | succ n ih =>
    obtain ⟨m, rfl⟩ : ∃ m, more = m + 1 := ⟨more - 1, by omega⟩
    simp only [expOnes, List.cons_append, takes_cons] at ht
    obtain ⟨u, hu, ht⟩ := ht
    simp only [nzExponent, hu, Res.bind_ok, if_true]
    have e1 : e + 1 + n = e + (n + 1) := by omega
    rw [← e1] at ht ⊢
    exact ih (by omega) ht

/-- The error is raised as soon as the count reaches the limit. -/
theorem nzExponent_raise {k : SetRef} {err : Err} {more e : Nat} {s t : State}
    (ht : takes s (expOnes k (more + 1) e) = some t) : nzExponent k err more e s = .ended (takeError err t) := by
  induction more generalizing e s with
  | zero =>
    simp only [expOnes, takes_one] at ht
    simp [nzExponent, ht, raiseErr_eq]
  | succ n ih =>
    rw [expOnes, takes_cons] at ht
    obtain ⟨u, hu, ht⟩ := ht
    simp only [nzExponent, hu, Res.bind_ok, if_true]
    exact ih ht

theorem nzExponent_inv {k : SetRef} {err : Err} {more e v : Nat} {s t : State}
    (h : nzExponent k err more e s = .ok v t) :
    ∃ n, n ≤ more ∧ v = e + n ∧ takes s (expOnes k n e ++ [(k.ctr (2 + (e + n)), false)]) = some t := by
  induction more generalizing e s with
  | zero =>
    simp only [nzExponent, Res.bind_eq_ok] at h
    obtain ⟨b, u, hu, h⟩ := h
    cases b
    · simp only [Bool.false_eq_true, if_false, Res.ok.injEq] at h
      obtain ⟨rfl, rfl⟩ := h
      exact ⟨0, le_refl _, rfl, by simpa [expOnes, takes_one] using hu⟩
    · simp [raiseErr_eq] at h
  | succ m ih =>
    simp only [nzExponent, Res.bind_eq_ok] at h
    obtain ⟨b, u, hu, h⟩ := h
    cases b
    · simp only [Bool.false_eq_true, if_false, Res.ok.injEq] at h
      obtain ⟨rfl, rfl⟩ := h
      exact ⟨0, Nat.zero_le _, rfl, by simpa [expOnes, takes_one] using hu⟩
    · simp only [if_true] at h
      obtain ⟨n, hn, rfl, ht⟩ := ih h
      refine ⟨n + 1, by omega, by omega, ?_⟩
      simp only [expOnes, List.cons_append, takes_cons]
      have e1 : e + (n + 1) = e + 1 + n := by omega
      rw [e1]
      exact ⟨u, hu, ht⟩

/-! ### The mantissa -/

/-- The decisions of the mantissa with the counters of a set (step 5 of R102). -/
def mantCoded (k : SetRef) (m i : Nat) : List (CtrRef × Bool) := (mantDecisions m i).map fun d => (k.ctr d.1, d.2)

theorem mantCoded_succ (k : SetRef) (m i : Nat) :
    mantCoded k m (i + 1) = (k.ctr (18 + i), m.testBit i) :: mantCoded k m i := rfl

theorem nzMantissa_ok {k : SetRef} {m i a : Nat} {s t : State} (ht : takes s (mantCoded k m i) = some t) :
    nzMantissa k i a s = .ok (a * 2 ^ i + m % 2 ^ i) t := by
  induction i generalizing a s with
  | zero =>
    simp only [mantCoded, mantDecisions, List.map_nil, takes_nil, Option.some.injEq] at ht
    subst ht
    simp [nzMantissa, Nat.mod_one]
  | succ i ih =>
    rw [mantCoded_succ, takes_cons] at ht
    obtain ⟨u, hu, ht⟩ := ht
    simp only [nzMantissa, hu, Res.bind_ok, ih ht, Res.ok.injEq, and_true]
    have hb : (m.testBit i).toNat = m / 2 ^ i % 2 := by
      rw [Nat.testBit_eq_decide_div_mod_eq]
      rcases Nat.mod_two_eq_zero_or_one (m / 2 ^ i) with h | h <;> simp [h]
    have hm : m % 2 ^ (i + 1) = m / 2 ^ i % 2 * 2 ^ i + m % 2 ^ i := by
      rw [pow_succ, Nat.mod_mul, Nat.mul_comm]; omega
    rw [hb, hm, pow_succ]
    ring

theorem mantDecisions_congr {m m' i : Nat} (h : m % 2 ^ i = m' % 2 ^ i) : mantDecisions m i = mantDecisions m' i := by
  induction i with
  | zero => rfl
  | succ i ih =>
    have h1 : m % 2 ^ i = m' % 2 ^ i := by
      have := congrArg (· % 2 ^ i) h
      simpa [Nat.mod_mod_of_dvd _ (pow_dvd_pow 2 (Nat.le_succ i))] using this
    have h2 : m.testBit i = m'.testBit i := by
      have : (m % 2 ^ (i + 1)).testBit i = (m' % 2 ^ (i + 1)).testBit i := by rw [h]
      simpa [Nat.testBit_mod_two_pow] using this
    rw [mantDecisions, mantDecisions, ih h1, h2]

theorem nzMantissa_inv {k : SetRef} {i a v : Nat} {s t : State} (h : nzMantissa k i a s = .ok v t) :
    ∃ m, m < 2 ^ i ∧ v = a * 2 ^ i + m ∧ takes s (mantCoded k m i) = some t := by
  induction i generalizing a s with
  | zero =>
    simp only [nzMantissa, Res.ok.injEq] at h
    obtain ⟨rfl, rfl⟩ := h
    exact ⟨0, by simp, by simp, rfl⟩
  | succ i ih =>
    simp only [nzMantissa, Res.bind_eq_ok] at h
    obtain ⟨b, u, hu, h⟩ := h
    obtain ⟨m, hm, rfl, ht⟩ := ih h
    refine ⟨b.toNat * 2 ^ i + m, ?_, ?_, ?_⟩
    · have := Bool.toNat_le b
      rw [pow_succ]
      have : b.toNat * 2 ^ i ≤ 1 * 2 ^ i := Nat.mul_le_mul_right _ this
      omega
    · rw [pow_succ]; ring
    · rw [mantCoded_succ, takes_cons]
      have h1 : (b.toNat * 2 ^ i + m).testBit i = b := by
        rw [Nat.testBit_eq_decide_div_mod_eq, Nat.mul_comm, Nat.mul_add_div (by positivity), Nat.div_eq_of_lt hm]
        cases b <;> simp
      have h2 : mantDecisions (b.toNat * 2 ^ i + m) i = mantDecisions m i :=
        mantDecisions_congr (by rw [Nat.mul_comm, Nat.mul_add_mod])
      refine ⟨u, by rw [h1]; exact hu, ?_⟩
      rw [mantCoded, h2]
      exact ht

/-! ### The whole integer -/

theorem codedInt_zero (k : SetRef) : codedInt k 0 = [(k.ctr 0, true)] := rfl

theorem codedInt_nonzero (k : SetRef) {v : Int} (h : v ≠ 0) :
    codedInt k v = (k.ctr 0, false) :: (k.ctr 1, decide (v < 0)) ::
      ((expOnes k (Nat.log2 v.natAbs) 0 ++ [(k.ctr (2 + (0 + Nat.log2 v.natAbs)), false)]) ++
        mantCoded k v.natAbs (Nat.log2 v.natAbs)) := by
  simp only [codedInt, nzDecisions, if_neg h, List.map_cons, List.map_append, expDecisions, List.map_map, expOnes_eq,
    mantCoded, List.map_nil, Nat.zero_add, List.cons_append]
  rfl

theorem tooLarge_eq (k : SetRef) (limit : Nat) (neg : Bool) :
    tooLarge k limit neg = (k.ctr 0, false) :: (k.ctr 1, neg) :: expOnes k limit 0 := by
  simp only [tooLarge, expOnes_eq, Nat.zero_add]

/-- R171 inverts R102: the integer whose decisions are taken is answered. -/
theorem nzDecode_ok {k : SetRef} {limit : Nat} {err : Err} {v : Int} {s t : State} (hl : 1 ≤ limit)
    (hv : v.natAbs < 2 ^ limit) (ht : takes s (codedInt k v) = some t) : nzDecode k limit err s = .ok v t := by
  by_cases h : v = 0
  · subst h
    rw [codedInt_zero, takes_one] at ht
    simp [nzDecode, ht]
  · have h0 : v.natAbs ≠ 0 := by simpa using h
    rw [codedInt_nonzero k h, takes_cons] at ht
    obtain ⟨s1, h1, ht⟩ := ht
    rw [takes_cons] at ht
    obtain ⟨s2, h2, ht⟩ := ht
    rw [takes_append] at ht
    obtain ⟨s3, h3, ht⟩ := ht
    have hlog : Nat.log2 v.natAbs < limit := (Nat.log2_lt h0).2 hv
    have he := nzExponent_ok (err := err) (more := limit - 1) (by omega) h3
    have hm := nzMantissa_ok (a := 1) ht
    have hval : 1 * 2 ^ Nat.log2 v.natAbs + v.natAbs % 2 ^ Nat.log2 v.natAbs = v.natAbs := by
      have a1 : 2 ^ Nat.log2 v.natAbs ≤ v.natAbs := Nat.log2_self_le h0
      have a2 : v.natAbs < 2 ^ (Nat.log2 v.natAbs + 1) := Nat.lt_log2_self
      rw [pow_succ] at a2
      have a3 : v.natAbs % 2 ^ Nat.log2 v.natAbs = v.natAbs - 2 ^ Nat.log2 v.natAbs := by
        rw [Nat.mod_eq_sub_mod a1, Nat.mod_eq_of_lt (by omega)]
      omega
    rw [hval] at hm
    rw [Nat.zero_add] at he
    simp only [nzDecode, h1, Res.bind_ok, Bool.false_eq_true, if_false, h2, he, hm, Res.ok.injEq, and_true]
    by_cases hn : v < 0
    · simp only [hn, decide_true, if_true]; omega
    · simp only [hn, decide_false, Bool.false_eq_true, if_false]; omega

/-- R173: the error is raised when the exponent reaches the limit, before any mantissa bit. -/
theorem nzDecode_raise {k : SetRef} {limit : Nat} {err : Err} {neg : Bool} {s t : State} (hl : 1 ≤ limit)
    (ht : takes s (tooLarge k limit neg) = some t) : nzDecode k limit err s = .ended (takeError err t) := by
  rw [tooLarge_eq, takes_cons] at ht
  obtain ⟨s1, h1, ht⟩ := ht
  rw [takes_cons] at ht
  obtain ⟨s2, h2, ht⟩ := ht
  have e : limit - 1 + 1 = limit := by omega
  have he := nzExponent_raise (err := err) (more := limit - 1) (by rw [e]; exact ht)
  simp only [nzDecode, h1, Res.bind_ok, Bool.false_eq_true, if_false, h2, he, Res.bind_ended]

/-- R172: what is answered was coded, and is below 2^limit. -/
theorem nzDecode_inv {k : SetRef} {limit : Nat} {err : Err} {v : Int} {s t : State} (hl : 1 ≤ limit)
    (h : nzDecode k limit err s = .ok v t) : v.natAbs < 2 ^ limit ∧ takes s (codedInt k v) = some t := by
  simp only [nzDecode, Res.bind_eq_ok] at h
  obtain ⟨z, s1, h1, h⟩ := h
  cases z
  · simp only [Bool.false_eq_true, if_false, Res.bind_eq_ok] at h
    obtain ⟨neg, s2, h2, e, s3, h3, m, s4, h4, h5⟩ := h
    simp only [Res.ok.injEq] at h5
    obtain ⟨hv, rfl⟩ := h5
    obtain ⟨n, hn, he, hx⟩ := nzExponent_inv h3
    rw [Nat.zero_add] at he
    subst he
    obtain ⟨r, hr, hm, hy⟩ := nzMantissa_inv h4
    have hp : 0 < 2 ^ e := by positivity
    have hab : v.natAbs = m := by subst hv; split_ifs <;> simp
    have hm0 : m ≠ 0 := by omega
    have hlog : Nat.log2 m = e := by
      rw [Nat.log2_eq_iff hm0, pow_succ]; omega
    have hv0 : v ≠ 0 := by intro h; rw [h] at hab; simp at hab; omega
    have hneg : decide (v < 0) = neg := by
      subst hv
      cases neg
      · simp
      · simp; omega
    refine ⟨?_, ?_⟩
    · rw [hab]
      have : 2 ^ (e + 1) ≤ 2 ^ limit := Nat.pow_le_pow_right (by norm_num) (by omega)
      rw [pow_succ] at this
      omega
    · rw [codedInt_nonzero k hv0, hab, hlog, hneg, takes_cons]
      refine ⟨s1, h1, ?_⟩
      rw [takes_cons]
      refine ⟨s2, h2, ?_⟩
      rw [takes_append]
      refine ⟨s3, hx, ?_⟩
      have : mantCoded k m e = mantCoded k r e := by
        rw [mantCoded, mantCoded, mantDecisions_congr]
        rw [hm, Nat.one_mul, Nat.add_mod_left]
      rw [this]
      exact hy
  · simp only [if_true, Res.ok.injEq] at h
    obtain ⟨rfl, rfl⟩ := h
    exact ⟨by simp, by rw [codedInt_zero, takes_one]; exact h1⟩

/-! ### No fault -/

/-- A decision with a counter that exists never faults (R67). -/
theorem decodeCtx_noFault {k : CtrRef} (h : k.present = true) (s : State) (f : Fault) : decodeCtx k s ≠ .fault f := by
  intro hf
  have := decodeCtx_post k s
  rw [hf] at this
  exact absurd (h.symm.trans this.2) (by decide)

/-- The counters of a set that exists (R67, R170). -/
theorem setCtr_present {k : SetRef} (hk : k.present = true) {j : Nat} (hj : j ≤ 32) : (k.ctr j).present = true := by
  cases k with
  | thr => simp only [SetRef.ctr, CtrRef.present, decide_eq_true_eq]; omega
  | leaf n => simp only [SetRef.present] at hk; simp [SetRef.ctr, CtrRef.present, hk, hj]

theorem nzExponent_noFault {k : SetRef} (hk : k.present = true) {err : Err} {more e : Nat} (h : e + more ≤ 15) (s : State)
    (f : Fault) : nzExponent k err more e s ≠ .fault f := by
  induction more generalizing e s with
  | zero =>
    simp only [nzExponent, ne_eq, Res.bind_eq_fault, not_or, not_exists, not_and]
    refine ⟨decodeCtx_noFault (setCtr_present hk (by omega)) s f, fun b u _ => ?_⟩
    cases b <;> simp [raiseErr_eq]
  | succ m ih =>
    simp only [nzExponent, ne_eq, Res.bind_eq_fault, not_or, not_exists, not_and]
    refine ⟨decodeCtx_noFault (setCtr_present hk (by omega)) s f, fun b u _ => ?_⟩
    cases b
    · simp
    · simpa using ih (by omega) u

theorem nzMantissa_noFault {k : SetRef} (hk : k.present = true) {i m : Nat} (h : i ≤ 15) (s : State) (f : Fault) :
    nzMantissa k i m s ≠ .fault f := by
  induction i generalizing m s with
  | zero => simp [nzMantissa]
  | succ i ih =>
    simp only [nzMantissa, ne_eq, Res.bind_eq_fault, not_or, not_exists, not_and]
    exact ⟨decodeCtx_noFault (setCtr_present hk (by omega)) s f, fun b u _ => ih (by omega) u⟩

/-- A near-zero integer of a set that exists never faults (R67). -/
theorem nzDecode_noFault {k : SetRef} (hk : k.present = true) {limit : Nat} {err : Err} (hl : limit ≤ 16) (s : State)
    (f : Fault) : nzDecode k limit err s ≠ .fault f := by
  simp only [nzDecode, ne_eq, Res.bind_eq_fault, not_or, not_exists, not_and]
  refine ⟨decodeCtx_noFault (setCtr_present hk (by omega)) s f, fun z u _ => ?_⟩
  cases z
  · simp only [Bool.false_eq_true, if_false, Res.bind_eq_fault, not_or, not_exists, not_and]
    refine ⟨decodeCtx_noFault (setCtr_present hk (by omega)) u f, fun neg v _ => ?_⟩
    refine ⟨nzExponent_noFault hk (by omega) v f, fun e w he => ?_⟩
    obtain ⟨n, hn, rfl, -⟩ := nzExponent_inv he
    refine ⟨nzMantissa_noFault hk (by omega) w f, fun m x _ => by simp⟩
  · simp

end Sys2Proof.Machine
end

