-- ==== Sys2Proof/Laws/ContextTree.lean ====
section
/-! SUPPORT. What tree decode can do (R181 to R189): every decision uses a counter of META and leaves the arena alone,
so a decoded subtree is the run of its decisions beside one change of the arena, `layTree`. -/

namespace Sys2Proof.Machine

/-! ### The arena beside the rest of the state -/

/-- The same answer with every state changed by `f`. -/
def Res.mapState {α : Type} (f : State → State) : Res α → Res α
  | .ok a s => .ok a (f s)
  | .ended s => .ended (f s)
  | .fault g => .fault g

@[simp] theorem Res.mapState_ok {α : Type} (f : State → State) (a : α) (s : State) :
    (Res.ok a s).mapState f = .ok a (f s) := rfl

@[simp] theorem Res.mapState_ended {α : Type} (f : State → State) (s : State) :
    (Res.ended s : Res α).mapState f = .ended (f s) := rfl

@[simp] theorem Res.mapState_fault {α : Type} (f : State → State) (g : Fault) :
    (Res.fault g : Res α).mapState f = .fault g := rfl

theorem Res.bind_mapState {α β : Type} {r : Res α} {k l : α → State → Res β} {f : State → State}
    (h : ∀ a s, k a (f s) = (l a s).mapState f) : (r.mapState f).bind k = (r.bind l).mapState f := by
  cases r <;> simp [h]

theorem Res.bind_congr {α β : Type} {r : Res α} {k l : α → State → Res β} (h : ∀ a s, k a s = l a s) :
    r.bind k = r.bind l := by
  cases r <;> simp [h]

theorem withTree_withTree (c d : ContextModel) (s : State) : (s.withTree c).withTree d = s.withTree d := rfl

theorem withTree_self (s : State) : s.withTree s.cm = s := rfl

theorem inputByte_withTree (c : ContextModel) (a : Nat) (s : State) :
    inputByte a (s.withTree c) = ((inputByte a s).1, (inputByte a s).2.withTree c) := by
  have h : staleValues (s.withTree c) a = staleValues s a := rfl
  simp only [inputByte, h]
  split_ifs
  · rfl
  · cases staleValues s a <;> rfl

theorem readBit_withTree (c : ContextModel) (s : State) : readBit (s.withTree c) = (readBit s).mapState (State.withTree c) := by
  have hb : (s.withTree c).br = s.br := rfl
  simp only [readBit, hb, inputByte_withTree]
  split_ifs <;> rfl

theorem readUintFrom_withTree (c : ContextModel) (n : Nat) (v : Word) (s : State) :
    readUintFrom n v (s.withTree c) = (readUintFrom n v s).mapState (State.withTree c) := by
  induction n generalizing v s with
  | zero => rfl
  | succ n ih =>
    simp only [readUintFrom, readBit_withTree]
    exact Res.bind_mapState fun b t => ih _ t

theorem refill_withTree (c : ContextModel) (s : State) : refill (s.withTree c) = (refill s).mapState (State.withTree c) := by
  simp only [refill, readUint, readUintFrom_withTree]
  exact Res.bind_mapState fun b t => rfl

theorem renormLoop_withTree (c : ContextModel) (n : Nat) (s : State) :
    renormLoop n (s.withTree c) = (renormLoop n s).mapState (State.withTree c) := by
  induction n generalizing s with
  | zero => rfl
  | succ n ih =>
    have h : (s.withTree c).ac = s.ac := rfl
    simp only [renormLoop, h, refill_withTree]
    split_ifs
    · exact Res.bind_mapState fun _ t => ih t
    · rfl

theorem decodeBit_withTree (c : ContextModel) (p : Ctr) (s : State) :
    decodeBit p (s.withTree c) = (decodeBit p s).mapState (State.withTree c) := by
  have h : ∀ s : State, renormalise (s.withTree c) = (renormalise s).mapState (State.withTree c) := fun s =>
    renormLoop_withTree c _ s
  rw [decodeBit_eq, decodeBit_eq]
  have h2 := h (s.narrowed p.toNat)
  have h3 : (s.withTree c).narrowed p.toNat = (s.narrowed p.toNat).withTree c := rfl
  have h4 : (s.withTree c).chosen p.toNat = s.chosen p.toNat := rfl
  rw [h3, h2, h4]
  exact Res.bind_mapState fun _ t => rfl

/-- A decision with a counter of META does not see the arena. -/
theorem decodeCtx_withTree (c : ContextModel) (i : Nat) (s : State) :
    decodeCtx (.metaCtr i) (s.withTree c) = (decodeCtx (.metaCtr i) s).mapState (State.withTree c) := by
  have h : ctrAt (.metaCtr i) (s.withTree c) = ctrAt (.metaCtr i) s := rfl
  simp only [decodeCtx, h]
  cases ctrAt (.metaCtr i) s with
  | none => rfl
  | some p =>
    simp only [decodeBit_withTree]
    exact Res.bind_mapState fun b t => rfl

/-- A decision with a counter of META leaves the arena and the registers of tree decode as they are. -/
theorem decodeCtx_keeps (i : Nat) (s : State) :
    (decodeCtx (.metaCtr i) s).mapState (State.withTree s.cm) = decodeCtx (.metaCtr i) s := by
  rw [← decodeCtx_withTree, withTree_self]

theorem nzExponent_withTree (c : ContextModel) (err : Err) (more e : Nat) (s : State) :
    nzExponent .thr err more e (s.withTree c) = (nzExponent .thr err more e s).mapState (State.withTree c) := by
  induction more generalizing e s with
  | zero =>
    simp only [nzExponent, SetRef.ctr, decodeCtx_withTree]
    exact Res.bind_mapState fun b t => by cases b <;> rfl
  | succ n ih =>
    simp only [nzExponent, SetRef.ctr, decodeCtx_withTree]
    exact Res.bind_mapState fun b t => by cases b; · rfl
                                          · exact ih _ t

theorem nzMantissa_withTree (c : ContextModel) (i m : Nat) (s : State) :
    nzMantissa .thr i m (s.withTree c) = (nzMantissa .thr i m s).mapState (State.withTree c) := by
  induction i generalizing m s with
  | zero => rfl
  | succ n ih =>
    simp only [nzMantissa, SetRef.ctr, decodeCtx_withTree]
    exact Res.bind_mapState fun b t => ih _ t

/-- THR does not see the arena. -/
theorem decodeThr_withTree (c : ContextModel) (s : State) : decodeThr (s.withTree c) = (decodeThr s).mapState (State.withTree c) := by
  simp only [decodeThr, nzDecode, SetRef.ctr, decodeCtx_withTree]
  refine Res.bind_mapState fun z t => ?_
  cases z
  · simp only [Bool.false_eq_true, if_false, decodeCtx_withTree]
    refine Res.bind_mapState fun neg u => ?_
    rw [nzExponent_withTree]
    refine Res.bind_mapState fun e v => ?_
    rw [nzMantissa_withTree]
    exact Res.bind_mapState fun m w => rfl
  · rfl

/-- PROP does not see the arena. -/
theorem decodeProp_withTree (c : ContextModel) (s : State) :
    decodeProp (s.withTree c) = (decodeProp s).mapState (State.withTree c) := by
  have h : ∀ s : State, propBits (s.withTree c) = (propBits s).mapState (State.withTree c) := fun s => by
    simp only [propBits, decodeCtx_withTree]
    refine Res.bind_mapState fun b2 t => ?_
    rw [decodeCtx_withTree]
    refine Res.bind_mapState fun b1 u => ?_
    rw [decodeCtx_withTree]
    exact Res.bind_mapState fun b0 v => rfl
  simp only [decodeProp, h]
  exact Res.bind_mapState fun id t => by split_ifs <;> rfl

/-- Runs of decisions of META do not see the arena. -/
theorem takes_withTree (c : ContextModel) {ds : List (CtrRef × Bool)} (h : ∀ d ∈ ds, ∃ i, d.1 = .metaCtr i) (s : State) :
    takes (s.withTree c) ds = (takes s ds).map (State.withTree c) := by
  induction ds generalizing s with
  | nil => rfl
  | cons d ds ih =>
    obtain ⟨k, b⟩ := d
    obtain ⟨i, hi⟩ := h (k, b) (List.mem_cons_self ..)
    simp only at hi
    subst hi
    simp only [takes, decodeCtx_withTree]
    cases decodeCtx (.metaCtr i) s with
    | ok b' u =>
      simp only [Res.mapState_ok]
      split_ifs
      · exact ih (fun d hd => h d (List.mem_cons_of_mem _ hd)) u
      · rfl
    | ended u => rfl
    | fault f => rfl

theorem codedInt_meta (v : Int) : ∀ d ∈ codedInt .thr v, ∃ i, d.1 = .metaCtr i := by
  intro d hd
  simp only [codedInt, List.mem_map] at hd
  obtain ⟨e, -, rfl⟩ := hd
  exact ⟨_, rfl⟩

theorem codedProp_meta (p : BitVec 3) : ∀ d ∈ codedProp p, ∃ i, d.1 = .metaCtr i := by
  intro d hd
  simp only [codedProp, List.mem_map] at hd
  obtain ⟨e, -, rfl⟩ := hd
  exact ⟨_, rfl⟩

theorem codedTree_meta (T : TreeShape) : ∀ d ∈ codedTree T, ∃ i, d.1 = .metaCtr i := by
  induction T with
  | leaf => intro d hd; simp only [codedTree, List.mem_singleton] at hd; exact ⟨0, by rw [hd]⟩
  | split p t l r hl hr =>
    intro d hd
    simp only [codedTree, List.cons_append, List.mem_cons, List.mem_append] at hd
    rcases hd with rfl | ((hd | hd) | hd) | hd
    · exact ⟨0, rfl⟩
    · exact codedProp_meta p d hd
    · exact codedInt_meta t d hd
    · exact hl d hd
    · exact hr d hd

/-! ### Elements of a node record -/

/-- PROP answers the id whose decisions are taken (R101, R184). -/
theorem decodeProp_ok {p : BitVec 3} {s t : State} (hp : p.toNat < 6) (ht : takes s (codedProp p) = some t) :
    decodeProp s = .ok p t := by
  simp only [codedProp, propDecisions, List.map_cons, List.map_nil] at ht
  rw [takes_cons] at ht
  obtain ⟨u, hu, ht⟩ := ht
  rw [takes_cons] at ht
  obtain ⟨w, hw, ht⟩ := ht
  rw [takes_one] at ht
  simp only [decodeProp, propBits, hu, hw, ht, Res.bind_ok]
  have h : 4 * (p.getLsbD 2).toNat + 2 * (p.getLsbD 1).toNat + (p.getLsbD 0).toNat = p.toNat := by
    clear hu hw ht
    revert p; decide
  rw [h, if_neg (by simp only [Config.numProps]; omega)]
  simp

/-- What PROP answers was coded, and is below 6. -/
theorem decodeProp_inv {p : BitVec 3} {s t : State} (h : decodeProp s = .ok p t) :
    p.toNat < 6 ∧ takes s (codedProp p) = some t := by
  simp only [decodeProp, propBits, Res.bind_eq_ok] at h
  obtain ⟨id, u, ⟨b2, v, h2, b1, w, h1, b0, x, h0, hx⟩, h⟩ := h
  simp only [Res.ok.injEq] at hx
  obtain ⟨rfl, rfl⟩ := hx
  split_ifs at h with hc
  · exact absurd h (by simp [raiseErr_eq])
  · simp only [Res.ok.injEq] at h
    obtain ⟨rfl, rfl⟩ := h
    rw [Config.numProps, not_le] at hc
    have e : ∀ b2 b1 b0 : Bool, (BitVec.ofNat 3 (4 * b2.toNat + 2 * b1.toNat + b0.toNat)).getLsbD 2 = b2 ∧
        (BitVec.ofNat 3 (4 * b2.toNat + 2 * b1.toNat + b0.toNat)).getLsbD 1 = b1 ∧
        (BitVec.ofNat 3 (4 * b2.toNat + 2 * b1.toNat + b0.toNat)).getLsbD 0 = b0 := by decide
    obtain ⟨e2, e1, e0⟩ := e b2 b1 b0
    refine ⟨by rw [BitVec.toNat_ofNat, Nat.mod_eq_of_lt (by omega)]; exact hc, ?_⟩
    simp only [codedProp, propDecisions, e2, e1, e0, List.map_cons, List.map_nil]
    rw [takes_cons]
    refine ⟨v, h2, ?_⟩
    rw [takes_cons]
    exact ⟨w, h1, takes_one.2 h0⟩

/-- THR answers the threshold whose decisions are taken (R185). -/
theorem decodeThr_ok {v : Int} {s t : State} (hv : propInRange v = true) (ht : takes s (codedInt .thr v) = some t) :
    decodeThr s = .ok v t := by
  simp only [propInRange, Bool.and_eq_true, decide_eq_true_eq] at hv
  exact nzDecode_ok (by decide) (by simp only [Config.thrLimit]; omega) ht

/-- What THR answers was coded, and is within -65535 .. 65535. -/
theorem decodeThr_inv {v : Int} {s t : State} (h : decodeThr s = .ok v t) :
    propInRange v = true ∧ takes s (codedInt .thr v) = some t := by
  obtain ⟨h1, h2⟩ := nzDecode_inv (by decide) h
  simp only [Config.thrLimit] at h1
  refine ⟨?_, h2⟩
  simp only [propInRange, Bool.and_eq_true, decide_eq_true_eq]
  omega

/-! ### The arena -/

/-- The arena with entry `i` made a leaf (R182, R187). -/
def layLeaf (i : Nat) (a : Nat → Node) : Nat → Node :=
  Function.update a i { a i with split := false, ctr := Vector.replicate 33 Config.probInit }

/-- The arena with entry `i` made a split node, without its right link. -/
def laySplit (i : Nat) (prop : BitVec 3) (thr : Int) (a : Nat → Node) : Nat → Node :=
  Function.update a i { a i with split := true, prop := prop, thr := BitVec.ofInt 32 thr, left := BitVec.ofNat 13 (i + 1) }

/-- The arena with the right link of entry `i` set. -/
def layRight (i r : Nat) (a : Nat → Node) : Nat → Node := Function.update a i { a i with right := BitVec.ofNat 13 r }

/-- The arena after a tree has been stored in pre-order from entry `i` on (R182, R188). -/
def layTree : TreeShape → Nat → (Nat → Node) → Nat → Node
  | .leaf, i, a => layLeaf i a
  | .split prop thr l r, i, a =>
    layTree r (i + 1 + l.size) (layRight i (i + 1 + l.size) (layTree l (i + 1) (laySplit i prop thr a)))

theorem treeSize_pos (T : TreeShape) : 1 ≤ T.size := by cases T <;> simp [TreeShape.size]; omega

/-- A tree of height h has at most 2^(h+1) - 1 nodes (R189). -/
theorem treeSize_le (T : TreeShape) {h : Nat} (hh : T.height ≤ h) : T.size ≤ 2 ^ (h + 1) - 1 := by
  induction T generalizing h with
  | leaf =>
    have : 2 ^ 1 ≤ 2 ^ (h + 1) := Nat.pow_le_pow_right (by norm_num) (by omega)
    simp only [TreeShape.size]; omega
  | split p t l r hl hr =>
    simp only [TreeShape.height] at hh
    obtain ⟨k, rfl⟩ : ∃ k, h = k + 1 := ⟨h - 1, by omega⟩
    have h1 := hl (h := k) (by omega)
    have h2 := hr (h := k) (by omega)
    have : 2 ^ 1 ≤ 2 ^ (k + 1) := Nat.pow_le_pow_right (by norm_num) (by omega)
    simp only [TreeShape.size, pow_succ 2 (k + 1)]
    omega

/-- Storing a tree leaves the entries outside it alone. -/
theorem layTree_other (T : TreeShape) {i j : Nat} (a : Nat → Node) (h : j < i ∨ i + T.size ≤ j) : layTree T i a j = a j := by
  induction T generalizing i a with
  | leaf =>
    simp only [TreeShape.size] at h
    simp only [layTree, layLeaf]
    rw [Function.update_of_ne (by omega)]
  | split p t l r hl hr =>
    simp only [TreeShape.size] at h
    simp only [layTree]
    rw [hr _ (by omega), layRight, Function.update_of_ne (by omega), hl _ (by omega), laySplit, Function.update_of_ne (by omega)]

/-- Storing a tree does not see the entries outside it. -/
theorem layTree_update (T : TreeShape) {i j : Nat} (a : Nat → Node) (v : Node) (h : j < i ∨ i + T.size ≤ j) :
    layTree T i (Function.update a j v) = Function.update (layTree T i a) j v := by
  induction T generalizing i a with
  | leaf =>
    simp only [TreeShape.size] at h
    have hne : i ≠ j := by omega
    simp only [layTree, layLeaf, Function.update_of_ne hne]
    rw [Function.update_comm hne.symm]
  | split p t l r hl hr =>
    simp only [TreeShape.size] at h
    have hne : i ≠ j := by omega
    have hs : laySplit i p t (Function.update a j v) = Function.update (laySplit i p t a) j v := by
      simp only [laySplit, Function.update_of_ne hne]
      rw [Function.update_comm hne.symm]
    have hr' : ∀ b : Nat → Node, layRight i (i + 1 + l.size) (Function.update b j v) =
        Function.update (layRight i (i + 1 + l.size) b) j v := by
      intro b
      simp only [layRight, Function.update_of_ne hne]
      rw [Function.update_comm hne.symm]
    simp only [layTree]
    rw [hs, hl _ (by omega), hr', hr _ (by omega)]

/-- The right link of a stored split may be set before or after its right subtree is stored. -/
theorem layTree_right (T : TreeShape) {i n r : Nat} (a : Nat → Node) (h : i < n) :
    layTree T n (layRight i r a) = layRight i r (layTree T n a) := by
  simp only [layRight]
  rw [layTree_update T a _ (.inl h), layTree_other T a (.inl h)]

/-! ### The tree a state holds -/

theorem treeAt_congr (T : TreeShape) {s t : State} {i : Nat} (h : ∀ j, i ≤ j → j < i + T.size → nodeAt s j = nodeAt t j) :
    treeAt s T i = treeAt t T i := by
  induction T generalizing i with
  | leaf => simp only [treeAt, h i (le_refl _) (by simp [TreeShape.size])]
  | split p v l r hl hr =>
    simp only [TreeShape.size] at h
    simp only [treeAt]
    rw [h i (le_refl _) (by omega), hl fun j h1 h2 => h j (by omega) (by omega), hr fun j h1 h2 => h j (by omega) (by omega)]

/-- An arena with a tree stored in it holds the tree. -/
theorem treeAt_layTree (T : TreeShape) {s : State} {i : Nat} {a : Nat → Node} (hT : T.fieldsLegal = true)
    (hi : i + T.size ≤ 8191) (h : ∀ j, i ≤ j → j < i + T.size → nodeAt s j = layTree T i a j) : treeAt s T i = true := by
  induction T generalizing i a with
  | leaf =>
    have h0 := h i (le_refl _) (by simp [TreeShape.size])
    simp only [treeAt, h0, layTree, layLeaf, Function.update_self, Bool.not_false]
  | split p v l r hl hr =>
    simp only [TreeShape.size] at hi h
    have hl1 := treeSize_pos l
    have hr1 := treeSize_pos r
    simp only [TreeShape.fieldsLegal, Bool.and_eq_true, decide_eq_true_eq] at hT
    have h0 : nodeAt s i = { a i with split := true, prop := p, thr := BitVec.ofInt 32 v, left := BitVec.ofNat 13 (i + 1),
                                      right := BitVec.ofNat 13 (i + 1 + l.size) } := by
      rw [h i (le_refl _) (by omega)]
      simp only [layTree]
      rw [layTree_other r _ (by omega), layRight, Function.update_self, layTree_other l _ (by omega), laySplit,
        Function.update_self]
    have hv : (BitVec.ofInt 32 v).toInt = v := by
      have := hT.1.1.2
      simp only [propInRange, Bool.and_eq_true, decide_eq_true_eq] at this
      rw [BitVec.toInt_ofInt]
      exact Int.bmod_eq_of_le (by norm_num; omega) (by norm_num; omega)
    have hleft : treeAt s l (i + 1) = true := by
      refine hl (a := laySplit i p v a) hT.1.2 (by omega) fun j h1 h2 => ?_
      rw [h j (by omega) (by omega)]
      simp only [layTree]
      rw [layTree_other r _ (by omega), layRight, Function.update_of_ne (by omega)]
    have hright : treeAt s r (i + 1 + l.size) = true := by
      refine hr (a := layRight i (i + 1 + l.size) (layTree l (i + 1) (laySplit i p v a))) hT.2 (by omega) fun j h1 h2 => ?_
      rw [h j (by omega) (by omega)]
      rfl
    simp only [treeAt, h0, hleft, hright, hv, BitVec.toNat_ofNat, Bool.and_true, decide_true, Bool.true_and,
      Bool.and_eq_true, decide_eq_true_eq]
    exact ⟨Nat.mod_eq_of_lt (by omega), Nat.mod_eq_of_lt (by omega)⟩

/-- The leaves of a tree lie inside it. -/
theorem leavesFrom_bounds (T : TreeShape) {i j : Nat} (h : j ∈ leavesFrom T i) : i ≤ j ∧ j < i + T.size := by
  induction T generalizing i with
  | leaf => simp only [leavesFrom, List.mem_singleton] at h; simp [TreeShape.size, h]
  | split p v l r hl hr =>
    simp only [leavesFrom, List.mem_append] at h
    simp only [TreeShape.size]
    rcases h with h | h
    · have := hl h; omega
    · have := hr h; omega

/-- Every leaf of a stored tree has fresh counters (R187). -/
theorem layTree_leaves (T : TreeShape) {i j : Nat} (a : Nat → Node) (h : j ∈ leavesFrom T i) :
    (layTree T i a j).ctr = Vector.replicate 33 Config.probInit := by
  induction T generalizing i a with
  | leaf => simp only [leavesFrom, List.mem_singleton] at h; subst h; simp [layTree, layLeaf]
  | split p v l r hl hr =>
    simp only [leavesFrom, List.mem_append] at h
    simp only [layTree]
    rcases h with h | h
    · have hb := leavesFrom_bounds l h
      rw [layTree_other r _ (by omega), layRight, Function.update_of_ne (by omega)]
      exact hl _ h
    · exact hr _ h

/-! ### Writes of the arena -/

/-- The arena after a write of an entry (R37). -/
theorem nodeAt_setNode_fun (n : Nat) (v : Node) {s : State} (h : Store.canonical s.cm.nodes = true) :
    nodeAt (setNode n v s) = Function.update (nodeAt s) n v := by
  funext m
  simp only [nodeAt, setNode_cm, Function.update_apply]
  split_ifs with h1 h2 h2
  · subst h2; rw [Store.get?_remove_same _ h]; simp [h1]
  · rw [Store.get?_remove_other _ h2]
  · subst h2; rw [Store.get?_put_same]; rfl
  · rw [Store.get?_put_other _ _ h2]

theorem setNode_canonical (n : Nat) (v : Node) {s : State} (h : Store.canonical s.cm.nodes = true) :
    Store.canonical (setNode n v s).cm.nodes = true := by
  simp only [setNode_cm]
  split_ifs
  · exact Store.canonical_remove n h
  · exact Store.canonical_put n v h

/-- `t` is `u` with another arena: `n` entries in use, the entries those of `a`; depth, sp and TS are `c`'s. -/
def Laid (u : State) (c : ContextModel) (n : Nat) (a : Nat → Node) (t : State) : Prop :=
  ∃ e : ContextModel, t = u.withTree e ∧ e.depth = c.depth ∧ e.sp = c.sp ∧ e.ts = c.ts ∧ e.nn.toNat = n ∧
    Store.canonical e.nodes = true ∧ nodeAt t = a

theorem Laid.self {s : State} (h : Store.canonical s.cm.nodes = true) : Laid s s.cm s.cm.nn.toNat (nodeAt s) s :=
  ⟨s.cm, rfl, rfl, rfl, rfl, rfl, h, rfl⟩

theorem Laid.canonical {u t : State} {c : ContextModel} {n : Nat} {a : Nat → Node} (h : Laid u c n a t) :
    Store.canonical t.cm.nodes = true := by
  obtain ⟨e, rfl, -, -, -, -, h, -⟩ := h; exact h

theorem Laid.nn {u t : State} {c : ContextModel} {n : Nat} {a : Nat → Node} (h : Laid u c n a t) : t.cm.nn.toNat = n := by
  obtain ⟨e, rfl, -, -, -, h, -, -⟩ := h; exact h

theorem Laid.arena {u t : State} {c : ContextModel} {n : Nat} {a : Nat → Node} (h : Laid u c n a t) : nodeAt t = a := by
  obtain ⟨e, rfl, -, -, -, -, -, h⟩ := h; exact h

/-- A write of an entry. -/
theorem Laid.setNode {u t : State} {c : ContextModel} {n : Nat} {a : Nat → Node} (h : Laid u c n a t) (i : Nat) (v : Node) :
    Laid u c n (Function.update a i v) (setNode i v t) := by
  have ha := h.arena
  have hc := h.canonical
  obtain ⟨e, rfl, h1, h2, h3, h4, h5, h6⟩ := h
  refine ⟨(Machine.setNode i v (u.withTree e)).cm, rfl, h1, h2, h3, h4, setNode_canonical i v hc, ?_⟩
  rw [nodeAt_setNode_fun i v hc, ha]

theorem writeNode_ok {i : Nat} (hi : i < 8191) (v : Node) (t : State) : writeNode i v t = .ok () (setNode i v t) := if_pos hi

theorem makeLeaf_laid {u t : State} {c : ContextModel} {n i : Nat} {a : Nat → Node} (h : Laid u c n a t) (hi : i < 8191) :
    ∃ t', makeLeaf i t = .ok () t' ∧ Laid u c n (layLeaf i a) t' := by
  have ha := h.arena
  subst ha
  exact ⟨_, writeNode_ok hi _ t, h.setNode i _⟩

theorem makeSplit_laid {u t : State} {c : ContextModel} {n i : Nat} {a : Nat → Node} (h : Laid u c n a t) (hi : i < 8191)
    (p : BitVec 3) (v : Int) : ∃ t', makeSplit i p v t = .ok () t' ∧ Laid u c n (laySplit i p v a) t' := by
  have ha := h.arena
  subst ha
  exact ⟨_, writeNode_ok hi _ t, h.setNode i _⟩

theorem linkRight_laid {u t : State} {c : ContextModel} {n i : Nat} {a : Nat → Node} (h : Laid u c n a t) (hi : i < 8191)
    (r : Nat) : ∃ t', linkRight i r t = .ok () t' ∧ Laid u c n (layRight i r a) t' := by
  have ha := h.arena
  subst ha
  exact ⟨_, writeNode_ok hi _ t, h.setNode i _⟩

theorem allocNode_laid {u t : State} {c : ContextModel} {n : Nat} {a : Nat → Node} (h : Laid u c n a t) (hn : n < 8191) :
    ∃ t', allocNode t = .ok n t' ∧ Laid u c (n + 1) a t' := by
  have hnn := h.nn
  have ha := h.arena
  obtain ⟨e, rfl, h1, h2, h3, h4, h5, h6⟩ := h
  refine ⟨(u.withTree e).withTree { e with nn := e.nn + 1 }, ?_, { e with nn := e.nn + 1 }, rfl, h1, h2, h3, ?_, h5, ha⟩
  · have e1 : (u.withTree e).cm.nn = e.nn := rfl
    simp only [allocNode, e1, h4, Config.maxNodes, hn, if_true]
    rfl
  · have e1 : (1 : BitVec 14).toNat = 1 := rfl
    rw [BitVec.toNat_add]
    omega

/-- A decision of META beside the arena. -/
theorem decodeCtx_laid {u v t : State} {c : ContextModel} {n i : Nat} {a : Nat → Node} {b : Bool} (h : Laid u c n a t)
    (hd : decodeCtx (.metaCtr i) u = .ok b v) : ∃ t', decodeCtx (.metaCtr i) t = .ok b t' ∧ Laid v c n a t' := by
  obtain ⟨e, rfl, h1, h2, h3, h4, h5, h6⟩ := h
  exact ⟨v.withTree e, by rw [decodeCtx_withTree, hd]; rfl, e, rfl, h1, h2, h3, h4, h5, h6⟩

theorem decodeProp_laid {u v t : State} {c : ContextModel} {n : Nat} {a : Nat → Node} {p : BitVec 3} (h : Laid u c n a t)
    (hd : decodeProp u = .ok p v) : ∃ t', decodeProp t = .ok p t' ∧ Laid v c n a t' := by
  obtain ⟨e, rfl, h1, h2, h3, h4, h5, h6⟩ := h
  exact ⟨v.withTree e, by rw [decodeProp_withTree, hd]; rfl, e, rfl, h1, h2, h3, h4, h5, h6⟩

theorem decodeThr_laid {u v t : State} {c : ContextModel} {n : Nat} {a : Nat → Node} {w : Int} (h : Laid u c n a t)
    (hd : decodeThr u = .ok w v) : ∃ t', decodeThr t = .ok w t' ∧ Laid v c n a t' := by
  obtain ⟨e, rfl, h1, h2, h3, h4, h5, h6⟩ := h
  exact ⟨v.withTree e, by rw [decodeThr_withTree, hd]; rfl, e, rfl, h1, h2, h3, h4, h5, h6⟩

/-- The fields of a split node beside the arena. -/
theorem decodeFields_laid {u v w t : State} {c : ContextModel} {n i : Nat} {a : Nat → Node} {p : BitVec 3} {x : Int}
    (h : Laid u c n a t) (hi : i < 8191) (hp : decodeProp u = .ok p v) (hx : decodeThr v = .ok x w) :
    ∃ t', decodeFields i t = .ok () t' ∧ Laid w c n (laySplit i p x a) t' := by
  obtain ⟨t1, e1, l1⟩ := decodeProp_laid h hp
  obtain ⟨t2, e2, l2⟩ := decodeThr_laid l1 hx
  obtain ⟨t3, e3, l3⟩ := makeSplit_laid l2 hi p x
  exact ⟨t3, by simp only [decodeFields, e1, e2, e3, Res.bind_ok], l3⟩

/-! ### The recursive form -/

/-- R182: the subtree whose decisions are taken is stored from the next free entry on. -/
theorem decodeNodeFrom_laid (T : TreeShape) {more : Nat} {u w t : State} {c : ContextModel} {n : Nat} {a : Nat → Node}
    (hT : T.fieldsLegal = true) (hh : T.height ≤ more) (h : Laid u c n a t) (hn : n + T.size ≤ 8191)
    (ht : takes u (codedTree T) = some w) :
    ∃ t', decodeNodeFrom more t = .ok n t' ∧ Laid w c (n + T.size) (layTree T n a) t' := by
  induction T generalizing more u w t n a with
  | leaf =>
    simp only [TreeShape.size] at hn
    simp only [codedTree, takes_one] at ht
    obtain ⟨t1, e1, l1⟩ := allocNode_laid h (by omega)
    obtain ⟨t2, e2, l2⟩ := decodeCtx_laid l1 ht
    obtain ⟨t3, e3, l3⟩ := makeLeaf_laid (i := n) l2 (by omega)
    refine ⟨t3, ?_, l3⟩
    cases more <;> simp [decodeNodeFrom, decodeSplit, e1, e2, e3]
  | split p x l r hl hr =>
    simp only [TreeShape.size] at hn
    simp only [TreeShape.height] at hh
    simp only [TreeShape.fieldsLegal, Bool.and_eq_true, decide_eq_true_eq] at hT
    obtain ⟨k, rfl⟩ : ∃ k, more = k + 1 := ⟨more - 1, by omega⟩
    have hl1 := treeSize_pos l
    have hr1 := treeSize_pos r
    simp only [codedTree, List.cons_append, takes_cons, takes_append] at ht
    obtain ⟨u1, d1, u4, ⟨u3, ⟨u2, d2, d3⟩, d4⟩, d5⟩ := ht
    obtain ⟨t1, e1, l1⟩ := allocNode_laid h (by omega)
    obtain ⟨t2, e2, l2⟩ := decodeCtx_laid l1 d1
    obtain ⟨t3, e3, l3⟩ := decodeFields_laid (i := n) l2 (by omega) (decodeProp_ok hT.1.1.1 d2) (decodeThr_ok hT.1.1.2 d3)
    obtain ⟨t4, e4, l4⟩ := hl (more := k) hT.1.2 (by omega) l3 (by omega) d4
    obtain ⟨t5, e5, l5⟩ := hr (more := k) hT.2 (by omega) l4 (by omega) d5
    obtain ⟨t6, e6, l6⟩ := linkRight_laid l5 (i := n) (by omega) (n + 1 + l.size)
    refine ⟨t6, ?_, ?_⟩
    · simp only [decodeNodeFrom, e1, e2, e3, e4, e5, e6, Res.bind_ok, if_true]
    · rw [← layTree_right r _ (by omega)] at l6
      have e : n + (1 + l.size + r.size) = n + 1 + l.size + r.size := by omega
      simp only [TreeShape.size, layTree, e]
      exact l6

/-! ### The lookup (R186) -/

/-- A property id a tree may hold has a value. -/
theorem propValue_isSome {P : PropVec} {n : Nat} (h : n < 6) : propValue P n = some ((propValue P n).getD 0) := by
  obtain rfl | rfl | rfl | rfl | rfl | rfl : n = 0 ∨ n = 1 ∨ n = 2 ∨ n = 3 ∨ n = 4 ∨ n = 5 := by omega
  all_goals rfl

/-- The walk from the root of a tree in the arena goes left above the threshold and right otherwise, and needs no
more turns than the tree is high. -/
theorem lookupFrom_tree (T : TreeShape) {s : State} {P : PropVec} {i fuel : Nat} (hT : T.fieldsLegal = true)
    (ht : treeAt s T i = true) (hf : T.height < fuel) : lookupFrom s P fuel i = .ok (selectFrom P T i) := by
  induction T generalizing i fuel with
  | leaf =>
    obtain ⟨n, rfl⟩ : ∃ n, fuel = n + 1 := ⟨fuel - 1, by omega⟩
    simp only [treeAt, Bool.not_eq_true'] at ht
    simp [lookupFrom, ht, selectFrom]
  | split prop thr l r ihl ihr =>
    obtain ⟨n, rfl⟩ : ∃ n, fuel = n + 1 := ⟨fuel - 1, by omega⟩
    simp only [TreeShape.fieldsLegal, Bool.and_eq_true, decide_eq_true_eq, Config.numProps] at hT
    simp only [treeAt, Bool.and_eq_true, decide_eq_true_eq] at ht
    simp only [TreeShape.height] at hf
    obtain ⟨⟨⟨hp, -⟩, hl⟩, hr⟩ := hT
    obtain ⟨⟨⟨⟨⟨⟨h1, h2⟩, h3⟩, h4⟩, h5⟩, h6⟩, h7⟩ := ht
    simp only [lookupFrom, h1, if_true, h2, h3, h4, h5, selectFrom]
    rw [propValue_isSome (P := P) hp]
    simp only [Option.getD_some]
    split_ifs
    · exact ihl hl h6 (by omega)
    · exact ihr hr h7 (by omega)

/-- A walk depends on nothing but the arena. -/
theorem lookupFrom_congr {s t : State} {P : PropVec} (h : t.cm.nodes = s.cm.nodes) (fuel i : Nat) :
    lookupFrom t P fuel i = lookupFrom s P fuel i := by
  induction fuel generalizing i with
  | zero => rfl
  | succ n ih =>
    have hn : nodeAt t i = nodeAt s i := by simp only [nodeAt, h]
    have hf : lookupFrom t P n = lookupFrom s P n := funext ih
    simp only [lookupFrom]
    rw [hn, hf]

end Sys2Proof.Machine
end

