-- ==== Sys2Proof/Laws/Encoding.lean ====
section
/-! SUPPORT. The pieces of the decoder of queue entries: what each argument decoder gives back of what the encoder
wrote, what `decodeCall` is on each row with operands, and the bits of a CTRL write. -/

namespace Sys2Proof

theorem bitsArg_toNat {w : Nat} (v : BitVec w) : bitsArg w (v.toNat : Int) = some v := by
  have h : (v.toNat : Int) < 2 ^ w := by exact_mod_cast v.isLt
  simp [bitsArg, h]

theorem natArg_natCast (n : Nat) : natArg (n : Int) = some n := by simp [natArg]

theorem boolArg_toNat (b : Bool) : boolArg (b.toNat : Int) = some b := by cases b <;> rfl

theorem setArg_setCode (k : SetRef) : setArg (setCode k) = some k := by
  cases k with
  | thr => rfl
  | leaf n =>
    have : (n.toNat : Int) ≠ -1 := by omega
    simp [setArg, setCode, this, bitsArg_toNat]

theorem ctrArg_metaCtr (i : Nat) : ctrArg (-1) (i : Int) = some (.metaCtr i) := by simp [ctrArg, natArg_natCast]

theorem ctrArg_leafCtr (n : NodeIdx) (j : Nat) : ctrArg (n.toNat : Int) (j : Int) = some (.leafCtr n j) := by
  have : (n.toNat : Int) ≠ -1 := by omega
  simp [ctrArg, this, bitsArg_toNat, natArg_natCast]

theorem errKindOf_code (k : ErrKind) : errKindOf (k.code.toNat : Int) = some k := by cases k <;> rfl

theorem errArg_errCode (e : Err) : errArg (e.kind.code.toNat : Int) (e.info.toNat : Int) = some e := by
  simp [errArg, errKindOf_code, bitsArg_toNat]

theorem decodeCall_zero (k : Int) :
    decodeCall 17 [k] = ((setArg k).map Instr.zero).elim (.error (.badOperands 17)) .ok := rfl

theorem decodeCall_sign (k : Int) :
    decodeCall 18 [k] = ((setArg k).map Instr.sign).elim (.error (.badOperands 18)) .ok := rfl

theorem decodeCall_exp (k e : Int) :
    decodeCall 19 [k, e] = ((setArg k).bind fun k => (natArg e).map fun e => Instr.exp k e).elim
      (.error (.badOperands 19)) .ok := rfl

theorem decodeCall_mant (k i : Int) :
    decodeCall 20 [k, i] = ((setArg k).bind fun k => (natArg i).map fun i => Instr.mant k i).elim
      (.error (.badOperands 20)) .ok := rfl

theorem decodeCall_readUint (n : Int) :
    decodeCall 22 [n] = ((natArg n).map Instr.readUint).elim (.error (.badOperands 22)) .ok := rfl

theorem decodeCall_skipBytes (n : Int) :
    decodeCall 24 [n] = ((bitsArg 32 n).map Instr.skipBytes).elim (.error (.badOperands 24)) .ok := rfl

theorem decodeCall_decodeBit (p : Int) :
    decodeCall 26 [p] = ((bitsArg 12 p).map Instr.decodeBit).elim (.error (.badOperands 26)) .ok := rfl

theorem decodeCall_ctrUpdate (p b : Int) :
    decodeCall 28 [p, b] = ((bitsArg 12 p).bind fun p => (boolArg b).map fun b => Instr.ctrUpdate p b).elim
      (.error (.badOperands 28)) .ok := rfl

theorem decodeCall_decodeCtx (a b : Int) :
    decodeCall 29 [a, b] = ((ctrArg a b).map Instr.decodeCtx).elim (.error (.badOperands 29)) .ok := rfl

theorem decodeCall_nzDecode (k l a b : Int) :
    decodeCall 30 [k, l, a, b] = ((setArg k).bind fun k => (natArg l).bind fun l =>
      (errArg a b).map fun e => Instr.nzDecode k l e).elim (.error (.badOperands 30)) .ok := rfl

theorem decodeCall_decodeNode (d : Int) :
    decodeCall 32 [d] = ((natArg d).map Instr.decodeNode).elim (.error (.badOperands 32)) .ok := rfl

theorem decodeCall_treeLookup (a b c d e f : Int) :
    decodeCall 34 [a, b, c, d, e, f] = .ok (.treeLookup ⟨a, b, c, d, e, f⟩) := rfl

theorem decodeCall_raise (a b : Int) :
    decodeCall 48 [a, b] = ((errArg a b).map Instr.raise).elim (.error (.badOperands 48)) .ok := rfl

/-- Bit 0 of a CTRL write is START, whatever the bits above (R23). -/
theorem ctrl_start (hi : BitVec 31) (b : BitVec 1) : (hi ++ b).getLsbD 0 = b.getLsbD 0 := by
  rw [BitVec.getLsbD_append]; simp

/-- Bits 31:1 of a CTRL write (R23). -/
theorem ctrl_ignored (hi : BitVec 31) (b : BitVec 1) : (hi ++ b).extractLsb' 1 31 = hi := by
  apply BitVec.eq_of_getLsbD_eq
  intro i hi'
  rw [BitVec.getLsbD_extractLsb', BitVec.getLsbD_append]
  have h1 : ¬ 1 + i < 1 := by omega
  simp [h1, hi']

end Sys2Proof
end

