-- ==== Sys2Proof/Laws/Frame.lean ====
section
/-! SUPPORT. What each shared operation may change, said once per operation: reading moves the cursor, parsing
writes the header registers, decoding writes the interval and the Context Model, a pixel writes the plane store.
None of them touches the host registers, the sequencer, the session's region, INPUT or OUTPUT. -/

namespace Sys2Proof.Machine

/-! ### The relations -/

/-- The work of a session: the cursor moves on inside the input, the header, the interval, the Context Model and the
plane store may change, free values may be drawn, nothing else changes, the memories stay canonical and the counters
in range. -/
def Working (s t : State) : Prop :=
  (∃ cur ac hdr cm plane f,
    t = { s with br := { s.br with cur := cur }, ac := ac, hdr := hdr, cm := cm, plane := plane, freeCount := f } ∧
      s.br.cur.toNat ≤ cur.toNat ∧ (cur = s.br.cur ∨ cur.toNat ≤ s.br.lim.toNat)) ∧
  (s.memoryWf = true → t.memoryWf = true) ∧ (countersInv s = true → countersInv t = true)

/-- Reading: of a session's work, only the cursor. -/
def Reading (s t : State) : Prop :=
  Working s t ∧ t.hdr = s.hdr ∧ t.ac = s.ac ∧ t.cm = s.cm ∧ t.plane = s.plane

/-- Parsing: of a session's work, the cursor and the header registers. -/
def Parsing (s t : State) : Prop := Working s t ∧ t.ac = s.ac ∧ t.cm = s.cm ∧ t.plane = s.plane

/-- Refilling: of a session's work, the cursor and the interval. -/
def Refilling (s t : State) : Prop := Working s t ∧ t.hdr = s.hdr ∧ t.cm = s.cm ∧ t.plane = s.plane

/-- Decoding: of a session's work, the cursor, the interval and the Context Model. -/
def Decoding (s t : State) : Prop := Working s t ∧ t.hdr = s.hdr ∧ t.plane = s.plane

theorem Working.refl (s : State) : Working s s :=
  ⟨⟨s.br.cur, s.ac, s.hdr, s.cm, s.plane, s.freeCount, rfl, le_refl _, .inl rfl⟩, id, id⟩

theorem Working.trans {s t u : State} (h : Working s t) (h' : Working t u) : Working s u := by
  obtain ⟨⟨c, a, d, m, p, f, rfl, h1, h2⟩, h3, h4⟩ := h
  obtain ⟨⟨c', a', d', m', p', f', rfl, h1', h2'⟩, h3', h4'⟩ := h'
  refine ⟨⟨c', a', d', m', p', f', rfl, le_trans h1 h1', ?_⟩, h3' ∘ h3, h4' ∘ h4⟩
  rcases h2' with h2' | h2'
  · simp only at h2'
    subst h2'
    exact h2
  · exact .inr h2'

theorem Reading.refl (s : State) : Reading s s := ⟨Working.refl s, rfl, rfl, rfl, rfl⟩

theorem Reading.trans {s t u : State} (h : Reading s t) (h' : Reading t u) : Reading s u :=
  ⟨h.1.trans h'.1, h'.2.1.trans h.2.1, h'.2.2.1.trans h.2.2.1, h'.2.2.2.1.trans h.2.2.2.1,
    h'.2.2.2.2.trans h.2.2.2.2⟩

theorem Parsing.refl (s : State) : Parsing s s := ⟨Working.refl s, rfl, rfl, rfl⟩

theorem Parsing.trans {s t u : State} (h : Parsing s t) (h' : Parsing t u) : Parsing s u :=
  ⟨h.1.trans h'.1, h'.2.1.trans h.2.1, h'.2.2.1.trans h.2.2.1, h'.2.2.2.trans h.2.2.2⟩

theorem Refilling.refl (s : State) : Refilling s s := ⟨Working.refl s, rfl, rfl, rfl⟩

theorem Refilling.trans {s t u : State} (h : Refilling s t) (h' : Refilling t u) : Refilling s u :=
  ⟨h.1.trans h'.1, h'.2.1.trans h.2.1, h'.2.2.1.trans h.2.2.1, h'.2.2.2.trans h.2.2.2⟩

theorem Decoding.refl (s : State) : Decoding s s := ⟨Working.refl s, rfl, rfl⟩

theorem Decoding.trans {s t u : State} (h : Decoding s t) (h' : Decoding t u) : Decoding s u :=
  ⟨h.1.trans h'.1, h'.2.1.trans h.2.1, h'.2.2.trans h.2.2⟩

theorem Reading.parsing {s t : State} (h : Reading s t) : Parsing s t := ⟨h.1, h.2.2⟩

theorem Reading.refilling {s t : State} (h : Reading s t) : Refilling s t := ⟨h.1, h.2.1, h.2.2.2⟩

theorem Refilling.decoding {s t : State} (h : Refilling s t) : Decoding s t := ⟨h.1, h.2.1, h.2.2.2⟩

/-- The registers outside a session's work keep their values. -/
theorem Working.same {s t : State} (h : Working s t) : t.host = s.host ∧ t.br.base = s.br.base ∧
    t.br.lim = s.br.lim ∧ t.sq = s.sq ∧ t.input = s.input ∧ t.output = s.output ∧ t.stale = s.stale ∧
    t.inputs = s.inputs ∧ t.ret = s.ret ∧ t.busData = s.busData := by
  obtain ⟨⟨c, a, d, m, p, f, rfl, -, -⟩, -, -⟩ := h
  exact ⟨rfl, rfl, rfl, rfl, rfl, rfl, rfl, rfl, rfl, rfl⟩

/-- The cursor moves on, and stays inside the input. -/
theorem Working.cursor {s t : State} (h : Working s t) :
    s.br.cur.toNat ≤ t.br.cur.toNat ∧ (cursorInv s = true → cursorInv t = true) := by
  obtain ⟨⟨c, a, d, m, p, f, rfl, h1, h2⟩, -, -⟩ := h
  refine ⟨h1, fun h => ?_⟩
  simp only [cursorInv, Bool.and_eq_true, decide_eq_true_eq] at h ⊢
  refine ⟨?_, h.2⟩
  rcases h2 with rfl | h2
  · exact h.1
  · exact h2

/-! ### Operations within a relation -/

/-- From `s` the operation goes no further than `R`: where it answers, and where it ends the session by taking an
error in such a state. -/
def Res.Within {α : Type} (R : State → State → Prop) (s : State) (r : Res α) : Prop :=
  r.Post (fun _ t => R s t) (fun t => ∃ e u, R s u ∧ t = takeError e u) fun _ => True

theorem Res.Within.bind {α β : Type} {R : State → State → Prop} {s : State} {r : Res α} {k : α → State → Res β}
    (hR : ∀ {s t u}, R s t → R t u → R s u) (h : r.Within R s) (hk : ∀ a t, R s t → (k a t).Within R t) :
    (r.bind k).Within R s :=
  Res.Post.bind h fun a t ht => (hk a t ht).imp (fun _ _ hu => hR ht hu)
    (fun _ ⟨e, u, hu, hv⟩ => ⟨e, u, hR ht hu, hv⟩) fun _ h => h

theorem Res.Within.mono {α : Type} {R S : State → State → Prop} {s : State} {r : Res α} (h : r.Within R s)
    (hRS : ∀ {t}, R s t → S s t) : r.Within S s :=
  Res.Post.imp h (fun _ _ ht => hRS ht) (fun _ ⟨e, u, hu, hv⟩ => ⟨e, u, hRS hu, hv⟩) fun _ h => h

theorem Res.Within.raise {α : Type} {R : State → State → Prop} {s t : State} (e : Err) (h : R s t) :
    (raiseErr e t : Res α).Within R s := ⟨e, t, h, rfl⟩

theorem Res.Within.ofExcept {α : Type} {R : State → State → Prop} {s : State} (r : Except Fault α) (h : R s s) :
    (Res.ofExcept r s).Within R s := by
  cases r
  · trivial
  · exact h

/-! ### Reading -/

theorem drawn_reading (s : State) : Reading s (drawn s) :=
  ⟨⟨⟨s.br.cur, s.ac, s.hdr, s.cm, s.plane, s.freeCount + 1, rfl, le_refl _, .inl rfl⟩, id, id⟩, rfl, rfl, rfl, rfl⟩

theorem inputByte_reading (a : Nat) (s : State) : Reading s (inputByte a s).2 := by
  rcases inputByte_snd a s with h | h <;> rw [h]
  · exact Reading.refl s
  · exact drawn_reading s

/-- A move of the cursor that stays inside the input is reading. -/
theorem cursor_reading {s : State} {c : BitPos} (h1 : s.br.cur.toNat ≤ c.toNat) (h2 : c.toNat ≤ s.br.lim.toNat) :
    Reading s { s with br := { s.br with cur := c } } :=
  ⟨⟨⟨c, s.ac, s.hdr, s.cm, s.plane, s.freeCount, rfl, h1, .inr h2⟩, id, id⟩, rfl, rfl, rfl, rfl⟩

theorem readBit_within (s : State) : (readBit s).Within Reading s := by
  simp only [readBit]
  split_ifs with h
  · exact .raise _ (Reading.refl s)
  · rw [BitVec.le_def] at h
    have hr := inputByte_reading (s.br.base.toNat + (s.br.cur >>> 3).toNat) s
    obtain ⟨-, -, h3, -⟩ := hr.1.same
    have h4 : (inputByte (s.br.base.toNat + (s.br.cur >>> 3).toNat) s).2.br.cur = s.br.cur := by
      rcases inputByte_snd (s.br.base.toNat + (s.br.cur >>> 3).toNat) s with e | e <;> rw [e] <;> rfl
    have hlt := s.br.lim.isLt
    have hc : (s.br.cur + 1).toNat = s.br.cur.toNat + 1 := by
      rw [BitVec.toNat_add]
      simp
      omega
    refine Reading.trans hr (cursor_reading ?_ ?_)
    · rw [h4, hc]; omega
    · rw [h3, hc]; omega

theorem readUintFrom_within (n : Nat) (v : Word) (s : State) : (readUintFrom n v s).Within Reading s := by
  induction n generalizing v s with
  | zero => exact Reading.refl s
  | succ n ih => exact (readBit_within s).bind Reading.trans fun b t _ => ih _ t

theorem readUint_within (n : Nat) (s : State) : (readUint n s).Within Reading s := readUintFrom_within n 0 s

theorem readVarintFrom_within (k v : Nat) (s : State) : (readVarintFrom k v s).Within Reading s := by
  induction k generalizing v s with
  | zero => exact .raise _ (Reading.refl s)
  | succ k ih =>
    refine (readUint_within 8 s).bind Reading.trans fun b t _ => ?_
    simp only
    split_ifs
    · exact .raise _ (Reading.refl t)
    · exact Reading.refl t
    · exact ih _ t

theorem readVarint_within (s : State) : (readVarint s).Within Reading s := readVarintFrom_within 5 0 s

theorem skipBytes_within (n : Word) (s : State) : (skipBytes n s).Within Reading s := by
  by_cases h : s.br.cur.toNat + 8 * n.toNat ≤ s.br.lim.toNat
  · rw [skipBytes_ok h]
    refine cursor_reading ?_ ?_ <;> have := advance_cur h <;> simp only [State.advance] at this <;> omega
  · rw [skipBytes_truncated (by omega)]
    exact ⟨_, s, Reading.refl s, rfl⟩

/-! ### Parsing -/

theorem writeHeader_parsing (f : Header → Header) (s : State) : Parsing s (writeHeader f s) :=
  ⟨⟨⟨s.br.cur, s.ac, f s.hdr, s.cm, s.plane, s.freeCount, rfl, le_refl _, .inl rfl⟩, id, id⟩, rfl, rfl, rfl⟩

theorem magicFrom_within (ms : List Byte) (i : Nat) (s : State) : (magicFrom ms i s).Within Reading s := by
  induction ms generalizing i s with
  | nil => exact Reading.refl s
  | cons m ms ih =>
    refine (readUint_within 8 s).bind Reading.trans fun b t _ => ?_
    split_ifs
    · exact ih _ t
    · exact .raise _ (Reading.refl t)

theorem parseMagic_within (s : State) : (parseMagic s).Within Reading s := magicFrom_within _ 0 s

theorem parseWidth_within (s : State) : (parseWidth s).Within Parsing s := by
  refine ((readVarint_within s).mono Reading.parsing).bind Parsing.trans fun v t _ => ?_
  simp only
  split_ifs
  · exact .raise _ (writeHeader_parsing _ t)
  · exact writeHeader_parsing _ t

theorem parseHeight_within (s : State) : (parseHeight s).Within Parsing s := by
  refine ((readVarint_within s).mono Reading.parsing).bind Parsing.trans fun v t _ => ?_
  simp only
  split_ifs
  · exact .raise _ (writeHeader_parsing _ t)
  · exact .raise _ (writeHeader_parsing _ t)
  · exact writeHeader_parsing _ t

theorem parseChannels_within (s : State) : (parseChannels s).Within Parsing s := by
  refine ((readUint_within 8 s).mono Reading.parsing).bind Parsing.trans fun v t _ => ?_
  simp only
  split_ifs
  · exact writeHeader_parsing _ t
  · exact .raise _ (writeHeader_parsing _ t)

theorem parseDepth_within (s : State) : (parseDepth s).Within Parsing s := by
  refine ((readUint_within 8 s).mono Reading.parsing).bind Parsing.trans fun v t _ => ?_
  simp only
  split_ifs
  · exact writeHeader_parsing _ t
  · exact .raise _ (writeHeader_parsing _ t)

theorem parseFlags_within (s : State) : (parseFlags s).Within Parsing s := by
  refine ((readUint_within 8 s).mono Reading.parsing).bind Parsing.trans fun v t _ => ?_
  simp only
  split_ifs
  · exact .raise _ (writeHeader_parsing _ t)
  · exact .raise _ (writeHeader_parsing _ t)
  · exact .raise _ (writeHeader_parsing _ t)
  · exact .raise _ (writeHeader_parsing _ t)
  · exact writeHeader_parsing _ t

theorem parseChorder_within (s : State) : (parseChorder s).Within Parsing s := by
  refine ((readUint_within 8 s).mono Reading.parsing).bind Parsing.trans fun v t _ => ?_
  simp only
  split_ifs
  · exact writeHeader_parsing _ t
  · exact .raise _ (writeHeader_parsing _ t)

theorem parseFrames_within (s : State) : (parseFrames s).Within Parsing s := by
  refine ((readVarint_within s).mono Reading.parsing).bind Parsing.trans fun v t _ => ?_
  simp only
  split_ifs
  · exact .raise _ (writeHeader_parsing _ t)
  · exact .raise _ (writeHeader_parsing _ t)
  · exact writeHeader_parsing _ t

theorem parseMetalen_within (s : State) : (parseMetalen s).Within Parsing s := by
  unfold parseMetalen
  split_ifs
  · exact ((readVarint_within s).mono Reading.parsing).bind Parsing.trans fun v t _ => writeHeader_parsing _ t
  · exact Parsing.refl s

theorem parseMetadata_within (s : State) : (parseMetadata s).Within Reading s := by
  unfold parseMetadata
  split_ifs
  · exact skipBytes_within _ s
  · exact Reading.refl s

theorem parseMeta_within (s : State) : (parseMeta s).Within Parsing s :=
  (parseMetalen_within s).bind Parsing.trans fun _ t _ => (parseMetadata_within t).mono Reading.parsing

theorem parseHeader_within (s : State) : (parseHeader s).Within Parsing s :=
  ((parseMagic_within s).mono Reading.parsing).bind Parsing.trans fun _ t _ =>
  (parseWidth_within t).bind Parsing.trans fun _ t _ =>
  (parseHeight_within t).bind Parsing.trans fun _ t _ =>
  (parseChannels_within t).bind Parsing.trans fun _ t _ =>
  (parseDepth_within t).bind Parsing.trans fun _ t _ =>
  (parseFlags_within t).bind Parsing.trans fun _ t _ =>
  (parseChorder_within t).bind Parsing.trans fun _ t _ =>
  (parseFrames_within t).bind Parsing.trans fun _ t _ => parseMeta_within t

/-! ### Refilling -/

theorem ac_refilling (a : ArithDecoder) (s : State) : Refilling s { s with ac := a } :=
  ⟨⟨⟨s.br.cur, a, s.hdr, s.cm, s.plane, s.freeCount, rfl, le_refl _, .inl rfl⟩, id, id⟩, rfl, rfl, rfl⟩

theorem acInit_within (s : State) : (acInit s).Within Refilling s := by
  have h := ac_refilling { s.ac with rng := 0xFFFFFFFF } s
  refine ((readUint_within 32 { s with ac := { s.ac with rng := 0xFFFFFFFF } }).mono Reading.refilling).imp
    (fun _ _ ht => h.trans ht) (fun _ ⟨e, u, hu, hv⟩ => ⟨e, u, h.trans hu, hv⟩) (fun _ h => h) |>.bind ?_
  exact fun v t ht => ht.trans (ac_refilling _ t)

theorem refill_within (s : State) : (refill s).Within Refilling s :=
  ((readUint_within 8 s).mono Reading.refilling).bind Refilling.trans fun _ t _ => ac_refilling _ t

theorem renormLoop_within (fuel : Nat) (s : State) : (renormLoop fuel s).Within Refilling s := by
  induction fuel generalizing s with
  | zero => exact .raise _ (Refilling.refl s)
  | succ n ih =>
    simp only [renormLoop]
    split_ifs
    · exact (refill_within s).bind Refilling.trans fun _ t _ => ih t
    · exact Refilling.refl s

theorem renormalise_within (s : State) : (renormalise s).Within Refilling s := renormLoop_within _ s

theorem decodeBit_within (p : Ctr) (s : State) : (decodeBit p s).Within Refilling s := by
  have h : Refilling s (s.narrowed p.toNat) := ac_refilling _ s
  rw [decodeBit_eq]
  refine Res.Post.bind (P := fun _ t => Refilling s t) ((renormalise_within (s.narrowed p.toNat)).imp
    (fun _ _ ht => h.trans ht) (fun _ ⟨e, u, hu, hv⟩ => ⟨e, u, h.trans hu, hv⟩) fun _ h => h) ?_
  exact fun v t ht => ht

/-! ### Decoding -/

theorem countersInv_iff (s : State) : countersInv s = true ↔
    (∀ p ∈ s.cm.metaCtx.toList, ctrInRange p = true) ∧
      ∀ e ∈ s.cm.nodes, ∀ p ∈ e.2.ctr.toList, ctrInRange p = true := by
  simp only [countersInv, Bool.and_eq_true, List.all_eq_true]

/-- Every counter that can be read is in range (R157). -/
theorem ctrAt_inRange {k : CtrRef} {s : State} {p : Ctr} (h : countersInv s = true) (hk : ctrAt k s = some p) :
    ctrInRange p = true := by
  rw [countersInv_iff] at h
  cases k with
  | metaCtr i => exact h.1 p (by simpa using Vector.mem_of_getElem? hk)
  | leafCtr n j =>
    simp only [ctrAt] at hk
    split_ifs at hk
    have hm : p ∈ (nodeAt s n.toNat).ctr.toList := by simpa using Vector.mem_of_getElem? hk
    unfold nodeAt at hm
    cases hg : Store.get? s.cm.nodes n.toNat with
    | none =>
      rw [hg] at hm
      have : p = Config.probInit := by
        have := Vector.eq_of_mem_replicate (n := 33) (a := Config.probInit) (b := p) (by simpa [Node.fresh] using hm)
        exact this
      subst this; decide
    | some v =>
      rw [hg] at hm
      exact h.2 _ (Store.mem_of_get? hg) p hm

theorem nodeAt_inRange {s : State} (h : countersInv s = true) (n : Nat) :
    ∀ p ∈ (nodeAt s n).ctr.toList, ctrInRange p = true := by
  rw [countersInv_iff] at h
  unfold nodeAt
  cases hg : Store.get? s.cm.nodes n with
  | none =>
    intro p hp
    simp only [Option.getD_none, Node.fresh, Vector.toList_replicate] at hp
    rw [List.eq_of_mem_replicate hp]
    decide
  | some v => exact h.2 _ (Store.mem_of_get? hg)

/-- A write of an arena entry whose counters are in range. -/
theorem setNode_decoding {n : Nat} {v : Node} {s : State}
    (hv : countersInv s = true → ∀ p ∈ v.ctr.toList, ctrInRange p = true) : Decoding s (setNode n v s) := by
  refine ⟨⟨⟨s.br.cur, s.ac, s.hdr, (setNode n v s).cm, s.plane, s.freeCount, rfl, le_refl _, .inl rfl⟩,
    setNode_memoryWf n v, fun h => ?_⟩, rfl, rfl⟩
  have hv := hv h
  rw [countersInv_iff] at h ⊢
  refine ⟨h.1, fun e he => ?_⟩
  simp only [setNode_cm] at he
  split_ifs at he
  · exact h.2 e (Store.mem_remove he)
  · rcases Store.mem_put he with rfl | he
    · exact hv
    · exact h.2 e he

theorem mem_setIfInBounds {α : Type} {n i : Nat} {v : Vector α n} {a b : α}
    (h : b ∈ (v.setIfInBounds i a).toList) : b = a ∨ b ∈ v.toList := by
  simp only [Vector.toList_setIfInBounds] at h
  exact (List.mem_or_eq_of_mem_set h).symm

/-- A write of a counter that is in range. -/
theorem setCtr_decoding {k : CtrRef} {v : Ctr} {s : State} (hv : countersInv s = true → ctrInRange v = true) :
    Decoding s (setCtr k v s) := by
  cases k with
  | metaCtr i =>
    refine ⟨⟨⟨s.br.cur, s.ac, s.hdr, (setCtr (.metaCtr i) v s).cm, s.plane, s.freeCount, rfl, le_refl _, .inl rfl⟩,
      id, fun h => ?_⟩, rfl, rfl⟩
    have hv := hv h
    rw [countersInv_iff] at h ⊢
    refine ⟨fun p hp => ?_, h.2⟩
    rcases mem_setIfInBounds hp with rfl | hp
    · exact hv
    · exact h.1 p hp
  | leafCtr n j =>
    refine setNode_decoding fun h p hp => ?_
    rcases mem_setIfInBounds hp with rfl | hp
    · exact hv h
    · exact nodeAt_inRange h _ p hp

theorem decodeCtx_within (k : CtrRef) (s : State) : (decodeCtx k s).Within Decoding s := by
  simp only [decodeCtx]
  cases hk : ctrAt k s with
  | none => trivial
  | some p =>
    have hp : countersInv s = true → ctrInRange p = true := fun h => ctrAt_inRange h hk
    refine Res.Post.bind (P := fun _ t => Refilling s t) ((decodeBit_within p s).imp (fun _ _ h => h)
      (fun _ ⟨e, u, hu, hv⟩ => ⟨e, u, hu.decoding, hv⟩) fun _ h => h) fun b t ht => ?_
    refine ht.decoding.trans (setCtr_decoding fun hc => ctrUpdate_inRange b (hp ?_))
    simpa only [countersInv, ht.2.2.1] using hc

theorem nzExponent_within (k : SetRef) (err : Err) (more e : Nat) (s : State) :
    (nzExponent k err more e s).Within Decoding s := by
  induction more generalizing e s with
  | zero =>
    refine (decodeCtx_within _ s).bind Decoding.trans fun b t _ => ?_
    split_ifs
    · exact .raise _ (Decoding.refl t)
    · exact Decoding.refl t
  | succ n ih =>
    refine (decodeCtx_within _ s).bind Decoding.trans fun b t _ => ?_
    split_ifs
    · exact ih _ t
    · exact Decoding.refl t

theorem nzMantissa_within (k : SetRef) (i m : Nat) (s : State) : (nzMantissa k i m s).Within Decoding s := by
  induction i generalizing m s with
  | zero => exact Decoding.refl s
  | succ i ih => exact (decodeCtx_within _ s).bind Decoding.trans fun b t _ => ih _ t

theorem nzDecode_within (k : SetRef) (limit : Nat) (err : Err) (s : State) :
    (nzDecode k limit err s).Within Decoding s := by
  refine (decodeCtx_within _ s).bind Decoding.trans fun z t _ => ?_
  split_ifs
  · exact Decoding.refl t
  · exact (decodeCtx_within _ t).bind Decoding.trans fun _ t _ =>
      (nzExponent_within k err _ _ t).bind Decoding.trans fun _ t _ =>
      (nzMantissa_within k _ _ t).bind Decoding.trans fun _ t _ => Decoding.refl t

/-- A change of the registers of tree decode alone. -/
theorem tree_decoding (cm : ContextModel) {s : State} (hm : cm.metaCtx = s.cm.metaCtx) (hn : cm.nodes = s.cm.nodes) :
    Decoding s { s with cm := cm } := by
  refine ⟨⟨⟨s.br.cur, s.ac, s.hdr, cm, s.plane, s.freeCount, rfl, le_refl _, .inl rfl⟩, fun h => ?_, fun h => ?_⟩, rfl, rfl⟩
  · simpa only [State.memoryWf, hn] using h
  · simpa only [countersInv, hm, hn] using h

theorem allocNode_within (s : State) : (allocNode s).Within Decoding s := by
  unfold allocNode
  split_ifs
  · exact tree_decoding _ rfl rfl
  · trivial

theorem writeNode_within {n : Nat} {v : Node} {s : State}
    (hv : countersInv s = true → ∀ p ∈ v.ctr.toList, ctrInRange p = true) : (writeNode n v s).Within Decoding s := by
  unfold writeNode
  split_ifs
  · exact setNode_decoding hv
  · trivial

theorem makeLeaf_within (i : Nat) (s : State) : (makeLeaf i s).Within Decoding s :=
  writeNode_within fun _ p hp => by
    simp only [Vector.toList_replicate] at hp
    rw [List.eq_of_mem_replicate hp]
    decide

theorem makeSplit_within (i : Nat) (prop : BitVec 3) (thr : Int) (s : State) :
    (makeSplit i prop thr s).Within Decoding s := writeNode_within fun h p hp => nodeAt_inRange h i p hp

theorem linkRight_within (i r : Nat) (s : State) : (linkRight i r s).Within Decoding s :=
  writeNode_within fun h p hp => nodeAt_inRange h i p hp

theorem decodeSplit_within (d : Nat) (s : State) : (decodeSplit d s).Within Decoding s := by
  refine (decodeCtx_within _ s).bind Decoding.trans fun b t _ => ?_
  split_ifs
  · exact .raise _ (Decoding.refl t)
  · exact Decoding.refl t

theorem propBits_within (s : State) : (propBits s).Within Decoding s :=
  (decodeCtx_within _ s).bind Decoding.trans fun _ t _ =>
    (decodeCtx_within _ t).bind Decoding.trans fun _ t _ =>
      (decodeCtx_within _ t).bind Decoding.trans fun _ t _ => Decoding.refl t

theorem decodeProp_within (s : State) : (decodeProp s).Within Decoding s := by
  refine (propBits_within s).bind Decoding.trans fun id t _ => ?_
  split_ifs
  · exact .raise _ (Decoding.refl t)
  · exact Decoding.refl t

theorem decodeThr_within (s : State) : (decodeThr s).Within Decoding s := nzDecode_within _ _ _ s

theorem decodeFields_within (i : Nat) (s : State) : (decodeFields i s).Within Decoding s :=
  (decodeProp_within s).bind Decoding.trans fun _ t _ =>
    (decodeThr_within t).bind Decoding.trans fun _ t _ => makeSplit_within i _ _ t

theorem decodeNodeFrom_within (more : Nat) (s : State) : (decodeNodeFrom more s).Within Decoding s := by
  induction more generalizing s with
  | zero =>
    exact (allocNode_within s).bind Decoding.trans fun _ t _ =>
      (decodeSplit_within _ t).bind Decoding.trans fun _ t _ =>
        (makeLeaf_within _ t).bind Decoding.trans fun _ t _ => Decoding.refl t
  | succ n ih =>
    refine (allocNode_within s).bind Decoding.trans fun i t _ =>
      (decodeCtx_within _ t).bind Decoding.trans fun b t _ => ?_
    split_ifs
    · exact (decodeFields_within i t).bind Decoding.trans fun _ t _ =>
        (ih t).bind Decoding.trans fun _ t _ =>
          (ih t).bind Decoding.trans fun _ t _ =>
            (linkRight_within _ _ t).bind Decoding.trans fun _ t _ => Decoding.refl t
    · exact (makeLeaf_within _ t).bind Decoding.trans fun _ t _ => Decoding.refl t

theorem decodeNode_within (d : Nat) (s : State) : (decodeNode d s).Within Decoding s := decodeNodeFrom_within _ s

/-- The start of a tree sets META to 2048 and some of the registers of tree decode (R181, R188). -/
theorem treeStart_decoding (cm : ContextModel) {s : State}
    (hm : cm.metaCtx = Vector.replicate 41 Config.probInit) (hn : cm.nodes = s.cm.nodes) :
    Decoding s { s with cm := cm } := by
  refine ⟨⟨⟨s.br.cur, s.ac, s.hdr, cm, s.plane, s.freeCount, rfl, le_refl _, .inl rfl⟩, fun h => ?_, fun h => ?_⟩, rfl, rfl⟩
  · simpa only [State.memoryWf, hn] using h
  · rw [countersInv_iff] at h ⊢
    refine ⟨fun p hp => ?_, by simpa only [hn] using h.2⟩
    simp only [hm, Vector.toList_replicate] at hp
    rw [List.eq_of_mem_replicate hp]
    decide

theorem treeDecode_within (s : State) : (treeDecode s).Within Decoding s := by
  have h : Decoding s { resetMeta s with cm := { (resetMeta s).cm with nn := 0 } } := treeStart_decoding _ rfl rfl
  refine Res.Post.bind (P := fun _ t => Decoding s t) ((decodeNode_within 0 _).imp (fun _ _ ht => h.trans ht)
    (fun _ ⟨e, u, hu, hv⟩ => ⟨e, u, h.trans hu, hv⟩) fun _ h => h) fun _ t ht => ht

theorem pushSplit_within (i : Nat) (s : State) : (pushSplit i s).Within Decoding s := by
  unfold pushSplit
  split_ifs
  · exact tree_decoding _ rfl rfl
  · trivial

theorem popSplit_within (s : State) : (popSplit s).Within Decoding s := by
  unfold popSplit
  split
  · exact tree_decoding _ rfl rfl
  · trivial

theorem treeTurn_within (s : State) : (treeTurn s).Within Decoding s := by
  refine (allocNode_within s).bind Decoding.trans fun i t _ =>
    (decodeSplit_within _ t).bind Decoding.trans fun b t _ => ?_
  split_ifs
  · exact (decodeFields_within i t).bind Decoding.trans fun _ t _ =>
      (pushSplit_within i t).bind Decoding.trans fun _ t _ => tree_decoding _ rfl rfl
  · refine (makeLeaf_within i t).bind Decoding.trans fun _ t _ => ?_
    split_ifs
    · exact Decoding.refl t
    · exact (popSplit_within t).bind Decoding.trans fun _ t _ =>
        (linkRight_within _ _ t).bind Decoding.trans fun _ t _ => tree_decoding _ rfl rfl

theorem treeLoop_within (fuel : Nat) (s : State) : (treeLoop fuel s).Within Decoding s := by
  induction fuel generalizing s with
  | zero => trivial
  | succ n ih =>
    refine (treeTurn_within s).bind Decoding.trans fun b t _ => ?_
    split_ifs
    · exact Decoding.refl t
    · exact ih t

theorem treeDecodeIterative_within (s : State) : (treeDecodeIterative s).Within Decoding s := by
  have h : Decoding s { resetMeta s with cm := { (resetMeta s).cm with nn := 0, sp := 0, depth := 0 } } :=
    treeStart_decoding _ rfl rfl
  exact (treeLoop_within _ _).imp (fun _ _ ht => h.trans ht) (fun _ ⟨e, u, hu, hv⟩ => ⟨e, u, h.trans hu, hv⟩) fun _ h => h

/-! ### Pixels -/

theorem writeSample_within (p y x : Nat) (v : Sample) (s : State) : (writeSample p y x v s).Within Working s := by
  unfold writeSample
  split_ifs
  · refine ⟨⟨s.br.cur, s.ac, s.hdr, s.cm, _, s.freeCount, rfl, le_refl _, .inl rfl⟩, fun h => ?_, id⟩
    rw [memoryWf_iff] at h ⊢
    exact ⟨h.1, h.2.1, Store.canonical_put _ _ h.2.2.1, h.2.2.2.1, h.2.2.2.2⟩
  · trivial

theorem decodePixel_within (s : State) : (decodePixel s).Within Working s :=
  (Res.Within.ofExcept _ (Working.refl s)).bind Working.trans fun _ t _ =>
    ((nzDecode_within _ _ _ t).mono And.left).bind Working.trans fun _ t _ => writeSample_within _ _ _ _ t

end Sys2Proof.Machine
end

