-- ==== Sys2Proof/Laws/Sequencer.lean ====
section
/-! SUPPORT. What a turn of the sequencer may change (R245): the work of the element of its state and the sequencer's
own registers; or, in ASSEMBLE, the whole image and the result registers. -/

namespace Sys2Proof.Machine

/-- A session's work, with any change of the sequencer's registers. -/
def Turning (s t : State) : Prop := ∃ u q, Working s u ∧ t = { u with sq := q }

theorem Working.withSq {s t : State} (h : Working s t) (q : Sequencer) : Working { s with sq := q } { t with sq := q } := by
  obtain ⟨⟨c, a, d, m, p, f, rfl, h1, h2⟩, h3, h4⟩ := h
  exact ⟨⟨c, a, d, m, p, f, rfl, h1, h2⟩, h3, h4⟩

theorem Working.turning {s t : State} (h : Working s t) : Turning s t := ⟨t, t.sq, h, rfl⟩

theorem Turning.refl (s : State) : Turning s s := (Working.refl s).turning

theorem Turning.sq {s t : State} (h : Turning s t) (q : Sequencer) : Turning s { t with sq := q } := by
  obtain ⟨u, q', h, rfl⟩ := h
  exact ⟨u, q, h, rfl⟩

theorem Turning.trans {s t u : State} (h : Turning s t) (h' : Turning t u) : Turning s u := by
  obtain ⟨v, q, h, rfl⟩ := h
  obtain ⟨w, q', h', rfl⟩ := h'
  refine ⟨{ w with sq := v.sq }, q', h.trans (h'.withSq v.sq), rfl⟩

theorem setSq_turning (q : Sequencer) (s : State) : Turning s { s with sq := q } := (Turning.refl s).sq q

/-- What a turn leaves alone. -/
theorem Turning.same {s t : State} (h : Turning s t) : t.host = s.host ∧ t.br.base = s.br.base ∧
    t.br.lim = s.br.lim ∧ t.input = s.input ∧ t.output = s.output ∧ t.stale = s.stale ∧ t.inputs = s.inputs ∧
    t.ret = s.ret ∧ t.busData = s.busData := by
  obtain ⟨u, q, h, rfl⟩ := h
  obtain ⟨h1, h2, h3, -, h5⟩ := h.same
  exact ⟨h1, h2, h3, h5⟩

/-- A turn keeps the memories canonical and the counters in range, and the cursor moves on inside the input. -/
theorem Turning.keeps {s t : State} (h : Turning s t) :
    (s.memoryWf = true → t.memoryWf = true) ∧ (countersInv s = true → countersInv t = true) ∧
      s.br.cur.toNat ≤ t.br.cur.toNat ∧ (cursorInv s = true → cursorInv t = true) := by
  obtain ⟨u, q, h, rfl⟩ := h
  exact ⟨h.2.1, h.2.2, h.cursor⟩

theorem parseThen_within {op : State → Res Unit} (next : Seq) {s : State} (h : (op s).Within Working s) :
    (parseThen op next s).Within Turning s :=
  (h.mono Working.turning).bind Turning.trans fun _ t _ => setSq_turning _ t

theorem recordPlane_within (s : State) : (recordPlane s).Within Turning s := by
  unfold recordPlane
  split_ifs
  · exact setSq_turning _ s
  · trivial

theorem enterPass_within (s : State) : (enterPass s).Within Turning s :=
  (Res.Within.ofExcept _ (Turning.refl s)).bind Turning.trans fun _ t _ => setSq_turning _ t

theorem turnAcInit_within (s : State) : (turnAcInit s).Within Turning s :=
  ((acInit_within s).mono fun h => h.1.turning).bind Turning.trans fun _ t _ => setSq_turning _ t

theorem turnTree_within (s : State) : (turnTree s).Within Turning s :=
  (recordPlane_within s).bind Turning.trans fun _ t _ =>
    ((treeDecodeIterative_within t).mono fun h => h.1.turning).bind Turning.trans fun _ t _ => by
      have h := setSq_turning { t.sq with pi := 0 } t
      exact (enterPass_within { t with sq := { t.sq with pi := 0 } }).imp (fun _ _ ht => h.trans ht)
        (fun _ ⟨e, u, hu, hv⟩ => ⟨e, u, h.trans hu, hv⟩) fun _ h => h

theorem turnPixel_within (s : State) : (turnPixel s).Within Turning s :=
  ((decodePixel_within s).mono Working.turning).bind Turning.trans fun _ t _ =>
    (Res.Within.ofExcept _ (Turning.refl t)).bind Turning.trans fun _ t _ => setSq_turning _ t

theorem turnPassComplete_within (s : State) : (turnPassComplete s).Within Turning s := by
  have h := setSq_turning { s.sq with pi := s.sq.pi + 1 } s
  simp only [turnPassComplete]
  split_ifs
  · exact (enterPass_within { s with sq := { s.sq with pi := s.sq.pi + 1 } }).imp (fun _ _ ht => h.trans ht)
      (fun _ ⟨e, u, hu, hv⟩ => ⟨e, u, h.trans hu, hv⟩) fun _ h => h
  · exact setSq_turning _ s

theorem turnPlaneComplete_within (s : State) : (turnPlaneComplete s).Within Turning s := setSq_turning _ s

/-- A turn outside ASSEMBLE is the work of the element of its state. -/
theorem sequencerStep_within {s : State} (ha : s.sq.seq ≠ .assemble) : (sequencerStep s).Within Turning s := by
  have stay : (Res.ok () s).Within Turning s := Turning.refl s
  unfold sequencerStep
  cases hq : s.sq.seq
  case idle => exact stay
  case doneOk => exact stay
  case doneErr => exact stay
  case hdrMagic => exact parseThen_within _ ((parseMagic_within s).mono And.left)
  case hdrWidth => exact parseThen_within _ ((parseWidth_within s).mono And.left)
  case hdrHeight => exact parseThen_within _ ((parseHeight_within s).mono And.left)
  case hdrChannels => exact parseThen_within _ ((parseChannels_within s).mono And.left)
  case hdrDepth => exact parseThen_within _ ((parseDepth_within s).mono And.left)
  case hdrFlags => exact parseThen_within _ ((parseFlags_within s).mono And.left)
  case hdrChorder => exact parseThen_within _ ((parseChorder_within s).mono And.left)
  case hdrFrames => exact parseThen_within _ ((parseFrames_within s).mono And.left)
  case hdrMeta => exact parseThen_within _ ((parseMeta_within s).mono And.left)
  case acInit => exact turnAcInit_within s
  case awaitingTree => exact turnTree_within s
  case reconstructingPass => exact turnPixel_within s
  case passComplete => exact turnPassComplete_within s
  case planeComplete => exact turnPlaneComplete_within s
  case assemble => exact absurd hq ha

/-- Everything a turn of the sequencer can do: its work and a move to another state, with or without an error taken
there; or, in ASSEMBLE, the whole image. -/
theorem sequencerStep_post (s : State) : (sequencerStep s).Post
    (fun _ t => Turning s t ∨ s.sq.seq = .assemble ∧
      ∃ out, outputWords s (s.W * s.H) 0 = .ok out ∧ t = completeSession { s with output := out })
    (fun t => ∃ e u, Turning s u ∧ t = takeError e u) (fun _ => True) := by
  by_cases ha : s.sq.seq = .assemble
  · have he : sequencerStep s = assemble s := by simp only [sequencerStep, ha]
    rw [he]
    rcases assemble_cases s with ⟨out, h, -, ho⟩ | ⟨info, h⟩ | ⟨f, h⟩ <;> rw [h]
    · exact .inr ⟨ha, out, ho, rfl⟩
    · exact ⟨_, s, Turning.refl s, rfl⟩
    · trivial
  · exact (sequencerStep_within ha).imp (fun _ _ ht => .inl ht) (fun _ h => h) fun _ h => h

/-- What `plane_loop` can do is the work of its turns, each of them outside ASSEMBLE. -/
theorem planeTurns_within (fuel : Nat) (s : State) : (planeTurns fuel s).Within Turning s := by
  induction fuel generalizing s with
  | zero =>
    unfold planeTurns
    split_ifs
    · exact Turning.refl s
    · trivial
  | succ n ih =>
    unfold planeTurns
    split_ifs with h
    · exact Turning.refl s
    · exact (sequencerStep_within h).bind Turning.trans fun _ t _ => ih t

theorem planeLoop_within (s : State) : (planeLoop s).Within Turning s := by
  simp only [planeLoop]
  split_ifs
  · exact setSq_turning _ s
  · have h := setSq_turning { s.sq with p := 0, planesDone := 0, seq := .awaitingTree } s
    exact (planeTurns_within _ { s with sq := { s.sq with p := 0, planesDone := 0, seq := .awaitingTree } }).imp
      (fun _ _ ht => h.trans ht) (fun _ ⟨e, u, hu, hv⟩ => ⟨e, u, h.trans hu, hv⟩) fun _ h => h

/-! ### Taking an error and completing -/

/-- Taking an error changes the result registers, STATUS and the sequencer's state alone (R309). -/
theorem takeError_keeps (e : Err) (s : State) : (takeError e s).memoryWf = s.memoryWf ∧
    countersInv (takeError e s) = countersInv s ∧ cursorInv (takeError e s) = cursorInv s ∧
    (takeError e s).br = s.br ∧ (takeError e s).input = s.input ∧ (takeError e s).output = s.output ∧
    (takeError e s).host.inHandle = s.host.inHandle ∧ (takeError e s).host.inSize = s.host.inSize :=
  ⟨rfl, rfl, rfl, rfl, rfl, rfl, rfl, rfl⟩

/-- Completing writes the whole OUTPUT, the result registers and the sequencer's state alone (R275). -/
theorem completeSession_keeps {s : State} {out : Store Sample} {n : Nat} (h : outputWords s n 0 = .ok out) :
    (s.memoryWf = true → (completeSession { s with output := out }).memoryWf = true) ∧
    countersInv (completeSession { s with output := out }) = countersInv s ∧
    cursorInv (completeSession { s with output := out }) = cursorInv s ∧
    (completeSession { s with output := out }).br = s.br ∧
    (completeSession { s with output := out }).input = s.input ∧
    (completeSession { s with output := out }).host.inHandle = s.host.inHandle ∧
    (completeSession { s with output := out }).host.inSize = s.host.inSize := by
  refine ⟨fun hw => ?_, rfl, rfl, rfl, rfl, rfl, rfl⟩
  rw [memoryWf_iff] at hw ⊢
  refine ⟨hw.1, ?_, hw.2.2⟩
  have := (outputWords_spec h).1
  rwa [Nat.zero_mul] at this

end Sys2Proof.Machine
end

