-- ==== Sys2Proof/Laws/Exec.lean ====
section
/-! SUPPORT. What an instruction can do, said once over all of them: every next state of `exec` is one of the cases
of `Effect`. -/

namespace Sys2Proof.Machine

/-- The ways an instruction changes the state. -/
inductive Effect (i : Instr) (s : State) : State → Prop where
  /-- Work of the block, with a value returned. -/
  | work {u : State} (v : List Int) (h : Turning s u) : Effect i s (u.returning v)
  /-- Work of the block that ends in an error (R309). -/
  | error {u : State} (e : Err) (h : Turning s u) : Effect i s (takeError e u)
  /-- The whole image is written and the session completes (R270, R275). -/
  | image {out : Store Sample} (hi : i = .assemble ∨ i = .sequencerStep ∧ s.sq.seq = .assemble)
      (h : outputWords s (s.W * s.H) 0 = .ok out) : Effect i s (completeSession { s with output := out })
  /-- A session starts, none running (R45, R287). -/
  | start (hi : ∃ w, i = .decode w ∨ i = .startWhileBusy w) (hb : s.busy = false) : Effect i s (startSession s)
  /-- The host writes a byte of INPUT (R61). -/
  | inputByte {a : Word} {b : Byte} (hi : i = .writeInput a b) : Effect i s (writeInputByte a b s)
  /-- The host writes IN_HANDLE (R25). -/
  | inHandle {v : Word} (hi : i = .writeInHandle v) : Effect i s { s with host := { s.host with inHandle := v } }
  /-- The host writes IN_SIZE (R26). -/
  | inSize {v : Word} (hi : i = .writeInSize v) : Effect i s { s with host := { s.host with inSize := v } }
  /-- The block is reset (R46). -/
  | reset (hi : i = .reset) : Effect i s (resetBlock s)
  /-- The host reads (R289, R63). -/
  | bus (v : Word) (f : Nat) : Effect i s { s with busData := v, freeCount := f }

theorem Effect.same {i : Instr} {s : State} : Effect i s s := .work s.ret (Turning.refl s)

theorem Res.Within.effect {α : Type} {i : Instr} {r : Res α} {s t : State} (h : r.Within Turning s)
    (ht : r.outcome = .next t) : Effect i s t := by
  cases r with
  | ok a u =>
    simp only [Res.outcome_ok, Host.Outcome.next.injEq] at ht
    exact ht ▸ .work u.ret h
  | ended u =>
    simp only [Res.outcome_ended, Host.Outcome.next.injEq] at ht
    obtain ⟨e, v, h, rfl⟩ := h
    exact ht ▸ .error e h
  | fault f => simp at ht

theorem Res.Within.effectRet {α : Type} {i : Instr} {r : Res α} {f : α → List Int} {s t : State}
    (h : r.Within Turning s) (ht : r.outcomeRet f = .next t) : Effect i s t := by
  cases r with
  | ok a u =>
    simp only [Res.outcomeRet_ok, Host.Outcome.next.injEq] at ht
    exact ht ▸ .work _ h
  | ended u =>
    simp only [Res.outcomeRet_ended, Host.Outcome.next.injEq] at ht
    obtain ⟨e, v, h, rfl⟩ := h
    exact ht ▸ .error e h
  | fault f => simp at ht

theorem Reading.turning {s t : State} (h : Reading s t) : Turning s t := h.1.turning
theorem Parsing.turning {s t : State} (h : Parsing s t) : Turning s t := h.1.turning
theorem Refilling.turning {s t : State} (h : Refilling s t) : Turning s t := h.1.turning
theorem Decoding.turning {s t : State} (h : Decoding s t) : Turning s t := h.1.turning

theorem assemble_effect {i : Instr} {s t : State} (hi : i = .assemble ∨ i = .sequencerStep ∧ s.sq.seq = .assemble)
    (h : (assemble s).outcome = .next t) : Effect i s t := by
  rcases assemble_cases s with ⟨out, ha, -, ho⟩ | ⟨info, ha⟩ | ⟨f, ha⟩ <;> rw [ha] at h
  · simp only [Res.outcome_ok, Host.Outcome.next.injEq] at h
    exact h ▸ .image hi ho
  · simp only [Res.outcome_ended, Host.Outcome.next.injEq] at h
    exact h ▸ .error _ (Turning.refl s)
  · simp at h

theorem writeCtrl_effect {i : Instr} {v : Word} (hi : v.getLsbD 0 = true → ∃ w, i = .decode w ∨ i = .startWhileBusy w)
    (s : State) : Effect i s (writeCtrl v s) := by
  unfold writeCtrl
  split_ifs with h hb
  · exact .same
  · exact .start (hi h) (by simpa using hb)
  · exact .same

/-- The elements and the operations of the block. -/
theorem execBlock_effect {i : Instr} {s t : State} (h : exec i s = .next t)
    (hi : (∀ w, i ≠ .decode w) ∧ (∀ w, i ≠ .startWhileBusy w) ∧ (∀ w, i ≠ .ctrlNop w) ∧ i ≠ .version ∧
      (∀ v, i ≠ .writeInHandle v) ∧ (∀ v, i ≠ .writeInSize v) ∧ (∀ n, i ≠ .readReg n) ∧ (∀ n v, i ≠ .writeRoReg n v) ∧
      (∀ a, i ≠ .readOutput a) ∧ (∀ a b, i ≠ .writeInput a b) ∧ i ≠ .reset) : Effect i s t := by
  cases i
  case magic => exact ((parseMagic_within s).mono Reading.turning).effect h
  case parseMagic => exact ((parseMagic_within s).mono Reading.turning).effect h
  case width => exact ((parseWidth_within s).mono Parsing.turning).effect h
  case height => exact ((parseHeight_within s).mono Parsing.turning).effect h
  case channels => exact ((parseChannels_within s).mono Parsing.turning).effect h
  case depth => exact ((parseDepth_within s).mono Parsing.turning).effect h
  case flags => exact ((parseFlags_within s).mono Parsing.turning).effect h
  case parseFlags => exact ((parseFlags_within s).mono Parsing.turning).effect h
  case chorder => exact ((parseChorder_within s).mono Parsing.turning).effect h
  case parseChorder => exact ((parseChorder_within s).mono Parsing.turning).effect h
  case nframes => exact ((parseFrames_within s).mono Parsing.turning).effect h
  case metalen => exact ((parseMetalen_within s).mono Parsing.turning).effect h
  case metadata => exact ((parseMetadata_within s).mono Reading.turning).effect h
  case parseHeader => exact ((parseHeader_within s).mono Parsing.turning).effect h
  case acinit => exact ((acInit_within s).mono Refilling.turning).effect h
  case acInitOp => exact ((acInit_within s).mono Refilling.turning).effect h
  case acbyte =>
    simp only [exec, execAcbyte] at h
    split_ifs at h
    · exact ((refill_within s).mono Refilling.turning).effect h
    · simp only [Host.Outcome.next.injEq] at h
      exact h ▸ .same
  case decodeBit p => exact ((decodeBit_within p s).mono Refilling.turning).effectRet h
  case renormalise => exact ((renormalise_within s).mono Refilling.turning).effect h
  case ctrUpdate p b =>
    simp only [exec, execCtrUpdate, Host.Outcome.next.injEq] at h
    exact h ▸ .work _ (Turning.refl s)
  case node => exact ((decodeNode_within _ s).mono Decoding.turning).effectRet h
  case split => exact ((decodeSplit_within _ s).mono Decoding.turning).effectRet h
  case prop => exact ((decodeProp_within s).mono Decoding.turning).effectRet h
  case thr => exact ((decodeThr_within s).mono Decoding.turning).effectRet h
  case zero k => exact ((decodeCtx_within _ s).mono Decoding.turning).effectRet h
  case sign k => exact ((decodeCtx_within _ s).mono Decoding.turning).effectRet h
  case mant k j => exact ((decodeCtx_within _ s).mono Decoding.turning).effectRet h
  case exp k e =>
    refine Res.Within.effectRet (Res.Within.mono ?_ Decoding.turning) h
    refine (decodeCtx_within _ s).bind Decoding.trans fun b t _ => ?_
    split_ifs
    · exact .raise _ (Decoding.refl t)
    · exact Decoding.refl t
  case readBit => exact ((readBit_within s).mono Reading.turning).effectRet h
  case readUint n => exact ((readUint_within n s).mono Reading.turning).effectRet h
  case readVarint => exact ((readVarint_within s).mono Reading.turning).effectRet h
  case skipBytes n => exact ((skipBytes_within n s).mono Reading.turning).effect h
  case decodeCtx k => exact ((decodeCtx_within k s).mono Decoding.turning).effectRet h
  case nzDecode k l e => exact ((nzDecode_within k l e s).mono Decoding.turning).effectRet h
  case treeDecode => exact ((treeDecode_within s).mono Decoding.turning).effect h
  case decodeNode d => exact ((decodeNode_within d s).mono Decoding.turning).effectRet h
  case treeDecodeIterative => exact ((treeDecodeIterative_within s).mono Decoding.turning).effect h
  case treeLookup P => exact (Res.Within.ofExcept _ (Turning.refl s)).effectRet h
  case passPositions => exact (Res.Within.ofExcept _ (Turning.refl s)).effectRet h
  case neighbours => exact (Res.Within.ofExcept _ (Turning.refl s)).effectRet h
  case ahead => exact (Res.Within.ofExcept _ (Turning.refl s)).effectRet h
  case predict => exact (Res.Within.ofExcept _ (Turning.refl s)).effectRet h
  case properties => exact (Res.Within.ofExcept _ (Turning.refl s)).effectRet h
  case resid => exact ((decodePixel_within s).mono Working.turning).effect h
  case decodePixel => exact ((decodePixel_within s).mono Working.turning).effect h
  case planeLoop => exact (planeLoop_within s).effect h
  case raise e => exact (Res.Within.raise (α := Unit) e (Turning.refl s)).effect h
  case assemble => exact assemble_effect (.inl rfl) h
  case sequencerStep =>
    by_cases ha : s.sq.seq = .assemble
    · refine assemble_effect (.inr ⟨rfl, ha⟩) ?_
      rw [← h, exec, execSequencerStep, sequencerStep, ha]
    · exact (sequencerStep_within ha).effect h
  all_goals simp at hi

/-- Every next state of a well-formed instruction is one of the effects. -/
theorem exec_effect {i : Instr} {s t : State} (hw : wellFormed i = true) (h : exec i s = .next t) :
    Effect i s t := by
  by_cases hi : (∀ w, i ≠ .decode w) ∧ (∀ w, i ≠ .startWhileBusy w) ∧ (∀ w, i ≠ .ctrlNop w) ∧ i ≠ .version ∧
      (∀ v, i ≠ .writeInHandle v) ∧ (∀ v, i ≠ .writeInSize v) ∧ (∀ n, i ≠ .readReg n) ∧ (∀ n v, i ≠ .writeRoReg n v) ∧
      (∀ a, i ≠ .readOutput a) ∧ (∀ a b, i ≠ .writeInput a b) ∧ i ≠ .reset
  · exact execBlock_effect h hi
  · cases i
    case decode w =>
      simp only [exec, execDecode, Host.Outcome.next.injEq] at h
      exact h ▸ writeCtrl_effect (fun _ => ⟨w, .inl rfl⟩) s
    case startWhileBusy w =>
      simp only [exec, execStartWhileBusy, writeHostReg, Host.Outcome.next.injEq] at h
      exact h ▸ writeCtrl_effect (fun _ => ⟨w, .inr rfl⟩) s
    case ctrlNop w =>
      simp only [exec, execCtrlNop, Host.Outcome.next.injEq] at h
      exact h ▸ writeCtrl_effect (fun hc => by rw [ctrl_start] at hc; simp at hc) s
    case version =>
      simp only [exec, execVersion, Host.Outcome.next.injEq] at h
      exact h ▸ .bus _ s.freeCount
    case readReg n =>
      simp only [exec, execReadReg, Host.Outcome.next.injEq] at h
      exact h ▸ .bus _ s.freeCount
    case writeInHandle v =>
      simp only [exec, execWriteInHandle, writeHostReg, Host.Outcome.next.injEq] at h
      exact h ▸ .inHandle rfl
    case writeInSize v =>
      simp only [exec, execWriteInSize, writeHostReg, Host.Outcome.next.injEq] at h
      exact h ▸ .inSize rfl
    case writeRoReg n v =>
      have hs : writeHostReg n v s = s := by
        simp only [wellFormed, ignoresWrites, Bool.and_eq_true, bne_iff_ne, ne_eq] at hw
        unfold writeHostReg
        split <;> simp_all
      simp only [exec, execWriteRoReg, hs, Host.Outcome.next.injEq] at h
      exact h ▸ .same
    case readOutput a =>
      simp only [exec, execReadOutput, Host.Outcome.next.injEq] at h
      have hr : ∃ w f, onBus ((outputWord a.toNat s).1.setWidth 32) (outputWord a.toNat s).2 =
          { s with busData := w, freeCount := f } := by
        simp only [outputWord]
        split_ifs
        · split <;> exact ⟨_, _, rfl⟩
        · exact ⟨_, _, rfl⟩
      obtain ⟨w, f, hr⟩ := hr
      rw [hr] at h
      exact h ▸ .bus w f
    case writeInput a b =>
      simp only [exec, execWriteInput, Host.Outcome.next.injEq] at h
      exact h ▸ .inputByte rfl
    case reset =>
      simp only [exec, execReset, Host.Outcome.next.injEq] at h
      exact h ▸ .reset rfl
    all_goals simp at hi

/-- Whatever the decoder answers is well formed. -/
theorem decode_wellFormed {busy : Bool} {q : Issue} {i : Instr} (h : decode busy q = .ok i) : wellFormed i = true := by
  cases q with
  | turn =>
    simp only [decode, Except.ok.injEq] at h
    exact h ▸ rfl
  | move m =>
    simp only [decode, Except.ok.injEq] at h
    subst h
    unfold decodeMove
    split <;> first | rfl | (split_ifs <;> first | rfl | (simp only [wellFormed, ignoresWrites]; simp_all))
  | call row args =>
    simp only [decode] at h
    cases hc : decodeCall row args with
    | error e => simp [hc, Except.bind] at h
    | ok j =>
      simp only [hc, Except.bind, checkContract] at h
      split_ifs at h with hw
      exact Except.ok.inj h ▸ hw

/-- The instruction a step runs, and what it does to the state without the queue entry it took. -/
theorem step_effect {s t : State} (h : step s = .next t) :
    ∃ i, decode s.busy (nextIssue s).1 = .ok i ∧ exec i (nextIssue s).2 = .next t ∧ Effect i (nextIssue s).2 t := by
  unfold step at h
  cases hd : decode s.busy (nextIssue s).1 with
  | error e => simp [hd] at h
  | ok i =>
    rw [hd] at h
    exact ⟨i, rfl, h, exec_effect (decode_wellFormed hd) h⟩

end Sys2Proof.Machine
end

