-- ==== Sys2Proof/Laws/Varint.lean ====
section
/-! SUPPORT. What `read_varint` can do on an input the host owns (R134): it inverts the writing of R94, in any
number of bytes, and it tells an overflow before an over-long form. -/

namespace Sys2Proof.Machine

theorem bytesFrom_succ (s : State) (g c : Nat) :
    s.bytesFrom (g + 1) c = BitVec.ofNat 8 (s.bitsFrom 8 c 0) :: s.bytesFrom g (c + 8) := rfl

theorem bytesFrom_length (s : State) (g c : Nat) : (s.bytesFrom g c).length = g := by
  induction g generalizing c with
  | zero => rfl
  | succ g ih => simp [bytesFrom_succ, ih]

theorem bytesFrom_add (s : State) (m n c : Nat) :
    s.bytesFrom (m + n) c = s.bytesFrom m c ++ s.bytesFrom n (c + 8 * m) := by
  induction m generalizing c with
  | zero => simp [State.bytesFrom]
  | succ m ih =>
    have : m + 1 + n = (m + n) + 1 := by omega
    rw [this, bytesFrom_succ, bytesFrom_succ, ih, List.cons_append]
    congr 3
    omega

/-- The bytes after the first of them, from the state past the first. -/
theorem peekBytes_cons {s : State} {g : Nat} {b : Byte} {bs : List Byte} (h : s.readable (8 * (g + 1)) = true)
    (hp : s.peekBytes (g + 1) = b :: bs) :
    s.peek 8 = b.toNat ∧ (s.advance 8).readable (8 * g) = true ∧ (s.advance 8).peekBytes g = bs := by
  have hr : (s.advance 8).br.cur.toNat = s.br.cur.toNat + 8 := advance_cur (by rw [readable_iff] at h; omega)
  rw [State.peekBytes, bytesFrom_succ, List.cons.injEq] at hp
  refine ⟨?_, readable_advance (by rwa [show 8 + 8 * g = 8 * (g + 1) by omega]), ?_⟩
  · have hlt := peek_lt s 8
    rw [State.peek] at hlt ⊢
    rw [← hp.1, BitVec.toNat_ofNat, Nat.mod_eq_of_lt hlt]
  · rw [State.peekBytes, hr, advance_bytesFrom]
    exact hp.2

theorem peekBytes_append {s : State} {m n : Nat} {bs cs : List Byte} (h : s.readable (8 * (m + n)) = true)
    (hm : bs.length = m) (hp : s.peekBytes (m + n) = bs ++ cs) :
    s.peekBytes m = bs ∧ (s.advance (8 * m)).readable (8 * n) = true ∧ (s.advance (8 * m)).peekBytes n = cs := by
  have hr : (s.advance (8 * m)).br.cur.toNat = s.br.cur.toNat + 8 * m :=
    advance_cur (by rw [readable_iff] at h; omega)
  rw [State.peekBytes, bytesFrom_add] at hp
  obtain ⟨h1, h2⟩ := List.append_inj hp (by rw [bytesFrom_length, hm])
  refine ⟨h1, readable_advance (by rwa [show 8 * m + 8 * n = 8 * (m + n) by omega]), ?_⟩
  rw [State.peekBytes, hr, advance_bytesFrom]
  exact h2

theorem readUint8 {s : State} (h : s.readable 8 = true) {b : Byte} (hb : s.peek 8 = b.toNat) :
    readUint 8 s = .ok (b.setWidth 32) (s.advance 8) := by
  rw [readUint_readable h, hb]
  congr 1
  apply BitVec.eq_of_toNat_eq
  simp

/-- The payload and the continuation bit of a varint byte `128·c + p`. -/
theorem varintByte {c p : Nat} (hc : c ≤ 1) (hp : p < 128) :
    (((BitVec.ofNat 8 (128 * c + p)).setWidth 32 : Word) &&& 0x7F).toNat = p ∧
      ((((BitVec.ofNat 8 (128 * c + p)).setWidth 32 : Word) &&& 0x80 = 0) ↔ c = 0) := by
  have h1 : ((BitVec.ofNat 8 (128 * c + p)).setWidth 32 : Word).toNat = 128 * c + p := by
    rw [BitVec.toNat_setWidth, BitVec.toNat_ofNat]; omega
  constructor
  · rw [BitVec.toNat_and, h1]
    have : (0x7F : Word).toNat = 2 ^ 7 - 1 := rfl
    rw [this, Nat.and_two_pow_sub_one_eq_mod]
    omega
  · have h80 : ∀ x : Word, x &&& 0x80 = 0 ↔ x.getLsbD 7 = false := by
      intro x
      have e : (0x80 : Word) = BitVec.twoPow 32 7 := rfl
      rw [e, BitVec.and_twoPow]
      cases x.getLsbD 7 <;> simp [BitVec.twoPow]
    rw [h80, BitVec.getLsbD, h1, Nat.testBit_eq_decide_div_mod_eq]
    have : (128 * c + p) / 2 ^ 7 = c := by omega
    rw [this]
    have : c = 0 ∨ c = 1 := by omega
    rcases this with rfl | rfl <;> simp

theorem varintBytes_succ (g v : Nat) :
    varintBytes (g + 1) v = BitVec.ofNat 8 (128 * (if g = 0 then 0 else 1) + v / 128 ^ g % 128) :: varintBytes g v := by
  rw [varintBytes]
  congr 2
  split_ifs <;> simp

theorem varintBytes_length (g v : Nat) : (varintBytes g v).length = g := by
  induction g with
  | zero => rfl
  | succ g ih => simp [varintBytes_succ, ih]

/-- One turn of the loop of R134 on a byte `128·c + p`. -/
theorem readVarintFrom_byte {k a c p : Nat} {s : State} (h : s.readable 8 = true)
    (hb : s.peek 8 = (BitVec.ofNat 8 (128 * c + p)).toNat) (hc : c ≤ 1) (hp : p < 128) :
    readVarintFrom (k + 1) a s =
      if 0xFFFFFFFF < a * 128 + p then .ended (takeError ⟨.malformedVarint, 2⟩ (s.advance 8))
      else if c = 0 then .ok (BitVec.ofNat 32 (a * 128 + p)) (s.advance 8)
      else readVarintFrom k (a * 128 + p) (s.advance 8) := by
  obtain ⟨e1, e2⟩ := varintByte hc hp
  simp only [readVarintFrom, readUint8 h hb, Res.bind_ok, e1, raiseErr_eq]
  simp only [e2]

/-- The value of a varint, from a byte in the middle on: `a` has been read. -/
theorem readVarintFrom_ok {g k a v : Nat} {s : State} (hg : 1 ≤ g) (hk : g ≤ k)
    (hv : a * 128 ^ g + v % 128 ^ g < 2 ^ 32) (h : s.readable (8 * g) = true)
    (hp : s.peekBytes g = varintBytes g v) :
    readVarintFrom k a s = .ok (BitVec.ofNat 32 (a * 128 ^ g + v % 128 ^ g)) (s.advance (8 * g)) := by
  induction g generalizing k a s with
  | zero => omega
  | succ g ih =>
    obtain ⟨k, rfl⟩ : ∃ k', k = k' + 1 := ⟨k - 1, by omega⟩
    rw [varintBytes_succ] at hp
    obtain ⟨hb, hr, hrest⟩ := peekBytes_cons h hp
    have hmod : v % 128 ^ (g + 1) = v / 128 ^ g % 128 * 128 ^ g + v % 128 ^ g := by
      rw [pow_succ, Nat.mod_mul, Nat.mul_comm (128 ^ g)]; omega
    have hsum : a * 128 ^ (g + 1) + v % 128 ^ (g + 1) = (a * 128 + v / 128 ^ g % 128) * 128 ^ g + v % 128 ^ g := by
      rw [hmod, pow_succ]; ring
    rw [hsum] at hv ⊢
    rw [readVarintFrom_byte (readable_of_le h (by omega)) hb (by split_ifs <;> omega) (Nat.mod_lt _ (by norm_num))]
    have hle : a * 128 + v / 128 ^ g % 128 < 2 ^ 32 := by
      have h1 : (a * 128 + v / 128 ^ g % 128) * 1 ≤ (a * 128 + v / 128 ^ g % 128) * 128 ^ g :=
        Nat.mul_le_mul_left _ (Nat.one_le_pow _ _ (by norm_num))
      omega
    rw [if_neg (by omega)]
    rcases Nat.eq_zero_or_pos g with rfl | hg0
    · simp [Nat.mod_one]
    · rw [if_neg (by simp; omega)]
      rw [ih hg0 (by omega) hv hr hrest, advance_advance]
      congr 2
      omega

/-- R134: a varint in `g` bytes, 1 to 5, is read whole. -/
theorem readVarint_ok {g v : Nat} {s : State} (hg : 1 ≤ g) (hk : g ≤ 5) (hv : v < 128 ^ g) (hu : v < 2 ^ 32)
    (h : s.readable (8 * g) = true) (hp : s.peekBytes g = varintBytes g v) :
    readVarint s = .ok (BitVec.ofNat 32 v) (s.advance (8 * g)) := by
  have e : 0 * 128 ^ g + v % 128 ^ g = v := by rw [Nat.mod_eq_of_lt hv]; omega
  have := readVarintFrom_ok (a := 0) hg hk (by rw [e]; exact hu) h hp
  rwa [e] at this

/-- The same for a header field in one of its legal forms (R94). -/
theorem readVarint_field {v : VarField} {s : State} (hl : v.legal = true) (h : s.readable (8 * v.bytes) = true)
    (hp : s.peekBytes v.bytes = v.encode) :
    readVarint s = .ok (BitVec.ofNat 32 v.value) (s.advance (8 * v.bytes)) := by
  simp only [VarField.legal, Bool.and_eq_true, decide_eq_true_eq] at hl
  exact readVarint_ok hl.1.1.1 hl.1.1.2 hl.1.2 hl.2 h hp

theorem field_lt {v : VarField} (hl : v.legal = true) : v.value < 2 ^ 32 := by
  simp only [VarField.legal, Bool.and_eq_true, decide_eq_true_eq] at hl
  exact hl.2

end Sys2Proof.Machine
end

