-- ==== Sys2Proof/Laws/Header.lean ====
section
/-! SUPPORT. What the header operations can do (R200 to R210): a field read is a field stored; the loops of R201 and
R207 in closed form; and on any state, what each leaves alone. -/

namespace Sys2Proof.Machine

/-! ### MAGIC -/

/-- The loop of R201 on the bytes it expects. -/
theorem magicFrom_ok {ms : List Byte} {i : Nat} {s : State} (h : s.readable (8 * ms.length) = true)
    (hp : s.peekBytes ms.length = ms) : magicFrom ms i s = .ok () (s.advance (8 * ms.length)) := by
  induction ms generalizing i s with
  | nil => simp [magicFrom, advance_zero]
  | cons m ms ih =>
    obtain ⟨hb, hr, hrest⟩ := peekBytes_cons (g := ms.length) h hp
    simp only [magicFrom, readUint8 (readable_of_le h (by simp)) hb, Res.bind_ok, if_true]
    rw [ih hr hrest, advance_advance]
    congr 2
    simp; omega

/-- The loop of R201 on a right prefix of `n` bytes, then a wrong byte. -/
theorem magicFrom_wrong {ms : List Byte} {i n : Nat} {s : State} (hn : n < ms.length)
    (h : s.readable (8 * (n + 1)) = true) (hp : s.peekBytes n = ms.take n)
    (hw : s.peekBytes (n + 1) ≠ ms.take (n + 1)) :
    magicFrom ms i s = .ended (takeError ⟨.badMagic, BitVec.ofNat 32 (i + n)⟩ (s.advance (8 * (n + 1)))) := by
  induction n generalizing ms i s with
  | zero =>
    obtain ⟨m, ms, rfl⟩ : ∃ m ms', ms = m :: ms' := List.exists_cons_of_length_pos (by omega)
    have hb : s.peek 8 = (BitVec.ofNat 8 (s.peek 8)).toNat := by
      rw [BitVec.toNat_ofNat, Nat.mod_eq_of_lt (peek_lt s 8)]
    have hne : ¬ ((BitVec.ofNat 8 (s.peek 8)).setWidth 32 : Word) = m.setWidth 32 := by
      intro e
      apply hw
      have e' : BitVec.ofNat 8 (s.peek 8) = m := by
        have := congrArg BitVec.toNat e
        rw [BitVec.toNat_setWidth, BitVec.toNat_setWidth, Nat.mod_eq_of_lt (by have := (BitVec.ofNat 8 (s.peek 8)).isLt; omega),
          Nat.mod_eq_of_lt (by have := m.isLt; omega)] at this
        exact BitVec.eq_of_toNat_eq this
      simp only [State.peekBytes, State.bytesFrom, List.take_succ_cons, List.take_zero, ← e']
      rfl
    simp only [magicFrom, readUint8 (readable_of_le h (by omega)) hb, Res.bind_ok, if_neg hne, raiseErr_eq]
    rfl
  | succ n ih =>
    obtain ⟨m, ms, rfl⟩ : ∃ m ms', ms = m :: ms' := List.exists_cons_of_length_pos (by omega)
    rw [List.take_succ_cons] at hp hw
    obtain ⟨hb, hr, hrest⟩ := peekBytes_cons (g := n) (readable_of_le h (by omega)) hp
    have hr1 : (s.advance 8).readable (8 * (n + 1)) = true :=
      readable_advance (by rwa [show 8 + 8 * (n + 1) = 8 * (n + 1 + 1) by omega])
    have hw1 : (s.advance 8).peekBytes (n + 1) ≠ ms.take (n + 1) := by
      intro e
      apply hw
      have hc : (s.advance 8).br.cur.toNat = s.br.cur.toNat + 8 := advance_cur (by rw [readable_iff] at h; omega)
      rw [State.peekBytes, hc, advance_bytesFrom] at e
      rw [State.peekBytes, bytesFrom_succ, e]
      congr 1
      apply BitVec.eq_of_toNat_eq
      have := peek_lt s 8
      rw [State.peek] at hb this
      rw [BitVec.toNat_ofNat, Nat.mod_eq_of_lt this, hb]
    simp only [magicFrom, readUint8 (readable_of_le h (by omega)) hb, Res.bind_ok, if_true]
    rw [ih (by simpa using hn) hr1 hrest hw1, advance_advance]
    congr 3
    · congr 1; omega
    · omega

/-- The loop of R201 on a proper prefix, then the end of the input. -/
theorem magicFrom_truncated {ms : List Byte} {i n : Nat} {s : State} (hn : n < ms.length)
    (h : s.readable (8 * n) = true) (hl : s.br.lim.toNat < s.br.cur.toNat + 8 * (n + 1))
    (hp : s.peekBytes n = ms.take n) : magicFrom ms i s = .ended (takeError truncated s.exhausted) := by
  induction n generalizing ms i s with
  | zero =>
    obtain ⟨m, ms, rfl⟩ : ∃ m ms', ms = m :: ms' := List.exists_cons_of_length_pos (by omega)
    rw [readable_iff] at h
    simp only [magicFrom, readUint_truncated h.1 (by omega) (show s.br.lim.toNat < s.br.cur.toNat + 8 by omega),
      Res.bind_ended]
  | succ n ih =>
    obtain ⟨m, ms, rfl⟩ : ∃ m ms', ms = m :: ms' := List.exists_cons_of_length_pos (by omega)
    rw [List.take_succ_cons] at hp
    obtain ⟨hb, hr, hrest⟩ := peekBytes_cons (g := n) h hp
    have hc : (s.advance 8).br.cur.toNat = s.br.cur.toNat + 8 := advance_cur (by rw [readable_iff] at h; omega)
    simp only [magicFrom, readUint8 (readable_of_le h (by omega)) hb, Res.bind_ok, if_true]
    exact ih (by simpa using hn) hr (by rw [hc]; simp only [advance_br]; omega) hrest

/-! ### CHORDER -/

theorem orderField_toNat (v : Byte) (k : Nat) : (orderField v k).toNat = v.toNat / 4 ^ k % 4 := by
  rw [orderField, BitVec.extractLsb'_toNat, Nat.shiftRight_eq_div_pow, pow_mul]
  rfl

theorem seen_or (seen : BitVec 4) {o i : Nat} (ho : o < 4) :
    (seen ||| (1#4 <<< o)).getLsbD i = (seen.getLsbD i || decide (i = o)) := by
  rw [BitVec.getLsbD_or, BitVec.getLsbD_shiftLeft, BitVec.getLsbD_one]
  by_cases h : i = o
  · subst h; simp [ho]
  · simp only [h, decide_false, Bool.or_false]
    by_cases h4 : i < 4 <;> by_cases hi : i < o <;> (simp [h4, hi]; try omega)

/-- The loop of R207, in closed form: each field named is below the channel count and new, each field above is 0. -/
theorem chorderLoop_iff (C : Nat) (v : Byte) (n k : Nat) (seen : BitVec 4) :
    chorderLoop C v n k seen = true ↔
      (∀ i, k ≤ i → i < k + n → i < C → (orderField v i).toNat < C ∧ seen.getLsbD (orderField v i).toNat = false ∧
        ∀ j, k ≤ j → j < i → orderField v j ≠ orderField v i) ∧
      (∀ i, k ≤ i → i < k + n → C ≤ i → orderField v i = 0) := by
  induction n generalizing k seen with
  | zero =>
    simp only [chorderLoop, true_iff]
    exact ⟨fun i h1 h2 => by omega, fun i h1 h2 => by omega⟩
  | succ n ih =>
    have ho : (orderField v k).toNat < 4 := (orderField v k).isLt
    simp only [chorderLoop]
    by_cases hk : k < C
    · rw [if_pos hk]
      by_cases hbad : C ≤ (orderField v k).toNat ∨ seen.getLsbD (orderField v k).toNat = true
      · rw [if_pos hbad]
        simp only [Bool.false_eq_true, false_iff, not_and]
        intro h
        obtain ⟨h1, h2, -⟩ := h k (le_refl _) (by omega) hk
        rcases hbad with hb | hb
        · omega
        · rw [h2] at hb; exact absurd hb (by simp)
      · rw [if_neg hbad, ih]
        rw [not_or] at hbad
        constructor
        · rintro ⟨h1, h2⟩
          refine ⟨fun i hi1 hi2 hi3 => ?_, fun i hi1 hi2 hi3 => ?_⟩
          · rcases Nat.eq_or_lt_of_le hi1 with rfl | hlt
            · exact ⟨by omega, by simpa using hbad.2, fun j hj1 hj2 => by omega⟩
            · obtain ⟨a, b, c⟩ := h1 i hlt (by omega) hi3
              rw [seen_or seen ho, Bool.or_eq_false_iff, decide_eq_false_iff_not] at b
              refine ⟨a, b.1, fun j hj1 hj2 => ?_⟩
              rcases Nat.eq_or_lt_of_le hj1 with rfl | hj
              · intro e; exact b.2 (by rw [e])
              · exact c j hj hj2
          · rcases Nat.eq_or_lt_of_le hi1 with rfl | hlt
            · omega
            · exact h2 i hlt (by omega) hi3
        · rintro ⟨h1, h2⟩
          refine ⟨fun i hi1 hi2 hi3 => ?_, fun i hi1 hi2 hi3 => h2 i (by omega) (by omega) hi3⟩
          obtain ⟨a, b, c⟩ := h1 i (by omega) (by omega) hi3
          refine ⟨a, ?_, fun j hj1 hj2 => c j (by omega) hj2⟩
          rw [seen_or seen ho, b]
          have := c k (le_refl _) (by omega)
          simp only [Bool.false_or, decide_eq_false_iff_not]
          intro e
          exact this (BitVec.eq_of_toNat_eq e.symm)
    · rw [if_neg hk]
      by_cases h0 : (orderField v k).toNat = 0
      · rw [if_neg (by simpa using h0), ih]
        have h0' : orderField v k = 0 := BitVec.eq_of_toNat_eq h0
        constructor
        · rintro ⟨h1, h2⟩
          refine ⟨fun i hi1 hi2 hi3 => by omega, fun i hi1 hi2 hi3 => ?_⟩
          rcases Nat.eq_or_lt_of_le hi1 with rfl | hlt
          · exact h0'
          · exact h2 i hlt (by omega) hi3
        · rintro ⟨h1, h2⟩
          exact ⟨fun i hi1 hi2 hi3 => by omega, fun i hi1 hi2 hi3 => h2 i (by omega) (by omega) hi3⟩
      · rw [if_pos (by simpa using h0)]
        simp only [Bool.false_eq_true, false_iff, not_and, not_forall]
        intro _
        refine ⟨k, le_refl _, by omega, by omega, ?_⟩
        intro e; rw [e] at h0; exact h0 rfl

/-- R97 in the form of R207. -/
theorem chorderLegal_iff (C : Nat) (v : Byte) : chorderLegal C v = true ↔
    (∀ i, i < 4 → i < C → (orderField v i).toNat < C ∧ ∀ j, j < i → orderField v j ≠ orderField v i) ∧
      (∀ i, i < 4 → C ≤ i → orderField v i = 0) := by
  simp only [chorderLegal, List.all_eq_true, List.mem_range]
  constructor
  · intro h
    refine ⟨fun i hi hc => ?_, fun i hi hc => ?_⟩
    · have := h i hi
      rw [if_pos hc, Bool.and_eq_true, decide_eq_true_eq, List.all_eq_true] at this
      exact ⟨this.1, fun j hj => by simpa using this.2 j (List.mem_range.2 hj)⟩
    · have := h i hi
      rw [if_neg (by omega)] at this
      simpa using this
  · rintro ⟨h1, h2⟩ i hi
    split_ifs with hc
    · obtain ⟨a, b⟩ := h1 i hi hc
      rw [Bool.and_eq_true, decide_eq_true_eq, List.all_eq_true]
      exact ⟨a, fun j hj => by simpa using b j (List.mem_range.1 hj)⟩
    · simpa using h2 i hi (by omega)

/-- The loop of R207 accepts exactly the legal CHORDER bytes. -/
theorem chorderLoop_eq_legal (C : Nat) (v : Byte) : chorderLoop C v 4 0 0 = chorderLegal C v := by
  have h0 : ∀ i, (0 : BitVec 4).getLsbD i = false := fun i => BitVec.getLsbD_zero
  rw [Bool.eq_iff_iff, chorderLoop_iff, chorderLegal_iff]
  simp only [Nat.zero_le, Nat.zero_add, true_implies, h0, true_and]

/-! ### Fields -/

/-- A field of one byte: what `read_uint(8)` stores. -/
theorem readUint8_setWidth {s : State} (h : s.readable 8 = true) :
    readUint 8 s = .ok (BitVec.ofNat 32 (s.peek 8)) (s.advance 8) ∧
      (BitVec.ofNat 32 (s.peek 8)).setWidth 8 = BitVec.ofNat 8 (s.peek 8) := by
  refine ⟨readUint_readable h, ?_⟩
  apply BitVec.eq_of_toNat_eq
  rw [BitVec.toNat_setWidth, BitVec.toNat_ofNat, BitVec.toNat_ofNat]
  have := peek_lt s 8
  omega

end Sys2Proof.Machine
end

