-- ==== Sys2Proof/Laws/PerInstr.lean ====
section
/-! SUPPORT. Facts about every instruction as syntax, one lemma per constructor: the row and the number of arguments
of the queue entry the encoder writes for it (R110). -/

namespace Sys2Proof.Laws.EntryLaw

/-- The row number of a call; a turn and a host move have none. -/
def entryRow : Issue → Option Nat
  | .call row _ => some row
  | .turn => none
  | .move _ => none

/-- The number of arguments of a call. -/
def entryArgs : Issue → Nat
  | .call _ args => args.length
  | .turn => 0
  | .move _ => 0

/-- The row of spec/opcode_table.json, counted from 0, that an instruction is called by. -/
def callRow : Instr → Option Nat
  | .magic => some 0
  | .width => some 1
  | .height => some 2
  | .channels => some 3
  | .depth => some 4
  | .flags => some 5
  | .chorder => some 6
  | .nframes => some 7
  | .metalen => some 8
  | .metadata => some 9
  | .acinit => some 10
  | .acbyte => some 11
  | .node => some 12
  | .split => some 13
  | .prop => some 14
  | .thr => some 15
  | .resid => some 16
  | .zero _ => some 17
  | .sign _ => some 18
  | .exp _ _ => some 19
  | .mant _ _ => some 20
  | .readBit => some 21
  | .readUint _ => some 22
  | .readVarint => some 23
  | .skipBytes _ => some 24
  | .acInitOp => some 25
  | .decodeBit _ => some 26
  | .renormalise => some 27
  | .ctrUpdate _ _ => some 28
  | .decodeCtx _ => some 29
  | .nzDecode _ _ _ => some 30
  | .treeDecode => some 31
  | .decodeNode _ => some 32
  | .treeDecodeIterative => some 33
  | .treeLookup _ => some 34
  | .parseHeader => some 35
  | .parseMagic => some 36
  | .parseFlags => some 37
  | .parseChorder => some 38
  | .sequencerStep => none
  | .planeLoop => some 40
  | .passPositions => some 41
  | .neighbours => some 42
  | .ahead => some 43
  | .predict => some 44
  | .properties => some 45
  | .decodePixel => some 46
  | .assemble => some 47
  | .raise _ => some 48
  | .decode _ => none
  | .startWhileBusy _ => none
  | .ctrlNop _ => none
  | .version => none
  | .writeInHandle _ => none
  | .writeInSize _ => none
  | .readReg _ => none
  | .writeRoReg _ _ => none
  | .readOutput _ => none
  | .writeInput _ _ => none
  | .reset => none

/-- The number of arguments of an instruction's call. -/
def callArgs : Instr → Nat
  | .magic => 0
  | .width => 0
  | .height => 0
  | .channels => 0
  | .depth => 0
  | .flags => 0
  | .chorder => 0
  | .nframes => 0
  | .metalen => 0
  | .metadata => 0
  | .acinit => 0
  | .acbyte => 0
  | .node => 0
  | .split => 0
  | .prop => 0
  | .thr => 0
  | .resid => 0
  | .zero _ => 1
  | .sign _ => 1
  | .exp _ _ => 2
  | .mant _ _ => 2
  | .readBit => 0
  | .readUint _ => 1
  | .readVarint => 0
  | .skipBytes _ => 1
  | .acInitOp => 0
  | .decodeBit _ => 1
  | .renormalise => 0
  | .ctrUpdate _ _ => 2
  | .decodeCtx _ => 2
  | .nzDecode _ _ _ => 4
  | .treeDecode => 0
  | .decodeNode _ => 1
  | .treeDecodeIterative => 0
  | .treeLookup _ => 6
  | .parseHeader => 0
  | .parseMagic => 0
  | .parseFlags => 0
  | .parseChorder => 0
  | .sequencerStep => 0
  | .planeLoop => 0
  | .passPositions => 0
  | .neighbours => 0
  | .ahead => 0
  | .predict => 0
  | .properties => 0
  | .decodePixel => 0
  | .assemble => 0
  | .raise _ => 2
  | .decode _ => 0
  | .startWhileBusy _ => 0
  | .ctrlNop _ => 0
  | .version => 0
  | .writeInHandle _ => 0
  | .writeInSize _ => 0
  | .readReg _ => 0
  | .writeRoReg _ _ => 0
  | .readOutput _ => 0
  | .writeInput _ _ => 0
  | .reset => 0

/-- The encoder writes the row and the number of arguments the table gives the instruction. -/
def Statement (i : Instr) : Prop := entryRow (encode i) = callRow i ∧ entryArgs (encode i) = callArgs i

theorem magic : Statement (.magic) := ⟨rfl, rfl⟩
theorem width : Statement (.width) := ⟨rfl, rfl⟩
theorem height : Statement (.height) := ⟨rfl, rfl⟩
theorem channels : Statement (.channels) := ⟨rfl, rfl⟩
theorem depth : Statement (.depth) := ⟨rfl, rfl⟩
theorem flags : Statement (.flags) := ⟨rfl, rfl⟩
theorem chorder : Statement (.chorder) := ⟨rfl, rfl⟩
theorem nframes : Statement (.nframes) := ⟨rfl, rfl⟩
theorem metalen : Statement (.metalen) := ⟨rfl, rfl⟩
theorem metadata : Statement (.metadata) := ⟨rfl, rfl⟩
theorem acinit : Statement (.acinit) := ⟨rfl, rfl⟩
theorem acbyte : Statement (.acbyte) := ⟨rfl, rfl⟩
theorem node : Statement (.node) := ⟨rfl, rfl⟩
theorem split : Statement (.split) := ⟨rfl, rfl⟩
theorem prop : Statement (.prop) := ⟨rfl, rfl⟩
theorem thr : Statement (.thr) := ⟨rfl, rfl⟩
theorem resid : Statement (.resid) := ⟨rfl, rfl⟩
theorem zero (k : SetRef) : Statement (.zero k) := ⟨rfl, rfl⟩
theorem sign (k : SetRef) : Statement (.sign k) := ⟨rfl, rfl⟩
theorem exp (k : SetRef) (e : Nat) : Statement (.exp k e) := ⟨rfl, rfl⟩
theorem mant (k : SetRef) (j : Nat) : Statement (.mant k j) := ⟨rfl, rfl⟩
theorem readBit : Statement (.readBit) := ⟨rfl, rfl⟩
theorem readUint (n : Nat) : Statement (.readUint n) := ⟨rfl, rfl⟩
theorem readVarint : Statement (.readVarint) := ⟨rfl, rfl⟩
theorem skipBytes (n : Word) : Statement (.skipBytes n) := ⟨rfl, rfl⟩
theorem acInitOp : Statement (.acInitOp) := ⟨rfl, rfl⟩
theorem decodeBit (p : Ctr) : Statement (.decodeBit p) := ⟨rfl, rfl⟩
theorem renormalise : Statement (.renormalise) := ⟨rfl, rfl⟩
theorem ctrUpdate (p : Ctr) (bit : Bool) : Statement (.ctrUpdate p bit) := ⟨rfl, rfl⟩
theorem decodeCtx (k : CtrRef) : Statement (.decodeCtx k) := by cases k <;> exact ⟨rfl, rfl⟩
theorem nzDecode (k : SetRef) (limit : Nat) (e : Err) : Statement (.nzDecode k limit e) := ⟨rfl, rfl⟩
theorem treeDecode : Statement (.treeDecode) := ⟨rfl, rfl⟩
theorem decodeNode (d : Nat) : Statement (.decodeNode d) := ⟨rfl, rfl⟩
theorem treeDecodeIterative : Statement (.treeDecodeIterative) := ⟨rfl, rfl⟩
theorem treeLookup (P : PropVec) : Statement (.treeLookup P) := ⟨rfl, rfl⟩
theorem parseHeader : Statement (.parseHeader) := ⟨rfl, rfl⟩
theorem parseMagic : Statement (.parseMagic) := ⟨rfl, rfl⟩
theorem parseFlags : Statement (.parseFlags) := ⟨rfl, rfl⟩
theorem parseChorder : Statement (.parseChorder) := ⟨rfl, rfl⟩
theorem sequencerStep : Statement (.sequencerStep) := ⟨rfl, rfl⟩
theorem planeLoop : Statement (.planeLoop) := ⟨rfl, rfl⟩
theorem passPositions : Statement (.passPositions) := ⟨rfl, rfl⟩
theorem neighbours : Statement (.neighbours) := ⟨rfl, rfl⟩
theorem ahead : Statement (.ahead) := ⟨rfl, rfl⟩
theorem predict : Statement (.predict) := ⟨rfl, rfl⟩
theorem properties : Statement (.properties) := ⟨rfl, rfl⟩
theorem decodePixel : Statement (.decodePixel) := ⟨rfl, rfl⟩
theorem assemble : Statement (.assemble) := ⟨rfl, rfl⟩
theorem raise (e : Err) : Statement (.raise e) := ⟨rfl, rfl⟩
theorem decode (hi : BitVec 31) : Statement (.decode hi) := ⟨rfl, rfl⟩
theorem startWhileBusy (hi : BitVec 31) : Statement (.startWhileBusy hi) := ⟨rfl, rfl⟩
theorem ctrlNop (hi : BitVec 31) : Statement (.ctrlNop hi) := ⟨rfl, rfl⟩
theorem version : Statement (.version) := ⟨rfl, rfl⟩
theorem writeInHandle (v : Word) : Statement (.writeInHandle v) := ⟨rfl, rfl⟩
theorem writeInSize (v : Word) : Statement (.writeInSize v) := ⟨rfl, rfl⟩
theorem readReg (n : Nat) : Statement (.readReg n) := ⟨rfl, rfl⟩
theorem writeRoReg (n : Nat) (v : Word) : Statement (.writeRoReg n v) := ⟨rfl, rfl⟩
theorem readOutput (a : BitVec 26) : Statement (.readOutput a) := ⟨rfl, rfl⟩
theorem writeInput (a : Word) (b : Byte) : Statement (.writeInput a b) := ⟨rfl, rfl⟩
theorem reset : Statement (.reset) := ⟨rfl, rfl⟩

end Sys2Proof.Laws.EntryLaw
end

