-- ==== Sys2Proof/Laws/SameDecisions.lean ====
section
/-! SUPPORT. Decisions depend on the interval, the input and the counters used, and on nothing else: two states that
agree in these take the same decisions, whatever their sequencers, planes and trees hold. -/

namespace Sys2Proof.Machine

/-! ### Reading and narrowing beside another sequencer, plane store and Context Model -/

/-- `s` with the sequencer, the planes and the Context Model of `r`. -/
def State.asIn (r s : State) : State := { s with sq := r.sq, plane := r.plane, cm := r.cm }

theorem asIn_asIn (r q s : State) : State.asIn r (State.asIn q s) = State.asIn r s := rfl

theorem inputByte_asIn (r : State) (a : Nat) (s : State) :
    inputByte a (State.asIn r s) = ((inputByte a s).1, State.asIn r (inputByte a s).2) := by
  have h : staleValues (State.asIn r s) a = staleValues s a := rfl
  simp only [inputByte, h]
  split_ifs
  · rfl
  · cases staleValues s a <;> rfl

theorem readBit_asIn (r : State) {s t : State} {b : Bool} (h : readBit s = .ok b t) :
    readBit (State.asIn r s) = .ok b (State.asIn r t) := by
  have hb : (State.asIn r s).br = s.br := rfl
  simp only [readBit, raiseErr_eq, hb, inputByte_asIn] at h ⊢
  split_ifs at h ⊢
  simp only [Res.ok.injEq] at h ⊢
  exact ⟨h.1, by rw [← h.2]; rfl⟩

theorem readUintFrom_asIn (r : State) (n : Nat) {v w : Word} {s t : State} (h : readUintFrom n v s = .ok w t) :
    readUintFrom n v (State.asIn r s) = .ok w (State.asIn r t) := by
  induction n generalizing v s with
  | zero =>
    simp only [readUintFrom, Res.ok.injEq] at h ⊢
    exact ⟨h.1, by rw [h.2]⟩
  | succ n ih =>
    simp only [readUintFrom, Res.bind_eq_ok] at h ⊢
    obtain ⟨b, u, h1, h2⟩ := h
    exact ⟨b, _, readBit_asIn r h1, ih h2⟩

theorem refill_asIn (r : State) {s t : State} (h : refill s = .ok () t) :
    refill (State.asIn r s) = .ok () (State.asIn r t) := by
  simp only [refill, readUint, Res.bind_eq_ok] at h ⊢
  obtain ⟨b, u, h1, h2⟩ := h
  refine ⟨b, _, readUintFrom_asIn r 8 h1, ?_⟩
  simp only [Res.ok.injEq, true_and] at h2 ⊢
  rw [← h2]
  rfl

theorem renormLoop_asIn (r : State) (n : Nat) {s t : State} (h : renormLoop n s = .ok () t) :
    renormLoop n (State.asIn r s) = .ok () (State.asIn r t) := by
  induction n generalizing s with
  | zero => simp [renormLoop, raiseErr_eq] at h
  | succ n ih =>
    have ha : (State.asIn r s).ac = s.ac := rfl
    simp only [renormLoop, ha] at h ⊢
    split_ifs at h ⊢
    · rw [Res.bind_eq_ok] at h ⊢
      obtain ⟨b, u, h1, h2⟩ := h
      exact ⟨b, _, refill_asIn r h1, ih h2⟩
    · simp only [Res.ok.injEq, true_and] at h ⊢
      rw [h]

theorem decodeBit_asIn (r : State) {p : Ctr} {s t : State} {b : Bool} (h : decodeBit p s = .ok b t) :
    decodeBit p (State.asIn r s) = .ok b (State.asIn r t) := by
  rw [decodeBit_eq, Res.bind_eq_ok] at h ⊢
  obtain ⟨a, u, h1, h2⟩ := h
  have h3 : renormalise (State.asIn r (s.narrowed p.toNat)) = .ok a (State.asIn r u) := renormLoop_asIn r _ h1
  refine ⟨a, _, h3, ?_⟩
  have h4 : (State.asIn r s).chosen p.toNat = s.chosen p.toNat := rfl
  simp only [Res.ok.injEq, h4] at h2 ⊢
  exact ⟨h2.1, by rw [h2.2]⟩

/-! ### The same decisions -/

/-- `m` takes the decisions of `d` that use counters of `K`: it agrees with `d` but for the sequencer, the planes and
the Context Model, and the counters of `K` hold the same. -/
def SameDecisions (K : CtrRef → Prop) (d m : State) : Prop :=
  m = State.asIn m d ∧ d.memoryWf = true ∧ m.memoryWf = true ∧ ∀ k, K k → ctrAt k m = ctrAt k d

/-- The arena but for the counters. -/
def SameTree (m m' : State) : Prop := ∀ n, nodeAt m' n = { nodeAt m n with ctr := (nodeAt m' n).ctr }

theorem SameTree.refl (m : State) : SameTree m m := fun _ => rfl

theorem SameTree.trans {m u t : State} (h : SameTree m u) (h' : SameTree u t) : SameTree m t := fun n => by
  rw [h' n, h n]

theorem SameTree.of_nodes {m u : State} (h : u.cm.nodes = m.cm.nodes) : SameTree m u := fun n => by
  simp only [nodeAt, h]

/-- A tree in the arena depends on no counter. -/
theorem SameTree.treeAt {m m' : State} (h : SameTree m m') (T : TreeShape) (i : Nat) : treeAt m' T i = treeAt m T i := by
  induction T generalizing i with
  | leaf => simp only [Machine.treeAt]; rw [h i]
  | split p v l r hl hr =>
    simp only [Machine.treeAt, hl, hr]
    rw [h i]

theorem setCtr_sameTree (k : CtrRef) (v : Ctr) {s : State} (h : s.memoryWf = true) : SameTree s (setCtr k v s) := by
  cases k with
  | metaCtr i => exact SameTree.of_nodes rfl
  | leafCtr n j =>
    intro m
    simp only [setCtr, nodeAt_setNode _ _ h]
    split_ifs with hm
    · rw [hm]
    · rfl

theorem decodeBit_cm {p : Ctr} {s t : State} {b : Bool} (h : decodeBit p s = .ok b t) : t.cm = s.cm ∧
    (s.memoryWf = true → t.memoryWf = true) := by
  have := decodeBit_within p s
  rw [h] at this
  exact ⟨this.2.2.1, this.1.2.1⟩

theorem decodeCtx_same {K : CtrRef → Prop} {d m d' : State} {k : CtrRef} {b : Bool} (h : SameDecisions K d m) (hk : K k)
    (hd : decodeCtx k d = .ok b d') :
    ∃ m', decodeCtx k m = .ok b m' ∧ SameDecisions K d' m' ∧ SameTree m m' ∧ m'.sq = m.sq ∧ m'.plane = m.plane := by
  obtain ⟨h1, h2, h3, h4⟩ := h
  simp only [decodeCtx, h4 k hk]
  cases hc : ctrAt k d with
  | none => simp [decodeCtx, hc] at hd
  | some p =>
    simp only [decodeCtx, hc, Res.bind_eq_ok, Res.ok.injEq] at hd
    obtain ⟨b', u, hb, rfl, rfl⟩ := hd
    have hm := decodeBit_asIn m hb
    rw [← h1] at hm
    obtain ⟨c1, w1⟩ := decodeBit_cm hb
    obtain ⟨-, w2⟩ := decodeBit_cm hm
    have hcu : ∀ k', ctrAt k' u = ctrAt k' d := fun k' => by
      cases k' <;> simp only [ctrAt, nodeAt, c1]
    have hcm : ∀ k', ctrAt k' (State.asIn m u) = ctrAt k' m := fun k' => by
      cases k' <;> rfl
    refine ⟨setCtr k (ctrUpdate p b') (State.asIn m u), by simp only [hm, Res.bind_ok], ⟨?_, setCtr_memoryWf _ _ (w1 h2),
      setCtr_memoryWf _ _ (w2 h3), ?_⟩, ?_, by simp [State.asIn], by simp [State.asIn]⟩
    · cases k <;> rfl
    · intro k' hk'
      rw [ctrAt_setCtr (w2 h3) ((hcm k).trans ((h4 k hk).trans hc)), ctrAt_setCtr (w1 h2) ((hcu k).trans hc)]
      split_ifs
      · rfl
      · rw [hcm, hcu, h4 k' hk']
    · exact (SameTree.of_nodes (m := m) (u := State.asIn m u) rfl).trans (setCtr_sameTree k _ (w2 h3))

/-- A run of decisions with counters of `K`. -/
theorem takes_same {K : CtrRef → Prop} {ds : List (CtrRef × Bool)} {d m d' : State} (h : SameDecisions K d m)
    (hk : ∀ e ∈ ds, K e.1) (hd : takes d ds = some d') :
    ∃ m', takes m ds = some m' ∧ SameDecisions K d' m' ∧ SameTree m m' ∧ m'.sq = m.sq ∧ m'.plane = m.plane := by
  induction ds generalizing d m with
  | nil =>
    simp only [takes, Option.some.injEq] at hd
    subst hd
    exact ⟨m, rfl, h, SameTree.refl m, rfl, rfl⟩
  | cons e ds ih =>
    obtain ⟨k, b⟩ := e
    rw [takes_cons] at hd
    obtain ⟨u, h1, h2⟩ := hd
    obtain ⟨v, g1, g2, g3, g4, g5⟩ := decodeCtx_same h (hk (k, b) (by simp)) h1
    obtain ⟨w, f1, f2, f3, f4, f5⟩ := ih g2 (fun e he => hk e (by simp [he])) h2
    exact ⟨w, by rw [takes_cons]; exact ⟨v, g1, f1⟩, f2, g3.trans f3, f4.trans g4, f5.trans g5⟩

/-- A run of decisions changes no more than decoding does. -/
theorem takes_decoding {ds : List (CtrRef × Bool)} {s t : State} (h : takes s ds = some t) : Decoding s t := by
  induction ds generalizing s with
  | nil =>
    simp only [takes, Option.some.injEq] at h
    exact h ▸ Decoding.refl s
  | cons e ds ih =>
    obtain ⟨k, b⟩ := e
    rw [takes_cons] at h
    obtain ⟨u, h1, h2⟩ := h
    have hw := decodeCtx_within k s
    rw [h1] at hw
    exact Decoding.trans hw (ih h2)

end Sys2Proof.Machine
end

