-- ==== Sys2Proof/Laws/TreeForms.lean ====
section
/-! SUPPORT. The two forms of tree decode as one decision process (R182, R188): `decideTree` takes the decisions of a
subtree without an arena, and both forms are its run beside the same change of the arena. -/

namespace Sys2Proof.Machine

/-! ### The decisions of a subtree -/

/-- The decisions of a subtree with `more` levels left below its root, and the tree they stand for. -/
def decideTree : Nat → State → Res TreeShape
  | 0, s => (decodeSplit Config.maxTreeDepth s).bind fun _ s => .ok .leaf s
  | more + 1, s =>
    (decodeCtx (.metaCtr 0) s).bind fun split s =>
      if split then
        (decodeProp s).bind fun p s =>
          (decodeThr s).bind fun x s =>
            (decideTree more s).bind fun l s => (decideTree more s).bind fun r s => .ok (.split p x l r) s
      else .ok .leaf s

theorem propBits_noFault (s : State) (f : Fault) : propBits s ≠ .fault f := by
  have hp : ∀ {i : Nat}, i < 41 → (CtrRef.metaCtr i).present = true := by
    intro i h; simp only [CtrRef.present, decide_eq_true_eq]; omega
  have hb : ∀ b : Bool, b.toNat ≤ 1 := fun b => by cases b <;> decide
  intro h
  simp only [propBits, Res.bind_eq_fault] at h
  rcases h with h | ⟨b2, s2, -, h | ⟨b1, s1, -, h | ⟨b0, s0, -, h⟩⟩⟩
  · exact decodeCtx_noFault (hp (by omega)) _ _ h
  · exact decodeCtx_noFault (hp (by have := hb b2; omega)) _ _ h
  · exact decodeCtx_noFault (hp (by have := hb b2; have := hb b1; omega)) _ _ h
  · simp at h

theorem decodeProp_noFault (s : State) (f : Fault) : decodeProp s ≠ .fault f := by
  intro h
  simp only [decodeProp, Res.bind_eq_fault] at h
  rcases h with h | ⟨id, t, -, h⟩
  · exact propBits_noFault s f h
  · split_ifs at h
    simp [raiseErr_eq] at h

theorem decodeThr_noFault (s : State) (f : Fault) : decodeThr s ≠ .fault f :=
  nzDecode_noFault (k := .thr) rfl (by decide) s f

theorem decodeSplit_noFault (d : Nat) (s : State) (f : Fault) : decodeSplit d s ≠ .fault f := by
  intro h
  simp only [decodeSplit, Res.bind_eq_fault] at h
  rcases h with h | ⟨b, t, -, h⟩
  · exact decodeCtx_noFault (k := .metaCtr 0) (by decide) s f h
  · split_ifs at h
    simp [raiseErr_eq] at h

/-- The decisions of a subtree never fault. -/
theorem decideTree_noFault (more : Nat) (s : State) (f : Fault) : decideTree more s ≠ .fault f := by
  induction more generalizing s with
  | zero =>
    intro h
    simp only [decideTree, Res.bind_eq_fault] at h
    rcases h with h | ⟨b, t, -, h⟩
    · exact decodeSplit_noFault _ s f h
    · simp at h
  | succ n ih =>
    intro h
    simp only [decideTree, Res.bind_eq_fault] at h
    rcases h with h | ⟨b, t, -, h⟩
    · exact decodeCtx_noFault (k := .metaCtr 0) (by decide) s f h
    · split_ifs at h
      · simp only [Res.bind_eq_fault] at h
        rcases h with h | ⟨p, t1, -, h | ⟨x, t2, -, h | ⟨l, t3, -, h | ⟨r, t4, -, h⟩⟩⟩⟩
        · exact decodeProp_noFault _ f h
        · exact decodeThr_noFault _ f h
        · exact ih _ h
        · exact ih _ h
        · simp at h

/-- The decisions taken are those of the tree answered, and it is one the stream may hold. -/
theorem decideTree_takes {more : Nat} {s t : State} {T : TreeShape} (h : decideTree more s = .ok T t) :
    takes s (codedTree T) = some t ∧ T.fieldsLegal = true ∧ T.height ≤ more := by
  induction more generalizing s t T with
  | zero =>
    simp only [decideTree, decodeSplit, Res.bind_eq_ok] at h
    obtain ⟨b, u, ⟨b', v, h1, h2⟩, h3⟩ := h
    simp only [Res.ok.injEq] at h3
    obtain ⟨rfl, rfl⟩ := h3
    cases b'
    · simp only [Bool.false_and, Bool.false_eq_true, if_false, Res.ok.injEq] at h2
      obtain ⟨rfl, rfl⟩ := h2
      exact ⟨by simp [codedTree, takes_one, h1], rfl, le_refl _⟩
    · simp [raiseErr_eq] at h2
  | succ n ih =>
    simp only [decideTree, Res.bind_eq_ok] at h
    obtain ⟨b, u, h1, h2⟩ := h
    cases b
    · simp only [Bool.false_eq_true, if_false, Res.ok.injEq] at h2
      obtain ⟨rfl, rfl⟩ := h2
      exact ⟨by simp [codedTree, takes_one, h1], rfl, by simp [TreeShape.height]⟩
    · simp only [if_true, Res.bind_eq_ok, Res.ok.injEq] at h2
      obtain ⟨p, u1, h3, x, u2, h4, l, u3, h5, r, u4, h6, rfl, rfl⟩ := h2
      have hp := decodeProp_inv h3
      have hx := decodeThr_inv h4
      obtain ⟨l1, l2, l3⟩ := ih h5
      obtain ⟨r1, r2, r3⟩ := ih h6
      refine ⟨?_, ?_, ?_⟩
      · simp only [codedTree, List.cons_append, takes_cons, takes_append]
        exact ⟨u, h1, u3, ⟨u2, ⟨u1, hp.2, hx.2⟩, l1⟩, r1⟩
      · simp [TreeShape.fieldsLegal, l2, r2, hx.1, hp.1, Config.numProps]
      · simp only [TreeShape.height]; omega

/-- The decisions of a tree the stream may hold are taken as such. -/
theorem decideTree_ok (T : TreeShape) {more : Nat} {s t : State} (hT : T.fieldsLegal = true) (hh : T.height ≤ more)
    (ht : takes s (codedTree T) = some t) : decideTree more s = .ok T t := by
  induction T generalizing more s t with
  | leaf =>
    simp only [codedTree, takes_one] at ht
    cases more <;> simp [decideTree, decodeSplit, ht]
  | split p x l r hl hr =>
    simp only [TreeShape.height] at hh
    simp only [TreeShape.fieldsLegal, Bool.and_eq_true, decide_eq_true_eq] at hT
    obtain ⟨k, rfl⟩ : ∃ k, more = k + 1 := ⟨more - 1, by omega⟩
    simp only [codedTree, List.cons_append, takes_cons, takes_append] at ht
    obtain ⟨u1, d1, u4, ⟨u3, ⟨u2, d2, d3⟩, d4⟩, d5⟩ := ht
    simp only [decideTree, d1, Res.bind_ok, if_true, decodeProp_ok hT.1.1.1 d2, decodeThr_ok hT.1.1.2 d3,
      hl (more := k) hT.1.2 (by omega) d4,
      hr (more := k) hT.2 (by omega) d5]

/-! ### The decisions beside the arena -/

/-- `r'` is `r` beside an arena with `n` entries in use that reads as `a`. -/
def Beside {α : Type} (c : ContextModel) (n : Nat) (a : Nat → Node) (r r' : Res α) : Prop :=
  match r with
  | .ok b w => ∃ t, r' = .ok b t ∧ Laid w c n a t
  | .ended w => ∃ e, r' = .ended (w.withTree e)
  | .fault g => r' = .fault g

theorem Laid.run {α : Type} {op : State → Res α} (hop : ∀ c s, op (s.withTree c) = (op s).mapState (State.withTree c))
    {u t : State} {c : ContextModel} {n : Nat} {a : Nat → Node} (h : Laid u c n a t) : Beside c n a (op u) (op t) := by
  obtain ⟨e, rfl, h1, h2, h3, h4, h5, h6⟩ := h
  rw [hop]
  cases op u with
  | ok b w => exact ⟨_, rfl, e, rfl, h1, h2, h3, h4, h5, h6⟩
  | ended w => exact ⟨e, rfl⟩
  | fault g => rfl

theorem decodeSplit_withTree (d : Nat) (c : ContextModel) (s : State) :
    decodeSplit d (s.withTree c) = (decodeSplit d s).mapState (State.withTree c) := by
  simp only [decodeSplit, decodeCtx_withTree]
  cases decodeCtx (.metaCtr 0) s with
  | ok b t =>
    simp only [Res.mapState_ok, Res.bind_ok]
    split_ifs <;> rfl
  | ended t => rfl
  | fault g => rfl

/-- R182: the recursive form is the decision process, and stores the tree from the next free entry on. -/
theorem decodeNodeFrom_spec {more : Nat} {u t : State} {c : ContextModel} {n : Nat} {a : Nat → Node}
    (h : Laid u c n a t) (hn : n + (2 ^ (more + 1) - 1) ≤ 8191) :
    match decideTree more u with
    | .ok T w => ∃ t', decodeNodeFrom more t = .ok n t' ∧ Laid w c (n + T.size) (layTree T n a) t'
    | .ended w => ∃ e, decodeNodeFrom more t = .ended (w.withTree e)
    | .fault _ => False := by
  induction more generalizing u t n a with
  | zero =>
    cases hd : decideTree 0 u with
    | fault f => exact decideTree_noFault 0 u f hd
    | ok T w =>
      obtain ⟨h1, h2, h3⟩ := decideTree_takes hd
      exact decodeNodeFrom_laid T h2 h3 h (by have := treeSize_le T h3; omega) h1
    | ended w =>
      obtain ⟨t1, e1, l1⟩ := allocNode_laid h (by simp at hn; omega)
      have hr := l1.run (decodeSplit_withTree Config.maxTreeDepth)
      simp only [decideTree, Res.bind_eq_ended, reduceCtorEq, and_false, exists_false, or_false] at hd
      rw [hd] at hr
      obtain ⟨e, hr⟩ := hr
      exact ⟨e, by simp [decodeNodeFrom, e1, hr]⟩
  | succ m ih =>
    have hpow : 2 ^ (m + 1 + 1) = 2 * 2 ^ (m + 1) := by rw [pow_succ, Nat.mul_comm]
    have hpos : 0 < 2 ^ (m + 1) := Nat.two_pow_pos _
    cases hd : decideTree (m + 1) u with
    | fault f => exact decideTree_noFault _ u f hd
    | ok T w =>
      obtain ⟨h1, h2, h3⟩ := decideTree_takes hd
      exact decodeNodeFrom_laid T h2 h3 h (by have := treeSize_le T h3; omega) h1
    | ended w =>
      obtain ⟨t1, e1, l1⟩ := allocNode_laid h (by omega)
      have hr := l1.run fun c s => decodeCtx_withTree c 0 s
      simp only [decideTree, Res.bind_eq_ended] at hd
      rcases hd with hd | ⟨b, u1, hd, hd'⟩ <;> rw [hd] at hr
      · obtain ⟨e, hr⟩ := hr
        exact ⟨e, by simp [decodeNodeFrom, e1, hr]⟩
      · obtain ⟨t2, hr, l2⟩ := hr
        cases b
        · simp at hd'
        · simp only [if_true, Res.bind_eq_ended, reduceCtorEq, and_false, exists_false, or_false] at hd'
          have hp := l2.run decodeProp_withTree
          rcases hd' with hd | ⟨p, u2, hd, hd'⟩ <;> rw [hd] at hp
          · obtain ⟨e, hp⟩ := hp
            exact ⟨e, by simp [decodeNodeFrom, decodeFields, e1, hr, hp]⟩
          obtain ⟨t3, hp, l3⟩ := hp
          have hx := l3.run decodeThr_withTree
          rcases hd' with hd | ⟨x, u3, hd, hd'⟩ <;> rw [hd] at hx
          · obtain ⟨e, hx⟩ := hx
            exact ⟨e, by simp [decodeNodeFrom, decodeFields, e1, hr, hp, hx]⟩
          obtain ⟨t4, hx, l4⟩ := hx
          obtain ⟨t5, e5, l5⟩ := makeSplit_laid (i := n) l4 (by omega) p x
          have hl := ih l5 (by omega)
          rcases hd' with hd | ⟨l, u4, hd, hd'⟩ <;> rw [hd] at hl
          · obtain ⟨e, hl⟩ := hl
            exact ⟨e, by simp [decodeNodeFrom, decodeFields, e1, hr, hp, hx, e5, hl]⟩
          obtain ⟨t6, hl, l6⟩ := hl
          have hs := treeSize_le l (decideTree_takes hd).2.2
          have hr' := ih l6 (by omega)
          rw [hd'] at hr'
          obtain ⟨e, hr'⟩ := hr'
          exact ⟨e, by simp [decodeNodeFrom, decodeFields, e1, hr, hp, hx, e5, hl, hr']⟩

/-! ### The iterative form (R188) -/

/-- What the loop of R188 does after a subtree: it is complete with an empty stack, else it links and starts the
right subtree of the split on top. -/
def afterSubtree (s : State) : Res Unit :=
  if s.cm.sp = 0 then .ok () s
  else
    (popSplit s).bind fun e s =>
      (linkRight e.1.toNat s.cm.nn.toNat s).bind fun _ s =>
        treeLoop (8192 - s.cm.nn.toNat) { s with cm := { s.cm with depth := e.2 + 1 } }

theorem Laid.registers {u t : State} {c : ContextModel} {n : Nat} {a : Nat → Node} (h : Laid u c n a t) :
    t.cm.depth = c.depth ∧ t.cm.sp = c.sp ∧ t.cm.ts = c.ts := by
  obtain ⟨e, rfl, h1, h2, h3, -⟩ := h
  exact ⟨h1, h2, h3⟩

theorem Laid.setDepth {u t : State} {c : ContextModel} {n : Nat} {a : Nat → Node} (h : Laid u c n a t) (d : BitVec 4) :
    Laid u { c with depth := d } n a { t with cm := { t.cm with depth := d } } := by
  obtain ⟨e, rfl, -, h2, h3, h4⟩ := h
  exact ⟨{ e with depth := d }, rfl, rfl, h2, h3, h4⟩

theorem Laid.setSp {u t : State} {c : ContextModel} {n : Nat} {a : Nat → Node} (h : Laid u c n a t) (k : BitVec 4) :
    Laid u { c with sp := k } n a { t with cm := { t.cm with sp := k } } := by
  obtain ⟨e, rfl, h1, -, h3, h4⟩ := h
  exact ⟨{ e with sp := k }, rfl, h1, rfl, h3, h4⟩

theorem Laid.setTs {u t : State} {c : ContextModel} {n : Nat} {a : Nat → Node} (h : Laid u c n a t)
    (ts : Vector (NodeIdx × BitVec 4) 12) :
    Laid u { c with ts := ts } n a { t with cm := { t.cm with ts := ts } } := by
  obtain ⟨e, rfl, h1, h2, -, h4⟩ := h
  exact ⟨{ e with ts := ts }, rfl, h1, h2, rfl, h4⟩

theorem pushSplit_laid {u t : State} {c : ContextModel} {n : Nat} {a : Nat → Node} (h : Laid u c n a t) (i : Nat)
    (hk : c.sp.toNat < 12) : ∃ t', pushSplit i t = .ok () t' ∧
      Laid u { c with ts := c.ts.setIfInBounds c.sp.toNat (BitVec.ofNat 13 i, c.depth), sp := c.sp + 1 } n a t' := by
  obtain ⟨h1, h2, h3⟩ := h.registers
  have hw := (h.setTs (t.cm.ts.setIfInBounds t.cm.sp.toNat (BitVec.ofNat 13 i, t.cm.depth))).setSp (t.cm.sp + 1)
  exact ⟨_, by simp only [pushSplit, h2, hk, if_true]; rfl, by simpa only [h1, h2, h3] using hw⟩

/-- Above depth 12 SPLIT is its decision alone (R183). -/
theorem decodeSplit_inner {d : Nat} (hd : d < 12) (s : State) : decodeSplit d s = decodeCtx (.metaCtr 0) s := by
  have hno : decide (Config.maxTreeDepth ≤ d) = false := by simp only [Config.maxTreeDepth, decide_eq_false_iff_not]; omega
  simp only [decodeSplit, hno, Bool.and_false, Bool.false_eq_true, if_false]
  cases decodeCtx (.metaCtr 0) s <;> rfl

/-- A pop of the split that was pushed last, the link to its right subtree, and the depth of that subtree. -/
theorem afterSubtree_pop {u t : State} {c : ContextModel} {n i k : Nat} {a : Nat → Node} {d : BitVec 4}
    (h : Laid u c n a t) (hk : c.sp.toNat = k + 1) (ht : c.ts[k]? = some (BitVec.ofNat 13 i, d)) (hi : i < 8191) :
    ∃ t', afterSubtree t = treeLoop (8192 - n) t' ∧
      Laid u { c with depth := d + 1, sp := c.sp - 1 } n (layRight i n a) t' := by
  obtain ⟨h1, h2, h3⟩ := h.registers
  have hsp : t.cm.sp ≠ 0 := by
    intro h0
    rw [← h2, h0] at hk
    simp at hk
  have hpop : popSplit t = .ok (BitVec.ofNat 13 i, d) { t with cm := { t.cm with sp := t.cm.sp - 1 } } := by
    have : t.cm.ts[t.cm.sp.toNat - 1]? = some (BitVec.ofNat 13 i, d) := by rw [h2, h3, hk, Nat.add_sub_cancel]; exact ht
    simp only [popSplit, this]
  have hw := h.setSp (t.cm.sp - 1)
  obtain ⟨t2, e2, l2⟩ := linkRight_laid hw hi n
  have hw2 := l2.setDepth (d + 1)
  rw [h2] at hw2
  refine ⟨{ t2 with cm := { t2.cm with depth := d + 1 } }, ?_, hw2⟩
  have hi' : (BitVec.ofNat 13 i).toNat = i := by simp; omega
  have e2' : linkRight (BitVec.ofNat 13 i).toNat t.cm.nn.toNat { t with cm := { t.cm with sp := t.cm.sp - 1 } } =
      .ok () t2 := by rw [hi', h.nn]; exact e2
  have hb : afterSubtree t = (linkRight (BitVec.ofNat 13 i).toNat t.cm.nn.toNat
      { t with cm := { t.cm with sp := t.cm.sp - 1 } }).bind fun _ s =>
        treeLoop (8192 - s.cm.nn.toNat) { s with cm := { s.cm with depth := d + 1 } } := by
    rw [afterSubtree, if_neg hsp, hpop]
    rfl
  rw [hb, e2', Res.bind_ok, l2.nn]

/-- The end of a turn with a leaf is the way on after a subtree. -/
theorem leafTurn_eq {s : State} {n : Nat} (hn : s.cm.nn.toNat = n + 1) :
    ((if s.cm.sp = 0 then .ok true s
      else (popSplit s).bind fun e s =>
        (linkRight e.1.toNat s.cm.nn.toNat s).bind fun _ s =>
          .ok false { s with cm := { s.cm with depth := e.2 + 1 } }) : Res Bool).bind
      (fun complete s => if complete then .ok () s else treeLoop (8191 - n) s) = afterSubtree s := by
  unfold afterSubtree
  split_ifs
  · rfl
  · unfold popSplit
    split
    · rename_i e he
      simp only [Res.bind_ok, linkRight, writeNode]
      split_ifs
      · have e1 : (8192 : Nat) - (n + 1) = 8191 - n := by omega
        simp only [Res.bind_ok, setNode_cm, hn, e1, Bool.false_eq_true, if_false]
      · rfl
    · rfl

/-- A turn with a split: its fields are stored, it is pushed, and the loop goes on one level deeper. -/
theorem splitTurn {t t1 t2 t3 t4 u : State} {c : ContextModel} {n : Nat} {a : Nat → Node} {p : BitVec 3} {x : Int}
    (e1 : allocNode t = .ok n t1) (hs : decodeSplit t1.cm.depth.toNat t1 = .ok true t2) (hp : decodeProp t2 = .ok p t3)
    (hx : decodeThr t3 = .ok x t4) (l4 : Laid u c (n + 1) a t4) (hn : n < 8191) (hk : c.sp.toNat < 12) :
    ∃ t', treeLoop (8192 - n) t = treeLoop (8192 - (n + 1)) t' ∧
      Laid u { c with depth := c.depth + 1, sp := c.sp + 1,
                      ts := c.ts.setIfInBounds c.sp.toNat (BitVec.ofNat 13 n, c.depth) } (n + 1) (laySplit n p x a) t' := by
  have hfuel : 8192 - n = (8192 - (n + 1)) + 1 := by omega
  obtain ⟨t5, e5, l5⟩ := makeSplit_laid (i := n) l4 hn p x
  obtain ⟨t6, e6, l6⟩ := pushSplit_laid l5 n hk
  have l7 := l6.setDepth (t6.cm.depth + 1)
  refine ⟨{ t6 with cm := { t6.cm with depth := t6.cm.depth + 1 } }, ?_, by simpa only [l6.registers.1] using l7⟩
  simp only [hfuel, treeLoop, treeTurn, decodeFields, e1, hs, hp, hx, e5, e6, Res.bind_ok, if_true, Bool.false_eq_true,
    if_false]

/-- R188: the loop from a node on is the decision process of its subtree, stores the same tree as the recursive form,
and goes on as after a subtree, with the stack as it was. -/
theorem treeLoop_spec {more : Nat} {u t : State} {c : ContextModel} {n : Nat} {a : Nat → Node} (h : Laid u c n a t)
    (hm : more ≤ 12) (hd : c.depth.toNat = 12 - more) (hk : c.sp.toNat ≤ 12 - more) (hn : n + (2 ^ (more + 1) - 1) ≤ 8191) :
    match decideTree more u with
    | .ok T w => ∃ t' c', treeLoop (8192 - n) t = afterSubtree t' ∧ Laid w c' (n + T.size) (layTree T n a) t' ∧
        c'.sp = c.sp ∧ ∀ j : Nat, j < c.sp.toNat → c'.ts[j]? = c.ts[j]?
    | .ended w => ∃ e, treeLoop (8192 - n) t = .ended (w.withTree e)
    | .fault _ => False := by
  induction more generalizing u t c n a with
  | zero =>
    have hfuel : 8192 - n = (8191 - n) + 1 := by omega
    obtain ⟨t1, e1, l1⟩ := allocNode_laid h (by omega)
    have hr := l1.run (decodeSplit_withTree Config.maxTreeDepth)
    have hdep : t1.cm.depth.toNat = Config.maxTreeDepth := by rw [l1.registers.1, hd]
    cases hq : decideTree 0 u with
    | fault f => exact decideTree_noFault 0 u f hq
    | ended w =>
      simp only [decideTree, Res.bind_eq_ended, reduceCtorEq, and_false, exists_false, or_false] at hq
      rw [hq] at hr
      obtain ⟨e, hr⟩ := hr
      exact ⟨e, by simp [hfuel, treeLoop, treeTurn, e1, hdep, hr]⟩
    | ok T w =>
      simp only [decideTree, Res.bind_eq_ok, Res.ok.injEq] at hq
      obtain ⟨b, v, hq, rfl, rfl⟩ := hq
      have hb : b = false := by
        simp only [decodeSplit, Res.bind_eq_ok] at hq
        obtain ⟨b', u', -, hq⟩ := hq
        cases b'
        · simp at hq; exact hq.1
        · simp [raiseErr_eq] at hq
      subst hb
      rw [hq] at hr
      obtain ⟨t2, hr, l2⟩ := hr
      obtain ⟨t3, e3, l3⟩ := makeLeaf_laid (i := n) l2 (by omega)
      refine ⟨t3, c, ?_, l3, rfl, fun _ _ => rfl⟩
      rw [hfuel, ← leafTurn_eq l3.nn]
      simp only [treeLoop, treeTurn, e1, hdep, hr, e3, Res.bind_ok, Bool.false_eq_true, if_false]
  | succ m ih =>
    have hpow : 2 ^ (m + 1 + 1) = 2 * 2 ^ (m + 1) := by rw [pow_succ, Nat.mul_comm]
    have hpos : 0 < 2 ^ (m + 1) := Nat.two_pow_pos _
    have hfuel : 8192 - n = (8191 - n) + 1 := by omega
    obtain ⟨t1, e1, l1⟩ := allocNode_laid h (by omega)
    have hr := l1.run fun c s => decodeCtx_withTree c 0 s
    have hsplit : decodeSplit t1.cm.depth.toNat t1 = decodeCtx (.metaCtr 0) t1 :=
      decodeSplit_inner (by rw [l1.registers.1, hd]; omega) t1
    cases hq : decideTree (m + 1) u with
    | fault f => exact decideTree_noFault _ u f hq
    | ended w =>
      simp only [decideTree, Res.bind_eq_ended] at hq
      rcases hq with hq | ⟨b, u1, hq, hq'⟩ <;> rw [hq] at hr
      · obtain ⟨e, hr⟩ := hr
        exact ⟨e, by simp [hfuel, treeLoop, treeTurn, hsplit, e1, hr]⟩
      obtain ⟨t2, hr, l2⟩ := hr
      cases b
      · simp at hq'
      simp only [if_true, Res.bind_eq_ended, reduceCtorEq, and_false, exists_false, or_false] at hq'
      have hp := l2.run decodeProp_withTree
      rcases hq' with hq | ⟨p, u2, hq, hq'⟩ <;> rw [hq] at hp
      · obtain ⟨e, hp⟩ := hp
        exact ⟨e, by simp [hfuel, treeLoop, treeTurn, hsplit, decodeFields, e1, hr, hp]⟩
      obtain ⟨t3, hp, l3⟩ := hp
      have hx := l3.run decodeThr_withTree
      rcases hq' with hq | ⟨x, u3, hq, hq'⟩ <;> rw [hq] at hx
      · obtain ⟨e, hx⟩ := hx
        exact ⟨e, by simp [hfuel, treeLoop, treeTurn, hsplit, decodeFields, e1, hr, hp, hx]⟩
      obtain ⟨t4, hx, l4⟩ := hx
      obtain ⟨t7, hloop, l7⟩ := splitTurn e1 (hsplit.trans hr) hp hx l4 (by omega) (by omega)
      have hd7 : (c.depth + 1).toNat = 12 - m := by rw [BitVec.toNat_add, hd]; simp; omega
      have hk7 : (c.sp + 1).toNat = c.sp.toNat + 1 := by rw [BitVec.toNat_add]; simp; omega
      have hl := ih l7 (by omega) hd7 (by rw [hk7]; omega) (by omega)
      rcases hq' with hq | ⟨l, u4, hq, hq'⟩ <;> rw [hq] at hl
      · obtain ⟨e, hl⟩ := hl
        exact ⟨e, by rw [hloop, hl]⟩
      obtain ⟨t8, c8, hl, l8, hsp8, hts8⟩ := hl
      simp only [hk7] at hsp8 hts8
      have hs := treeSize_le l (decideTree_takes hq).2.2
      obtain ⟨t9, h9, l9⟩ := afterSubtree_pop (i := n) (k := c.sp.toNat) (d := c.depth) l8 (by rw [hsp8, hk7])
        (by rw [hts8 _ (by omega)]; simp [Vector.getElem?_setIfInBounds]; omega) (by omega)
      have hr' := ih l9 (by omega) hd7 (by simp [hsp8]; omega) (by omega)
      rw [hq'] at hr'
      obtain ⟨e, hr'⟩ := hr'
      exact ⟨e, by rw [hloop, hl, h9, hr']⟩
    | ok T w =>
      simp only [decideTree, Res.bind_eq_ok] at hq
      obtain ⟨b, u1, hq, hq'⟩ := hq
      rw [hq] at hr
      obtain ⟨t2, hr, l2⟩ := hr
      cases b
      · simp only [Bool.false_eq_true, if_false, Res.ok.injEq] at hq'
        obtain ⟨rfl, rfl⟩ := hq'
        obtain ⟨t3, e3, l3⟩ := makeLeaf_laid (i := n) l2 (by omega)
        refine ⟨t3, c, ?_, l3, rfl, fun _ _ => rfl⟩
        rw [hfuel, ← leafTurn_eq l3.nn]
        simp only [treeLoop, treeTurn, e1, hsplit, hr, e3, Res.bind_ok, Bool.false_eq_true, if_false]
      simp only [if_true, Res.bind_eq_ok, Res.ok.injEq] at hq'
      obtain ⟨p, u2, hq2, x, u3, hq3, l, u4, hq4, r, u5, hq5, rfl, rfl⟩ := hq'
      have hp := l2.run decodeProp_withTree
      rw [hq2] at hp
      obtain ⟨t3, hp, l3⟩ := hp
      have hx := l3.run decodeThr_withTree
      rw [hq3] at hx
      obtain ⟨t4, hx, l4⟩ := hx
      obtain ⟨t7, hloop, l7⟩ := splitTurn e1 (hsplit.trans hr) hp hx l4 (by omega) (by omega)
      have hd7 : (c.depth + 1).toNat = 12 - m := by rw [BitVec.toNat_add, hd]; simp; omega
      have hk7 : (c.sp + 1).toNat = c.sp.toNat + 1 := by rw [BitVec.toNat_add]; simp; omega
      have hl := ih l7 (by omega) hd7 (by rw [hk7]; omega) (by omega)
      rw [hq4] at hl
      obtain ⟨t8, c8, hl, l8, hsp8, hts8⟩ := hl
      simp only [hk7] at hsp8 hts8
      have hs := treeSize_le l (decideTree_takes hq4).2.2
      obtain ⟨t9, h9, l9⟩ := afterSubtree_pop (i := n) (k := c.sp.toNat) (d := c.depth) l8 (by rw [hsp8, hk7])
        (by rw [hts8 _ (by omega)]; simp [Vector.getElem?_setIfInBounds]; omega) (by omega)
      have hr' := ih l9 (by omega) hd7 (by simp [hsp8]; omega) (by omega)
      rw [hq5] at hr'
      obtain ⟨t10, c10, hr', l10, hsp10, hts10⟩ := hr'
      have hsp : c8.sp - 1 = c.sp := by rw [hsp8]; simp
      simp only [hsp] at hsp10 hts10
      refine ⟨t10, c10, by rw [hloop, hl, h9, hr'], ?_, hsp10, fun j hj => ?_⟩
      · have e : n + (1 + l.size + r.size) = n + 1 + l.size + r.size := by omega
        simpa only [TreeShape.size, layTree, e] using l10
      · rw [hts10 j hj, hts8 j (by omega)]
        simp [Vector.getElem?_setIfInBounds]
        omega

end Sys2Proof.Machine
end

