-- ==== Sys2Proof/Laws/PlaneLoop.lean ====
section
/-! SUPPORT. What a turn of a plane does with the decisions that code it (R231): its tree, and
one pixel. -/

namespace Sys2Proof.Machine

/-! ### The tree -/

/-- R188: the iterative form stores the tree whose decisions are taken from entry 0 on. -/
theorem treeDecodeIterative_coded {T : TreeShape} {m w : State} (hw : m.memoryWf = true) (hT : T.legal = true)
    (ht : takes m.treeStart (codedTree T) = some w) :
    ∃ u, treeDecodeIterative m = .ok () u ∧ u = w.withTree u.cm ∧ nodeAt u = layTree T 0 (nodeAt m) ∧ u.memoryWf = true := by
  simp only [TreeShape.legal, Bool.and_eq_true, decide_eq_true_eq, Config.maxTreeDepth] at hT
  have hc : Store.canonical m.cm.nodes = true := ((memoryWf_iff m).1 hw).2.2.2.1
  have hl : Laid m.treeStart { m.treeStart.cm with sp := 0, depth := 0 } 0 (nodeAt m)
      { resetMeta m with cm := { (resetMeta m).cm with nn := 0, sp := 0, depth := 0 } } :=
    ⟨{ m.treeStart.cm with sp := 0, depth := 0 }, rfl, rfl, rfl, rfl, rfl, hc, rfl⟩
  have hs := treeLoop_spec (more := 12) hl (le_refl _) rfl (Nat.zero_le _) (by norm_num)
  rw [decideTree_ok T hT.1 hT.2 ht] at hs
  obtain ⟨t', c', h1, h2, h3, -⟩ := hs
  have hsp : t'.cm.sp = 0 := h2.registers.2.1.trans h3
  have hrun : treeDecodeIterative m = .ok () t' := by
    have : afterSubtree t' = .ok () t' := by rw [afterSubtree, if_pos hsp]
    rw [← this, ← h1]
    rfl
  have hwi := treeDecodeIterative_within m
  rw [hrun] at hwi
  refine ⟨t', hrun, ?_, h2.arena, hwi.1.2.1 hw⟩
  obtain ⟨e, rfl, -⟩ := h2
  rfl

/-- The leaf a walk selects is a leaf of the tree. -/
theorem selectFrom_mem (P : PropVec) (T : TreeShape) (i : Nat) : selectFrom P T i ∈ leavesFrom T i := by
  induction T generalizing i with
  | leaf => simp [selectFrom, leavesFrom]
  | split p v l r hl hr =>
    simp only [selectFrom, leavesFrom, List.mem_append]
    split_ifs
    · exact .inl (hl _)
    · exact .inr (hr _)

/-- The counters of the leaves of a tree. -/
def leafCounters (T : TreeShape) (k : CtrRef) : Prop := ∃ n j, k = .leafCtr n j ∧ n.toNat ∈ leavesFrom T 0

theorem legal_size {T : TreeShape} (hT : T.legal = true) : T.size ≤ 8191 := by
  simp only [TreeShape.legal, Bool.and_eq_true, decide_eq_true_eq, Config.maxTreeDepth] at hT
  have := treeSize_le T hT.2
  omega

/-! ### One pixel -/

/-- The sequencer has moved within a plane. -/
def MovedFrom (s0 m : State) : Prop :=
  m.sq = { s0.sq with pi := m.sq.pi, x := m.sq.x, y := m.sq.y, seq := m.sq.seq }

/-- The current plane as far as it has been decoded: `m` takes the decisions `d` takes with the counters of the tree's
leaves, holds the tree, and holds `v` at the positions `done`; at every other place its planes are those of `s0`, the
state before the plane. -/
def Decoded (s0 : State) (T : TreeShape) (v : Nat → Nat → Nat) (done : List (Nat × Nat)) (d m : State) : Prop :=
  SameDecisions (leafCounters T) d m ∧ treeAt m T 0 = true ∧ d.hdr = s0.hdr ∧ MovedFrom s0 m ∧
    (∀ c ∈ done, c.1 < s0.W ∧ c.2 < s0.H ∧ sampleAt m s0.sq.p.toNat c.2 c.1 = .ok (v c.1 c.2)) ∧
    ∀ p y x, y < 2 ^ 32 → x < 2 ^ 32 → (p = s0.sq.p.toNat → (x, y) ∉ done) → sampleAt m p y x = sampleAt s0 p y x

theorem Decoded.hdr {s0 : State} {T : TreeShape} {v : Nat → Nat → Nat} {done : List (Nat × Nat)} {d m : State}
    (h : Decoded s0 T v done d m) : m.hdr = s0.hdr := by
  rw [h.1.1]; exact h.2.2.1

theorem codedInt_leaf (n : NodeIdx) (r : Int) : ∀ e ∈ codedInt (.leaf n) r, ∃ j, e.1 = .leafCtr n j := by
  intro e he
  simp only [codedInt, List.mem_map] at he
  obtain ⟨a, -, rfl⟩ := he
  exact ⟨a.1, rfl⟩

/-- The prediction is a sample when the samples it is made of are (R239). -/
theorem predictFrom_bounds {q : Pass} {W H D x y : Nat} {v : Nat → Nat → Nat} (h1 : 1 ≤ D)
    (hv : ∀ c ∈ neighbourReads q W H x y, v c.1 c.2 < 2 ^ D) :
    0 ≤ predictFrom q.kind (neighboursBy q W (2 ^ (D - 1)) x y v) (aheadBy q W H x y v) ∧
      predictFrom q.kind (neighboursBy q W (2 ^ (D - 1)) x y v) (aheadBy q W H x y v) < 2 ^ D := by
  have hp : 2 ^ (D - 1) < 2 ^ D := Nat.pow_lt_pow_right (by norm_num) (by omega)
  obtain ⟨a1, a2, -, -, -, -, a7⟩ := neighboursBy_all (m := 2 ^ (D - 1)) (Q := fun n => n < 2 ^ D) hp hv
  zify at a1 a2
  unfold predictFrom
  cases hA : aheadBy q W H x y v with
  | none =>
    obtain ⟨b1, b2⟩ := median3_bounds (lo := 0) (hi := 2 ^ D - 1)
      (c := ((neighboursBy q W (2 ^ (D - 1)) x y v).vW : Int) + (neighboursBy q W (2 ^ (D - 1)) x y v).vN -
        (neighboursBy q W (2 ^ (D - 1)) x y v).vNW) (Int.natCast_nonneg _) (Int.natCast_nonneg _)
      (by omega : ((neighboursBy q W (2 ^ (D - 1)) x y v).vW : Int) ≤ _)
      (by omega : ((neighboursBy q W (2 ^ (D - 1)) x y v).vN : Int) ≤ _)
    exact ⟨b1, by simp only; omega⟩
  | some a =>
    have a7 := a7 a hA
    zify at a7
    simp only [Nat.shiftRight_eq_div_pow, pow_one, Neighbours.behind]
    cases q.kind <;> simp only <;> push_cast <;> omega

/-- The current pixel is decoded to its coded value. -/
theorem decodePixel_coded {s0 d d' m : State} {T : TreeShape} {v : Nat → Nat → Nat} {done : List (Nat × Nat)} {q : Pass}
    {x y : Nat} (h : Decoded s0 T v done d m) (hT : T.legal = true) (hp : s0.sq.p.toNat < 4) (hD : 1 ≤ s0.D)
    (hD' : s0.D ≤ 16) (hq : passOf s0.interlaced m.sq.pi.toNat = some q) (hx : x < s0.W) (hy : y < s0.H)
    (ex : m.sq.x.toNat = x) (ey : m.sq.y.toNat = y) (hv : v x y < 2 ^ s0.D)
    (hn : ∀ c ∈ neighbourReads q s0.W s0.H x y, c ∈ done ∧ v c.1 c.2 < 2 ^ s0.D)
    (ht : takes d (codedPixel q s0.W s0.H s0.D T v x y) = some d') :
    ∃ m', decodePixel m = .ok () m' ∧ Decoded s0 T v ((x, y) :: done) d' m' ∧ m'.sq = m.sq := by
  have hhdr := h.hdr
  obtain ⟨h1, h2, h3, h4, h5, h6⟩ := h
  have hW : m.W = s0.W := congrArg (fun h => h.width.toNat) hhdr
  have hH : m.H = s0.H := congrArg (fun h => h.height.toNat) hhdr
  have hDe : m.D = s0.D := congrArg (fun h => h.depth.toNat) hhdr
  have hI : m.interlaced = s0.interlaced := congrArg (fun h => h.flags.getLsbD 0) hhdr
  have hmp : m.sq.p = s0.sq.p := by rw [h4]
  have hreads : PixelReads m q v := by
    refine ⟨by rw [hI]; exact hq, by omega, by omega, fun c hc => ?_⟩
    rw [hW, hH, ex, ey] at hc
    rw [hmp]
    exact (h5 c (hn c hc).1).2.2
  have hleg := hT
  simp only [TreeShape.legal, Bool.and_eq_true, decide_eq_true_eq, Config.maxTreeDepth] at hleg
  obtain ⟨b1, b2⟩ := predictFrom_bounds (q := q) (W := s0.W) (H := s0.H) (x := x) (y := y) (v := v) hD
    fun c hc => (hn c hc).2
  generalize hP : predictFrom q.kind (neighboursBy q s0.W (2 ^ (s0.D - 1)) x y v) (aheadBy q s0.W s0.H x y v) = pred at b1 b2
  generalize hS : selectFrom (propertiesFrom q.kind (neighboursBy q s0.W (2 ^ (s0.D - 1)) x y v)
    (aheadBy q s0.W s0.H x y v)) T 0 = leaf at *
  have hmem : leaf ∈ leavesFrom T 0 := hS ▸ selectFrom_mem _ T 0
  have hlt : leaf < 8191 := by have := leavesFrom_bounds T hmem; have := legal_size hT; omega
  have hcoded : codedPixel q s0.W s0.H s0.D T v x y = codedInt (.leaf (BitVec.ofNat 13 leaf)) ((v x y : Int) - pred) := by
    simp only [codedPixel, hP, hS]
  rw [hcoded] at ht
  have hctx : pixelContext m = .ok (pred, leaf) := by
    have hl : treeLookup m (propertiesFrom q.kind (neighboursBy q s0.W (2 ^ (s0.D - 1)) x y v)
        (aheadBy q s0.W s0.H x y v)) = .ok leaf := by
      rw [← hS]; exact lookupFrom_tree T hleg.1 h2 (by omega)
    have hpr := predictOf_ok hreads
    have hpp := propertiesOf_ok hreads
    rw [hW, hH, hDe, ex, ey] at hpr hpp
    rw [hP] at hpr
    simp only [pixelContext, hpr, hpp, hl, bind, Except.bind]
  have hto : (BitVec.ofNat 13 leaf).toNat = leaf := by simp; omega
  obtain ⟨w, g1, g2, g3, g4, g5⟩ := takes_same h1 (fun e he => by
    obtain ⟨j, hj⟩ := codedInt_leaf _ _ e he
    exact ⟨_, j, hj, by rw [hto]; exact hmem⟩) ht
  have hv' : ((v x y : Int)) < 2 ^ s0.D := by exact_mod_cast hv
  have hnz := nzDecode_ok (limit := m.D) (err := ⟨.corruptPixelValue, 0⟩) (by omega)
    (show ((v x y : Int) - pred).natAbs < 2 ^ m.D by
      rw [hDe]
      have : (((v x y : Int) - pred).natAbs : Int) < ((2 ^ s0.D : Nat) : Int) := by
        rw [Int.natCast_natAbs, abs_lt]
        push_cast
        constructor <;> omega
      exact_mod_cast this) g1
  have hclamp : clamp (pred + ((v x y : Int) - pred)) 0 w.maxSample = v x y := by
    have hwD : w.D = s0.D := by
      have : w.hdr = d'.hdr := by rw [g2.1]; rfl
      have hd' := (takes_decoding ht).2.1
      rw [State.D, this, hd', h3]; rfl
    have hpos : 1 ≤ 2 ^ s0.D := Nat.one_le_two_pow
    rw [clamp_eq _ _ _ (by positivity), State.maxSample, hwD]
    push_cast [hpos]
    omega
  have hwp : w.sq.p.toNat = s0.sq.p.toNat := by rw [g4, hmp]
  have hval : (BitVec.ofInt 16 (v x y : Int)).toNat = v x y := by
    have : 2 ^ s0.D ≤ 2 ^ 16 := Nat.pow_le_pow_right (by norm_num) hD'
    rw [BitVec.toNat_ofInt]
    have h16 : (v x y : Int) < 65536 := by exact_mod_cast lt_of_lt_of_le hv this
    rw [Int.emod_eq_of_lt (Int.natCast_nonneg _) (by norm_num; omega)]
    rfl
  obtain ⟨t, s1, s2, s3, s4⟩ := writeSample_spec (p := s0.sq.p.toNat) (y := y) (x := x) (BitVec.ofInt 16 (v x y : Int)) w hp
  rw [hval] at s3
  have hrun : decodePixel m = .ok () t := by
    simp only [decodePixel, hctx, Res.ofExcept_ok, Res.bind_ok, hnz, hclamp, g4, hmp, ex, ey, s1]
  have hx32 : x < 2 ^ 32 := by have := s0.hdr.width.isLt; simp only [State.W] at hx; omega
  have hy32 : y < 2 ^ 32 := by have := s0.hdr.height.isLt; simp only [State.H] at hy; omega
  have hsq : t.sq = m.sq := by rw [s2]; exact g4
  have hwf : t.memoryWf = true := writeSample_memoryWf g2.2.2.1 s1
  have hctr : ∀ k, ctrAt k t = ctrAt k w := fun k => by rw [s2]; cases k <;> rfl
  refine ⟨t, hrun, ⟨⟨?_, g2.2.1, hwf, fun k hk => (hctr k).trans (g2.2.2.2 k hk)⟩, ?_, ?_, ?_, ?_, ?_⟩, hsq⟩
  · rw [s2]
    conv_lhs => rw [g2.1]
    rfl
  · have : treeAt t T 0 = treeAt w T 0 := treeAt_congr T fun j _ _ => by rw [s2]; rfl
    rw [this, g3.treeAt, h2]
  · rw [(takes_decoding ht).2.1, h3]
  · unfold MovedFrom
    rw [hsq]
    exact h4
  · intro c hc
    by_cases hcc : c = (x, y)
    · subst hcc; exact ⟨hx, hy, s3⟩
    · have hc := h5 c ((List.mem_cons.1 hc).resolve_left hcc)
      refine ⟨hc.1, hc.2.1, ?_⟩
      have hc32 : c.1 < 2 ^ 32 := by have := s0.hdr.width.isLt; have := hc.1; simp only [State.W] at this; omega
      have hc32' : c.2 < 2 ^ 32 := by have := s0.hdr.height.isLt; have := hc.2.1; simp only [State.H] at this; omega
      rw [s4, sampleAt_congr g5, hc.2.2]
      intro he
      obtain ⟨-, e1, e2⟩ := planeKey_inj hc32' hc32 hy32 hx32 he
      exact hcc (Prod.ext e2 e1)
  · intro p' y' x' hy' hx' hnot
    have hnot' : p' = s0.sq.p.toNat → (x', y') ∉ done := fun e hd => hnot e (by simp [hd])
    rw [s4, sampleAt_congr g5, h6 p' y' x' hy' hx' hnot']
    intro he
    obtain ⟨e0, e1, e2⟩ := planeKey_inj hy' hx' hy32 hx32 he
    exact hnot e0 (by simp [e1, e2])

end Sys2Proof.Machine
end

