-- ==== Sys2Proof/Laws/PlaneTurns.lean ====
section
/-! SUPPORT. The turns of a plane, one after the other (R231, R245): the pixels of a pass, the passes, the tree, and
the planes of an image. -/

namespace Sys2Proof.Machine

/-! ### Turns -/

/-- `n` turns of the sequencer lead from a state to a state, none of them from ASSEMBLE. -/
inductive Turns : Nat → State → State → Prop
  | refl (s : State) : Turns 0 s s
  | step {n : Nat} {s u t : State} (ha : s.sq.seq ≠ .assemble) (h : sequencerStep s = .ok () u) (ht : Turns n u t) :
      Turns (n + 1) s t

theorem Turns.one {s t : State} (ha : s.sq.seq ≠ .assemble) (h : sequencerStep s = .ok () t) : Turns 1 s t :=
  .step ha h (.refl t)

theorem Turns.trans {a b : Nat} {s u t : State} (h : Turns a s u) (h' : Turns b u t) : Turns (a + b) s t := by
  induction h with
  | refl s => rwa [Nat.zero_add]
  | step ha h _ ih => rw [Nat.succ_add_eq_add_succ]; exact Turns.step ha h (ih h')

/-- `plane_loop` runs turns that reach ASSEMBLE. -/
theorem planeTurns_of_turns {n fuel : Nat} {s t : State} (h : Turns n s t) (ht : t.sq.seq = .assemble) (hn : n ≤ fuel) :
    planeTurns fuel s = .ok () t := by
  induction h generalizing fuel with
  | refl s => cases fuel <;> rw [planeTurns, if_pos ht]
  | step ha h _ ih =>
    obtain ⟨k, rfl⟩ : ∃ k, fuel = k + 1 := ⟨fuel - 1, by omega⟩
    rw [planeTurns, if_neg ha, h, Res.bind_ok]
    exact ih ht (by omega)

/-! ### The current plane -/

/-- What is known of the plane to be decoded: its tree, its sample values, and the order of its positions (R235). -/
structure PlaneCoded (s0 : State) (T : TreeShape) (v : Nat → Nat → Nat) : Prop where
  legal : T.legal = true
  plane : s0.sq.p.toNat < 4
  depth : 1 ≤ s0.D ∧ s0.D ≤ 16
  values : ∀ x y, x < s0.W → y < s0.H → v x y < 2 ^ s0.D
  earlier : ∀ i q x y, passOf s0.interlaced i = some q → q.has s0.W s0.H x y = true →
    ∀ c ∈ neighbourReads q s0.W s0.H x y, ∃ j r, passOf s0.interlaced j = some r ∧ r.has s0.W s0.H c.1 c.2 = true ∧
      (j < i ∨ j = i ∧ rasterBefore c (x, y) = true)

/-- The positions of the passes before `i`. -/
def passesBefore (interlaced : Bool) (W H i : Nat) : List (Nat × Nat) :=
  ((passList interlaced).take i).flatMap fun q => q.positions W H

theorem mem_passesBefore {interlaced : Bool} {W H i : Nat} {c : Nat × Nat} :
    c ∈ passesBefore interlaced W H i ↔
      ∃ j r, j < i ∧ passOf interlaced j = some r ∧ c ∈ r.positions W H := by
  simp only [passesBefore, List.mem_flatMap, List.mem_take_iff_getElem, passOf]
  constructor
  · rintro ⟨q, ⟨j, hj, rfl⟩, hc⟩
    exact ⟨j, _, by omega, List.getElem?_eq_getElem (by omega), hc⟩
  · rintro ⟨j, r, hj, hr, hc⟩
    obtain ⟨h1, h2⟩ := List.getElem?_eq_some_iff.1 hr
    exact ⟨r, ⟨j, by omega, h2⟩, hc⟩

theorem passesBefore_succ {interlaced : Bool} {W H i : Nat} {q : Pass} (h : passOf interlaced i = some q) :
    passesBefore interlaced W H (i + 1) = passesBefore interlaced W H i ++ q.positions W H := by
  rw [passOf] at h
  simp [passesBefore, List.take_add_one, h]

theorem Decoded.congr {s0 d m : State} {T : TreeShape} {v : Nat → Nat → Nat} {L L' : List (Nat × Nat)}
    (h : Decoded s0 T v L d m) (hL : ∀ c, c ∈ L ↔ c ∈ L') : Decoded s0 T v L' d m := by
  obtain ⟨h1, h2, h3, h4, h5, h6⟩ := h
  exact ⟨h1, h2, h3, h4, fun c hc => h5 c ((hL c).2 hc), fun p y x hy hx hn => h6 p y x hy hx fun e hc => hn e ((hL _).1 hc)⟩

theorem SameDecisions.withSq {K : CtrRef → Prop} {d m : State} (h : SameDecisions K d m) (q : Sequencer) :
    SameDecisions K d { m with sq := q } := by
  obtain ⟨h1, h2, h3, h4⟩ := h
  refine ⟨?_, h2, h3, fun k hk => ?_⟩
  · conv_lhs => rw [h1]
    rfl
  · rw [← h4 k hk]
    cases k <;> rfl

/-- Moving within the plane. -/
theorem Decoded.move {s0 d m : State} {T : TreeShape} {v : Nat → Nat → Nat} {L : List (Nat × Nat)}
    (h : Decoded s0 T v L d m) (pi : BitVec 4) (x y : Word) (seq : Seq) :
    Decoded s0 T v L d { m with sq := { m.sq with pi := pi, x := x, y := y, seq := seq } } := by
  obtain ⟨h1, h2, h3, h4, h5, h6⟩ := h
  refine ⟨h1.withSq _, ?_, h3, ?_, h5, h6⟩
  · rw [← h2]
    exact treeAt_congr T fun _ _ _ => rfl
  · unfold MovedFrom at h4 ⊢
    rw [h4]

theorem Decoded.dims {s0 d m : State} {T : TreeShape} {v : Nat → Nat → Nat} {L : List (Nat × Nat)}
    (h : Decoded s0 T v L d m) : m.W = s0.W ∧ m.H = s0.H ∧ m.interlaced = s0.interlaced :=
  ⟨congrArg (fun h => h.width.toNat) h.hdr, congrArg (fun h => h.height.toNat) h.hdr,
    congrArg (fun h => h.flags.getLsbD 0) h.hdr⟩

/-! ### The pixels of a pass -/

/-- Everything a pixel reads has been decoded when it is its turn (R235). -/
theorem reads_done {s0 : State} {T : TreeShape} {v : Nat → Nat → Nat} (hc : PlaneCoded s0 T v) {i : Nat} {q : Pass}
    (hq : passOf s0.interlaced i = some q) {L1 L2 : List (Nat × Nat)} {a : Nat × Nat}
    (hL : q.positions s0.W s0.H = L1 ++ a :: L2) :
    ∀ c ∈ neighbourReads q s0.W s0.H a.1 a.2,
      c ∈ passesBefore s0.interlaced s0.W s0.H i ++ L1 ∧ v c.1 c.2 < 2 ^ s0.D := by
  obtain ⟨-, -, b1, -, b2, -⟩ := passOf_bounds hq
  have hs := Pass.positions_sorted (W := s0.W) (H := s0.H) b1 b2
  have ha : q.has s0.W s0.H a.1 a.2 = true := by rw [← Pass.mem_positions b1 b2, hL]; simp
  intro c hcm
  obtain ⟨j, r, hr, hrc, hlt⟩ := hc.earlier i q a.1 a.2 hq ha c hcm
  obtain ⟨-, -, c1, -, c2, -⟩ := passOf_bounds hr
  have hin := Pass.has_iff.1 hrc
  refine ⟨?_, hc.values _ _ hin.1.1 hin.2.1⟩
  have hmem : c ∈ r.positions s0.W s0.H := (Pass.mem_positions c1 c2).2 hrc
  rw [List.mem_append]
  rcases hlt with hlt | ⟨rfl, hlt⟩
  · exact .inl (mem_passesBefore.2 ⟨j, r, hlt, hr, hmem⟩)
  · right
    obtain rfl : q = r := Option.some.inj (hq.symm.trans hr)
    rw [hL, List.pairwise_append, List.pairwise_cons] at hs
    rw [hL, List.mem_append, List.mem_cons] at hmem
    have hlt' : rasterBefore c a = true := hlt
    rcases hmem with h | rfl | h
    · exact h
    · rw [rasterBefore_irrefl] at hlt'; exact Bool.noConfusion hlt'
    · have := hs.2.1.1 c h
      rw [rasterBefore_asymm hlt'] at this; exact Bool.noConfusion this

/-- The turns of the pixels of a pass from one of its positions to its end. -/
theorem passTurns {s0 : State} {T : TreeShape} {v : Nat → Nat → Nat} (hc : PlaneCoded s0 T v) {q : Pass}
    {L : List (Nat × Nat)} {a : Nat × Nat} {L1 : List (Nat × Nat)} {d d' m : State}
    (hq : passOf s0.interlaced m.sq.pi.toNat = some q) (hL : q.positions s0.W s0.H = L1 ++ a :: L)
    (h : Decoded s0 T v (passesBefore s0.interlaced s0.W s0.H m.sq.pi.toNat ++ L1) d m)
    (hx : m.sq.x.toNat = a.1) (hy : m.sq.y.toNat = a.2) (hseq : m.sq.seq = .reconstructingPass)
    (ht : takes d ((a :: L).flatMap fun c => codedPixel q s0.W s0.H s0.D T v c.1 c.2) = some d') :
    ∃ m', Turns (a :: L).length m m' ∧
      Decoded s0 T v (passesBefore s0.interlaced s0.W s0.H (m.sq.pi.toNat + 1)) d' m' ∧
      m'.sq.pi = m.sq.pi ∧ m'.sq.seq = .passComplete := by
  obtain ⟨-, -, b1, -, b2, -⟩ := passOf_bounds hq
  induction L generalizing a L1 d m with
  | nil =>
    have ha : q.has s0.W s0.H a.1 a.2 = true := by rw [← Pass.mem_positions b1 b2, hL]; simp
    obtain ⟨⟨hx', -⟩, hy', -⟩ := Pass.has_iff.1 ha
    simp only [List.flatMap_cons, List.flatMap_nil, List.append_nil] at ht
    obtain ⟨m1, g1, g2, g3⟩ := decodePixel_coded h hc.legal hc.plane hc.depth.1 hc.depth.2 hq hx' hy' hx hy
      (hc.values _ _ hx' hy') (reads_done hc hq hL) ht
    obtain ⟨e1, e2, e3⟩ := g2.dims
    have hlast := Pass.advance_last b1 b2 hL
    have hcur : currentPass m1 = .ok q := currentPass_eq_ok.2 (by rw [g3, e3]; exact hq)
    have hstep : sequencerStep m = .ok () (gotoSeq .passComplete (moveTo (q.advance s0.W a.1 a.2) m1)) := by
      simp only [sequencerStep, hseq, turnPixel, g1, Res.bind_ok, hcur, Res.ofExcept_ok, g3, hx, hy, e1, e2,
        if_neg (Nat.not_lt.2 hlast)]
    refine ⟨_, Turns.one (by rw [hseq]; decide) hstep, ?_, ?_, rfl⟩
    · rw [passesBefore_succ hq, hL]
      exact (g2.congr (by simp; tauto)).move m1.sq.pi _ _ _
    · simp only [gotoSeq, moveTo, g3]
  | cons b L ih =>
    have ha : q.has s0.W s0.H a.1 a.2 = true := by rw [← Pass.mem_positions b1 b2, hL]; simp
    obtain ⟨⟨hx', -⟩, hy', -⟩ := Pass.has_iff.1 ha
    have hb : q.has s0.W s0.H b.1 b.2 = true := by rw [← Pass.mem_positions b1 b2, hL]; simp
    obtain ⟨⟨hbx, -⟩, hby, -⟩ := Pass.has_iff.1 hb
    rw [List.flatMap_cons, takes_append] at ht
    obtain ⟨d1, ht1, ht2⟩ := ht
    obtain ⟨m1, g1, g2, g3⟩ := decodePixel_coded h hc.legal hc.plane hc.depth.1 hc.depth.2 hq hx' hy' hx hy
      (hc.values _ _ hx' hy') (reads_done hc hq hL) ht1
    obtain ⟨e1, e2, e3⟩ := g2.dims
    have hnext := Pass.advance_succ b1 b2 hL
    have hcur : currentPass m1 = .ok q := currentPass_eq_ok.2 (by rw [g3, e3]; exact hq)
    have hstep : sequencerStep m = .ok () (gotoSeq .reconstructingPass (moveTo b m1)) := by
      simp only [sequencerStep, hseq, turnPixel, g1, Res.bind_ok, hcur, Res.ofExcept_ok, g3, hx, hy, e1, e2, hnext, if_pos hby]
    have hpi : (gotoSeq .reconstructingPass (moveTo b m1)).sq.pi = m.sq.pi := by simp only [gotoSeq, moveTo, g3]
    have hx32 : b.1 < 2 ^ 32 := by have := s0.hdr.width.isLt; simp only [State.W] at hbx; omega
    have hy32 : b.2 < 2 ^ 32 := by have := s0.hdr.height.isLt; simp only [State.H] at hby; omega
    obtain ⟨m', f1, f2, f3, f4⟩ := ih (a := b) (L1 := L1 ++ [a]) (d := d1) (m := gotoSeq .reconstructingPass (moveTo b m1))
      (by rw [hpi]; exact hq) (by rw [hL]; simp)
      (by
        rw [hpi]
        exact (g2.congr (by simp; tauto)).move m1.sq.pi _ _ _)
      (by simp only [gotoSeq, moveTo, BitVec.toNat_ofNat]; omega)
      (by simp only [gotoSeq, moveTo, BitVec.toNat_ofNat]; omega) rfl ht2
    rw [hpi] at f2
    refine ⟨m', ?_, f2, f3.trans hpi, f4⟩
    exact Turns.step (by rw [hseq]; decide) hstep f1

/-- Entering a pass and decoding all its pixels: no turn if it has no position. -/
theorem enteredPass {s0 : State} {T : TreeShape} {v : Nat → Nat → Nat} (hc : PlaneCoded s0 T v) {q : Pass} {d d' m : State}
    (hq : passOf s0.interlaced m.sq.pi.toNat = some q)
    (h : Decoded s0 T v (passesBefore s0.interlaced s0.W s0.H m.sq.pi.toNat) d m)
    (ht : takes d ((q.positions s0.W s0.H).flatMap fun c => codedPixel q s0.W s0.H s0.D T v c.1 c.2) = some d') :
    ∃ m1 m', enterPass m = .ok () m1 ∧ Turns (q.positions s0.W s0.H).length m1 m' ∧
      Decoded s0 T v (passesBefore s0.interlaced s0.W s0.H (m.sq.pi.toNat + 1)) d' m' ∧
      m'.sq.pi = m.sq.pi ∧ m'.sq.seq = .passComplete := by
  obtain ⟨c1, c2, b1, -, b2, -⟩ := passOf_bounds hq
  obtain ⟨e1, e2, e3⟩ := h.dims
  have hcur : currentPass m = .ok q := currentPass_eq_ok.2 (by rw [e3]; exact hq)
  have henter : enterPass m = .ok () (gotoSeq (if q.nonempty s0.W s0.H then .reconstructingPass else .passComplete)
      (moveTo (q.x0, q.y0) m)) := by
    rw [← e1, ← e2]
    simp only [enterPass, hcur, Res.ofExcept_ok, Res.bind_ok]
    rfl
  cases hp : q.positions s0.W s0.H with
  | nil =>
    rw [hp] at ht
    simp only [List.flatMap_nil, takes, Option.some.injEq] at ht
    subst ht
    have hne := (Pass.positions_eq_nil b1 b2).1 hp
    refine ⟨_, _, henter, Turns.refl _, ?_, rfl, by simp [gotoSeq, hne]⟩
    rw [passesBefore_succ hq, hp, List.append_nil]
    exact h.move m.sq.pi _ _ _
  | cons a L =>
    have hhead := Pass.positions_head b1 b2 hp
    have hne : q.nonempty s0.W s0.H = true := by
      by_contra hne
      rw [(Pass.positions_eq_nil b1 b2).2 (by simpa using hne)] at hp
      simp at hp
    rw [hp] at ht
    obtain ⟨m', f1, f2, f3, f4⟩ := passTurns hc (m := gotoSeq .reconstructingPass (moveTo (q.x0, q.y0) m)) (L1 := []) hq
      (by rw [hp]; rfl) (by rw [List.append_nil]; exact h.move m.sq.pi _ _ _)
      (by simp only [gotoSeq, moveTo, BitVec.toNat_ofNat, hhead]; omega)
      (by simp only [gotoSeq, moveTo, BitVec.toNat_ofNat, hhead]; omega) rfl ht
    rw [if_pos hne] at henter
    exact ⟨_, m', henter, f1, f2, f3, f4⟩

/-! ### The passes -/

/-- The passes from the current one to the last: one turn to complete each, and one for each pixel. -/
theorem passesTurns {s0 : State} {T : TreeShape} {v : Nat → Nat → Nat} (hc : PlaneCoded s0 T v) (k : Nat) {d d' m : State}
    (hk : m.sq.pi.toNat + (k + 1) = (passList s0.interlaced).length)
    (h : Decoded s0 T v (passesBefore s0.interlaced s0.W s0.H m.sq.pi.toNat) d m)
    (ht : takes d (((passList s0.interlaced).drop m.sq.pi.toNat).flatMap fun q => (q.positions s0.W s0.H).flatMap fun c =>
      codedPixel q s0.W s0.H s0.D T v c.1 c.2) = some d') :
    ∃ m1 m', enterPass m = .ok () m1 ∧
      Turns ((((passList s0.interlaced).drop m.sq.pi.toNat).flatMap fun q => q.positions s0.W s0.H).length + (k + 1)) m1 m' ∧
      Decoded s0 T v (passesBefore s0.interlaced s0.W s0.H (passList s0.interlaced).length) d' m' ∧
      m'.sq.seq = .planeComplete := by
  induction k generalizing d m with
  | zero =>
    have hlt : m.sq.pi.toNat < (passList s0.interlaced).length := by omega
    have hq : passOf s0.interlaced m.sq.pi.toNat = some (passList s0.interlaced)[m.sq.pi.toNat] :=
      List.getElem?_eq_getElem hlt
    have hd : (passList s0.interlaced).drop m.sq.pi.toNat = [(passList s0.interlaced)[m.sq.pi.toNat]] := by
      rw [List.drop_eq_getElem_cons hlt, List.drop_of_length_le (by omega)]
    rw [hd] at ht ⊢
    simp only [List.flatMap_cons, List.flatMap_nil, List.append_nil] at ht ⊢
    obtain ⟨m1, m2, f0, f1, f2, f3, f4⟩ := enteredPass hc hq h ht
    obtain ⟨-, -, e3⟩ := f2.dims
    have hlen : (passList s0.interlaced).length ≤ 9 := by rw [passList_length]; split <;> omega
    have hpi : (m2.sq.pi + 1).toNat = m.sq.pi.toNat + 1 := by rw [f3, BitVec.toNat_add]; simp; omega
    have hstep : sequencerStep m2 = .ok () (gotoSeq .planeComplete { m2 with sq := { m2.sq with pi := m2.sq.pi + 1 } }) := by
      have hn : ¬ (m2.sq.pi + 1).toNat < (passList ({ m2 with sq := { m2.sq with pi := m2.sq.pi + 1 } } : State).interlaced).length := by
        rw [show ({ m2 with sq := { m2.sq with pi := m2.sq.pi + 1 } } : State).interlaced = s0.interlaced from e3]; omega
      have hs : sequencerStep m2 = turnPassComplete m2 := by simp only [sequencerStep, f4]
      exact hs.trans (if_neg hn)
    refine ⟨m1, _, f0, f1.trans (Turns.one (by rw [f4]; decide) hstep), ?_, rfl⟩
    rw [show (passList s0.interlaced).length = m.sq.pi.toNat + 1 by omega]
    exact f2.move (m2.sq.pi + 1) _ _ _
  | succ k ih =>
    have hlt : m.sq.pi.toNat < (passList s0.interlaced).length := by omega
    have hq : passOf s0.interlaced m.sq.pi.toNat = some (passList s0.interlaced)[m.sq.pi.toNat] :=
      List.getElem?_eq_getElem hlt
    rw [List.drop_eq_getElem_cons hlt, List.flatMap_cons] at ht ⊢
    rw [takes_append] at ht
    obtain ⟨d1, ht1, ht2⟩ := ht
    obtain ⟨m1, m2, f0, f1, f2, f3, f4⟩ := enteredPass hc hq h ht1
    obtain ⟨-, -, e3⟩ := f2.dims
    have hlen : (passList s0.interlaced).length ≤ 9 := by rw [passList_length]; split <;> omega
    have hpi : (m2.sq.pi + 1).toNat = m.sq.pi.toNat + 1 := by rw [f3, BitVec.toNat_add]; simp; omega
    obtain ⟨m3, m', g0, g1, g2, g3⟩ := ih (m := { m2 with sq := { m2.sq with pi := m2.sq.pi + 1 } }) (d := d1)
      (by simp only [hpi]; omega) (by simp only [hpi]; exact f2.move (m2.sq.pi + 1) _ _ _) (by simp only [hpi]; exact ht2)
    have hstep : sequencerStep m2 = .ok () m3 := by
      have hn : (m2.sq.pi + 1).toNat < (passList ({ m2 with sq := { m2.sq with pi := m2.sq.pi + 1 } } : State).interlaced).length := by
        rw [show ({ m2 with sq := { m2.sq with pi := m2.sq.pi + 1 } } : State).interlaced = s0.interlaced from e3]; omega
      have hs : sequencerStep m2 = turnPassComplete m2 := by simp only [sequencerStep, f4]
      exact hs.trans ((if_pos hn).trans g0)
    refine ⟨m1, m', f0, ?_, g2, g3⟩
    have := f1.trans (Turns.step (by rw [f4]; decide) hstep g1)
    simp only [hpi] at this
    rw [List.length_append]
    convert this using 1
    omega

/-! ### A plane -/

/-- No more positions than the image has, if no position is in two passes (R235). -/
theorem positions_length {interlaced : Bool} {W H : Nat}
    (hU : ∀ i j q r x y, passOf interlaced i = some q → passOf interlaced j = some r → q.has W H x y = true →
      r.has W H x y = true → i = j) :
    ((passList interlaced).flatMap fun q => q.positions W H).length ≤ W * H := by
  have hb : ∀ q ∈ passList interlaced, 1 ≤ q.stepx ∧ 1 ≤ q.stepy := fun q hq => by
    obtain ⟨i, hi, rfl⟩ := List.mem_iff_getElem.1 hq
    obtain ⟨-, -, h1, -, h2, -⟩ := passOf_bounds (List.getElem?_eq_getElem hi)
    exact ⟨h1, h2⟩
  have hnd : ((passList interlaced).flatMap fun q => q.positions W H).Nodup := by
    rw [List.nodup_flatMap]
    refine ⟨fun q hq => ?_, ?_⟩
    · refine (Pass.positions_sorted (hb q hq).1 (hb q hq).2).imp fun h => ?_
      rintro rfl
      rw [rasterBefore_irrefl] at h
      exact Bool.noConfusion h
    · rw [List.pairwise_iff_getElem]
      intro i j hi hj hij
      simp only [Function.onFun]
      intro c h1 h2
      have b1 := hb _ (List.getElem_mem hi)
      have b2 := hb _ (List.getElem_mem hj)
      have := hU i j _ _ c.1 c.2 (List.getElem?_eq_getElem hi) (List.getElem?_eq_getElem hj)
        ((Pass.mem_positions b1.1 b1.2).1 h1) ((Pass.mem_positions b2.1 b2.2).1 h2)
      omega
  rw [← List.toFinset_card_of_nodup hnd]
  have hsub : ((passList interlaced).flatMap fun q => q.positions W H).toFinset ⊆ Finset.range W ×ˢ Finset.range H := by
    intro c hc
    simp only [List.mem_toFinset, List.mem_flatMap] at hc
    obtain ⟨q, hq, hc⟩ := hc
    have := Pass.has_iff.1 ((Pass.mem_positions (hb q hq).1 (hb q hq).2).1 (show (c.1, c.2) ∈ _ from hc))
    simp only [Finset.mem_product, Finset.mem_range]
    exact ⟨this.1.1, this.2.1⟩
  calc _ ≤ (Finset.range W ×ˢ Finset.range H).card := Finset.card_le_card hsub
    _ = W * H := by simp

/-- A plane between its first turn and the next plane. -/
structure PlaneDone (T : TreeShape) (v : Nat → Nat → Nat) (d m m' : State) : Prop where
  same : SameDecisions (fun _ => False) d m'
  hdr : d.hdr = m.hdr
  p : m'.sq.p = m.sq.p + 1
  planes : m'.sq.planesDone = m.sq.planesDone + 1
  plW : m'.sq.plW = m.sq.plW.setIfInBounds m.sq.p.toNat m.hdr.width
  plH : m'.sq.plH = m.sq.plH.setIfInBounds m.sq.p.toNat m.hdr.height
  seq : m'.sq.seq = if (m.sq.p + 1).toNat < m.C then .awaitingTree else .assemble
  sample : ∀ p y x, y < 2 ^ 32 → x < 2 ^ 32 → sampleAt m' p y x =
    if p = m.sq.p.toNat ∧ x < m.W ∧ y < m.H then .ok (v x y) else sampleAt m p y x

/-- The counters of META. -/
def metaCounters (k : CtrRef) : Prop := ∃ i, k = .metaCtr i

/-- The state with the dimensions of the current plane recorded (R39). -/
def State.recorded (m : State) : State :=
  { m with sq := { m.sq with
    plW := m.sq.plW.setIfInBounds m.sq.p.toNat m.hdr.width
    plH := m.sq.plH.setIfInBounds m.sq.p.toNat m.hdr.height } }

/-- The tree of the plane is decoded, and nothing of its samples. -/
theorem planeTree {T : TreeShape} {d d1 m : State} (v : Nat → Nat → Nat) (hT : T.legal = true)
    (h : SameDecisions (fun _ => False) d m)
    (ht : takes d.treeStart (codedTree T) = some d1) :
    ∃ u, treeDecodeIterative m.recorded = .ok () u ∧
      Decoded m.recorded T v [] d1.freshLeaves { u with sq := { u.sq with pi := 0 } } := by
  have hrec : m.recorded = State.asIn m.recorded d := (h.withSq _).1
  obtain ⟨h1, h2, h3, -⟩ := h
  have hs : SameDecisions metaCounters d.treeStart m.recorded.treeStart := by
    refine ⟨?_, h2, h3, ?_⟩
    · conv_lhs => rw [hrec]
      rfl
    · rintro _ ⟨i, rfl⟩
      rfl
  obtain ⟨w, g1, g2, -, g4, g5⟩ := takes_same hs (fun e he => codedTree_meta T e he) ht
  obtain ⟨u, f1, f2, f3, f4⟩ := treeDecodeIterative_coded (m := m.recorded) h3 hT g1
  have hd := (takes_decoding ht)
  have hleg := hT
  simp only [TreeShape.legal, Bool.and_eq_true, decide_eq_true_eq] at hleg
  have hhdr : d1.hdr = d.hdr := hd.2.1
  have hwf : d1.freshLeaves.memoryWf = true := by
    have := (memoryWf_iff d1).1 g2.2.1
    rw [memoryWf_iff]
    exact ⟨this.1, this.2.1, this.2.2.1, rfl, by simp [State.freshLeaves]⟩
  have husq : u.sq = m.recorded.sq := by rw [f2]; exact g4
  have hupl : u.plane = m.plane := by rw [f2]; exact g5
  refine ⟨u, f1, ?_⟩
  have hsame : SameDecisions (leafCounters T) d1.freshLeaves u := by
    refine ⟨?_, hwf, f4, ?_⟩
    · conv_lhs => rw [f2, g2.1]
      rw [f2]
      rfl
    · rintro _ ⟨n, j, rfl, hn⟩
      simp only [ctrAt, f3, layTree_leaves T _ hn]
      rfl
  refine ⟨hsame.withSq _, ?_, ?_, ?_, by simp, ?_⟩
  · refine treeAt_layTree T (a := nodeAt m.recorded) hleg.1 (by have := legal_size hT; omega) fun j _ _ => ?_
    rw [← f3]
    rfl
  · have : m.hdr = d.hdr := by rw [h1]; rfl
    exact hhdr.trans this.symm
  · simp only [MovedFrom, husq]
  · intro p y x _ _ _
    exact (sampleAt_congr (s := m) (t := { u with sq := { u.sq with pi := 0 } }) hupl p y x)

/-- A plane, from its tree to the next plane: at most one turn for each pixel, and eleven more (R231, R244). -/
theorem planeTurn {T : TreeShape} {v : Nat → Nat → Nat} {d d' m : State} (hc : PlaneCoded m T v)
    (hU : ∀ i j q r x y, passOf m.interlaced i = some q → passOf m.interlaced j = some r → q.has m.W m.H x y = true →
      r.has m.W m.H x y = true → i = j)
    (hE : ∀ x y, x < m.W → y < m.H → ∃ i q, passOf m.interlaced i = some q ∧ q.has m.W m.H x y = true)
    (h : SameDecisions (fun _ => False) d m) (hseq : m.sq.seq = .awaitingTree)
    (ht : planeTakes T (codedPixels m.interlaced m.W m.H m.D T v) d = some d') :
    ∃ n m', n ≤ m.W * m.H + 11 ∧ Turns n m m' ∧ PlaneDone T v d' m m' := by
  have hc' : PlaneCoded m.recorded T v := ⟨hc.1, hc.2, hc.3, hc.4, hc.5⟩
  unfold planeTakes at ht
  cases ht1 : takes d.treeStart (codedTree T) with
  | none => simp [ht1] at ht
  | some d1 =>
    simp only [ht1] at ht
    obtain ⟨u, f1, f2⟩ := planeTree v hc.legal h ht1
    have hlen : 1 ≤ (passList m.interlaced).length ∧ (passList m.interlaced).length ≤ 9 := by
      rw [passList_length]; split <;> omega
    obtain ⟨m1, m2, g0, g1, g2, g3⟩ := passesTurns hc' ((passList m.interlaced).length - 1)
      (m := { u with sq := { u.sq with pi := 0 } }) (by show 0 + _ = _; change _ = (passList m.interlaced).length; omega)
      f2 ht
    have hturn : sequencerStep m = .ok () m1 := by
      have hr : recordPlane m = .ok () m.recorded := if_pos hc.plane
      simp only [sequencerStep, hseq, turnTree, hr, Res.bind_ok, f1, g0]
    obtain ⟨k1, k2, k3, k4, k5, k6⟩ := g2
    have hstep : sequencerStep m2 = turnPlaneComplete m2 := by simp only [sequencerStep, g3]
    have hp2 : m2.sq.p = m.sq.p := by rw [k4]; rfl
    have hC : m2.C = m.C := by
      have : m2.hdr = m.hdr := by rw [k1.1]; exact k3
      simp only [State.C, this]
    refine ⟨_, _, ?_, (Turns.step (by rw [hseq]; decide) hturn g1).trans
      (Turns.one (by rw [g3]; decide) hstep), ⟨?_, ?_, ?_, ?_, ?_, ?_, ?_, ?_⟩⟩
    · have := positions_length hU
      change (((passList m.interlaced).flatMap fun q => q.positions m.W m.H).length + ((passList m.interlaced).length - 1 + 1)) + 1 + 1 ≤ _
      omega
    · exact (show SameDecisions (fun _ => False) d' m2 from ⟨k1.1, k1.2.1, k1.2.2.1, fun _ h => h.elim⟩).withSq _
    · exact k3
    · show m2.sq.p + 1 = _; rw [hp2]
    · show m2.sq.planesDone + 1 = _; rw [k4]; rfl
    · show m2.sq.plW = _; rw [k4]; rfl
    · show m2.sq.plH = _; rw [k4]; rfl
    · show (if (m2.sq.p + 1).toNat < m2.C then Seq.awaitingTree else Seq.assemble) = _
      rw [hp2, hC]
    · intro p y x hy hx
      have hin : (x, y) ∈ passesBefore m.interlaced m.W m.H (passList m.interlaced).length ↔ x < m.W ∧ y < m.H := by
        rw [mem_passesBefore]
        constructor
        · rintro ⟨j, r, -, hr, hm⟩
          obtain ⟨-, -, b1, -, b2, -⟩ := passOf_bounds hr
          have := Pass.has_iff.1 ((Pass.mem_positions b1 b2).1 hm)
          exact ⟨this.1.1, this.2.1⟩
        · rintro ⟨hx, hy⟩
          obtain ⟨i, q, hq, hh⟩ := hE x y hx hy
          obtain ⟨-, -, b1, -, b2, -⟩ := passOf_bounds hq
          exact ⟨i, q, (List.getElem?_eq_some_iff.1 hq).1, hq, (Pass.mem_positions b1 b2).2 hh⟩
      show sampleAt m2 p y x = _
      split_ifs with hif
      · obtain ⟨rfl, hxW, hyH⟩ := hif
        exact (k5 (x, y) (hin.2 ⟨hxW, hyH⟩)).2.2
      · refine k6 p y x hy hx fun e hm => hif ⟨e, hin.1 hm⟩

/-! ### The planes of an image -/

/-- The planes from the current one to the last. -/
theorem planesTurns {T : Nat → TreeShape} {v : Nat → Nat → Nat → Nat} (k : Nat) {d d' m : State}
    (hk : m.sq.p.toNat + k = m.C) (hC : m.C ≤ 4) (hc : ∀ p, p < m.C → ∀ q : Sequencer, q.p.toNat = p →
      PlaneCoded { m with sq := q } (T p) (v p))
    (hU : ∀ i j q r x y, passOf m.interlaced i = some q → passOf m.interlaced j = some r → q.has m.W m.H x y = true →
      r.has m.W m.H x y = true → i = j)
    (hE : ∀ x y, x < m.W → y < m.H → ∃ i q, passOf m.interlaced i = some q ∧ q.has m.W m.H x y = true)
    (h : SameDecisions (fun _ => False) d m) (hseq : m.sq.seq = if 0 < k then .awaitingTree else .assemble)
    (hpd : m.sq.planesDone = m.sq.p)
    (ht : planesTake d ((List.range' m.sq.p.toNat k).map fun p =>
      (T p, codedPixels m.interlaced m.W m.H m.D (T p) (v p))) = some d') :
    ∃ n m', n ≤ k * (m.W * m.H + 11) ∧ Turns n m m' ∧ SameDecisions (fun _ => False) d' m' ∧ m'.sq.seq = .assemble ∧
      m'.sq.p.toNat = m.C ∧ m'.sq.planesDone = m'.sq.p ∧
      (∀ p, (m.sq.p.toNat ≤ p ∧ p < m.C → m'.sq.plW[p]? = some m.hdr.width ∧ m'.sq.plH[p]? = some m.hdr.height) ∧
        (¬ (m.sq.p.toNat ≤ p ∧ p < m.C) → m'.sq.plW[p]? = m.sq.plW[p]? ∧ m'.sq.plH[p]? = m.sq.plH[p]?)) ∧
      ∀ p y x, y < 2 ^ 32 → x < 2 ^ 32 → sampleAt m' p y x =
        if (m.sq.p.toNat ≤ p ∧ p < m.C) ∧ x < m.W ∧ y < m.H then .ok (v p x y) else sampleAt m p y x := by
  induction k generalizing d m with
  | zero =>
    simp only [List.range'_zero, List.map_nil, planesTake, Option.some.injEq] at ht
    subst ht
    refine ⟨0, m, by omega, Turns.refl m, h, by simpa using hseq, by omega, hpd, fun p => ⟨fun hp => by omega, fun _ => ⟨rfl, rfl⟩⟩,
      fun p y x _ _ => ?_⟩
    rw [if_neg (by omega)]
  | succ k ih =>
    simp only [List.range'_succ, List.map_cons, planesTake] at ht
    have hp : m.sq.p.toNat < m.C := by omega
    cases ht1 : planeTakes (T m.sq.p.toNat) (codedPixels m.interlaced m.W m.H m.D (T m.sq.p.toNat) (v m.sq.p.toNat)) d with
    | none => simp [ht1] at ht
    | some d1 =>
      simp only [ht1] at ht
      obtain ⟨n1, m1, g1, g2, g3⟩ := planeTurn (m := m) (hc _ hp m.sq rfl) hU hE h (by simpa using hseq) ht1
      have hp1 : (m.sq.p + 1).toNat = m.sq.p.toNat + 1 := by rw [BitVec.toNat_add]; simp; omega
      have hhdr : m1.hdr = m.hdr := by rw [g3.same.1]; exact g3.hdr
      have eW : m1.W = m.W := congrArg (fun h => h.width.toNat) hhdr
      have eH : m1.H = m.H := congrArg (fun h => h.height.toNat) hhdr
      have eC : m1.C = m.C := congrArg (fun h => h.channels.toNat) hhdr
      have eD : m1.D = m.D := congrArg (fun h => h.depth.toNat) hhdr
      have eI : m1.interlaced = m.interlaced := congrArg (fun h => h.flags.getLsbD 0) hhdr
      have eP : m1.sq.p.toNat = m.sq.p.toNat + 1 := by rw [g3.p, hp1]
      obtain ⟨n2, m2, f1, f2, f3, f4, f5, f6, f7, f8⟩ := ih (m := m1) (d := d1) (by omega) (by omega)
        (fun p hp q hq => by
          obtain ⟨a1, a2, a3, a4, a5⟩ := hc p (by omega) q hq
          refine ⟨a1, a2, ?_, ?_, ?_⟩
          · show 1 ≤ m1.D ∧ m1.D ≤ 16; rw [eD]; exact a3
          · show ∀ x y, x < m1.W → y < m1.H → v p x y < 2 ^ m1.D; rw [eW, eH, eD]; exact a4
          · change ∀ i q x y, passOf m1.interlaced i = some q → q.has m1.W m1.H x y = true →
              ∀ c ∈ neighbourReads q m1.W m1.H x y, ∃ j r, passOf m1.interlaced j = some r ∧
                r.has m1.W m1.H c.1 c.2 = true ∧ (j < i ∨ j = i ∧ rasterBefore c (x, y) = true)
            rw [eW, eH, eI]; exact a5)
        (by rw [eI, eW, eH]; exact hU) (by rw [eI, eW, eH]; exact hE) g3.same
        (by
          rw [g3.seq, hp1]
          split_ifs <;> first | rfl | omega)
        (by rw [g3.planes, g3.p, hpd]) (by rw [eP, eI, eW, eH, eD]; exact ht)
      refine ⟨n1 + n2, m2, ?_, g2.trans f2, f3, f4, by omega, f6, fun p => ?_, fun p y x hy hx => ?_⟩
      · rw [eW, eH] at f1
        rw [Nat.succ_mul]
        omega
      · obtain ⟨j1, j2⟩ := f7 p
        rw [hhdr, g3.plW, g3.plH] at *
        have hsz : m.sq.p.toNat < 4 := by omega
        constructor
        · intro hpp
          by_cases he : p = m.sq.p.toNat
          · obtain ⟨b1, b2⟩ := j2 (by omega)
            rw [b1, b2, he]
            simp [hsz]
          · exact j1 (by omega)
        · intro hpp
          obtain ⟨b1, b2⟩ := j2 (by omega)
          rw [b1, b2]
          have he : ¬ m.sq.p.toNat = p := by omega
          simp [he]
      · rw [f8 p y x hy hx, g3.sample p y x hy hx, eW, eH, eC, eP]
        by_cases he : p = m.sq.p.toNat
        · subst he
          rw [if_neg (by omega)]
          by_cases hin : x < m.W ∧ y < m.H
          · rw [if_pos ⟨rfl, hin⟩, if_pos ⟨⟨le_refl _, hp⟩, hin⟩]
          · rw [if_neg (fun hh => hin hh.2), if_neg (fun hh => hin hh.2)]
        · rw [if_neg (fun hh => he hh.1 : ¬ (p = m.sq.p.toNat ∧ x < m.W ∧ y < m.H))]
          refine if_congr ?_ rfl rfl
          omega

end Sys2Proof.Machine
end

