-- ==== Sys2Proof/Tests/Slice0.lean ====
section
/-! SUPPORT. The model's own tests, each by evaluation. Expected values are those of spec/95_test_vectors.md or are
written out from the spec's encodings; the comment of a part names its source. The last part gives, for every statement
with hypotheses, concrete states that meet them (`witness_<statement>`). -/

open Sys2Proof Sys2Proof.Machine

namespace Sys2Proof.Tests

/-! ### Small states -/

/-- The bytes stand at address 0 of INPUT and are the whole input. -/
def onBytes (bs : List Nat) : State :=
  { State.reset with
    input := placeBytes 0 (bs.map (BitVec.ofNat 8)) []
    br := { base := 0, lim := BitVec.ofNat 35 (8 * bs.length), cur := 0 } }

/-- An open interval, with `bs` as the bytes still to come. -/
def interval (rng code : Word) (bs : List Nat) : State := { onBytes bs with ac := { rng := rng, code := code } }

/-- The state right after ACINIT on a payload whose first four bytes are `code`. -/
def coded (code : Word) (bs : List Nat) : State := interval 0xFFFFFFFF code bs

/-- The same state with other header registers. -/
def withHeader (h : Header) (s : State) : State := { s with hdr := h }

/-- Header registers by field. -/
def header (w h c d f o : Nat) : Header :=
  { width := BitVec.ofNat 32 w, height := BitVec.ofNat 32 h, channels := BitVec.ofNat 8 c, depth := BitVec.ofNat 8 d,
    flags := BitVec.ofNat 8 f, chorder := BitVec.ofNat 8 o, frames := 1, metalen := 0 }

/-- The plane store with plane `p` holding these rows. -/
def withRows (p : Nat) (rows : List (List Nat)) (s : State) : State :=
  { s with plane := (rows.mapIdx fun y r => (r.mapIdx fun x v => (planeKey p y x, BitVec.ofNat 16 v))).flatten ++ s.plane }

/-- The sequencer at a state, plane, pass and position. -/
def at_ (q : Seq) (p pi x y : Nat) (s : State) : State :=
  { s with sq := { s.sq with seq := q, p := BitVec.ofNat 3 p, pi := BitVec.ofNat 4 pi, x := BitVec.ofNat 32 x, y := BitVec.ofNat 32 y } }

/-- The state an outcome goes on with. -/
def after (o : Host.Outcome State Fault Refusal) : Option State :=
  match o with
  | .next t => some t
  | .fault _ => none
  | .refused _ => none

/-- The returned values and the cursor. -/
def retCur (o : Host.Outcome State Fault Refusal) : Option (List Int × Nat) :=
  (after o).map fun t => (t.ret, t.br.cur.toNat)

/-- STATUS, ERR_CODE, ERR_INFO and BITS. -/
def errBits (o : Host.Outcome State Fault Refusal) : Option (List Nat) :=
  (after o).map fun t =>
    [t.host.status.toNat, t.host.errCode.toNat, t.host.errInfo.toNat, (t.host.bitsHi ++ t.host.bitsLo).toNat]

/-- The interval and the cursor. -/
def window (o : Host.Outcome State Fault Refusal) : Option (Word × Word × Nat) :=
  (after o).map fun t => (t.ac.rng, t.ac.code, t.br.cur.toNat)

/-- The tree of program P3. -/
def treeP3 : TreeShape := .split 5 0 .leaf (.split 3 (-1) .leaf .leaf)

/-- The arena of program P3's tree, as the table of section 5 of the vectors gives it. -/
def withTreeP3 (s : State) : State :=
  { s with cm := { s.cm with
      nodes := [(0, { Node.fresh with split := true, prop := 5, thr := 0, left := 1, right := 2 }),
                (2, { Node.fresh with split := true, prop := 3, thr := 0xFFFFFFFF, left := 3, right := 4 })]
      nn := 5 } }

/-- The plane of program P3 (section 8 of the vectors). -/
def rowsP3 : List (List Nat) := [[3, 4, 5, 6, 7], [3, 5, 6, 6, 8], [2, 4, 7, 9, 15]]

/-- The sample of P3's plane at (x, y). -/
def sampleP3 (x y : Nat) : Nat := (rowsP3.getD y []).getD x 0

/-- P3 with its whole plane, the sequencer at (x, y) of pass `pi`. -/
def atP3 (pi x y : Nat) : State :=
  at_ .reconstructingPass 0 pi x y (withTreeP3 (withRows 0 rowsP3 (withHeader (header 5 3 1 4 1 0) State.reset)))

/-- Program P1 at its one pixel: the tree is a leaf, its decision has been taken (vectors, section 11). -/
def atP1 : State :=
  { at_ .reconstructingPass 0 0 0 0 (withHeader (header 1 1 1 8 0 0) (interval 0x7FFFF800 0x13FFF800 [])) with
    host := { HostRegs.reset with status := statusBusy }
    sq := { (at_ .reconstructingPass 0 0 0 0 State.reset).sq with plW := Vector.replicate 4 1, plH := Vector.replicate 4 1 } }

/-! ### Well-formedness: each check refuses an ill-formed operand and takes the last legal one -/

theorem test_wf_set : wellFormed (.zero (.leaf 8191)) = false ∧ wellFormed (.zero (.leaf 8190)) = true ∧
    wellFormed (.sign (.leaf 8191)) = false ∧ wellFormed (.sign .thr) = true := by decide
theorem test_wf_exp : wellFormed (.exp .thr 16) = false ∧ wellFormed (.exp .thr 15) = true ∧
    wellFormed (.exp (.leaf 8191) 0) = false := by decide
theorem test_wf_mant : wellFormed (.mant .thr 15) = false ∧ wellFormed (.mant .thr 14) = true ∧
    wellFormed (.mant (.leaf 8191) 0) = false := by decide
theorem test_wf_readUint : wellFormed (.readUint 33) = false ∧ wellFormed (.readUint 32) = true := by decide
theorem test_wf_decodeBit : wellFormed (.decodeBit 0) = false ∧ wellFormed (.decodeBit 1) = true := by decide
theorem test_wf_decodeCtx : wellFormed (.decodeCtx (.metaCtr 41)) = false ∧ wellFormed (.decodeCtx (.metaCtr 40)) = true ∧
    wellFormed (.decodeCtx (.leafCtr 0 33)) = false ∧ wellFormed (.decodeCtx (.leafCtr 8191 0)) = false ∧
    wellFormed (.decodeCtx (.leafCtr 8190 32)) = true := by decide
theorem test_wf_nzDecode : wellFormed (.nzDecode .thr 0 ⟨.corruptTree, 3⟩) = false ∧
    wellFormed (.nzDecode .thr 17 ⟨.corruptTree, 3⟩) = false ∧ wellFormed (.nzDecode .thr 16 ⟨.corruptTree, 2⟩) = false ∧
    wellFormed (.nzDecode (.leaf 8191) 8 ⟨.corruptPixelValue, 0⟩) = false ∧
    wellFormed (.nzDecode .thr 16 ⟨.corruptTree, 3⟩) = true := by decide
theorem test_wf_decodeNode : wellFormed (.decodeNode 13) = false ∧ wellFormed (.decodeNode 12) = true := by decide
theorem test_wf_treeLookup : wellFormed (.treeLookup ⟨0, 0, 0, 0, 0, 65536⟩) = false ∧
    wellFormed (.treeLookup ⟨-65536, 0, 0, 0, 0, 0⟩) = false ∧
    wellFormed (.treeLookup ⟨-65535, 65535, 0, 0, 0, 0⟩) = true := by decide
theorem test_wf_raise : wellFormed (.raise ⟨.badMagic, 4⟩) = false ∧ wellFormed (.raise ⟨.unsupportedFeature, 0⟩) = false ∧
    wellFormed (.raise ⟨.unsupportedFeature, 13⟩) = false ∧ wellFormed (.raise ⟨.truncatedInput, 1⟩) = false ∧
    wellFormed (.raise ⟨.malformedVarint, 3⟩) = false ∧ wellFormed (.raise ⟨.corruptTree, 4⟩) = false ∧
    wellFormed (.raise ⟨.corruptPixelValue, 1⟩) = false ∧ wellFormed (.raise ⟨.channelCountMismatch, 0⟩) = false ∧
    wellFormed (.raise ⟨.unsupportedFeature, 12⟩) = true := by decide
theorem test_wf_registers : wellFormed (.readReg 0) = false ∧ wellFormed (.readReg 14) = true ∧
    wellFormed (.writeRoReg 1 0) = false ∧ wellFormed (.writeRoReg 3 0) = false ∧ wellFormed (.writeRoReg 4 0) = false ∧
    wellFormed (.writeRoReg 14 0) = true := by decide
theorem test_wf_varint : VarField.legal ⟨0, 0⟩ = false ∧ VarField.legal ⟨1, 6⟩ = false ∧ VarField.legal ⟨128, 1⟩ = false ∧
    VarField.legal ⟨4294967296, 5⟩ = false ∧ VarField.legal ⟨4294967295, 5⟩ = true := by decide
theorem test_wf_header :
    chorderLegal 3 0x24 = true ∧ chorderLegal 3 0x14 = false ∧ chorderLegal 3 0x27 = false ∧ chorderLegal 1 0x04 = false ∧
    chorderLegal 4 0x1B = true ∧ flagsLegal 3 0x07 = true ∧ flagsLegal 2 0x04 = false ∧ flagsLegal 3 0x08 = false ∧
    flagsLegal 3 0x10 = false := by decide
theorem test_wf_tree : TreeShape.legal (.split 6 0 .leaf .leaf) = false ∧ TreeShape.legal (.split 0 65536 .leaf .leaf) = false ∧
    TreeShape.legal treeP3 = true := by decide

/-! ### Decoding -/

/-- The words of the raw elements with fixed or free bits, written out from R93, R96 and R99; ZERO and SIGN by the
table reader's pattern. -/
theorem test_decode_rawWords :
    decodeTableWord 32 0x464C4946 = some .magic ∧ decodeTableWord 32 0xDAB2FD98 = some .acinit ∧
    decodeTableWord 8 0b00000111 = some .flags ∧ decodeTableWord 8 0b00010000 = some .acbyte ∧
    decodeTableWord 16 0x0000 = some (.zero .thr) ∧ decodeTableWord 16 0x0100 = some (.sign .thr) ∧
    decodeTableWord 24 0 = none := by decide

theorem test_decode_elements :
    decode false (.call 0 []) = .ok .magic ∧ decode false (.call 1 []) = .ok .width ∧
    decode false (.call 2 []) = .ok .height ∧ decode false (.call 3 []) = .ok .channels ∧
    decode false (.call 4 []) = .ok .depth ∧ decode false (.call 5 []) = .ok .flags ∧
    decode false (.call 6 []) = .ok .chorder ∧ decode false (.call 7 []) = .ok .nframes ∧
    decode false (.call 8 []) = .ok .metalen ∧ decode false (.call 9 []) = .ok .metadata ∧
    decode false (.call 10 []) = .ok .acinit ∧ decode false (.call 11 []) = .ok .acbyte ∧
    decode false (.call 12 []) = .ok .node ∧ decode false (.call 13 []) = .ok .split ∧
    decode false (.call 14 []) = .ok .prop ∧ decode false (.call 15 []) = .ok .thr ∧
    decode false (.call 16 []) = .ok .resid ∧ decode false (.call 17 [-1]) = .ok (.zero .thr) ∧
    decode false (.call 18 [7]) = .ok (.sign (.leaf 7)) ∧ decode false (.call 19 [-1, 15]) = .ok (.exp .thr 15) ∧
    decode false (.call 20 [8190, 14]) = .ok (.mant (.leaf 8190) 14) := by decide

theorem test_decode_operations :
    decode false (.call 21 []) = .ok .readBit ∧ decode false (.call 22 [32]) = .ok (.readUint 32) ∧
    decode false (.call 23 []) = .ok .readVarint ∧ decode false (.call 24 [4294967295]) = .ok (.skipBytes 4294967295) ∧
    decode false (.call 25 []) = .ok .acInitOp ∧ decode false (.call 26 [4095]) = .ok (.decodeBit 4095) ∧
    decode false (.call 27 []) = .ok .renormalise ∧ decode false (.call 28 [2048, 1]) = .ok (.ctrUpdate 2048 true) ∧
    decode false (.call 29 [-1, 40]) = .ok (.decodeCtx (.metaCtr 40)) ∧
    decode false (.call 29 [5, 32]) = .ok (.decodeCtx (.leafCtr 5 32)) ∧
    decode false (.call 30 [0, 8, 6, 0]) = .ok (.nzDecode (.leaf 0) 8 ⟨.corruptPixelValue, 0⟩) ∧
    decode false (.call 31 []) = .ok .treeDecode ∧ decode false (.call 32 [12]) = .ok (.decodeNode 12) ∧
    decode false (.call 33 []) = .ok .treeDecodeIterative ∧
    decode false (.call 34 [0, 1, -2, 3, -4, 5]) = .ok (.treeLookup ⟨0, 1, -2, 3, -4, 5⟩) ∧
    decode false (.call 35 []) = .ok .parseHeader ∧ decode false (.call 36 []) = .ok .parseMagic ∧
    decode false (.call 37 []) = .ok .parseFlags ∧ decode false (.call 38 []) = .ok .parseChorder ∧
    decode false .turn = .ok .sequencerStep ∧ decode false (.call 40 []) = .ok .planeLoop ∧
    decode false (.call 41 []) = .ok .passPositions ∧ decode false (.call 42 []) = .ok .neighbours ∧
    decode false (.call 43 []) = .ok .ahead ∧ decode false (.call 44 []) = .ok .predict ∧
    decode false (.call 45 []) = .ok .properties ∧ decode false (.call 46 []) = .ok .decodePixel ∧
    decode false (.call 47 []) = .ok .assemble ∧
    decode false (.call 48 [2, 12]) = .ok (.raise ⟨.unsupportedFeature, 12⟩) := by decide

/-- The host moves, by register number and value (R21, R23, R25, R26, R285 to R289). -/
theorem test_decode_commands :
    decode false (.move (.writeReg 1 0x80000001)) = .ok (.decode 0x40000000) ∧
    decode true (.move (.writeReg 1 0x80000001)) = .ok (.startWhileBusy 0x40000000) ∧
    decode true (.move (.writeReg 1 2)) = .ok (.ctrlNop 1) ∧ decode false (.move (.readReg 0)) = .ok .version ∧
    decode false (.move (.writeReg 3 9)) = .ok (.writeInHandle 9) ∧
    decode false (.move (.writeReg 4 9)) = .ok (.writeInSize 9) ∧ decode false (.move (.readReg 13)) = .ok (.readReg 13) ∧
    decode false (.move (.writeReg 0 7)) = .ok (.writeRoReg 0 7) ∧
    decode false (.move (.readOutput 67108863)) = .ok (.readOutput 67108863) ∧
    decode false (.move (.writeInput 0xFFFFFFFF 0xAB)) = .ok (.writeInput 0xFFFFFFFF 0xAB) ∧
    decode false (.move .assertReset) = .ok .reset := by decide

/-- Entries that are no instruction are rejected by name. -/
theorem test_decode_rejects :
    decode false (.call 39 []) = .error (.noSuchRow 39) ∧ decode false (.call 60 []) = .error (.noSuchRow 60) ∧
    decode false (.call 17 [8192]) = .error (.badOperands 17) ∧ decode false (.call 0 [1]) = .error (.badOperands 0) ∧
    decode false (.call 22 [33]) = .error (.outsideContract 22) := by decide

/-! ### Encodings of the stream (R92 to R103; vectors, sections 2, 4, 5, 11) -/

theorem test_encode_varints : varintBytes 1 127 = [0x7F] ∧ varintBytes 2 300 = [0x82, 0x2C] ∧
    varintBytes 2 0 = [0x80, 0x00] ∧ varintBytes 5 4294967295 = [0x8F, 0xFF, 0xFF, 0xFF, 0x7F] := by decide

theorem test_encode_bytes : flagsByte false true 1 = 0x06 ∧ flagsByte true false 0 = 0x01 ∧
    chorderByte 1 0 2 0 = 0x21 ∧ chorderByte 3 2 1 0 = 0x1B := by decide

/-- The header of program P2. -/
def headerP2 : HeaderFields :=
  { width := ⟨3, 1⟩, height := ⟨2, 1⟩, channels := 3, depth := 8, flags := 6, chorder := 0x21, frames := ⟨1, 1⟩,
    metalen := ⟨3, 1⟩, metadata := [0xDE, 0xAD, 0x42] }

/-- The bytes of that header, as the vectors give them. -/
def bytesP2 : List Nat := [0x46, 0x4C, 0x49, 0x46, 0x03, 0x02, 0x03, 0x08, 0x06, 0x21, 0x01, 0x03, 0xDE, 0xAD, 0x42]

theorem test_encode_header : headerP2.encode = bytesP2.map (BitVec.ofNat 8) := by decide

theorem test_encode_integers : nzDecisions 0 = [(0, true)] ∧
    nzDecisions (-5) = [(0, false), (1, true), (2, true), (3, true), (4, false), (19, false), (18, true)] ∧
    nzDecisions 8 = [(0, false), (1, false), (2, true), (3, true), (4, true), (5, false), (20, false), (19, false),
      (18, false)] := by decide

theorem test_encode_tree : codedTree treeP3 =
    [(.metaCtr 0, true), (.metaCtr 1, true), (.metaCtr 3, false), (.metaCtr 6, true), (.metaCtr 8, true),
     (.metaCtr 0, false), (.metaCtr 0, true), (.metaCtr 1, false), (.metaCtr 2, true), (.metaCtr 5, true),
     (.metaCtr 8, false), (.metaCtr 9, true), (.metaCtr 10, false), (.metaCtr 0, false), (.metaCtr 0, false)] := by decide

/-! ### Bit Reader (vectors, section 2) -/

theorem test_readBit : retCur (exec .readBit { onBytes [0xA5, 0x3C] with br := ⟨0, 16, 2⟩ }) = some ([1], 3) ∧
    errBits (exec .readBit { onBytes [0xA5, 0x3C] with br := ⟨0, 16, 16⟩ }) = some [6, 3, 0, 16] := by decide
theorem test_readUint : retCur (exec (.readUint 12) { onBytes [0xA5, 0x3C] with br := ⟨0, 16, 3⟩ }) = some ([670], 15) ∧
    retCur (exec (.readUint 0) (onBytes [0xA5, 0x3C])) = some ([0], 0) ∧
    errBits (exec (.readUint 17) (onBytes [0xA5, 0x3C])) = some [6, 3, 0, 16] := by decide
theorem test_readVarint : retCur (exec .readVarint (onBytes [0x82, 0x2C])) = some ([300], 16) ∧
    retCur (exec .readVarint (onBytes [0x8F, 0xFF, 0xFF, 0xFF, 0x7F])) = some ([4294967295], 40) := by decide
theorem test_readVarint_malformed :
    errBits (exec .readVarint (onBytes [0x8F, 0xFF, 0xFF, 0xFF, 0xFF])) = some [6, 4, 1, 40] ∧
    errBits (exec .readVarint (onBytes [0x90, 0x80, 0x80, 0x80, 0x80])) = some [6, 4, 2, 40] ∧
    errBits (exec .readVarint (onBytes [0x80, 0x80, 0x80, 0x80])) = some [6, 3, 0, 32] := by decide
theorem test_skipBytes :
    retCur (exec (.skipBytes 4) { State.reset with br := ⟨0, 120, 88⟩ }) = some ([], 120) ∧
    errBits (exec (.skipBytes 5) { State.reset with br := ⟨0, 120, 88⟩ }) = some [6, 3, 0, 88] ∧
    errBits (exec (.skipBytes 4294967295) { State.reset with br := ⟨0, 120, 88⟩ }) = some [6, 3, 0, 88] := by decide

/-! ### Arithmetic Decoder (vectors, section 3) -/

theorem test_acinit : window (exec .acinit (onBytes [0x13, 0xFF, 0xF8, 0x00])) = some (0xFFFFFFFF, 0x13FFF800, 32) ∧
    window (exec .acInitOp (onBytes [0x80, 0x00, 0x00, 0x00])) = some (0xFFFFFFFF, 0x80000000, 32) := by decide
theorem test_acinit_truncated : errBits (exec .acinit (onBytes [0x13, 0xFF, 0xF8])) = some [6, 3, 0, 24] := by decide
theorem test_acbyte : window (exec .acbyte (interval 0x00800000 0x00000000 [0xAB])) = some (0x80000000, 0xAB, 8) := by decide
theorem test_renormalise : window (exec .renormalise (interval 0x00001000 0x00000FFF [0xAB, 0xCD])) =
    some (0x10000000, 0x0FFFABCD, 16) := by decide
theorem test_decodeBit : window (exec (.decodeBit 2048) (interval 0x1FFFF800 0x13FFF800 [])) = some (0x10000000, 0x04000000, 0) ∧
    window (exec (.decodeBit 4095) (interval 0xFFFFFFFF 0xFFFFFFFE [0x55])) = some (0x100FFE00, 0x100FFD55, 8) := by decide
theorem test_decodeBit_edge :
    window (exec (.decodeBit 1) (interval 0x01000000 0 [0xAB, 0xCD])) = some (0x10000000, 0xABCD, 16) ∧
    errBits (exec (.decodeBit 2554) (interval 0x0151174B 0 [])) = some [6, 3, 0, 0] := by decide
theorem test_ctrUpdate : (after (exec (.ctrUpdate 4065 false) State.reset)).map State.ret = some [4065] ∧
    (after (exec (.ctrUpdate 3938 true) State.reset)).map State.ret = some [3815] ∧
    (after (exec (.ctrUpdate 31 true) State.reset)).map State.ret = some [31] := by decide
theorem test_decodeCtx : (after (exec (.decodeCtx (.metaCtr 3)) (coded 0x80000000 []))).map
    (fun t => (t.ret, ctrAt (.metaCtr 3) t, ctrAt (.metaCtr 2) t, t.ac.rng)) =
      some ([1], some 1984, some 2048, 0x800007FF) := by decide

/-! ### Near-zero integers (vectors, section 4) -/

theorem test_nzDecode : retCur (exec (.nzDecode (.leaf 0) 8 ⟨.corruptPixelValue, 0⟩) (coded 0x71FFF800 [])) = some ([-5], 0) ∧
    retCur (exec (.nzDecode .thr 16 ⟨.corruptTree, 3⟩) (coded 0x7FFFB7FF [0x80, 0, 0, 0])) = some ([-65535], 32) := by decide
theorem test_nzDecode_raises :
    errBits (exec (.nzDecode (.leaf 0) 2 ⟨.corruptPixelValue, 0⟩) (coded 0x2FFFF800 [])) = some [6, 6, 0, 0] := by decide
theorem test_zero : (after (exec (.zero (.leaf 3)) (coded 0x7FFFF800 []))).map
    (fun t => (t.ret, ctrAt (.leafCtr 3 0) t)) = some ([1], some 1984) := by decide
theorem test_sign : (after (exec (.sign .thr) (coded 0 []))).map
    (fun t => (t.ret, ctrAt (.metaCtr 9) t)) = some ([0], some 2112) := by decide
theorem test_exp : (after (exec (.exp .thr 14) (coded 0xFFFFFFFF []))).map
    (fun t => (t.ret, ctrAt (.metaCtr 24) t)) = some ([1], some 1984) ∧
    errBits (exec (.exp .thr 15) (coded 0xFFFFFFFF [])) = some [6, 5, 3, 0] := by decide
theorem test_mant : (after (exec (.mant (.leaf 0) 14) (coded 0 []))).map
    (fun t => (t.ret, ctrAt (.leafCtr 0 32) t)) = some ([0], some 2112) := by decide

/-! ### Context tree (vectors, section 5) -/

theorem test_treeDecode : (after (exec .treeDecode (coded 0xDAB2FD98 [0x00]))).map
    (fun t => (treeAt t treeP3 0, t.cm.nn, t.br.cur, t.ac.rng)) = some (true, 5, 8, 0x01C3991A) := by decide
theorem test_treeDecodeIterative : (after (exec .treeDecodeIterative (coded 0xDAB2FD98 [0x00]))).map
    (fun t => (treeAt t treeP3 0, t.cm.nn, t.br.cur, t.ac.rng)) = some (true, 5, 8, 0x01C3991A) := by decide
theorem test_decodeNode : (after (exec (.decodeNode 10) (coded 0xDAB2FD98 [0x00]))).map
    (fun t => (t.ret, t.cm.nn)) = some ([0], 5) ∧
    errBits (exec (.decodeNode 12) (coded 0xDAB2FD98 [0x00])) = some [6, 5, 1, 0] := by decide
theorem test_node : (after (exec .node (coded 0xDAB2FD98 [0x00]))).map (fun t => (t.ret, t.cm.nn)) = some ([0], 5) := by decide
theorem test_split : retCur (exec .split (coded 0xDAB2FD98 [])) = some ([1], 0) ∧
    errBits (exec .split { coded 0xDAB2FD98 [] with cm := { State.reset.cm with depth := 12 } }) = some [6, 5, 1, 0] := by decide
theorem test_prop : retCur (exec .prop (interval 0x800007FF 0x5AB30598 [])) = some ([5], 0) ∧
    errBits (exec .prop (coded 0xBFFFF800 [])) = some [6, 5, 2, 0] := by decide
theorem test_thr : retCur (exec .thr (coded 0x3FFFB7FF [0x80, 0, 0, 0])) = some ([65535], 32) := by decide
theorem test_treeLookup :
    (after (exec (.treeLookup ⟨0, 0, -2, 0, 0, 1⟩) (withTreeP3 State.reset))).map State.ret = some [1] ∧
    (after (exec (.treeLookup ⟨0, 0, 0, -1, 0, 0⟩) (withTreeP3 State.reset))).map State.ret = some [4] ∧
    (after (exec (.treeLookup ⟨9, 9, 9, 9, 9, 0⟩) (withTreeP3 State.reset))).map State.ret = some [3] := by decide

/-! ### Header (vectors, section 7) -/

theorem test_magic : retCur (exec .magic (onBytes [0x46, 0x4C, 0x49, 0x46])) = some ([], 32) := by decide
theorem test_parseMagic : errBits (exec .parseMagic (onBytes [0x46, 0x4C, 0x4A, 0x46])) = some [6, 1, 2, 24] ∧
    errBits (exec .parseMagic (onBytes [0x46, 0x4C, 0x49])) = some [6, 3, 0, 24] := by decide
theorem test_width : (after (exec .width (onBytes [0x82, 0x2C]))).map (fun t => t.hdr.width) = some 300 ∧
    errBits (exec .width (onBytes [0x00])) = some [6, 2, 1, 8] := by decide
theorem test_height : (after (exec .height (withHeader (header 4096 0 0 0 0 0) (onBytes [0xA0, 0x00])))).map
      (fun t => (t.hdr.height, t.host.status)) = some (4096, 0) ∧
    errBits (exec .height (withHeader (header 4097 0 0 0 0 0) (onBytes [0xA0, 0x00]))) = some [6, 2, 12, 16] := by decide
theorem test_channels : (after (exec .channels (onBytes [4]))).map (fun t => (t.hdr.channels, t.host.status)) = some (4, 0) ∧
    errBits (exec .channels (onBytes [5])) = some [6, 2, 3, 8] := by decide
theorem test_depth : (after (exec .depth (onBytes [16]))).map (fun t => (t.hdr.depth, t.host.status)) = some (16, 0) ∧
    errBits (exec .depth (onBytes [17])) = some [6, 2, 4, 8] := by decide
theorem test_flags : (after (exec .flags (withHeader (header 1 1 3 8 0 0) (onBytes [0x06])))).map
      (fun t => (t.hdr.flags, t.host.status)) = some (6, 0) ∧
    errBits (exec .flags (withHeader (header 1 1 2 8 0 0) (onBytes [0x04]))) = some [6, 2, 8, 8] := by decide
theorem test_parseFlags : errBits (exec .parseFlags (onBytes [0x30])) = some [6, 2, 5, 8] ∧
    errBits (exec .parseFlags (onBytes [0x10])) = some [6, 2, 6, 8] ∧
    errBits (exec .parseFlags (withHeader (header 1 1 3 8 0 0) (onBytes [0x0C]))) = some [6, 2, 7, 8] := by decide
theorem test_chorder : (after (exec .chorder (withHeader (header 1 1 3 8 0 0) (onBytes [0x21])))).map
      (fun t => (t.hdr.chorder, t.host.status)) = some (0x21, 0) ∧
    errBits (exec .chorder (withHeader (header 1 1 3 8 0 0) (onBytes [0x14]))) = some [6, 2, 9, 8] := by decide
theorem test_parseChorder : errBits (exec .parseChorder (withHeader (header 1 1 1 8 0 0) (onBytes [0x04]))) = some [6, 2, 9, 8] ∧
    (after (exec .parseChorder (withHeader (header 1 1 4 8 0 0) (onBytes [0x1B])))).map (fun t => t.host.status) = some 0 := by
  decide
theorem test_nframes : (after (exec .nframes (onBytes [0x80, 0x01]))).map (fun t => (t.hdr.frames, t.br.cur)) = some (1, 16) ∧
    errBits (exec .nframes (onBytes [2])) = some [6, 2, 11, 8] := by decide
theorem test_metalen : (after (exec .metalen (withHeader (header 1 1 1 8 2 0) (onBytes [3])))).map
      (fun t => (t.hdr.metalen, t.br.cur)) = some (3, 8) ∧
    (after (exec .metalen (withHeader (header 1 1 1 8 0 0) (onBytes [3])))).map (fun t => t.br.cur) = some 0 := by decide
theorem test_metadata : retCur (exec .metadata (withHeader { header 1 1 1 8 2 0 with metalen := 3 } (onBytes [0xDE, 0xAD, 0x42])))
      = some ([], 24) ∧
    errBits (exec .metadata (withHeader { header 1 1 1 8 2 0 with metalen := 5 } (onBytes [1, 2, 3]))) = some [6, 3, 0, 0] := by
  decide
theorem test_parseHeader : (after (exec .parseHeader (onBytes bytesP2))).map (fun t => (t.hdr, t.br.cur)) =
    some ({ header 3 2 3 8 6 0x21 with metalen := 3 }, 120) := by decide

/-! ### Plane Reconstructor (vectors, section 8) -/

theorem test_passPositions : (after (exec .passPositions (at_ .idle 0 8 0 0 (withHeader (header 5 3 1 4 1 0) State.reset)))).map
    State.ret = some [1, 0, 3, 0, 1, 1, 3, 1, 1, 2, 3, 2] := by decide
theorem test_neighbours : (after (exec .neighbours (atP3 6 2 2))).map State.ret = some [2, 5, 3, 7, 5, 2] ∧
    (after (exec .neighbours (atP3 0 0 0))).map State.ret = some [8, 8, 8, 8, 8, 8] := by decide
theorem test_ahead : (after (exec .ahead (atP3 6 2 2))).map State.ret = some [1, 15] ∧
    (after (exec .ahead (atP3 5 4 2))).map State.ret = some [0] := by decide
theorem test_predict : (after (exec .predict (atP3 7 4 1))).map State.ret = some [11] ∧
    (after (exec .predict (atP3 5 4 2))).map State.ret = some [6] := by decide
theorem test_properties : (after (exec .properties (atP3 6 2 2))).map State.ret = some [-1, -2, -2, 0, 0, -13] ∧
    (after (exec .properties (atP3 7 0 1))).map State.ret = some [0, 0, -2, 0, 0, 1] := by decide
theorem test_predictor_corners : predictFrom .R ⟨248, 98, 99, 0, 0, 0⟩ none = 247 ∧
    predictFrom .R ⟨0, 0, 255, 0, 0, 0⟩ none = 0 ∧ predictFrom .R ⟨65535, 65535, 0, 0, 0, 0⟩ none = 65535 ∧
    predictFrom .R ⟨5, 5, 9, 0, 0, 0⟩ none = 5 := by decide
theorem test_resid : (after (exec .resid atP1)).map (fun t => (t.plane, t.ac.rng, t.ac.code)) =
    some ([(planeKey 0 0 0, 131)], 0x04000000, 0) := by decide
/-- Program E10: depth 2, residual +3 on 2, clamped. -/
theorem test_decodePixel : (after (exec .decodePixel (withHeader (header 1 1 1 2 0 0) atP1))).map State.plane =
    some [(planeKey 0 0 0, 3)] := by decide
theorem test_planeLoop : (after (exec .planeLoop (withHeader (header 1 1 1 8 0 0) (coded 0x13FFF800 [])))).map
    (fun t => (t.sq.seq, t.plane, t.sq.planesDone, t.sq.plW[0])) = some (.assemble, [(planeKey 0 0 0, 131)], 1, 1) := by decide

/-! ### Sequencer and Image Assembler (R245; vectors, sections 9, 10) -/

theorem test_sequencerStep : (after (exec .sequencerStep (at_ .passComplete 0 3 0 0 (withHeader (header 5 3 1 4 1 0) State.reset)))).map
      (fun t => (t.sq.seq, t.sq.pi, t.sq.x, t.sq.y)) = some (.reconstructingPass, 4, 4, 0) ∧
    (after (exec .sequencerStep (at_ .planeComplete 0 1 0 0 (withHeader (header 5 3 1 4 0 0) State.reset)))).map
      (fun t => (t.sq.seq, t.sq.p, t.sq.planesDone)) = some (.assemble, 1, 1) := by decide

/-- One pixel of three planes, SUBG, channel order [1, 0, 2] (vectors, section 9). -/
def toAssemble : State :=
  { withRows 0 [[100]] (withRows 1 [[100]] (withRows 2 [[206]] (withHeader (header 1 1 3 8 4 0x21) State.reset))) with
    sq := { State.reset.sq with planesDone := 3, plW := Vector.replicate 4 1, plH := Vector.replicate 4 1 } }

theorem test_assemble : (after (exec .assemble toAssemble)).map (fun t => (t.output.map (fun c => c.2.toNat), t.host.status,
    t.host.outChannels)) = some ([200, 100, 50], statusDone, 3) := by decide
theorem test_assemble_checks :
    errBits (exec .assemble { toAssemble with sq := { toAssemble.sq with planesDone := 2 } }) = some [6, 7, 1, 0] ∧
    errBits (exec .assemble { toAssemble with sq := { toAssemble.sq with plH := Vector.replicate 4 2 } }) = some [6, 7, 2, 0] := by
  decide
theorem test_raise : errBits (exec (.raise ⟨.corruptTree, 2⟩) { State.reset with br := ⟨0, 0x7FFFFFFFF, 0x400000005⟩ }) =
    some [6, 5, 2, 0x400000005] := by decide

/-! ### Host commands (vectors, section 10) -/

theorem test_decode : (after (exec (.decode 0) { State.reset with
      host := { HostRegs.reset with inHandle := 0x1000, inSize := 15, errCode := 3, bitsLo := 24, status := statusErr } })).map
    (fun t => (t.br, t.host.status, t.host.errCode, t.host.bitsLo, t.sq.seq)) =
      some (⟨0x1000, 120, 0⟩, statusBusy, 0, 0, .hdrMagic) := by decide
theorem test_decode_sizes : limitOf 0xFFFFFFFF = 0 ∧ limitOf 0x80000000 = 0 ∧ limitOf 0x7FFFFFFF = 17179869176 := by decide
theorem test_startWhileBusy : exec (.startWhileBusy 0) atP1 = .next atP1 := rfl
theorem test_ctrlNop : exec (.ctrlNop 0x7FFFFFFF) State.reset = .next State.reset := rfl
theorem test_version : (after (exec .version State.reset)).map State.busData = some 1 := by decide
theorem test_writeInHandle : (after (exec (.writeInHandle 0x1000) State.reset)).map (fun t => readHostReg t 3) = some 0x1000 := by
  decide
theorem test_writeInSize : (after (exec (.writeInSize 15) State.reset)).map (fun t => readHostReg t 4) = some 15 := by decide
theorem test_readReg : (after (exec (.readReg 2) atP1)).map State.busData = some 1 ∧
    (after (exec (.readReg 14) atP1)).map State.busData = some 0 := by decide
theorem test_writeRoReg : exec (.writeRoReg 0 7) State.reset = .next State.reset := rfl
theorem test_readOutput : ((after (exec .assemble toAssemble)).bind fun t => after (exec (.readOutput 2) t)).map State.busData =
    some 50 := by decide
theorem test_writeInput : (after (exec (.writeInput 0 0x99) (onBytes [0xA5, 0x3C]))).map State.input =
    some [(0, 0x99), (1, 0x3C)] := by decide
/-- A byte written under a running session keeps its former value beside the new one (U2). -/
theorem test_writeInput_busy : (after (exec (.writeInput 1 0x99)
    { onBytes [0xA5, 0x3C] with host := { HostRegs.reset with status := statusBusy } })).map State.stale = some [(1, 0x3C)] := by
  decide
theorem test_reset : (after (exec .reset { atP1 with host := { HostRegs.reset with inSize := 15, errInfo := 2 } })).map
    (fun t => (t.sq.seq, t.host)) = some (.idle, HostRegs.reset) := by decide

/-! ### Fetching -/

theorem test_fetch_acinit : (after (step (State.reset.withFetchWord 32 0x13FFF800))).map (fun t => (t.ac.rng, t.ac.code)) =
    some (0xFFFFFFFF, 0x13FFF800) := by decide +kernel
theorem test_fetch_flags : (after (step (State.reset.withFetchWord 8 0x03))).map (fun t => (t.hdr.flags, t.inputs)) =
    some (3, []) := by decide

/-! ### Witnesses: the hypotheses of the statements can be met -/

theorem exists_of_isSome {α : Type} {o : Option α} (h : o.isSome = true) : ∃ a, o = some a := Option.isSome_iff_exists.mp h

theorem exists_next {o : Host.Outcome State Fault Refusal} (h : (after o).isSome = true) : ∃ t, o = .next t := by
  cases o with
  | next t => exact ⟨t, rfl⟩
  | fault _ => simp [after] at h
  | refused _ => simp [after] at h

/-- The value of an operation that ended well. -/
def okValue {α : Type} : Res α → Option α
  | .ok a _ => some a
  | .ended _ => none
  | .fault _ => none

theorem exists_ok {α : Type} {r : Res α} {a : α} (h : okValue r = some a) : ∃ t, r = .ok a t := by
  cases r with
  | ok b t => exact ⟨t, by simp_all [okValue]⟩
  | ended _ => simp [okValue] at h
  | fault _ => simp [okValue] at h

theorem witness_StepRunsTheDecodedInstruction : State.reset.inputs = [] ∧
    (State.reset.withInputs [.turn, .turn]).inputs = .turn :: [.turn] ∧ decode false .turn = .ok .sequencerStep ∧
    (State.reset.withInputs [.call 60 []]).inputs = .call 60 [] :: [] ∧
    decode false (.call 60 []) = .error (.noSuchRow 60) := by decide

theorem witness_DecodeOfEncodeIsTheInstruction : wellFormed (.mant (.leaf 8190) 14) = true ∧
    wellFormed (.nzDecode .thr 1 ⟨.corruptTree, 3⟩) = true ∧ wellFormed (.raise ⟨.channelCountMismatch, 2⟩) = true ∧
    wellFormed (.writeRoReg 0 0) = true ∧ wellFormed (.startWhileBusy 0) = true := by decide

theorem witness_DecodeStartsASession : State.reset.busy = false ∧
    ({ State.reset with host := { HostRegs.reset with status := statusErr } } : State).busy = false := by decide

theorem witness_HostRegisterWrites : atP1.busy = true ∧ (0 ≠ 1 ∧ 0 ≠ 3 ∧ 0 ≠ 4) ∧ (2 ≠ 1 ∧ 2 ≠ 3 ∧ 2 ≠ 4) ∧
    (5 ≠ 1 ∧ 5 ≠ 3 ∧ 5 ≠ 4) := by decide

theorem witness_WriteInputStoresOneByte : (1 : Nat) ≠ (0 : Word).toNat ∧ inSessionRegion State.reset 0 = false ∧
    inSessionRegion { onBytes [1, 2] with host := { HostRegs.reset with status := statusBusy } } 2 = false := by decide

/-- A session has ended with a 3 × 1 image; its last word is word 2. -/
def ended : State :=
  { State.reset with
    host := { HostRegs.reset with status := statusDone, outWidth := 3, outHeight := 1, outChannels := 1 }
    output := [(0, 5), (1, 6), (2, 7)] }

theorem witness_OutputReadsHaveNoSideEffect : ended.host.status = 0b010 ∧
    (2 : BitVec 26).toNat < ended.host.outWidth.toNat * ended.host.outHeight.toNat * ended.host.outChannels.toNat ∧
    Store.get? ended.output (2 : BitVec 26).toNat = some 7 := by decide

theorem witness_RaiseIsTerminal : (at_ .doneErr 0 0 0 0 State.reset).sq.seq = .doneErr := rfl

theorem witness_ReadBitDeliversTheNextBit : ({ onBytes [0xA5] with br := ⟨0, 8, 7⟩ } : State).readable 1 = true ∧
    ({ onBytes [0xA5] with br := ⟨0, 8, 8⟩ } : State).br.lim.toNat ≤ ({ onBytes [0xA5] with br := ⟨0, 8, 8⟩ } : State).br.cur.toNat := by
  decide

theorem witness_ReadUintReadsMostSignificantFirst : (onBytes [1, 2, 3, 4]).readable 32 = true ∧
    (onBytes []).readable 0 = true ∧ (onBytes [1, 2, 3]).inputOwned = true ∧
    (onBytes [1, 2, 3]).br.cur.toNat ≤ (onBytes [1, 2, 3]).br.lim.toNat ∧
    (onBytes [1, 2, 3]).br.lim.toNat < (onBytes [1, 2, 3]).br.cur.toNat + 25 ∧ (onBytes [1]).br.cur.toNat % 8 = 0 := by decide

theorem witness_ReadVarintReadsEveryForm :
    (VarField.legal ⟨0, 1⟩ = true ∧ (onBytes [0]).readable (8 * 1) = true ∧
      (onBytes [0]).peekBytes 1 = VarField.encode ⟨0, 1⟩) ∧
    (VarField.legal ⟨4294967295, 5⟩ = true ∧ (onBytes [0x8F, 0xFF, 0xFF, 0xFF, 0x7F]).readable (8 * 5) = true ∧
      (onBytes [0x8F, 0xFF, 0xFF, 0xFF, 0x7F]).peekBytes 5 = VarField.encode ⟨4294967295, 5⟩) ∧
    (VarField.legal ⟨0, 2⟩ = true ∧ (onBytes [0x80, 0x00]).readable (8 * 2) = true ∧
      (onBytes [0x80, 0x00]).peekBytes 2 = VarField.encode ⟨0, 2⟩) := by decide

theorem witness_FiveByteVarints :
    (34359738367 < 2 ^ 35 ∧ (onBytes [0xFF, 0xFF, 0xFF, 0xFF, 0x7F]).readable 40 = true ∧
      (onBytes [0xFF, 0xFF, 0xFF, 0xFF, 0x7F]).peekBytes 5 =
        (varintBytes 5 34359738367).take 4 ++ [BitVec.ofNat 8 (128 * false.toNat + 34359738367 % 128)]) ∧
    (4294967295 < 2 ^ 35 ∧ (onBytes [0x8F, 0xFF, 0xFF, 0xFF, 0xFF]).readable 40 = true ∧
      (onBytes [0x8F, 0xFF, 0xFF, 0xFF, 0xFF]).peekBytes 5 =
        (varintBytes 5 4294967295).take 4 ++ [BitVec.ofNat 8 (128 * true.toNat + 4294967295 % 128)]) := by decide

theorem witness_SkipBytesTestsTheWholeLength :
    (let s : State := { State.reset with br := ⟨0, 120, 88⟩ }
     s.br.cur.toNat + 8 * (4 : Word).toNat ≤ s.br.lim.toNat ∧ s.br.lim.toNat < s.br.cur.toNat + 8 * (5 : Word).toNat) := by
  decide

theorem witness_AcInitLoadsTheWindow : (onBytes [1, 2, 3, 4]).readable 32 = true ∧ (onBytes [1, 2, 3]).inputOwned = true ∧
    (onBytes [1, 2, 3]).br.cur.toNat ≤ (onBytes [1, 2, 3]).br.lim.toNat ∧
    (onBytes [1, 2, 3]).br.lim.toNat < (onBytes [1, 2, 3]).br.cur.toNat + 32 := by decide

/-- The narrowest interval, with two bytes and with one byte still to come. -/
theorem witness_DecodeBitNarrowsAndRefills :
    (let s := interval 0x01000000 0 [0xAB, 0xCD]
     1 ≤ (1 : Ctr).toNat ∧ 2 ^ 24 ≤ s.ac.rng.toNat ∧ s.readable (8 * refills (s.widthAfter (1 : Ctr).toNat)) = true) ∧
    (let s := interval 0x01000000 0x00FFFFFF [0xAB]
     1 ≤ (4095 : Ctr).toNat ∧ 2 ^ 24 ≤ s.ac.rng.toNat ∧ s.inputOwned = true ∧ s.br.cur.toNat ≤ s.br.lim.toNat ∧
      s.br.lim.toNat < s.br.cur.toNat + 8 * refills (s.widthAfter (4095 : Ctr).toNat)) := by decide

theorem witness_RenormaliseRefillsToTheThreshold :
    (let s := interval 1 0 [1, 2, 3]
     0 < s.ac.rng.toNat ∧ s.readable (8 * refills s.ac.rng.toNat) = true) ∧
    (let s := interval 0xFFFFFFFF 0 []
     0 < s.ac.rng.toNat ∧ s.readable (8 * refills s.ac.rng.toNat) = true) ∧
    (let s := interval 1 0 [1, 2]
     0 < s.ac.rng.toNat ∧ s.inputOwned = true ∧ s.br.cur.toNat ≤ s.br.lim.toNat ∧
      s.br.lim.toNat < s.br.cur.toNat + 8 * refills s.ac.rng.toNat) ∧
    (let s := interval 0x00FFFFFF 0 [1]
     s.ac.rng.toNat < 2 ^ 24 ∧ s.readable 8 = true) := by decide

/-- Counters at both ends of their range, in META and in the last leaf. -/
theorem witness_DecodeCtxUpdatesItsCounter :
    (let s := setCtr (.metaCtr 40) 31 (interval 0x01000000 0 [7])
     s.memoryWf = true ∧ ctrAt (.metaCtr 40) s = some 31 ∧ 2 ^ 24 ≤ s.ac.rng.toNat ∧
      s.readable (8 * refills (s.widthAfter 31)) = true) ∧
    (let s := setCtr (.leafCtr 8190 32) 4065 (interval 0x01000000 0x00FFFFFF [])
     s.memoryWf = true ∧ ctrAt (.leafCtr 8190 32) s = some 4065 ∧ 2 ^ 24 ≤ s.ac.rng.toNat ∧ s.inputOwned = true ∧
      s.br.cur.toNat ≤ s.br.lim.toNat ∧ s.br.lim.toNat < s.br.cur.toNat + 8 * refills (s.widthAfter 4065)) := by decide

theorem witness_NzDecodesTheCodedInteger :
    wellFormed (.nzDecode .thr 16 ⟨.corruptTree, 3⟩) = true ∧
    (∃ t, takes (coded 0x7FFFB7FF [0x80, 0, 0, 0]) (codedInt .thr (-65535)) = some t) ∧
    (∃ t, takes (coded 0x3FFFB800 [0, 0]) (tooLarge .thr 16 false) = some t) ∧
    wellFormed (.nzDecode (.leaf 8190) 1 ⟨.corruptPixelValue, 0⟩) = true ∧
    (∃ t, takes (coded 0x7FFFF800 []) (codedInt (.leaf 8190) 0) = some t) ∧
    (∃ t, takes (coded 0x5FFFF800 []) (tooLarge (.leaf 8190) 1 true) = some t) :=
  ⟨by decide, exists_of_isSome (by decide), exists_of_isSome (by decide), by decide, exists_of_isSome (by decide),
    exists_of_isSome (by decide)⟩

theorem witness_NzResultIsUniquelyCoded : wellFormed (.nzDecode .thr 16 ⟨.corruptTree, 3⟩) = true ∧
    ∃ t, nzDecode .thr 16 ⟨.corruptTree, 3⟩ (coded 0x7FFFB7FF [0x80, 0, 0, 0]) = .ok (-65535) t :=
  ⟨by decide, exists_ok (by decide)⟩

theorem witness_NzPartsUseTheirOwnCounters :
    (∃ t, takes (coded 0 []) [(.metaCtr 8, false)] = some t) ∧ (∃ t, takes (coded 0 []) [(.metaCtr 9, false)] = some t) ∧
    (∃ t, takes (coded 0xFFFFFFFF []) [(.metaCtr (10 + 15), true)] = some t) ∧
    (∃ t, takes (coded 0xFFFFFFFF []) [(.metaCtr (26 + 14), true)] = some t) ∧
    (∃ t, takes (coded 0 []) [(.leafCtr 8190 0, false)] = some t) ∧
    (∃ t, takes (coded 0 []) [(.leafCtr 8190 1, false)] = some t) ∧
    (∃ t, takes (coded 0xFFFFFFFF []) [(.leafCtr 8190 (2 + 15), true)] = some t) ∧
    (∃ t, takes (coded 0xFFFFFFFF []) [(.leafCtr 8190 (18 + 14), true)] = some t) :=
  ⟨exists_of_isSome (by decide), exists_of_isSome (by decide), exists_of_isSome (by decide), exists_of_isSome (by decide),
    exists_of_isSome (by decide), exists_of_isSome (by decide), exists_of_isSome (by decide), exists_of_isSome (by decide)⟩

theorem witness_SplitIsOneDecision : (∃ t, takes (coded 0x7FFFF800 []) [(.metaCtr 0, true)] = some t) ∧
    12 ≤ ({ coded 0x7FFFF800 [] with cm := { State.reset.cm with depth := 12 } } : State).cm.depth.toNat ∧
    (∃ t, takes { coded 0x7FFFF800 [] with cm := { State.reset.cm with depth := 12 } } [(.metaCtr 0, true)] = some t) :=
  ⟨exists_of_isSome (by decide), by decide, exists_of_isSome (by decide)⟩

theorem witness_PropIsThreeDecisions :
    (∃ t, takes (coded 0x9FFFF800 []) [(.metaCtr 1, true), (.metaCtr (2 + true.toNat), false),
      (.metaCtr (4 + 2 * true.toNat + false.toNat), true)] = some t) ∧
    (∃ t, takes (coded 0xBFFFF800 []) [(.metaCtr 1, true), (.metaCtr (2 + true.toNat), true),
      (.metaCtr (4 + 2 * true.toNat + true.toNat), false)] = some t) :=
  ⟨exists_of_isSome (by decide), exists_of_isSome (by decide)⟩

theorem witness_ThrIsANearZeroInteger :
    (∃ t, takes (coded 0x7FFFB7FF [0x80, 0, 0, 0]) (codedInt .thr (-65535)) = some t) ∧
    (∃ t, takes (coded 0x3FFFB7FF [0x80, 0, 0, 0]) (codedInt .thr 65535) = some t) ∧
    (∃ t, takes (coded 0x7FFFB800 [0, 0]) (tooLarge .thr 16 true) = some t) :=
  ⟨exists_of_isSome (by decide), exists_of_isSome (by decide), exists_of_isSome (by decide)⟩

/-- A split with the extreme threshold at depth 11, its leaves the last two entries of the arena. -/
theorem witness_NodeRecordIsStoredInPreOrder :
    (let s : State := { coded 0xD7FFF3FF [0xF8, 0, 0, 0] with cm := { State.reset.cm with nn := 8188, depth := 11 } }
     let T : TreeShape := .split 5 (-65535) .leaf .leaf
     s.memoryWf = true ∧ T.fieldsLegal = true ∧ 11 + T.height ≤ 12 ∧ s.cm.nn.toNat + T.size ≤ 8191 ∧
      s.cm.depth.toNat = 11 ∧ ∃ t, takes s (codedTree T) = some t) :=
  ⟨by decide, by decide, by decide, by decide, by decide, exists_of_isSome (by decide)⟩

theorem witness_SplitAtDepthTwelveIsCorrupt :
    (let s : State := { coded 0x7FFFF800 [] with cm := { State.reset.cm with nn := 8190, depth := 12 } }
     s.cm.nn.toNat < 8191 ∧ s.cm.depth = 12 ∧ ∃ t, takes s [(.metaCtr 0, true)] = some t) :=
  ⟨by decide, by decide, exists_of_isSome (by decide)⟩

/-- Twelve splits down the left spine, the deepest tree there is. -/
def spine : Nat → TreeShape
  | 0 => .leaf
  | n + 1 => .split 0 0 (spine n) .leaf

theorem witness_TreeDecodeBuildsTheCodedTree : State.reset.memoryWf = true ∧ treeP3.legal = true ∧ (spine 12).legal = true ∧
    (∃ t, takes (coded 0xDAB2FD98 [0]).treeStart (codedTree treeP3) = some t) ∧
    (∃ t, takes (coded 0x8C4D868D [0x74, 0x4F, 0x29, 0x10, 0x38, 0, 0]).treeStart (codedTree (spine 12)) = some t) ∧
    (coded 0xDAB2FD98 [0]).memoryWf = true ∧ (coded 0x8C4D868D [0x74, 0x4F, 0x29, 0x10, 0x38, 0, 0]).memoryWf = true :=
  ⟨by decide, by decide, by decide, exists_of_isSome (by decide), exists_of_isSome (by decide +kernel), by decide, by decide⟩

theorem witness_TreeFormsAgree : (coded 0xDAB2FD98 [0]).memoryWf = true := by decide

theorem witness_LookupFollowsTheTree : treeP3.legal = true ∧ treeAt (withTreeP3 State.reset) treeP3 0 = true ∧
    TreeShape.legal .leaf = true ∧ treeAt State.reset .leaf 0 = true := by decide

theorem witness_MagicIsComparedByteByByte :
    (let s := onBytes [0x46, 0x4C, 0x49, 0x46]
     s.readable 32 = true ∧ s.peekBytes 4 = [0x46, 0x4C, 0x49, 0x46]) ∧
    (let s := onBytes [0x46, 0x4C, 0x49, 0x47]
     s.readable (8 * (3 + 1)) = true ∧ s.peekBytes 3 = List.take 3 [0x46, 0x4C, 0x49, 0x46] ∧
      s.peekBytes (3 + 1) ≠ List.take (3 + 1) [0x46, 0x4C, 0x49, 0x46]) ∧
    (let s := onBytes [0x46, 0x4C, 0x49]
     s.readable (8 * 3) = true ∧ s.br.lim.toNat < s.br.cur.toNat + 8 * (3 + 1) ∧
      s.peekBytes 3 = List.take 3 [0x46, 0x4C, 0x49, 0x46]) ∧
    (let s := onBytes []
     s.readable (8 * 0) = true ∧ s.br.lim.toNat < s.br.cur.toNat + 8 * (0 + 1) ∧
      s.peekBytes 0 = List.take 0 [0x46, 0x4C, 0x49, 0x46]) := by decide

/-- Also the witness of FramesAndMetadataAreRead's first clause. -/
theorem witness_DimensionsAreStoredAndChecked :
    VarField.legal ⟨4097, 2⟩ = true ∧ (onBytes [0xA0, 0x01]).readable (8 * 2) = true ∧
      (onBytes [0xA0, 0x01]).peekBytes 2 = VarField.encode ⟨4097, 2⟩ := by decide

theorem witness_ChannelsAndDepthAreChecked : (onBytes [16]).readable 8 = true := by decide
theorem witness_FlagsAreCheckedInOrder : (onBytes [0x07]).readable 8 = true := by decide
theorem witness_ChorderMustBeAPermutation :
    (let s := withHeader (header 1 1 3 8 0 0) (onBytes [0x21])
     s.readable 8 = true ∧ (∀ k, k < 4 → k < s.C → s.peek 8 / 4 ^ k % 4 < s.C ∧
      ∀ j, j < k → s.peek 8 / 4 ^ j % 4 ≠ s.peek 8 / 4 ^ k % 4) ∧ ∀ k, k < 4 → s.C ≤ k → s.peek 8 / 4 ^ k % 4 = 0) := by decide

theorem witness_FramesAndMetadataAreRead :
    (VarField.legal ⟨1, 1⟩ = true ∧ (withHeader (header 1 1 1 8 2 0) (onBytes [1])).readable (8 * 1) = true ∧
      (withHeader (header 1 1 1 8 2 0) (onBytes [1])).peekBytes 1 = VarField.encode ⟨1, 1⟩ ∧
      (withHeader (header 1 1 1 8 2 0) (onBytes [1])).hdr.flags.getLsbD 1 = true) ∧
    (let s := withHeader { header 1 1 1 8 2 0 with metalen := 3 } (onBytes [1, 2, 3])
     s.hdr.flags.getLsbD 1 = true ∧ s.br.cur.toNat + 8 * s.hdr.metalen.toNat ≤ s.br.lim.toNat) ∧
    (let s := withHeader { header 1 1 1 8 2 0 with metalen := 4 } (onBytes [1, 2, 3])
     s.hdr.flags.getLsbD 1 = true ∧ s.br.lim.toNat < s.br.cur.toNat + 8 * s.hdr.metalen.toNat) ∧
    State.reset.hdr.flags.getLsbD 1 = false := by decide

theorem witness_HeaderOfItsEncodingIsParsed : headerP2.legal = true ∧
    (onBytes bytesP2).readable (8 * headerP2.encode.length) = true ∧
    (onBytes bytesP2).peekBytes headerP2.encode.length = headerP2.encode := by decide

theorem witness_PassPositionsAreItsPositions :
    passOf (atP3 8 0 0).interlaced (atP3 8 0 0).sq.pi.toNat = some ⟨.H, 1, 0, 2, 1, 1, 1⟩ ∧
    passOf State.reset.interlaced State.reset.sq.pi.toNat = some ⟨.R, 0, 0, 1, 1, 1, 1⟩ := by decide

theorem witness_NeighboursComeEarlier : passOf true 7 = some ⟨.V, 0, 1, 2, 2, 2, 1⟩ ∧
    Pass.has ⟨.V, 0, 1, 2, 2, 2, 1⟩ 5 3 4 1 = true := by decide

/-- An interior pixel of an H pass, and a pixel of a V pass at the right edge. -/
theorem witness_NeighboursAreReadByR237 : PixelReads (atP3 6 2 2) ⟨.H, 2, 0, 4, 2, 2, 2⟩ sampleP3 ∧
    PixelReads (atP3 7 4 1) ⟨.V, 0, 1, 2, 2, 2, 1⟩ sampleP3 ∧
    PixelReads (atP3 0 0 0) ⟨.R, 0, 0, 16, 16, 16, 16⟩ sampleP3 := by
  unfold PixelReads
  decide

/-- An interior pixel with all six neighbours and an ahead neighbour, the samples within the depth. -/
theorem witness_PredictionIsAverageOrMedian : PixelReads (atP3 6 2 2) ⟨.H, 2, 0, 4, 2, 2, 2⟩ sampleP3 ∧
    1 ≤ (atP3 6 2 2).D ∧ (atP3 6 2 2).D ≤ 16 ∧
    (∀ c ∈ neighbourReads ⟨.H, 2, 0, 4, 2, 2, 2⟩ (atP3 6 2 2).W (atP3 6 2 2).H (atP3 6 2 2).sq.x.toNat (atP3 6 2 2).sq.y.toNat,
      sampleP3 c.1 c.2 ≤ 2 ^ (atP3 6 2 2).D - 1) := by
  unfold PixelReads
  decide

/-- The same, and a pixel for which nothing is read. -/
theorem witness_PropertiesAreNeighbourDifferences : (PixelReads (atP3 6 2 2) ⟨.H, 2, 0, 4, 2, 2, 2⟩ sampleP3 ∧
      1 ≤ (atP3 6 2 2).D ∧ (atP3 6 2 2).D ≤ 16 ∧
      (∀ c ∈ neighbourReads ⟨.H, 2, 0, 4, 2, 2, 2⟩ (atP3 6 2 2).W (atP3 6 2 2).H (atP3 6 2 2).sq.x.toNat (atP3 6 2 2).sq.y.toNat,
        sampleP3 c.1 c.2 ≤ 2 ^ (atP3 6 2 2).D - 1)) ∧
    PixelReads (atP3 0 0 0) ⟨.R, 0, 0, 16, 16, 16, 16⟩ sampleP3 ∧
    neighbourReads ⟨.R, 0, 0, 16, 16, 16, 16⟩ (atP3 0 0 0).W (atP3 0 0 0).H (atP3 0 0 0).sq.x.toNat (atP3 0 0 0).sq.y.toNat = [] := by
  unfold PixelReads
  decide

/-- P3 at its first pixel, with a payload that goes on with the given bytes. -/
def pixelP3 (code : Word) (bs : List Nat) : State :=
  { atP3 0 0 0 with ac := (coded code bs).ac, br := (onBytes bs).br, input := (onBytes bs).input }

theorem witness_PixelIsPredictionPlusResidual :
    PixelReads (pixelP3 0x3B7FF800 [0]) ⟨.R, 0, 0, 16, 16, 16, 16⟩ sampleP3 ∧ (pixelP3 0x3B7FF800 [0]).sq.p.toNat < 4 ∧
    1 ≤ (pixelP3 0x3B7FF800 [0]).D ∧ (pixelP3 0x3B7FF800 [0]).D ≤ 16 ∧ treeP3.legal = true ∧
    treeAt (pixelP3 0x3B7FF800 [0]) treeP3 0 = true ∧ (15 : Int).natAbs < 2 ^ (pixelP3 0x3B7FF800 [0]).D ∧
    selectFrom (propertiesFrom .R (neighboursBy ⟨.R, 0, 0, 16, 16, 16, 16⟩ 5 8 0 0 sampleP3) none) treeP3 0 = 3 ∧
    (∃ t, takes (pixelP3 0x3B7FF800 [0]) (codedInt (.leaf 3) 15) = some t) ∧
    PixelReads (pixelP3 0x7BFFF800 []) ⟨.R, 0, 0, 16, 16, 16, 16⟩ sampleP3 ∧
    treeAt (pixelP3 0x7BFFF800 []) treeP3 0 = true ∧
    (∃ t, takes (pixelP3 0x7BFFF800 []) (tooLarge (.leaf 3) 4 true) = some t) := by
  unfold PixelReads
  exact ⟨by decide, by decide, by decide, by decide, by decide, by decide, by decide, by decide, exists_of_isSome (by decide),
    by decide, by decide, exists_of_isSome (by decide)⟩

/-- The sample of `toAssemble` in plane `q`. -/
def planeValue (q : Nat) : Nat := [100, 100, 206].getD q 0

theorem witness_AssembleWritesTheImage : toAssemble.sq.planesDone.toNat = toAssemble.C ∧ 1 ≤ toAssemble.C ∧ toAssemble.C ≤ 4 ∧
    toAssemble.W * toAssemble.H ≤ 16777216 ∧
    (∀ q, q < toAssemble.C → toAssemble.sq.plW[q]? = some toAssemble.hdr.width ∧ toAssemble.sq.plH[q]? = some toAssemble.hdr.height) ∧
    (∀ q, q < toAssemble.C → ∀ x, x < toAssemble.W → ∀ y, y < toAssemble.H → sampleAt toAssemble q y x = .ok (planeValue q)) ∧
    (∀ k, k < toAssemble.C → (toAssemble.order k).toNat < toAssemble.C) := by decide

theorem witness_AssembleChecksThePlanes :
    (let s : State := { toAssemble with sq := { toAssemble.sq with planesDone := 2 } }
     s.sq.planesDone.toNat ≠ s.C) ∧
    (let s : State := { toAssemble with sq := { toAssemble.sq with plH := Vector.replicate 4 2 } }
     s.sq.planesDone.toNat = s.C ∧ s.C ≤ 4 ∧ 2 < s.C ∧ s.sq.plW[2]? = some 1 ∧ s.sq.plH[2]? = some 2 ∧
      (1 ≠ s.hdr.width ∨ 2 ≠ s.hdr.height)) := by decide

theorem witness_SequencerWaitsAndKeepsTheBooks :
    (State.reset.sq.seq = .idle ∧ (at_ .doneOk 0 0 0 0 State.reset).sq.seq = .doneOk) ∧
    (let s := at_ .passComplete 0 7 0 0 (withHeader (header 5 3 1 4 1 0) State.reset)
     s.sq.seq = .passComplete ∧ passOf s.interlaced (s.sq.pi.toNat + 1) = some ⟨.H, 1, 0, 2, 1, 1, 1⟩) ∧
    (let s := at_ .passComplete 0 8 0 0 (withHeader (header 5 3 1 4 1 0) State.reset)
     s.sq.seq = .passComplete ∧ s.sq.pi.toNat + 1 = (if s.hdr.flags.getLsbD 0 then 9 else 1)) ∧
    (let s := at_ .passComplete 0 0 0 0 (withHeader (header 5 3 1 4 0 0) State.reset)
     s.sq.seq = .passComplete ∧ s.sq.pi.toNat + 1 = (if s.hdr.flags.getLsbD 0 then 9 else 1)) ∧
    (let s := at_ .planeComplete 3 1 0 0 (withHeader (header 5 3 4 4 0 0) State.reset)
     s.sq.seq = .planeComplete ∧ s.sq.p.toNat ≤ 3) := by decide

theorem witness_SequencerRunsTheElementOfItsState :
    (∃ t, exec .magic (at_ .hdrMagic 0 0 0 0 (onBytes bytesP2)) = .next t) ∧
    (∃ t, exec .metalen (at_ .hdrMeta 0 0 0 0 (withHeader (header 1 1 1 8 2 0) (onBytes [3, 1, 2, 3]))) = .next t) ∧
    (∃ t, exec .metadata (at_ .hdrMeta 0 0 0 0 (withHeader { header 1 1 1 8 2 0 with metalen := 3 } (onBytes [1, 2, 3]))) = .next t) ∧
    (∃ t, exec .acinit (at_ .acInit 0 0 0 0 (onBytes [1, 2, 3, 4])) = .next t) ∧
    (∃ t, exec .treeDecodeIterative (at_ .awaitingTree 3 0 0 0 (withHeader (header 1 1 4 8 0 0) (coded 0xDAB2FD98 [0]))) = .next t) ∧
    (∃ t, exec .resid atP1 = .next t) ∧ atP1.sq.seq = .reconstructingPass ∧ atP1.sq.x.toNat < atP1.W ∧
    passOf atP1.interlaced atP1.sq.pi.toNat = some ⟨.R, 0, 0, 1, 1, 1, 1⟩ :=
  ⟨exists_next (by decide), exists_next (by decide), exists_next (by decide), exists_next (by decide), exists_next (by decide),
    exists_next (by decide), by decide, by decide, by decide⟩

/-- A 1 × 1 image: four turns lead from its tree to ASSEMBLE. -/
theorem witness_PlaneLoopRunsItsTurns :
    (let s := withHeader (header 1 1 1 8 0 0) (coded 0x13FFF800 [])
     1 ≤ s.C ∧ 4 ≤ s.C * (s.W * s.H + 11) ∧
      ∃ t, turnsTo 4 { s with sq := { s.sq with p := 0, planesDone := 0, seq := .awaitingTree } } = some t) ∧
    (turnsTo 4 (at_ .awaitingTree 0 0 0 0 (withHeader (header 1 1 1 8 0 0) (coded 0x13FFF800 [])))).map (fun t => t.sq.seq) =
      some .assemble :=
  ⟨⟨by decide, by decide, exists_of_isSome (by decide)⟩, by decide⟩

/-- Program P1 from its tree on (vectors, section 11): one plane, one leaf, one pixel of value 131. -/
theorem witness_PlaneLoopDecodesTheCodedImage :
    (let s := withHeader (header 1 1 1 8 0 0) (coded 0x13FFF800 [])
     s.memoryWf = true ∧ 1 ≤ s.W ∧ 1 ≤ s.H ∧ s.W * s.H ≤ 16777216 ∧ 1 ≤ s.C ∧ s.C ≤ 4 ∧ 1 ≤ s.D ∧ s.D ≤ 16 ∧
      TreeShape.leaf.legal = true ∧ 131 < 2 ^ s.D ∧
      ∃ t, planesTake s ((List.range s.C).map fun _ =>
        (.leaf, codedPixels s.interlaced s.W s.H s.D .leaf fun _ _ => 131)) = some t) :=
  ⟨by decide, by decide, by decide, by decide, by decide, by decide, by decide, by decide, by decide, by decide,
    exists_of_isSome (by decide)⟩

theorem witness_MemoriesStayCanonical : (withTreeP3 atP1).memoryWf = true ∧ ∃ t, step (withTreeP3 atP1) = .next t :=
  ⟨by decide, exists_next (by decide)⟩

theorem witness_CursorStaysInTheInput :
    cursorInv { State.reset with br := ⟨0, 17179869176, 17179869176⟩ } = true ∧
    ∃ t, step { State.reset with br := ⟨0, 17179869176, 17179869176⟩ } = .next t :=
  ⟨by decide, exists_next (by decide)⟩

theorem witness_CountersStayInRange : countersInv (setCtr (.leafCtr 0 0) 31 (setCtr (.metaCtr 0) 4065 atP1)) = true ∧
    ∃ t, step (setCtr (.leafCtr 0 0) 31 (setCtr (.metaCtr 0) 4065 atP1)) = .next t :=
  ⟨by decide, exists_next (by decide)⟩

theorem witness_SessionInvariantIsKept : sessionInv atP1 = true ∧ ∃ t, step atP1 = .next t :=
  ⟨by decide, exists_next (by decide)⟩

/-- P1 at its one pixel, with the premises of SessionsNeverFault. -/
theorem witness_SessionsNeverFault : atP1.memoryWf = true ∧ sessionInv atP1 = true ∧ progressInv atP1 := by
  refine ⟨by decide, by decide, ?_⟩
  show _ ∧ _
  refine ⟨by decide, by decide, fun q h => absurd h (Nat.not_lt_zero q), ⟨.leaf, by decide, by decide⟩, by decide, by decide,
    fun i _ _ _ h => absurd h (Nat.not_lt_zero i), ⟨.R, 0, 0, 1, 1, 1, 1⟩, by decide, by decide, fun x y _ h => ?_⟩
  have h0 : rasterBefore (x, y) (0, 0) = false := by simp [rasterBefore]
  exact absurd (h0.symm.trans h) (by decide)

theorem witness_HostRunsAreSafe : hostDriven [.move (.writeReg 3 0x1000), .move (.writeInput 0xFFFFFFFF 0), .turn,
    .move .assertReset] = true := by decide

theorem witness_WhoWritesWhat : wellFormed .resid = true ∧ (∃ t, exec .resid atP1 = .next t) ∧
    wellFormed (.decode 0) = true ∧ (∃ t, exec (.decode 0) State.reset = .next t) :=
  ⟨by decide, exists_next (by decide), by decide, exists_next (by decide)⟩

/-- The other premises of EverySessionEnds are those of SessionsNeverFault. -/
theorem witness_EverySessionEnds : (atP1.memoryWf = true ∧ sessionInv atP1 = true ∧ progressInv atP1) ∧
    atP1.inputs = [] ∧ atP1.sq.seq ≠ .idle := ⟨witness_SessionsNeverFault, by decide, by decide⟩

theorem witness_EveryPositionIsInOnePass : 4 < 5 ∧ 2 < 3 := by decide

end Sys2Proof.Tests
end

-- ==== The host's register file ====
section
/-! The host registers after RESET, at START, and under every write and read (R21 to R31, R45, R46, R286 to R289). -/

namespace Sys2Proof.Machine

/-! ### The meanings of the command rows -/

theorem exec_reset (s : State) : exec .reset s = .next (resetBlock s) := rfl

theorem exec_decode (hi : BitVec 31) (s : State) : exec (.decode hi) s = .next (writeCtrl (hi ++ 1#1) s) := rfl

theorem exec_startWhileBusy (hi : BitVec 31) (s : State) :
    exec (.startWhileBusy hi) s = .next (writeCtrl (hi ++ 1#1) s) := rfl

theorem exec_ctrlNop (hi : BitVec 31) (s : State) : exec (.ctrlNop hi) s = .next (writeCtrl (hi ++ 0#1) s) := rfl

theorem exec_version (s : State) : exec .version s = .next (onBus Config.versionId s) := rfl

theorem exec_readReg (n : Nat) (s : State) : exec (.readReg n) s = .next (onBus (readHostReg s n) s) := rfl

theorem exec_writeInHandle (v : Word) (s : State) :
    exec (.writeInHandle v) s = .next { s with host := { s.host with inHandle := v } } := rfl

theorem exec_writeInSize (v : Word) (s : State) :
    exec (.writeInSize v) s = .next { s with host := { s.host with inSize := v } } := rfl

theorem exec_writeRoReg (n : Nat) (v : Word) (s : State) :
    exec (.writeRoReg n v) s = .next (writeHostReg n v s) := rfl

theorem exec_writeInput (a : Word) (b : Byte) (s : State) :
    exec (.writeInput a b) s = .next (writeInputByte a b s) := rfl

/-! ### Writes of CTRL -/

/-- Bit 0 = 1 starts a session when none is running, whatever bits 31:1 (R23, R286). -/
theorem writeCtrl_start {s : State} (hi : BitVec 31) (h : s.busy = false) :
    writeCtrl (hi ++ 1#1) s = startSession s := by
  have h1 : (hi ++ 1#1).getLsbD 0 = true := ctrl_start hi 1#1
  simp only [writeCtrl, h1, h, if_true, Bool.false_eq_true, if_false]

/-- A START under a running session is ignored (R287). -/
theorem writeCtrl_busy {s : State} (v : Word) (h : s.busy = true) : writeCtrl v s = s := by
  unfold writeCtrl
  split_ifs <;> rfl

/-- Bit 0 = 0 does nothing (R23). -/
theorem writeCtrl_nop (s : State) (hi : BitVec 31) : writeCtrl (hi ++ 0#1) s = s := by
  have h0 : (hi ++ 0#1).getLsbD 0 = false := ctrl_start hi 0#1
  simp only [writeCtrl, h0, Bool.false_eq_true, if_false]

/-- The registers other than CTRL, IN_HANDLE and IN_SIZE ignore writes (R21, R289). -/
theorem writeHostReg_ignored {n : Nat} (v : Word) (s : State) (h1 : n ≠ 1) (h3 : n ≠ 3) (h4 : n ≠ 4) :
    writeHostReg n v s = s := by
  unfold writeHostReg
  split
  · exact absurd rfl h1
  · exact absurd rfl h3
  · exact absurd rfl h4
  · rfl

/-! ### Reads -/

/-- Of the host registers at their reset values only VERSION reads other than 0 (R46). -/
theorem readHostReg_of_reset {s : State} (h : s.host = HostRegs.reset) {n : Nat} (hn : 1 ≤ n) :
    readHostReg s n = 0 := by
  unfold readHostReg
  rw [h]
  split
  case h_1 => omega
  all_goals rfl

/-- Settles O4: both reset states have the host registers of R46, and those read as stated. -/
theorem resetLeavesTheStatedValues : Obligations.ResetLeavesTheStatedValues :=
  ⟨fun s => ⟨resetBlock s, exec_reset s, rfl, rfl, fun _ => readHostReg_of_reset (resetBlock_host s)⟩,
    rfl, rfl, fun _ => readHostReg_of_reset rfl⟩

/-- Settles O5: the write of CTRL starts a session, and `startSession` is the assignments of R45. -/
theorem decodeStartsASession : Obligations.DecodeStartsASession := by
  intro s hi h
  rw [exec_decode, writeCtrl_start hi h]
  rfl

/-- Settles O6, one clause for each kind of write. -/
theorem hostRegisterWrites : Obligations.HostRegisterWrites := by
  refine ⟨fun s hi => ?_, fun s hi h => ?_, fun s v => exec_writeInHandle v s, fun s v => exec_writeInSize v s,
    fun s n v h1 h3 h4 => ?_⟩
  · rw [exec_ctrlNop, writeCtrl_nop]
  · rw [exec_startWhileBusy, writeCtrl_busy _ h]
  · rw [exec_writeRoReg, writeHostReg_ignored v s h1 h3 h4]

/-- Settles O7: a read latches `readHostReg`, whose cases are the register numbers. -/
theorem hostRegisterReads : Obligations.HostRegisterReads := by
  refine fun s => ⟨exec_version s, fun n => ?_⟩
  show exec (.readReg n) s = .next (onBus _ s)
  rw [exec_readReg]
  congr 2
  unfold readHostReg
  split
  case h_15 => simp_all
  all_goals rfl

end Sys2Proof.Machine
end

-- ==== The frame of every instruction ====
section
/-! What no instruction but the host's own may touch, and the canonical form of the stores: read off `Effect`. -/

namespace Sys2Proof.Machine

/-- Taking the next entry changes the queue alone. -/
theorem nextIssue_snd (s : State) : ∃ q, (nextIssue s).2 = s.withInputs q := by
  unfold nextIssue
  split
  · exact ⟨s.inputs, rfl⟩
  · exact ⟨_, rfl⟩

/-- Every effect of an instruction keeps the canonical form of the four stores. -/
theorem Effect.memoryWf {i : Instr} {s t : State} (h : Effect i s t) (hs : s.memoryWf = true) :
    t.memoryWf = true := by
  cases h with
  | work v h => exact h.keeps.1 hs
  | error e h => exact h.keeps.1 hs
  | image _ h => exact (completeSession_keeps h).1 hs
  | inputByte _ => exact writeInputByte_memoryWf _ _ hs
  | start _ _ =>
    rw [memoryWf_iff] at hs ⊢
    obtain ⟨hin, hout, -, hnodes⟩ := hs
    exact ⟨hin, hout, rfl, hnodes⟩
  | reset _ =>
    rw [memoryWf_iff] at hs ⊢
    exact ⟨hs.1, rfl, rfl, rfl, List.forall_mem_nil _⟩
  | inHandle _ => exact hs
  | inSize _ => exact hs
  | bus v f => exact hs

/-- Settles O51: a step takes a queue entry, which is no part of a store, and has an effect. -/
theorem memoriesStayCanonical : Obligations.MemoriesStayCanonical := by
  intro s t hs h
  obtain ⟨i, -, -, he⟩ := step_effect h
  obtain ⟨q, hq⟩ := nextIssue_snd s
  rw [hq] at he
  exact he.memoryWf hs

/-- Settles O58: work of the block leaves all of these alone, and each other effect names its instruction. -/
theorem whoWritesWhat : Obligations.WhoWritesWhat := by
  intro i s t hw h
  cases exec_effect hw h with
  | work v hwork =>
    obtain ⟨hhost, hbase, hlim, hin, hout, -⟩ := hwork.same
    exact ⟨fun _ => hin, fun _ _ => congrArg _ hhost, fun _ _ => congrArg _ hhost, fun _ _ _ => hout,
      fun _ _ => ⟨hbase, hlim⟩, .inl (congrArg _ hhost)⟩
  | error e hwork =>
    obtain ⟨hhost, hbase, hlim, hin, hout, -⟩ := hwork.same
    exact ⟨fun _ => hin, fun _ _ => congrArg (·.inHandle) hhost, fun _ _ => congrArg (·.inSize) hhost,
      fun _ _ _ => hout, fun _ _ => ⟨hbase, hlim⟩, .inr (.inr (.inr (.inr ⟨rfl, rfl⟩)))⟩
  | image hi _ =>
    refine ⟨fun _ => rfl, fun _ _ => rfl, fun _ _ => rfl, fun h1 h2 _ => ?_, fun _ _ => ⟨rfl, rfl⟩,
      .inr (.inr (.inr (.inl ⟨rfl, rfl⟩)))⟩
    exact absurd hi (not_or.2 ⟨h1, h2⟩)
  | start hi _ =>
    refine ⟨fun _ => rfl, fun _ _ => rfl, fun _ _ => rfl, fun _ _ _ => rfl, fun hn _ => ?_, .inr (.inl ⟨rfl, hi⟩)⟩
    obtain ⟨w, hi⟩ := hi
    exact absurd hi (not_or.2 (hn w))
  | inputByte hi =>
    exact ⟨fun hn => absurd hi (hn _ _), fun _ _ => rfl, fun _ _ => rfl, fun _ _ _ => rfl, fun _ _ => ⟨rfl, rfl⟩,
      .inl rfl⟩
  | inHandle hi =>
    exact ⟨fun _ => rfl, fun hn => absurd hi (hn _), fun _ _ => rfl, fun _ _ _ => rfl, fun _ _ => ⟨rfl, rfl⟩,
      .inl rfl⟩
  | inSize hi =>
    exact ⟨fun _ => rfl, fun _ _ => rfl, fun hn => absurd hi (hn _), fun _ _ _ => rfl, fun _ _ => ⟨rfl, rfl⟩,
      .inl rfl⟩
  | reset hi =>
    exact ⟨fun _ => rfl, fun _ hn => absurd hi hn, fun _ hn => absurd hi hn, fun _ _ hn => absurd hi hn,
      fun _ hn => absurd hi hn, .inr (.inr (.inl ⟨rfl, hi⟩))⟩
  | bus v f =>
    exact ⟨fun _ => rfl, fun _ _ => rfl, fun _ _ => rfl, fun _ _ _ => rfl, fun _ _ => ⟨rfl, rfl⟩, .inl rfl⟩

/-- Settles O55: the Bool invariants by evaluation; IDLE asks nothing of a session's progress. -/
theorem resetMeetsTheInvariants : Obligations.ResetMeetsTheInvariants :=
  ⟨reset_memoryWf, by decide, by decide, by decide, trivial⟩

end Sys2Proof.Machine
end

-- ==== Host-driven queues ====
section
/-! What stands next in a queue of turns and host moves, and what a move does: every move completes (R285). -/

namespace Sys2Proof.Machine

/-- What a move of the host does to the state (R285): it starts a session when none runs, writes a byte of INPUT,
IN_HANDLE or IN_SIZE, resets the block, or reads (a read that draws no value changes the bus alone, and an ignored
write changes nothing). -/
inductive HostMoved (s : State) : State → Prop where
  | start (hb : s.busy = false) : HostMoved s (startSession s)
  | inputByte (a : Word) (b : Byte) : HostMoved s (writeInputByte a b s)
  | inHandle (v : Word) : HostMoved s { s with host := { s.host with inHandle := v } }
  | inSize (v : Word) : HostMoved s { s with host := { s.host with inSize := v } }
  | reset : HostMoved s (resetBlock s)
  | bus (v : Word) (f : Nat) : HostMoved s { s with busData := v, freeCount := f }

/-- A move that is ignored. -/
theorem HostMoved.same (s : State) : HostMoved s s := .bus s.busData s.freeCount

/-- A read of OUTPUT draws a free value or nothing (R63). -/
theorem outputWord_snd (a : Nat) (s : State) : ∃ f, (outputWord a s).2 = { s with freeCount := f } := by
  unfold outputWord
  split_ifs
  · split
    · exact ⟨s.freeCount, rfl⟩
    · exact ⟨s.freeCount + 1, rfl⟩
  · exact ⟨s.freeCount + 1, rfl⟩

/-- Every move of the host completes. -/
theorem exec_decodeMove (m : HostMove) (s : State) :
    ∃ t, exec (decodeMove s.busy m) s = .next t ∧ HostMoved s t := by
  cases m with
  | writeReg n v =>
    simp only [decodeMove]
    split_ifs with h1 h0 hb h3 h4
    · exact ⟨s, by rw [exec_startWhileBusy, writeCtrl_busy _ hb], .same s⟩
    · have hb : s.busy = false := by simpa using hb
      exact ⟨_, by rw [exec_decode, writeCtrl_start _ hb], .start hb⟩
    · exact ⟨s, by rw [exec_ctrlNop, writeCtrl_nop], .same s⟩
    · exact ⟨_, exec_writeInHandle v s, .inHandle v⟩
    · exact ⟨_, exec_writeInSize v s, .inSize v⟩
    · exact ⟨s, by rw [exec_writeRoReg, writeHostReg_ignored v s h1 h3 h4], .same s⟩
  | readReg n =>
    simp only [decodeMove]
    split_ifs
    · exact ⟨_, exec_version s, .bus _ s.freeCount⟩
    · exact ⟨_, exec_readReg n s, .bus _ s.freeCount⟩
  | writeInput a b => exact ⟨_, exec_writeInput a b s, .inputByte a b⟩
  | readOutput a =>
    obtain ⟨f, hf⟩ := outputWord_snd a.toNat s
    refine ⟨{ s with busData := (outputWord a.toNat s).1.setWidth 32, freeCount := f }, ?_, .bus _ f⟩
    show execReadOutput a s = _
    rw [execReadOutput, hf]
    rfl
  | assertReset => exact ⟨_, exec_reset s, .reset⟩

/-- What a step of a host-driven machine is: a turn of the sequencer or a move of the host, the rest of the queue
staying host-driven. -/
theorem step_hostDriven {s : State} (h : hostDriven s.inputs = true) :
    ∃ q, hostDriven q = true ∧ (step s = (sequencerStep (s.withInputs q)).outcome ∨
      ∃ t, step s = .next t ∧ HostMoved (s.withInputs q) t) := by
  cases hq : s.inputs with
  | nil =>
    have hn : nextIssue s = (.turn, s) := by simp only [nextIssue, hq]
    have hs : s.withInputs [] = s := by rw [← hq]; rfl
    refine ⟨[], rfl, .inl ?_⟩
    rw [hs, step, hn]
    rfl
  | cons i rest =>
    have hn : nextIssue s = (i, s.withInputs rest) := by simp only [nextIssue, hq, State.withInputs]
    rw [hq, hostDriven, List.all_cons, Bool.and_eq_true] at h
    refine ⟨rest, h.2, ?_⟩
    rw [step, hn]
    cases i with
    | turn => exact .inl rfl
    | move m => exact .inr (exec_decodeMove m (s.withInputs rest))
    | call row args => exact absurd h.1 Bool.false_ne_true

end Sys2Proof.Machine
end

-- ==== Predicates kept by the operations ====
section
/-! A predicate kept by every decision and every write of the Context Model is kept by every operation
made of them; here it is the byte alignment of the cursor (R137), the width of the interval (R156)
and the header. -/

namespace Sys2Proof.Machine

/-! ### Operations that keep a predicate -/

/-- Nothing is said of faults. -/
abbrev AnyFault : Fault → Prop := fun _ => True

/-- There is no fault. -/
abbrev NoFault : Fault → Prop := fun _ => False

theorem Res.Post.and {α : Type} {r : Res α} {P Q : α → State → Prop} {E E' : State → Prop} {F F' : Fault → Prop}
    (h : r.Post P E F) (h' : r.Post Q E' F') :
    r.Post (fun a t => P a t ∧ Q a t) (fun t => E t ∧ E' t) (fun f => F f ∧ F' f) := by
  cases r <;> exact ⟨h, h'⟩

theorem Res.Post.anyFault {α : Type} {r : Res α} {P : α → State → Prop} {E : State → Prop} {F : Fault → Prop}
    (h : r.Post P E F) : r.Post P E AnyFault :=
  h.imp (fun _ _ h => h) (fun _ h => h) fun _ _ => trivial

/-- From a state with `P` the operation answers one with `P`, ends the session in one with `E`, or stops with a fault
among `F`. -/
def Keeps {α : Type} (P E : State → Prop) (F : Fault → Prop) (op : State → Res α) : Prop :=
  ∀ s, P s → (op s).Post (fun _ t => P t) E F

theorem Keeps.bind {α β : Type} {P E : State → Prop} {F : Fault → Prop} {op : State → Res α} {k : α → State → Res β}
    (h : Keeps P E F op) (hk : ∀ a, Keeps P E F (k a)) : Keeps P E F fun s => (op s).bind k :=
  fun s hs => (h s hs).bind fun a t ht => hk a t ht

theorem Keeps.ok {α : Type} {P E : State → Prop} {F : Fault → Prop} (a : α) : Keeps P E F (Res.ok a) :=
  fun _ h => h

/-- `P` is kept by decisions and does not speak of the Context Model; an error taken under `P` ends in `E`. -/
structure DecisionsKeep (P E : State → Prop) : Prop where
  decision : ∀ k, Keeps P E AnyFault (decodeCtx k)
  error : ∀ e s, P s → E (takeError e s)
  model : ∀ cm s, P s → P { s with cm := cm }

namespace DecisionsKeep

variable {P E : State → Prop} (h : DecisionsKeep P E)
include h

theorem raise {α : Type} (e : Err) : Keeps P E AnyFault (raiseErr e : State → Res α) := fun s hs => h.error e s hs

theorem nzExponent (k : SetRef) (err : Err) (more e : Nat) : Keeps P E AnyFault (nzExponent k err more e) := by
  induction more generalizing e with
  | zero =>
    refine (h.decision _).bind fun b => ?_
    cases b
    · exact Keeps.ok e
    · exact h.raise err
  | succ n ih =>
    refine (h.decision _).bind fun b => ?_
    cases b
    · exact Keeps.ok e
    · exact ih (e + 1)

theorem nzMantissa (k : SetRef) (i m : Nat) : Keeps P E AnyFault (nzMantissa k i m) := by
  induction i generalizing m with
  | zero => exact Keeps.ok m
  | succ i ih => exact (h.decision _).bind fun b => ih _

theorem nzDecode (k : SetRef) (limit : Nat) (err : Err) : Keeps P E AnyFault (nzDecode k limit err) := by
  refine (h.decision _).bind fun zero => ?_
  cases zero
  · exact (h.decision _).bind fun neg =>
      (h.nzExponent k err _ _).bind fun e => (h.nzMantissa k e 1).bind fun m => Keeps.ok _
  · exact Keeps.ok 0

theorem writeNode (n : Nat) (v : Node) : Keeps P E AnyFault (writeNode n v) := by
  intro s hs
  unfold Machine.writeNode
  split_ifs
  · exact h.model _ s hs
  · trivial

theorem decodeSplit (d : Nat) : Keeps P E AnyFault (decodeSplit d) := by
  refine (h.decision _).bind fun b s hs => ?_
  split_ifs
  · exact h.error _ s hs
  · exact hs

theorem decodeProp : Keeps P E AnyFault decodeProp := by
  have bits : Keeps P E AnyFault propBits :=
    (h.decision _).bind fun _ => (h.decision _).bind fun _ => (h.decision _).bind fun _ => Keeps.ok _
  refine bits.bind fun id s hs => ?_
  split_ifs
  · exact h.error _ s hs
  · exact hs

theorem decodeFields (i : Nat) : Keeps P E AnyFault (decodeFields i) :=
  h.decodeProp.bind fun _ => (h.nzDecode .thr Config.thrLimit _).bind fun _ s => h.writeNode i _ s

theorem allocNode : Keeps P E AnyFault allocNode := by
  intro s hs
  unfold Machine.allocNode
  split_ifs
  · exact h.model _ s hs
  · trivial

theorem pushSplit (i : Nat) : Keeps P E AnyFault (pushSplit i) := by
  intro s hs
  unfold Machine.pushSplit
  split_ifs
  · exact h.model _ s hs
  · trivial

theorem popSplit : Keeps P E AnyFault popSplit := by
  intro s hs
  unfold Machine.popSplit
  split
  · exact h.model _ s hs
  · trivial

theorem treeTurn : Keeps P E AnyFault treeTurn := by
  refine h.allocNode.bind fun i s hs => (h.decodeSplit _ s hs).bind fun split t ht => ?_
  cases split
  · refine (h.writeNode i _ t ht).bind fun _ u hu => ?_
    split_ifs
    · exact hu
    · exact (h.popSplit u hu).bind fun e v hv => (h.writeNode _ _ v hv).bind fun _ w hw => h.model _ w hw
  · exact (h.decodeFields i t ht).bind fun _ u hu => (h.pushSplit i u hu).bind fun _ v hv => h.model _ v hv

theorem treeLoop (fuel : Nat) : Keeps P E AnyFault (treeLoop fuel) := by
  induction fuel with
  | zero => exact fun _ _ => trivial
  | succ n ih =>
    refine h.treeTurn.bind fun complete => ?_
    cases complete
    · exact ih
    · exact Keeps.ok ()

theorem treeDecodeIterative : Keeps P E AnyFault treeDecodeIterative :=
  fun s hs => h.treeLoop _ _ (h.model _ s hs)

end DecisionsKeep

/-! ### The cursor at a byte (R137) -/

/-- The cursor stands at a byte, and the input is whole bytes. -/
def ByteAligned (s : State) : Prop := s.br.cur.toNat % 8 = 0 ∧ s.br.lim.toNat % 8 = 0

theorem ReadTo.aligned {n : Nat} {s t : State} (h : ReadTo (8 * n) s t) (ha : ByteAligned s) : ByteAligned t := by
  obtain ⟨h0 | hle, f, rfl⟩ := h
  · rw [h0, advance_zero]
    exact ha
  · have hc := advance_cur hle
    refine ⟨?_, ha.2⟩
    show (s.advance (8 * n)).br.cur.toNat % 8 = 0
    have := ha.1
    omega

theorem RanOut.aligned {s t : State} (h : RanOut s t) (ha : ByteAligned s) : ByteAligned t := by
  obtain ⟨c, f, rfl, rfl | ⟨rfl, -⟩⟩ := h
  · exact ⟨ha.2, ha.2⟩
  · exact ha

theorem EndedBy.aligned {e : Err} {s t : State} (h : EndedBy e s t) (ha : ByteAligned s) : ByteAligned t := by
  obtain ⟨n, u, hu, rfl⟩ := h
  exact hu.aligned ha

theorem RefilledTo.aligned {s t : State} (h : RefilledTo s t) (ha : ByteAligned s) : ByteAligned t := by
  obtain ⟨n, u, a, hu, rfl⟩ := h
  exact hu.aligned ha

theorem RefillRanOut.aligned {s t : State} (h : RefillRanOut s t) (ha : ByteAligned s) : ByteAligned t := by
  obtain ⟨a, u, hu, rfl⟩ := h
  exact hu.aligned ha

theorem OutOfInput.aligned {s t : State} (h : OutOfInput s t) (ha : ByteAligned s) : ByteAligned t := by
  rcases h with h | ⟨u, hu, rfl⟩
  · exact h.aligned ha
  · exact hu.aligned ha

/-- START sets the limit to whole bytes (R26). -/
theorem limitOf_aligned (w : Word) : (limitOf w).toNat % 8 = 0 := by
  unfold limitOf
  split_ifs
  · rw [BitVec.toNat_ofNat]
    omega
  · rfl

theorem ReadTo.hdr {n : Nat} {s t : State} (h : ReadTo n s t) : t.hdr = s.hdr := by
  obtain ⟨-, f, rfl⟩ := h
  rfl

/-! ### The states of the payload -/

/-- The cursor at a byte, the interval at least 2^24 wide (R156), and the header as parsed. -/
def Payload (d : Header) (s : State) : Prop := ByteAligned s ∧ 2 ^ 24 ≤ s.ac.rng.toNat ∧ s.hdr = d

/-- A decision takes whole bytes and leaves a renormalised interval. -/
theorem decodeCtx_payload (d : Header) (k : CtrRef) : Keeps (Payload d) ByteAligned AnyFault (decodeCtx k) := by
  rintro s ⟨ha, -, hd⟩
  refine (decodeCtx_post k s).imp ?_ (fun t ht => ht.aligned ha) fun _ _ => trivial
  rintro b t ⟨u, p, -, hu, hw, rfl⟩
  obtain ⟨n, v, a, hv, rfl⟩ := hu
  refine ⟨?_, by simpa using hw, by simpa using hv.hdr.trans hd⟩
  simpa [ByteAligned] using hv.aligned ha

theorem payload_decisions (d : Header) : DecisionsKeep (Payload d) ByteAligned where
  decision := decodeCtx_payload d
  error _ _ h := h.1
  model _ _ h := h

theorem decodePixel_payload (d : Header) : Keeps (Payload d) ByteAligned AnyFault decodePixel := by
  intro s hs
  refine Res.Post.bind (P := fun _ t => Payload d t) ?_ fun c t ht =>
    ((payload_decisions d).nzDecode _ _ _ t ht).bind fun r u hu => ?_
  · cases pixelContext s
    · trivial
    · exact hs
  · unfold writeSample
    split_ifs
    · exact hu
    · trivial

end Sys2Proof.Machine
end

-- ==== The header as it is parsed ====
section
/-! Each header element keeps the cursor at a byte and leaves a header that is legal as far as it has been parsed (R137,
R200 to R210). -/

namespace Sys2Proof.Machine

/-- The cursor at a byte, and the header parsed before `q` legal. -/
def HeaderAt (q : Seq) (s : State) : Prop := ByteAligned s ∧ headerLegalAt q s.hdr = true

theorem readUint8_header (q : Seq) : Keeps (HeaderAt q) ByteAligned NoFault (readUint 8) := by
  rintro s ⟨ha, hl⟩
  refine (readUint_post 8 s).imp (fun _ t ht => ?_) (fun t ht => ht.aligned ha) fun _ h => h
  exact ⟨ReadTo.aligned (n := 1) ht ha, by rw [ht.hdr]; exact hl⟩

theorem readVarint_header (q : Seq) : Keeps (HeaderAt q) ByteAligned NoFault readVarint := by
  rintro s ⟨ha, hl⟩
  refine (readVarint_post s).imp ?_ ?_ fun _ h => h
  · rintro _ t ⟨n, -, ht⟩
    exact ⟨ht.aligned ha, by rw [ht.hdr]; exact hl⟩
  · rintro t (ht | ht | ht)
    · exact ht.aligned ha
    · exact ht.aligned ha
    · exact ht.aligned ha

theorem skipBytes_header (q : Seq) (n : Word) : Keeps (HeaderAt q) ByteAligned NoFault (skipBytes n) := by
  rintro s ⟨ha, hl⟩
  by_cases h : s.br.cur.toNat + 8 * n.toNat ≤ s.br.lim.toNat
  · rw [skipBytes_ok h]
    exact ⟨ReadTo.aligned (n := n.toNat) ⟨.inr h, s.freeCount, rfl⟩ ha, hl⟩
  · rw [skipBytes_truncated (by omega)]
    exact ha

/-- What an element answers lets the next one begin: the header is legal up to `q'`. -/
def Parses (q q' : Seq) (op : State → Res Unit) : Prop :=
  ∀ s, HeaderAt q s → (op s).Post (fun _ t => HeaderAt q' t) ByteAligned NoFault

theorem parseMagic_parses : Parses .hdrMagic .hdrWidth parseMagic := by
  have loop : ∀ ms i, Keeps (HeaderAt .hdrMagic) ByteAligned NoFault (magicFrom ms i) := by
    intro ms
    induction ms with
    | nil => exact fun _ _ h => h
    | cons m ms ih =>
      refine fun i => (readUint8_header _).bind fun b t ht => ?_
      split_ifs
      · exact ih _ t ht
      · exact ht.1
  exact fun s hs => (loop _ _ s hs).imp (fun _ t ht => ⟨ht.1, by simp [headerLegalAt, Seq.code]⟩) (fun _ h => h)
    fun _ h => h

theorem parseWidth_parses : Parses .hdrWidth .hdrHeight parseWidth := by
  refine fun s hs => (readVarint_header _ s hs).bind fun v t ht => ?_
  simp only
  split_ifs with h0
  · exact ht.1
  · refine ⟨ht.1, ?_⟩
    have : v.toNat ≠ 0 := fun h => h0 (BitVec.eq_of_toNat_eq h)
    simpa [headerLegalAt, Seq.code, Nat.one_le_iff_ne_zero] using this

theorem parseHeight_parses : Parses .hdrHeight .hdrChannels parseHeight := by
  refine fun s hs => (readVarint_header _ s hs).bind fun v t ht => ?_
  obtain ⟨ha, hl⟩ := ht
  simp only
  split_ifs with h0 hmax
  · exact ha
  · exact ha
  · refine ⟨ha, ?_⟩
    have : v.toNat ≠ 0 := fun h => h0 (BitVec.eq_of_toNat_eq h)
    simpa [headerLegalAt, Seq.code, State.W, State.H, Nat.one_le_iff_ne_zero] using And.intro hl (And.intro this hmax)

theorem parseChannels_parses : Parses .hdrChannels .hdrDepth parseChannels := by
  refine fun s hs => (readUint8_header _ s hs).bind fun v t ht => ?_
  obtain ⟨ha, hl⟩ := ht
  simp only
  split_ifs with hC
  · exact ⟨ha, by simpa [headerLegalAt, Seq.code, State.C] using And.intro hl hC⟩
  · exact ha

theorem parseDepth_parses : Parses .hdrDepth .hdrFlags parseDepth := by
  refine fun s hs => (readUint8_header _ s hs).bind fun v t ht => ?_
  obtain ⟨ha, hl⟩ := ht
  simp only
  split_ifs with hD
  · exact ⟨ha, by simpa [headerLegalAt, Seq.code, State.D] using And.intro hl hD⟩
  · exact ha

/-- The checks of R206 leave the legal FLAGS bytes of R96. -/
theorem flagsLegal_of_checks {C : Nat} {flags : Byte} (h5 : flags &&& 0xE0 = 0) (h6 : flags &&& 0x10 = 0)
    (h7 : ¬ 2 ≤ (tidOf flags).toNat) (h8 : ¬ (tidOf flags = 1 ∧ C < 3)) : flagsLegal C flags = true := by
  have hall : ∀ f : Byte, f &&& 0xE0 = 0 → f &&& 0x10 = 0 → ¬ 2 ≤ (tidOf f).toNat →
      f.toNat ≤ 3 ∨ f.toNat ≤ 7 ∧ tidOf f = 1 := by decide
  simp only [flagsLegal, Bool.or_eq_true, Bool.and_eq_true, decide_eq_true_eq]
  rcases hall flags h5 h6 h7 with h | ⟨h, ht⟩
  · exact .inl h
  · exact .inr ⟨h, Nat.le_of_not_lt fun hC => h8 ⟨ht, hC⟩⟩

theorem parseFlags_parses : Parses .hdrFlags .hdrChorder parseFlags := by
  refine fun s hs => (readUint8_header _ s hs).bind fun v t ht => ?_
  obtain ⟨ha, hl⟩ := ht
  simp only
  split_ifs with h5 h6 h7 h8
  · exact ha
  · exact ha
  · exact ha
  · exact ha
  · have hf := flagsLegal_of_checks (C := t.hdr.channels.toNat) (not_not.1 h5) (not_not.1 h6) h7 h8
    exact ⟨ha, by simpa [headerLegalAt, Seq.code] using And.intro hl hf⟩

theorem parseChorder_parses : Parses .hdrChorder .hdrFrames parseChorder := by
  refine fun s hs => (readUint8_header _ s hs).bind fun v t ht => ?_
  obtain ⟨ha, hl⟩ := ht
  simp only [chorderLoop_eq_legal]
  split_ifs with hc
  · exact ⟨ha, by simpa [headerLegalAt, Seq.code, State.C] using And.intro hl hc⟩
  · exact ha

theorem parseFrames_parses : Parses .hdrFrames .hdrMeta parseFrames := by
  refine fun s hs => (readVarint_header _ s hs).bind fun v t ht => ?_
  obtain ⟨ha, hl⟩ := ht
  simp only
  split_ifs with h0 h1
  · exact ha
  · exact ha
  · have hv : v = 1 := by
      have : v.toNat ≠ 0 := fun h => h0 (BitVec.eq_of_toNat_eq h)
      exact BitVec.eq_of_toNat_eq (by simp only [Config.maxFrames] at h1; simp; omega)
    exact ⟨ha, by simpa [headerLegalAt, Seq.code] using And.intro hl hv⟩

theorem parseMeta_parses : Parses .hdrMeta .acInit parseMeta := by
  have next : ∀ t, HeaderAt .hdrMeta t → HeaderAt .acInit t := fun t ht =>
    ⟨ht.1, by simpa [headerLegalAt, Seq.code] using ht.2⟩
  have len : Keeps (HeaderAt .hdrMeta) ByteAligned NoFault parseMetalen := fun s hs => by
    unfold parseMetalen
    split_ifs
    · refine (readVarint_header _ s hs).bind fun v t ht => ⟨ht.1, ?_⟩
      exact ht.2
    · exact hs
  have data : Keeps (HeaderAt .hdrMeta) ByteAligned NoFault parseMetadata := fun s hs => by
    unfold parseMetadata
    split_ifs
    · exact skipBytes_header _ _ s hs
    · exact hs
  exact fun s hs => ((len.bind fun _ => data) s hs).imp (fun _ t ht => next t ht) (fun _ h => h) fun _ h => h

end Sys2Proof.Machine
end

-- ==== The session invariant ====
section
/-! The session invariant along a turn and a move: STATUS, the results, the parsed header, alignment and the interval
(R24, R137, R156, R210, R289). -/

namespace Sys2Proof.Machine

/-! ### The invariant taken apart -/

/-- The sequencer is in a session (R41). -/
def Seq.running (q : Seq) : Prop := statusAt q = statusBusy

/-- The result registers read 0 (R289). -/
def NoResults (h : HostRegs) : Prop :=
  h.errCode = 0 ∧ h.errInfo = 0 ∧ h.outWidth = 0 ∧ h.outHeight = 0 ∧ h.outChannels = 0 ∧ h.outDepth = 0 ∧
    h.bitsLo = 0 ∧ h.bitsHi = 0

/-- From AC_INIT to the end of a session the interval is at least 2^24 wide (R156). -/
def IntervalWide (s : State) : Prop :=
  s.sq.seq.code.toNat ≤ 10 ∨ s.sq.seq = .doneErr ∨ 2 ^ 24 ≤ s.ac.rng.toNat

theorem sessionInv_iff (s : State) : sessionInv s = true ↔
    hostDriven s.inputs = true ∧ s.host.status = statusAt s.sq.seq ∧ resultsAt s = true ∧ HeaderAt s.sq.seq s ∧
      IntervalWide s := by
  simp only [sessionInv, HeaderAt, ByteAligned, IntervalWide, Bool.and_eq_true, decide_eq_true_eq]
  tauto

theorem resultsAt_none {s : State} (hok : s.sq.seq ≠ .doneOk) (herr : s.sq.seq ≠ .doneErr) :
    resultsAt s = true ↔ NoResults s.host := by
  unfold resultsAt
  split
  · contradiction
  · contradiction
  · simp [NoResults, and_assoc]

theorem Seq.running.ne_done {q : Seq} (h : q.running) : q ≠ .idle ∧ q ≠ .doneOk ∧ q ≠ .doneErr := by
  unfold Seq.running at h
  refine ⟨?_, ?_, ?_⟩
  all_goals
    rintro rfl
    exact absurd h (by decide)

theorem Seq.running_or (q : Seq) : q.running ∨ q = .idle ∨ q = .doneOk ∨ q = .doneErr := by
  unfold Seq.running
  cases q <;> decide

/-- BITS together are the cursor (R31). -/
theorem bits_append (c : BitPos) : c.extractLsb' 32 3 ++ c.extractLsb' 0 32 = c := by
  apply BitVec.eq_of_getLsbD_eq
  intro i hi
  rw [BitVec.getLsbD_append]
  split_ifs with h
  · simp [h]
  · have h3 : i - 32 < 3 := by omega
    have h32 : 32 + (i - 32) = i := by omega
    simp [h3, h32]

/-! ### The end of a turn -/

/-- A turn that goes on: to a state of a session, with the header parsed so far legal and the interval wide. -/
def TurnedTo (t : State) : Prop := t.sq.seq.running ∧ HeaderAt t.sq.seq t ∧ IntervalWide t

/-- A turn that goes on keeps the session invariant. -/
theorem sessionInv_turned {s t : State} (hs : sessionInv s = true) (hrun : s.sq.seq.running) (h : Turning s t)
    (ht : TurnedTo t) : sessionInv t = true := by
  rw [sessionInv_iff] at hs ⊢
  obtain ⟨hq, hst, hres, -, -⟩ := hs
  obtain ⟨hrun', hhdr, hw⟩ := ht
  obtain ⟨hhost, -, -, -, -, -, hin, -⟩ := h.same
  refine ⟨hin ▸ hq, ?_, ?_, hhdr, hw⟩
  · rw [hhost, hst, hrun, hrun']
  · rw [resultsAt_none hrun.ne_done.2.1 hrun.ne_done.2.2] at hres
    rw [resultsAt_none hrun'.ne_done.2.1 hrun'.ne_done.2.2, hhost]
    exact hres

/-- A turn that ends in an error keeps the session invariant (R309). -/
theorem sessionInv_takeError {s u : State} (e : Err) (hs : sessionInv s = true) (hrun : s.sq.seq.running)
    (h : Turning s u) (ha : ByteAligned u) : sessionInv (takeError e u) = true := by
  rw [sessionInv_iff] at hs ⊢
  obtain ⟨hq, -, hres, -, -⟩ := hs
  obtain ⟨hhost, -, -, -, -, -, hin, -⟩ := h.same
  rw [resultsAt_none hrun.ne_done.2.1 hrun.ne_done.2.2, ← hhost] at hres
  obtain ⟨-, -, hw, hh, hc, hd, -, -⟩ := hres
  have hcode : e.kind.code ≠ 0 := by cases e.kind <;> decide
  refine ⟨hin ▸ hq, rfl, ?_, ⟨ha, rfl⟩, .inr (.inl rfl)⟩
  simpa [resultsAt, hw, hh, hc, hd, bits_append] using hcode

/-- Completion keeps the session invariant (R275). -/
theorem sessionInv_completeSession {s : State} (out : Store Sample) (hs : sessionInv s = true)
    (ha : s.sq.seq = .assemble) : sessionInv (completeSession { s with output := out }) = true := by
  rw [sessionInv_iff] at hs ⊢
  obtain ⟨hq, -, hres, hhdr, hw⟩ := hs
  rw [resultsAt_none (by rw [ha]; decide) (by rw [ha]; decide)] at hres
  obtain ⟨hcode, hinfo, -⟩ := hres
  rw [ha] at hhdr
  rw [IntervalWide, ha] at hw
  refine ⟨hq, rfl, ?_, ⟨hhdr.1, by simpa [headerLegalAt, Seq.code] using hhdr.2⟩, .inr (.inr ?_)⟩
  · simp [resultsAt, hcode, hinfo, bits_append]
  · simpa [Seq.code] using hw

/-! ### A turn outside ASSEMBLE -/

/-- The states of the payload, in which the whole header is legal. -/
def Seq.payload (q : Seq) : Prop :=
  q = .awaitingTree ∨ q = .reconstructingPass ∨ q = .passComplete ∨ q = .planeComplete ∨ q = .assemble

theorem headerLegalAt_payload {q : Seq} (hq : q.payload) (d : Header) :
    headerLegalAt q d = headerLegalAt .acInit d := by
  rcases hq with rfl | rfl | rfl | rfl | rfl <;> simp [headerLegalAt, Seq.code]

/-- Within the payload a turn may go to any of its states. -/
theorem Payload.turned {d : Header} {t : State} (h : Payload d t) (hd : headerLegalAt .acInit d = true)
    (hq : t.sq.seq.payload) : TurnedTo t := by
  obtain ⟨ha, hw, rfl⟩ := h
  refine ⟨?_, ⟨ha, (headerLegalAt_payload hq _).trans hd⟩, .inr (.inr hw)⟩
  rcases hq with hq | hq | hq | hq | hq <;> rw [hq] <;> rfl

/-- The state of the payload a session invariant describes. -/
theorem Payload.of_sessionInv {s : State} (hs : sessionInv s = true) (hq : s.sq.seq.payload) :
    Payload s.hdr s ∧ headerLegalAt .acInit s.hdr = true := by
  rw [sessionInv_iff] at hs
  obtain ⟨-, -, -, ⟨ha, hl⟩, hw⟩ := hs
  refine ⟨⟨ha, ?_, rfl⟩, (headerLegalAt_payload hq _).symm.trans hl⟩
  rw [IntervalWide] at hw
  rcases hq with hq | hq | hq | hq | hq <;> rw [hq] at hw <;> simpa [Seq.code] using hw

theorem parseThen_turned {op : State → Res Unit} {q q' : Seq} {s : State} (h : Parses q q' op) (hs : HeaderAt q s)
    (hrun : q'.running) (hq : q'.code.toNat ≤ 10) :
    (parseThen op q' s).Post (fun _ t => TurnedTo t) ByteAligned AnyFault :=
  (h s hs).anyFault.bind fun _ _ ht => ⟨hrun, ht, .inl hq⟩

theorem enterPass_turned {d : Header} {s : State} (h : Payload d s) (hd : headerLegalAt .acInit d = true) :
    (enterPass s).Post (fun _ t => TurnedTo t) ByteAligned AnyFault := by
  unfold enterPass
  cases currentPass s with
  | error f => trivial
  | ok q =>
    refine Payload.turned (d := d) h hd ?_
    show (if q.nonempty s.W s.H = true then Seq.reconstructingPass else Seq.passComplete).payload
    split_ifs
    · exact .inr (.inl rfl)
    · exact .inr (.inr (.inl rfl))

theorem turnAcInit_turned {s : State} (h : HeaderAt .acInit s) :
    (turnAcInit s).Post (fun _ t => TurnedTo t) ByteAligned AnyFault := by
  obtain ⟨ha, hl⟩ := h
  refine ((acInit_post s).imp (fun _ _ ht => ht) (fun t ht => ht.aligned ha) fun _ _ => trivial).bind ?_
  rintro _ t ⟨u, c, hu, rfl⟩
  refine Payload.turned (d := s.hdr) ⟨?_, ?_, hu.hdr⟩ hl (.inl rfl)
  · exact ReadTo.aligned (n := 4) (t := u) hu ha
  · exact (by decide : 2 ^ 24 ≤ (0xFFFFFFFF : Word).toNat)

theorem turnTree_turned {d : Header} {s : State} (h : Payload d s) (hd : headerLegalAt .acInit d = true) :
    (turnTree s).Post (fun _ t => TurnedTo t) ByteAligned AnyFault := by
  refine Res.Post.bind (P := fun _ t => Payload d t) ?_ fun _ t ht =>
    ((payload_decisions d).treeDecodeIterative t ht).bind fun _ u hu =>
      enterPass_turned (s := { u with sq := { u.sq with pi := 0 } }) hu hd
  unfold recordPlane
  split_ifs
  · exact h
  · trivial

theorem turnPixel_turned {d : Header} {s : State} (h : Payload d s) (hd : headerLegalAt .acInit d = true) :
    (turnPixel s).Post (fun _ t => TurnedTo t) ByteAligned AnyFault := by
  refine (decodePixel_payload d s h).bind fun _ t ht => ?_
  cases currentPass t with
  | error f => trivial
  | ok q =>
    refine Payload.turned (d := d) ht hd ?_
    show (if _ then Seq.reconstructingPass else Seq.passComplete).payload
    split_ifs
    · exact .inr (.inl rfl)
    · exact .inr (.inr (.inl rfl))

theorem turnPassComplete_turned {d : Header} {s : State} (h : Payload d s) (hd : headerLegalAt .acInit d = true) :
    (turnPassComplete s).Post (fun _ t => TurnedTo t) ByteAligned AnyFault := by
  simp only [turnPassComplete]
  split_ifs
  · exact enterPass_turned (s := { s with sq := { s.sq with pi := s.sq.pi + 1 } }) h hd
  · exact Payload.turned (d := d) h hd (.inr (.inr (.inr (.inl rfl))))

theorem turnPlaneComplete_turned {d : Header} {s : State} (h : Payload d s) (hd : headerLegalAt .acInit d = true) :
    (turnPlaneComplete s).Post (fun _ t => TurnedTo t) ByteAligned AnyFault := by
  refine Payload.turned (d := d) h hd ?_
  show (if _ then Seq.awaitingTree else Seq.assemble).payload
  split_ifs
  · exact .inl rfl
  · exact .inr (.inr (.inr (.inr rfl)))

/-- A turn of a session outside ASSEMBLE goes on as `TurnedTo`, or ends in an error at a byte. -/
theorem sequencerStep_turned {s : State} (hs : sessionInv s = true) (hrun : s.sq.seq.running)
    (hna : s.sq.seq ≠ .assemble) :
    (sequencerStep s).Post (fun _ t => TurnedTo t) ByteAligned AnyFault := by
  have hh := ((sessionInv_iff s).1 hs).2.2.2.1
  have hp := fun hq => Payload.of_sessionInv hs hq
  unfold sequencerStep
  cases hq : s.sq.seq
  all_goals rw [hq] at hrun hna hh hp
  case idle => exact absurd rfl hrun.ne_done.1
  case doneOk => exact absurd rfl hrun.ne_done.2.1
  case doneErr => exact absurd rfl hrun.ne_done.2.2
  case assemble => exact absurd rfl hna
  case hdrMagic => exact parseThen_turned parseMagic_parses hh rfl (by decide)
  case hdrWidth => exact parseThen_turned parseWidth_parses hh rfl (by decide)
  case hdrHeight => exact parseThen_turned parseHeight_parses hh rfl (by decide)
  case hdrChannels => exact parseThen_turned parseChannels_parses hh rfl (by decide)
  case hdrDepth => exact parseThen_turned parseDepth_parses hh rfl (by decide)
  case hdrFlags => exact parseThen_turned parseFlags_parses hh rfl (by decide)
  case hdrChorder => exact parseThen_turned parseChorder_parses hh rfl (by decide)
  case hdrFrames => exact parseThen_turned parseFrames_parses hh rfl (by decide)
  case hdrMeta => exact parseThen_turned parseMeta_parses hh rfl (by decide)
  case acInit => exact turnAcInit_turned hh
  case awaitingTree =>
    obtain ⟨h, hd⟩ := hp (.inl rfl)
    exact turnTree_turned h hd
  case reconstructingPass =>
    obtain ⟨h, hd⟩ := hp (.inr (.inl rfl))
    exact turnPixel_turned h hd
  case passComplete =>
    obtain ⟨h, hd⟩ := hp (.inr (.inr (.inl rfl)))
    exact turnPassComplete_turned h hd
  case planeComplete =>
    obtain ⟨h, hd⟩ := hp (.inr (.inr (.inr (.inl rfl))))
    exact turnPlaneComplete_turned h hd

/-- Outside a session a turn waits (R245). -/
theorem sequencerStep_waits {s : State} (h : s.sq.seq = .idle ∨ s.sq.seq = .doneOk ∨ s.sq.seq = .doneErr) :
    sequencerStep s = .ok () s := by
  unfold sequencerStep
  rcases h with h | h | h <;> rw [h]

/-- Every turn keeps the session invariant. -/
theorem sequencerStep_sessionInv {s : State} (hs : sessionInv s = true) :
    (sequencerStep s).Post (fun _ t => sessionInv t = true) (fun t => sessionInv t = true) fun _ => True := by
  rcases s.sq.seq.running_or with hrun | hwait
  · by_cases ha : s.sq.seq = .assemble
    · have hstep : sequencerStep s = assemble s := by simp only [sequencerStep, ha]
      rw [hstep]
      rcases assemble_cases s with ⟨out, h, -, -⟩ | ⟨info, h⟩ | ⟨f, h⟩ <;> rw [h]
      · exact sessionInv_completeSession out hs ha
      · exact sessionInv_takeError _ hs hrun (Turning.refl s) ((sessionInv_iff s).1 hs).2.2.2.1.1
      · trivial
    · refine ((sequencerStep_within ha).and (sequencerStep_turned hs hrun ha)).imp ?_ ?_ fun _ _ => trivial
      · rintro _ t ⟨hw, ht⟩
        exact sessionInv_turned hs hrun hw ht
      · rintro t ⟨⟨e, u, hu, rfl⟩, ht⟩
        exact sessionInv_takeError e hs hrun hu ht
  · rw [sequencerStep_waits hwait]
    exact hs

/-! ### A step -/

/-- Every move of the host keeps the session invariant. -/
theorem HostMoved.sessionInv {s t : State} (h : HostMoved s t) (hs : sessionInv s = true) : sessionInv t = true := by
  cases h with
  | inputByte a b => exact hs
  | inHandle v => exact hs
  | inSize v => exact hs
  | bus v f => exact hs
  | start _ =>
    rw [sessionInv_iff] at hs ⊢
    exact ⟨hs.1, rfl, rfl, ⟨⟨rfl, limitOf_aligned _⟩, by simp [headerLegalAt, Seq.code]⟩,
      .inl (by decide : Seq.hdrMagic.code.toNat ≤ 10)⟩
  | reset =>
    rw [sessionInv_iff] at hs ⊢
    exact ⟨hs.1, rfl, rfl, ⟨⟨rfl, rfl⟩, rfl⟩, .inl (by decide : Seq.idle.code.toNat ≤ 10)⟩

theorem withInputs_sessionInv {s : State} {q : List Issue} (hq : hostDriven q = true) (hs : sessionInv s = true) :
    sessionInv (s.withInputs q) = true := by
  rw [sessionInv_iff] at hs ⊢
  exact ⟨hq, hs.2⟩

/-- Settles O54: a step of a host-driven machine is a turn of the sequencer or a move of the host. -/
theorem sessionInvariantIsKept : Obligations.SessionInvariantIsKept := by
  intro s t hs h
  obtain ⟨q, hq, hturn | ⟨u, hu, hm⟩⟩ := step_hostDriven ((sessionInv_iff s).1 hs).1
  · rw [hturn] at h
    exact (sequencerStep_sessionInv (withInputs_sessionInv hq hs)).outcome h
  · obtain rfl : u = t := by simpa only [hu, Host.Outcome.next.injEq] using h
    exact hm.sessionInv (withInputs_sessionInv hq hs)

end Sys2Proof.Machine
end

-- ==== The order of the positions ====
section
/-! The lattices of the passes (R233): the passes up to the i-th fill the lattice of step (dx, dy) of that pass, so every
position is in some pass, and every position R237 and R238 read comes earlier (R235, R343). -/

namespace Sys2Proof.Machine

/-- The first pass of either mode fills its own lattice (R232, R233). -/
def Pass.first (q : Pass) : Prop := q.kind = .R ∧ q.x0 = 0 ∧ q.y0 = 0 ∧ q.stepx = q.dx ∧ q.stepy = q.dy

/-- A V pass `q` halves the vertical step of the lattice of `p`, filling the rows between (R233). -/
def Pass.halvesRows (q p : Pass) : Prop :=
  q.kind = .V ∧ q.x0 = 0 ∧ q.y0 = q.dy ∧ q.stepx = q.dx ∧ q.stepy = 2 * q.dy ∧ p.dx = q.dx ∧ p.dy = 2 * q.dy

/-- An H pass `q` halves the horizontal step of the lattice of `p`, filling the columns between (R233). -/
def Pass.halvesColumns (q p : Pass) : Prop :=
  q.kind = .H ∧ q.x0 = q.dx ∧ q.y0 = 0 ∧ q.stepx = 2 * q.dx ∧ q.stepy = q.dy ∧ p.dx = 2 * q.dx ∧ p.dy = q.dy

/-- A pass is the first, or halves the lattice of the one before it. -/
theorem passOf_cases {interlaced : Bool} {i : Nat} {q : Pass} (h : passOf interlaced i = some q) :
    q.first ∨ ∃ k p, i = k + 1 ∧ passOf interlaced k = some p ∧ (q.halvesRows p ∨ q.halvesColumns p) := by
  unfold Pass.first Pass.halvesRows Pass.halvesColumns
  have hi : i < (passList interlaced).length := passOf_isSome.1 (by rw [h]; rfl)
  rw [passList_length] at hi
  cases interlaced with
  | false =>
    obtain rfl : i = 0 := by simp at hi; omega
    obtain rfl := Option.some.inj h
    exact .inl (by decide)
  | true =>
    simp only [if_true] at hi
    cases i with
    | zero =>
      obtain rfl := Option.some.inj h
      exact .inl (by decide)
    | succ k =>
      have hk : k < 8 := by omega
      interval_cases k
      all_goals
        obtain rfl := Option.some.inj h
        exact .inr ⟨_, _, rfl, rfl, by decide⟩

/-- A multiple of `d` is a multiple of `2·d`, or `d` above one. -/
theorem multiple_or_between {d n : Nat} (h : n % d = 0) :
    n % (2 * d) = 0 ∨ d ≤ n ∧ (n - d) % (2 * d) = 0 := by
  obtain ⟨k, rfl⟩ := Nat.dvd_of_mod_eq_zero h
  rcases Nat.even_or_odd' k with ⟨m, rfl | rfl⟩
  · exact .inl (Nat.mod_eq_zero_of_dvd ⟨m, by ring⟩)
  · refine .inr ⟨Nat.le_mul_of_pos_right d (by omega), Nat.mod_eq_zero_of_dvd ⟨m, ?_⟩⟩
    rw [Nat.sub_eq_iff_eq_add (Nat.le_mul_of_pos_right d (by omega))]
    ring

theorem between_multiple {d n : Nat} (hd : d ≤ n) (h : (n - d) % (2 * d) = 0) :
    n % d = 0 ∧ (n + d) % (2 * d) = 0 := by
  obtain ⟨m, hm⟩ := Nat.dvd_of_mod_eq_zero h
  obtain rfl : n = 2 * d * m + d := by omega
  exact ⟨Nat.mod_eq_zero_of_dvd ⟨2 * m + 1, by ring⟩, Nat.mod_eq_zero_of_dvd ⟨m + 1, by ring⟩⟩

/-- The passes up to the i-th fill its lattice. -/
theorem lattice_filled {interlaced : Bool} {W H x y : Nat} (hx : x < W) (hy : y < H) (i : Nat) {q : Pass}
    (hq : passOf interlaced i = some q) (hdx : x % q.dx = 0) (hdy : y % q.dy = 0) :
    ∃ j r, j ≤ i ∧ passOf interlaced j = some r ∧ r.has W H x y = true := by
  induction i generalizing q with
  | zero =>
    rcases passOf_cases hq with ⟨-, hx0, hy0, hsx, hsy⟩ | ⟨k, p, hk, -⟩
    · exact ⟨0, q, le_refl _, hq, Pass.has_iff.2 (by simp [hx, hy, hx0, hy0, hsx, hsy, hdx, hdy])⟩
    · omega
  | succ i ih =>
    rcases passOf_cases hq with ⟨-, hx0, hy0, hsx, hsy⟩ | ⟨k, p, hk, hp, hhalf⟩
    · exact ⟨i + 1, q, le_refl _, hq, Pass.has_iff.2 (by simp [hx, hy, hx0, hy0, hsx, hsy, hdx, hdy])⟩
    obtain rfl : k = i := by omega
    have earlier : x % p.dx = 0 → y % p.dy = 0 →
        ∃ j r, j ≤ k + 1 ∧ passOf interlaced j = some r ∧ r.has W H x y = true := fun h1 h2 => by
      obtain ⟨j, r, hj, hr, hh⟩ := ih hp h1 h2
      exact ⟨j, r, by omega, hr, hh⟩
    rcases hhalf with ⟨-, hx0, hy0, hsx, hsy, hpx, hpy⟩ | ⟨-, hx0, hy0, hsx, hsy, hpx, hpy⟩
    · rcases multiple_or_between hdy with h | ⟨hle, h⟩
      · exact earlier (hpx ▸ hdx) (hpy ▸ h)
      · exact ⟨k + 1, q, le_refl _, hq, Pass.has_iff.2 (by simp [hx, hy, hx0, hy0, hsx, hsy, hdx, hle, h])⟩
    · rcases multiple_or_between hdx with h | ⟨hle, h⟩
      · exact earlier (hpx ▸ h) (hpy ▸ hdy)
      · exact ⟨k + 1, q, le_refl _, hq, Pass.has_iff.2 (by simp [hx, hy, hx0, hy0, hsx, hsy, hdy, hle, h])⟩

/-- Every position of the image is in one of the passes (R235). -/
theorem position_inPass (interlaced : Bool) {W H x y : Nat} (hx : x < W) (hy : y < H) :
    ∃ i q, passOf interlaced i = some q ∧ q.has W H x y = true := by
  have hlast : ∃ i q, passOf interlaced i = some q ∧ q.dx = 1 ∧ q.dy = 1 := by
    cases interlaced
    · exact ⟨0, _, rfl, rfl, rfl⟩
    · exact ⟨8, _, rfl, rfl, rfl⟩
  obtain ⟨i, q, hq, hdx, hdy⟩ := hlast
  obtain ⟨j, r, -, hr, hh⟩ := lattice_filled hx hy i hq (by rw [hdx]; omega) (by rw [hdy]; omega)
  exact ⟨j, r, hr, hh⟩

/-- The positions of a pass lie on its lattice. -/
theorem Pass.has_lattice {interlaced : Bool} {i W H x y : Nat} {q : Pass} (hq : passOf interlaced i = some q)
    (h : q.has W H x y = true) : x % q.dx = 0 ∧ y % q.dy = 0 := by
  obtain ⟨⟨-, hx, hx'⟩, -, hy, hy'⟩ := Pass.has_iff.1 h
  rcases passOf_cases hq with ⟨-, hx0, hy0, hsx, hsy⟩ |
    ⟨-, -, -, -, ⟨-, hx0, hy0, hsx, hsy, -⟩ | ⟨-, hx0, hy0, hsx, hsy, -⟩⟩
  all_goals rw [hx0] at hx hx'
  all_goals rw [hy0] at hy hy'
  all_goals rw [hsx] at hx'
  all_goals rw [hsy] at hy'
  · exact ⟨hx', hy'⟩
  · exact ⟨hx', (between_multiple hy hy').1⟩
  · exact ⟨(between_multiple hx hx').1, hy'⟩

/-- Position `c` comes before position (x, y) of pass `i` (R234, R235). -/
def ComesBefore (interlaced : Bool) (W H i x y : Nat) (c : Nat × Nat) : Prop :=
  ∃ j r, passOf interlaced j = some r ∧ r.has W H c.1 c.2 = true ∧ (j < i ∨ j = i ∧ rasterBefore c (x, y) = true)

/-- A lattice position of the pass above, or to the left in the same row. -/
theorem comesBefore_of_raster {interlaced : Bool} {i W H x y a b : Nat} {q : Pass}
    (hq : passOf interlaced i = some q) (ha : a < W) (hb : b < H) (hdx : a % q.dx = 0) (hdy : b % q.dy = 0)
    (h : rasterBefore (a, b) (x, y) = true) : ComesBefore interlaced W H i x y (a, b) := by
  obtain ⟨j, r, hj, hr, hh⟩ := lattice_filled ha hb i hq hdx hdy
  exact ⟨j, r, hr, hh, (Nat.lt_or_eq_of_le hj).imp_right fun e => ⟨e, h⟩⟩

/-- The ahead neighbour of a V pass is of an earlier pass. -/
theorem aheadRow_comesBefore {interlaced : Bool} {i W H x y : Nat} {q : Pass} (hq : passOf interlaced i = some q)
    (h : q.has W H x y = true) (hk : q.kind = .V) (hy : y + q.dy < H) :
    ComesBefore interlaced W H i x y (x, y + q.dy) := by
  obtain ⟨⟨hx, -⟩, -, hy0, hys⟩ := Pass.has_iff.1 h
  obtain ⟨hdx, -⟩ := Pass.has_lattice hq h
  rcases passOf_cases hq with ⟨hR, -⟩ | ⟨k, p, rfl, hp, ⟨-, -, ey0, -, esy, hpx, hpy⟩ | ⟨hH, -⟩⟩
  · rw [hk] at hR; cases hR
  · rw [ey0, esy] at hys
    rw [ey0] at hy0
    obtain ⟨j, r, hj, hr, hh⟩ := lattice_filled hx hy k hp (hpx ▸ hdx) (hpy ▸ (between_multiple hy0 hys).2)
    exact ⟨j, r, hr, hh, .inl (by omega)⟩
  · rw [hk] at hH; cases hH

/-- The ahead neighbour of an H pass is of an earlier pass. -/
theorem aheadColumn_comesBefore {interlaced : Bool} {i W H x y : Nat} {q : Pass} (hq : passOf interlaced i = some q)
    (h : q.has W H x y = true) (hk : q.kind = .H) (hx : x + q.dx < W) :
    ComesBefore interlaced W H i x y (x + q.dx, y) := by
  obtain ⟨⟨-, hx0, hxs⟩, hy, -⟩ := Pass.has_iff.1 h
  obtain ⟨-, hdy⟩ := Pass.has_lattice hq h
  rcases passOf_cases hq with ⟨hR, -⟩ | ⟨k, p, rfl, hp, ⟨hV, -⟩ | ⟨-, ex0, -, esx, -, hpx, hpy⟩⟩
  · rw [hk] at hR; cases hR
  · rw [hk] at hV; cases hV
  · rw [ex0, esx] at hxs
    rw [ex0] at hx0
    obtain ⟨j, r, hj, hr, hh⟩ := lattice_filled hx hy k hp (hpx ▸ (between_multiple hx0 hxs).2) (hpy ▸ hdy)
    exact ⟨j, r, hr, hh, .inl (by omega)⟩

/-- A multiple less one or two steps, or plus one, is a multiple. -/
theorem multiple_steps {d n : Nat} (h : n % d = 0) :
    (d ≤ n → (n - d) % d = 0) ∧ (2 * d ≤ n → (n - 2 * d) % d = 0) ∧ (n + d) % d = 0 := by
  have hd := Nat.dvd_of_mod_eq_zero h
  exact ⟨fun _ => Nat.mod_eq_zero_of_dvd (Nat.dvd_sub hd (dvd_refl d)),
    fun _ => Nat.mod_eq_zero_of_dvd (Nat.dvd_sub hd (dvd_mul_left d 2)),
    Nat.mod_eq_zero_of_dvd (Nat.dvd_add hd (dvd_refl d))⟩

/-- Every position R237 and R238 read for a pixel comes before it (R235). -/
theorem neighbourReads_comeBefore {interlaced : Bool} {i W H x y : Nat} {q : Pass}
    (hq : passOf interlaced i = some q) (h : q.has W H x y = true) :
    ∀ c ∈ neighbourReads q W H x y, ComesBefore interlaced W H i x y c := by
  obtain ⟨⟨hx, -⟩, hy, -⟩ := Pass.has_iff.1 h
  obtain ⟨hdx, hdy⟩ := Pass.has_lattice hq h
  obtain ⟨hx1, hx2, hx3⟩ := multiple_steps hdx
  obtain ⟨hy1, hy2, -⟩ := multiple_steps hdy
  obtain ⟨-, -, -, -, -, -, px, py⟩ := passOf_bounds hq
  have left : ∀ a, a < x → a % q.dx = 0 → ComesBefore interlaced W H i x y (a, y) := fun a ha hm =>
    comesBefore_of_raster hq (by omega) hy hm hdy (by simp [rasterBefore, ha])
  have above : ∀ a b, a < W → b < y → a % q.dx = 0 → b % q.dy = 0 → ComesBefore interlaced W H i x y (a, b) :=
    fun a b ha hb hm hn => comesBefore_of_raster hq ha (by omega) hm hn (by simp [rasterBefore, hb])
  simp only [neighbourReads, List.forall_mem_append, forall_mem_guard]
  refine ⟨⟨⟨⟨⟨⟨⟨fun g => ?_, fun g => ?_⟩, fun g => ?_⟩, fun g => ?_⟩, fun g => ?_⟩, fun g => ?_⟩, fun g => ?_⟩,
    fun g => ?_⟩
  · exact left _ (by omega) (hx1 g)
  · exact above _ _ hx (by omega) hdx (hy1 g)
  · exact above _ _ (by omega) (by omega) (hx1 g.1) (hy1 g.2)
  · exact above _ _ g.2 (by omega) hx3 (hy1 g.1)
  · exact above _ _ hx (by omega) hdx (hy2 g)
  · exact left _ (by omega) (hx2 g)
  · exact aheadRow_comesBefore hq h g.1 g.2
  · exact aheadColumn_comesBefore hq h g.1 g.2

end Sys2Proof.Machine
end

-- ==== The progress of a session ====
section
/-! The progress invariant along a turn and a move: nothing is read before it has been written, and no access leaves
its range (R20, R38, R67, R235). -/

namespace Sys2Proof.Machine

/-! ### The invariant by states -/

/-- The current plane once its tree is decoded: it is one of the image's, the planes before it are complete, its tree is
in the arena and its dimensions are recorded. -/
structure InPlane (s : State) : Prop where
  plane : s.sq.p.toNat < s.C
  count : s.sq.planesDone = s.sq.p
  before : planesReady s s.sq.p.toNat
  tree : treeReady s
  width : s.sq.plW[s.sq.p.toNat]? = some s.hdr.width
  height : s.sq.plH[s.sq.p.toNat]? = some s.hdr.height

/-- The current position: it is in the current pass `q`, and every position of the pass before it has been written. -/
def AtPosition (s : State) (q : Pass) : Prop :=
  passOf s.interlaced s.sq.pi.toNat = some q ∧ q.has s.W s.H s.sq.x.toNat s.sq.y.toNat = true ∧
    ∀ x y, q.has s.W s.H x y = true → rasterBefore (x, y) (s.sq.x.toNat, s.sq.y.toNat) = true →
      written s s.sq.p.toNat x y

theorem inPlane_iff (s : State) : InPlane s ↔ s.sq.p.toNat < s.C ∧ s.sq.planesDone = s.sq.p ∧
    planesReady s s.sq.p.toNat ∧ treeReady s ∧ s.sq.plW[s.sq.p.toNat]? = some s.hdr.width ∧
      s.sq.plH[s.sq.p.toNat]? = some s.hdr.height :=
  ⟨fun h => ⟨h.1, h.2, h.3, h.4, h.5, h.6⟩, fun ⟨h1, h2, h3, h4, h5, h6⟩ => ⟨h1, h2, h3, h4, h5, h6⟩⟩

theorem progressInv_awaitingTree {s : State} (h : s.sq.seq = .awaitingTree) : progressInv s ↔
    s.sq.p.toNat < s.C ∧ s.sq.planesDone = s.sq.p ∧ planesReady s s.sq.p.toNat := by
  unfold progressInv
  rw [h]

theorem progressInv_reconstructingPass {s : State} (h : s.sq.seq = .reconstructingPass) : progressInv s ↔
    InPlane s ∧ passesWritten s s.sq.pi.toNat ∧ ∃ q, AtPosition s q := by
  unfold progressInv
  rw [h, inPlane_iff]
  simp only [AtPosition, and_assoc]

theorem progressInv_passComplete {s : State} (h : s.sq.seq = .passComplete) : progressInv s ↔
    InPlane s ∧ s.sq.pi.toNat < (passList s.interlaced).length ∧ passesWritten s (s.sq.pi.toNat + 1) := by
  unfold progressInv
  rw [h, inPlane_iff]
  simp only [and_assoc]

theorem progressInv_planeComplete {s : State} (h : s.sq.seq = .planeComplete) : progressInv s ↔
    s.sq.p.toNat < s.C ∧ s.sq.planesDone = s.sq.p ∧ planesReady s (s.sq.p.toNat + 1) := by
  unfold progressInv
  rw [h]

theorem progressInv_assemble {s : State} (h : s.sq.seq = .assemble) : progressInv s ↔
    s.sq.planesDone.toNat = s.C ∧ planesReady s s.C := by
  unfold progressInv
  rw [h]

/-- Outside the payload nothing is asked. -/
theorem progressInv_outside {s : State} (h : ¬ s.sq.seq.payload) : progressInv s := by
  unfold Seq.payload at h
  unfold progressInv
  split
  all_goals simp_all

/-! ### States that hold more -/

/-- `t` has the header of `s` and every sample of `s`. -/
structure Grows (s t : State) : Prop where
  hdr : t.hdr = s.hdr
  written : ∀ p x y, written s p x y → written t p x y

theorem Grows.of_plane {s t : State} (hh : t.hdr = s.hdr) (hp : t.plane = s.plane) : Grows s t :=
  ⟨hh, fun p x y ⟨v, hv⟩ => ⟨v, (sampleAt_congr hp p y x).trans hv⟩⟩

theorem Grows.dims {s t : State} (h : Grows s t) :
    t.W = s.W ∧ t.H = s.H ∧ t.C = s.C ∧ t.interlaced = s.interlaced := by
  simp only [State.W, State.H, State.C, State.interlaced, h.hdr, and_self]

theorem Grows.planesReady {s t : State} (h : Grows s t) {n : Nat}
    (hW : ∀ q, q < n → t.sq.plW[q]? = s.sq.plW[q]?) (hH : ∀ q, q < n → t.sq.plH[q]? = s.sq.plH[q]?)
    (hs : planesReady s n) : planesReady t n := by
  intro q hq
  obtain ⟨hw, h1, h2⟩ := hs q hq
  obtain ⟨eW, eH, -⟩ := h.dims
  refine ⟨fun x y hx hy => h.written q x y (hw x y (eW ▸ hx) (eH ▸ hy)), ?_, ?_⟩
  · rw [hW q hq, h1, h.hdr]
  · rw [hH q hq, h2, h.hdr]

theorem Grows.passesWritten {s t : State} (h : Grows s t) (hp : t.sq.p = s.sq.p) {n : Nat}
    (hs : passesWritten s n) : passesWritten t n := by
  intro i q x y hi hq hh
  obtain ⟨eW, eH, -, eI⟩ := h.dims
  rw [eI] at hq
  rw [eW, eH] at hh
  rw [hp]
  exact h.written _ _ _ (hs i q x y hi hq hh)

/-- A move within the plane, with more of it written. -/
theorem InPlane.grow {s t : State} (hs : InPlane s) (h : Grows s t) (ht : treeReady t) (hm : MovedFrom s t) :
    InPlane t := by
  obtain ⟨-, -, eC, -⟩ := h.dims
  have hp : t.sq.p = s.sq.p := by rw [hm]
  have hd : t.sq.planesDone = s.sq.planesDone := by rw [hm]
  have hW : t.sq.plW = s.sq.plW := by rw [hm]
  have hH : t.sq.plH = s.sq.plH := by rw [hm]
  exact
    { plane := by rw [hp, eC]; exact hs.plane
      count := by rw [hp, hd]; exact hs.count
      before := hp ▸ h.planesReady (fun q _ => by rw [hW]) (fun q _ => by rw [hH]) hs.before
      tree := ht
      width := by rw [hp, hW, h.hdr]; exact hs.width
      height := by rw [hp, hH, h.hdr]; exact hs.height }

/-- A tree that is ready is ready in every state with the same arena but for counters. -/
theorem treeReady_sameTree {s t : State} (h : SameTree s t) (hs : treeReady s) : treeReady t := by
  obtain ⟨T, hT, ht⟩ := hs
  exact ⟨T, hT, (h.treeAt T 0).trans ht⟩

theorem treeReady_congr {s t : State} (h : t.cm.nodes = s.cm.nodes) (hs : treeReady s) : treeReady t :=
  treeReady_sameTree (SameTree.of_nodes h) hs

/-- The progress invariant speaks of the sequencer, the header, the plane store and the arena alone. -/
theorem progressInv_congr {s t : State} (hsq : t.sq = s.sq) (hhdr : t.hdr = s.hdr) (hpl : t.plane = s.plane)
    (hn : t.cm.nodes = s.cm.nodes) (hs : progressInv s) : progressInv t := by
  have hw : written t = written s := by
    funext p x y
    simp only [written, sampleAt_congr hpl]
  have ht : treeReady t = treeReady s := propext ⟨treeReady_congr hn.symm, treeReady_congr hn⟩
  simpa only [progressInv, planesReady, planeWritten, passesWritten, hw, ht, State.W, State.H, State.C,
    State.interlaced, hsq, hhdr] using hs

/-! ### The dimensions of a legal header -/

theorem headerLegal_dims {d : Header} (h : headerLegalAt .acInit d = true) :
    1 ≤ d.channels.toNat ∧ d.channels.toNat ≤ 4 ∧ 1 ≤ d.depth.toNat ∧ d.depth.toNat ≤ 16 := by
  simp [headerLegalAt, Seq.code, Config.maxChannels, Config.maxDepth] at h
  omega

end Sys2Proof.Machine
end

-- ==== Sessions never fault ====
section
/-! Each row of R245 from a state that meets the invariants: it does not fault, and the progress invariant holds after
it (R20, R38, R67, R235, R321). -/

namespace Sys2Proof.Machine

/-! ### The tree -/

/-- Decisions change counters alone. -/
theorem takes_sameTree {ds : List (CtrRef × Bool)} {s t : State} (hw : s.memoryWf = true)
    (h : takes s ds = some t) : SameTree s t := by
  have self : SameDecisions (fun _ => True) s s := ⟨rfl, hw, hw, fun _ _ => rfl⟩
  obtain ⟨u, hu, -, hs, -⟩ := takes_same self (fun _ _ => trivial) h
  obtain rfl : u = t := Option.some.inj (hu.symm.trans h)
  exact hs

/-- R188, R189: tree decode never faults, and answers with a legal tree in the arena. -/
theorem treeDecodeIterative_ready {s : State} (hw : s.memoryWf = true) :
    (treeDecodeIterative s).Post (fun _ t => treeReady t) (fun _ => True) NoFault := by
  have hc : Store.canonical s.cm.nodes = true := ((memoryWf_iff s).1 hw).2.2.2.1
  have hl : Laid s.treeStart { s.treeStart.cm with sp := 0, depth := 0 } 0 (nodeAt s)
      { resetMeta s with cm := { (resetMeta s).cm with nn := 0, sp := 0, depth := 0 } } :=
    ⟨{ s.treeStart.cm with sp := 0, depth := 0 }, rfl, rfl, rfl, rfl, rfl, hc, rfl⟩
  have hs := treeLoop_spec (more := 12) hl (le_refl _) rfl (Nat.zero_le _) (by norm_num)
  cases hd : decideTree 12 s.treeStart with
  | ok T w =>
    obtain ⟨htakes, hfields, hheight⟩ := decideTree_takes hd
    have hT : T.legal = true := by
      simp only [TreeShape.legal, hfields, Bool.true_and, decide_eq_true_eq]
      exact hheight
    obtain ⟨u, hu, -, harena, -⟩ := treeDecodeIterative_coded hw hT htakes
    rw [hu]
    exact ⟨T, hT, treeAt_layTree T hfields (by have := legal_size hT; omega) fun j _ _ => by rw [harena]⟩
  | ended w =>
    rw [hd] at hs
    obtain ⟨e, he⟩ := hs
    have hrun : treeDecodeIterative s = .ended (w.withTree e) := he
    rw [hrun]
    trivial
  | fault f =>
    rw [hd] at hs
    exact hs.elim

/-! ### One pixel -/

/-- The prediction and the leaf of a pixel whose reads have been written and whose tree is ready (R239, R240, R186). -/
theorem pixelContext_ok {s : State} {q : Pass} {v : Nat → Nat → Nat} (hr : PixelReads s q v) (ht : treeReady s) :
    ∃ pred leaf, pixelContext s = .ok (pred, leaf) ∧ leaf < 8191 := by
  obtain ⟨T, hT, htree⟩ := ht
  have hlegal := hT
  simp only [TreeShape.legal, Bool.and_eq_true, decide_eq_true_eq, Config.maxTreeDepth] at hlegal
  have hlookup : ∀ P, treeLookup s P = .ok (selectFrom P T 0) := fun P =>
    lookupFrom_tree T hlegal.1 htree (by omega)
  refine ⟨_, _, by simp only [pixelContext, predictOf_ok hr, propertiesOf_ok hr, hlookup, bind, Except.bind]; rfl, ?_⟩
  have hsize := legal_size hT
  exact lt_of_lt_of_le (leavesFrom_bounds T (selectFrom_mem _ T 0)).2 (by omega)

/-- A sample is written when its plane exists and the store holds its key (R38). -/
theorem written_iff {s : State} {p x y : Nat} :
    written s p x y ↔ p < 4 ∧ ∃ v, Store.get? s.plane (planeKey p y x) = some v := by
  unfold written sampleAt
  split_ifs with hp
  · cases Store.get? s.plane (planeKey p y x) with
    | none => simp
    | some v => simp [hp]
  · simp [hp]

/-- A written sample stays written, and the one just stored is (R38). -/
theorem writeSample_grows {p y x : Nat} (v : Sample) (s : State) (hp : p < 4) :
    ∃ t, writeSample p y x v s = .ok () t ∧ t = { s with plane := t.plane } ∧ Grows s t ∧ written t p x y := by
  obtain ⟨t, ht, heq, hnew, hold⟩ := writeSample_spec (p := p) (y := y) (x := x) v s hp
  refine ⟨t, ht, heq, ⟨by rw [heq], fun p' x' y' hw => ?_⟩, _, hnew⟩
  by_cases hk : planeKey p' y' x' = planeKey p y x
  · obtain ⟨hp', w, hget⟩ := written_iff.1 hw
    have hstored : written t p x y := ⟨_, hnew⟩
    obtain ⟨-, w', hget'⟩ := written_iff.1 hstored
    exact written_iff.2 ⟨hp', w', by rw [hk]; exact hget'⟩
  · obtain ⟨w, hw⟩ := hw
    exact ⟨w, (hold p' y' x' hk).trans hw⟩

/-- R241: a pixel all of whose reads have been written is decoded without a fault, and its sample is written. -/
theorem decodePixel_progress {s : State} {q : Pass} {v : Nat → Nat → Nat} (hw : s.memoryWf = true)
    (hr : PixelReads s q v) (ht : treeReady s) (hp : s.sq.p.toNat < 4) (hD : 1 ≤ s.D ∧ s.D ≤ 16) :
    (decodePixel s).Post
      (fun _ t => Grows s t ∧ treeReady t ∧ t.sq = s.sq ∧ written t s.sq.p.toNat s.sq.x.toNat s.sq.y.toNat)
      (fun _ => True) NoFault := by
  obtain ⟨pred, leaf, hctx, hleaf⟩ := pixelContext_ok hr ht
  have hpresent : (SetRef.leaf (BitVec.ofNat 13 leaf)).present = true := by
    simp only [SetRef.present, NodeIdx.present, BitVec.toNat_ofNat, decide_eq_true_eq]
    omega
  simp only [decodePixel, hctx, Res.ofExcept_ok, Res.bind_ok]
  have hwithin := nzDecode_within (.leaf (BitVec.ofNat 13 leaf)) s.D ⟨.corruptPixelValue, 0⟩ s
  cases hn : nzDecode (.leaf (BitVec.ofNat 13 leaf)) s.D ⟨.corruptPixelValue, 0⟩ s with
  | fault f => exact nzDecode_noFault hpresent hD.2 s f hn
  | ended u => trivial
  | ok r u =>
    rw [hn] at hwithin
    obtain ⟨hwork, hhdr, hplane⟩ := hwithin
    have hsq : u.sq = s.sq := hwork.same.2.2.2.1
    have htree : treeReady u := treeReady_sameTree (takes_sameTree hw (nzDecode_inv hD.1 hn).2) ht
    have hgrow : Grows s u := Grows.of_plane hhdr hplane
    simp only [Res.bind_ok, hsq]
    obtain ⟨t, hst, heq, hg, hnew⟩ := writeSample_grows (p := s.sq.p.toNat) (y := s.sq.y.toNat) (x := s.sq.x.toNat)
      (BitVec.ofInt 16 (clamp (pred + r) 0 u.maxSample)) u hp
    rw [hst]
    refine ⟨⟨hg.hdr.trans hhdr, fun p x y h => hg.written p x y (hgrow.written p x y h)⟩, ?_, ?_, hnew⟩
    · exact treeReady_congr (by rw [heq]) htree
    · rw [heq]
      exact hsq

/-! ### Passes -/

/-- A coordinate inside the image fits its register (R35). -/
theorem coordinate_toNat {n : Nat} (w : Word) (h : n < w.toNat) : (BitVec.ofNat 32 n).toNat = n := by
  have := w.isLt
  rw [BitVec.toNat_ofNat]
  omega

/-- Entering a pass of the list: its first position, or none (R234, R245). -/
theorem enterPass_progress {s : State} (h : InPlane s) (hpi : s.sq.pi.toNat < (passList s.interlaced).length)
    (hw : passesWritten s s.sq.pi.toNat) : (enterPass s).Post (fun _ t => progressInv t) (fun _ => True) NoFault := by
  obtain ⟨q, hq⟩ := Option.isSome_iff_exists.1 (passOf_isSome.2 hpi)
  unfold enterPass
  rw [currentPass_eq_ok.2 hq]
  have moved : ∀ c, InPlane (gotoSeq c (moveTo (q.x0, q.y0) s)) := fun c =>
    h.grow (Grows.of_plane rfl rfl) (treeReady_congr (s := s) rfl h.tree) rfl
  show progressInv (gotoSeq (if q.nonempty s.W s.H then .reconstructingPass else .passComplete) (moveTo (q.x0, q.y0) s))
  split_ifs with hne
  · refine (progressInv_reconstructingPass rfl).2 ⟨moved _, hw, q, hq, ?_⟩
    have hhas := Pass.nonempty_iff.1 hne
    obtain ⟨⟨hx, -⟩, hy, -⟩ := Pass.has_iff.1 hhas
    simp only [gotoSeq_sq, moveTo_sq, coordinate_toNat _ hx, coordinate_toNat _ hy]
    refine ⟨hhas, fun x y hh hb => ?_⟩
    obtain ⟨⟨-, hx0, -⟩, -, hy0, -⟩ := Pass.has_iff.1 hh
    simp only [rasterBefore, Bool.or_eq_true, Bool.and_eq_true, decide_eq_true_eq] at hb
    omega
  · refine (progressInv_passComplete rfl).2 ⟨moved _, hpi, fun i r x y hi hr hh => ?_⟩
    rcases Nat.lt_succ_iff_lt_or_eq.1 hi with hi | rfl
    · exact hw i r x y hi hr hh
    · obtain rfl : q = r := Option.some.inj (hq.symm.trans hr)
      exact absurd (Pass.has_nonempty hh) hne

/-- A pixel of the current pass reads positions that have been written (R235, R237, R238). -/
theorem pixelReads_of_progress {s : State} {q : Pass} (hw : passesWritten s s.sq.pi.toNat) (h : AtPosition s q) :
    ∃ v, PixelReads s q v := by
  obtain ⟨hq, hhas, hbefore⟩ := h
  obtain ⟨⟨hx, -⟩, hy, -⟩ := Pass.has_iff.1 hhas
  refine ⟨_, pixelReads_of_written hq hx hy fun c hc => ?_⟩
  obtain ⟨j, r, hr, hh, hj | ⟨rfl, hb⟩⟩ := neighbourReads_comeBefore hq hhas c hc
  · exact hw j r c.1 c.2 hj hr hh
  · obtain rfl : q = r := Option.some.inj (hq.symm.trans hr)
    exact hbefore c.1 c.2 hh hb

theorem turnPixel_progress {s : State} (hw : s.memoryWf = true) (hd : headerLegalAt .acInit s.hdr = true)
    (h : InPlane s) (hpw : passesWritten s s.sq.pi.toNat) {q : Pass} (hat : AtPosition s q) :
    (turnPixel s).Post (fun _ t => progressInv t) (fun _ => True) NoFault := by
  obtain ⟨v, hr⟩ := pixelReads_of_progress hpw hat
  obtain ⟨hq, hhas, hbefore⟩ := hat
  obtain ⟨-, hC, hD1, hD2⟩ := headerLegal_dims hd
  have hp4 : s.sq.p.toNat < 4 := lt_of_lt_of_le h.plane hC
  refine (decodePixel_progress hw hr h.tree hp4 ⟨hD1, hD2⟩).bind ?_
  rintro _ t ⟨hg, ht, hsq, hnew⟩
  obtain ⟨eW, eH, -, eI⟩ := hg.dims
  have hcur : currentPass t = .ok q := currentPass_eq_ok.2 (by rw [eI, hsq]; exact hq)
  simp only [hcur, Res.ofExcept_ok, Res.bind_ok, eW, eH, hsq]
  obtain ⟨-, -, hsx, -, hsy, -⟩ := passOf_bounds hq
  obtain ⟨hadvW, hadv⟩ := Pass.advance_spec hsx hsy hhas
  generalize q.advance s.W s.sq.x.toNat s.sq.y.toNat = xy at hadvW hadv ⊢
  have moved : ∀ c, Grows s (gotoSeq c (moveTo xy t)) := fun c => ⟨hg.hdr, hg.written⟩
  have plane : ∀ c, InPlane (gotoSeq c (moveTo xy t)) := fun c =>
    h.grow (moved c) (treeReady_congr (s := t) rfl ht) (by simp only [MovedFrom, gotoSeq_sq, moveTo_sq, hsq])
  have hsp : ∀ c, (gotoSeq c (moveTo xy t)).sq.p = s.sq.p := fun c => by simp only [gotoSeq_sq, moveTo_sq, hsq]
  have hspi : ∀ c, (gotoSeq c (moveTo xy t)).sq.pi = s.sq.pi := fun c => by simp only [gotoSeq_sq, moveTo_sq, hsq]
  -- everything of the pass up to the current position is written now
  have here : ∀ c x y, q.has s.W s.H x y = true →
      rasterBefore (x, y) (s.sq.x.toNat, s.sq.y.toNat) = true ∨ (x, y) = (s.sq.x.toNat, s.sq.y.toNat) →
      written (gotoSeq c (moveTo xy t)) s.sq.p.toNat x y := by
    rintro c x y hh (hb | he)
    · exact (moved c).written _ _ _ (hbefore x y hh hb)
    · obtain ⟨rfl, rfl⟩ := Prod.mk.inj he
      exact hnew
  show progressInv (gotoSeq _ (moveTo xy t))
  split_ifs at hadv ⊢ with hlt
  · obtain ⟨hhas', hiff⟩ := hadv
    refine (progressInv_reconstructingPass rfl).2 ⟨plane _, ?_, q, ?_⟩
    · rw [hspi]
      exact (moved _).passesWritten (hsp _) hpw
    · obtain ⟨mW, mH, -, mI⟩ := (moved .reconstructingPass).dims
      refine ⟨by rw [mI, hspi]; exact hq, ?_⟩
      rw [mW, mH, hsp]
      simp only [gotoSeq_sq, moveTo_sq, coordinate_toNat _ hadvW, coordinate_toNat _ hlt]
      exact ⟨hhas', fun x y hh hb => here _ x y hh ((hiff x y hh).1 hb)⟩
  · obtain ⟨mW, mH, -, mI⟩ := (moved .passComplete).dims
    refine (progressInv_passComplete rfl).2 ⟨plane _, ?_, ?_⟩
    · rw [mI, hspi]
      exact passOf_isSome.1 (by rw [hq]; rfl)
    · intro i r x y hi hr hh
      rw [hspi] at hi
      rcases Nat.lt_succ_iff_lt_or_eq.1 hi with hi | rfl
      · exact (moved _).passesWritten (hsp _) hpw i r x y hi hr hh
      · rw [mI] at hr
        rw [mW, mH] at hh
        rw [hsp]
        obtain rfl : q = r := Option.some.inj (hq.symm.trans hr)
        exact here _ x y hh (hadv x y hh)

/-- The counter of passes does not wrap: there are at most nine (R233). -/
theorem pass_succ {s : State} (h : s.sq.pi.toNat < (passList s.interlaced).length) :
    (s.sq.pi + 1).toNat = s.sq.pi.toNat + 1 := by
  rw [passList_length] at h
  split_ifs at h <;> bv_omega

theorem turnPassComplete_progress {s : State} (h : InPlane s)
    (hpi : s.sq.pi.toNat < (passList s.interlaced).length) (hpw : passesWritten s (s.sq.pi.toNat + 1)) :
    (turnPassComplete s).Post (fun _ t => progressInv t) (fun _ => True) NoFault := by
  have hsucc := pass_succ hpi
  have hnext : InPlane { s with sq := { s.sq with pi := s.sq.pi + 1 } } :=
    h.grow (Grows.of_plane rfl rfl) (treeReady_congr (s := s) rfl h.tree) rfl
  simp only [turnPassComplete]
  split_ifs with hlt
  · refine enterPass_progress hnext hlt ?_
    rw [hsucc]
    exact hpw
  · show progressInv (gotoSeq .planeComplete { s with sq := { s.sq with pi := s.sq.pi + 1 } })
    refine (progressInv_planeComplete rfl).2 ⟨h.plane, h.count, fun q hq => ?_⟩
    rcases Nat.lt_succ_iff_lt_or_eq.1 hq with hq | rfl
    · exact h.before q hq
    · refine ⟨fun x y hx hy => ?_, h.width, h.height⟩
      obtain ⟨i, r, hr, hh⟩ := position_inPass s.interlaced (show x < s.W from hx) (show y < s.H from hy)
      have hi : i < (passList s.interlaced).length := passOf_isSome.1 (by rw [hr]; rfl)
      have hle : ¬ (s.sq.pi + 1).toNat < (passList s.interlaced).length := hlt
      exact hpw i r x y (by omega) hr hh

/-! ### Planes -/

/-- The dimensions of a new plane are recorded and its tree is decoded: it is ready for its first pass (R245). -/
theorem inPlane_of_recorded {s t : State} (hp : s.sq.p.toNat < s.C) (hp4 : s.sq.p.toNat < 4)
    (hcount : s.sq.planesDone = s.sq.p) (hpr : planesReady s s.sq.p.toNat) (hg : Grows s t) (ht : treeReady t)
    (hsq : t.sq = { s.recorded.sq with pi := 0 }) : InPlane t := by
  have ep : t.sq.p = s.sq.p := by rw [hsq]; rfl
  have ecount : t.sq.planesDone = s.sq.planesDone := by rw [hsq]; rfl
  have eW : t.sq.plW = s.sq.plW.setIfInBounds s.sq.p.toNat s.hdr.width := by rw [hsq]; rfl
  have eH : t.sq.plH = s.sq.plH.setIfInBounds s.sq.p.toNat s.hdr.height := by rw [hsq]; rfl
  exact
    { plane := by rw [ep, hg.dims.2.2.1]; exact hp
      count := by rw [ep, ecount]; exact hcount
      before := by
        rw [ep]
        refine hg.planesReady (fun q hq => ?_) (fun q hq => ?_) hpr
        · rw [eW, Vector.getElem?_setIfInBounds_ne (by omega)]
        · rw [eH, Vector.getElem?_setIfInBounds_ne (by omega)]
      tree := ht
      width := by rw [ep, eW, hg.hdr, Vector.getElem?_setIfInBounds_self_of_lt hp4]
      height := by rw [ep, eH, hg.hdr, Vector.getElem?_setIfInBounds_self_of_lt hp4] }

theorem turnTree_progress {s : State} (hw : s.memoryWf = true) (hd : headerLegalAt .acInit s.hdr = true)
    (hp : s.sq.p.toNat < s.C) (hcount : s.sq.planesDone = s.sq.p) (hpr : planesReady s s.sq.p.toNat) :
    (turnTree s).Post (fun _ t => progressInv t) (fun _ => True) NoFault := by
  obtain ⟨-, hC, -⟩ := headerLegal_dims hd
  have hp4 : s.sq.p.toNat < 4 := lt_of_lt_of_le hp hC
  have hrec : recordPlane s = .ok () s.recorded := if_pos hp4
  have hwr : s.recorded.memoryWf = true := hw
  simp only [turnTree, hrec, Res.bind_ok]
  refine ((treeDecodeIterative_ready hwr).and (treeDecodeIterative_within s.recorded)).imp (fun _ _ ht => ht)
    (fun _ _ => trivial) (fun _ hf => hf.1) |>.bind ?_
  rintro _ t ⟨htree, hwork, hhdr, hplane⟩
  have hin : InPlane { t with sq := { t.sq with pi := 0 } } :=
    inPlane_of_recorded hp hp4 hcount hpr (Grows.of_plane hhdr hplane) (treeReady_congr (s := t) rfl htree)
      (congrArg (fun q : Sequencer => { q with pi := 0 }) hwork.same.2.2.2.1)
  refine enterPass_progress hin ?_ fun i _ _ _ hi => absurd hi (Nat.not_lt_zero i)
  show 0 < (passList _).length
  rw [passList_length]
  split_ifs <;> norm_num

theorem turnAcInit_progress {s : State} (hd : headerLegalAt .acInit s.hdr = true) :
    (turnAcInit s).Post (fun _ t => progressInv t) (fun _ => True) NoFault := by
  refine ((acInit_post s).imp (fun _ _ ht => ht) (fun _ _ => trivial) fun _ h => h).bind ?_
  rintro _ t ⟨u, c, hu, rfl⟩
  show progressInv { u with
    ac := { rng := 0xFFFFFFFF, code := c }, sq := { u.sq with p := 0, planesDone := 0, seq := .awaitingTree } }
  refine (progressInv_awaitingTree rfl).2 ⟨?_, rfl, fun q hq => absurd hq (Nat.not_lt_zero q)⟩
  have hC := (headerLegal_dims hd).1
  rw [← hu.hdr] at hC
  exact hC

theorem turnPlaneComplete_progress {s : State} (hd : headerLegalAt .acInit s.hdr = true) (hp : s.sq.p.toNat < s.C)
    (hcount : s.sq.planesDone = s.sq.p) (hpr : planesReady s (s.sq.p.toNat + 1)) :
    (turnPlaneComplete s).Post (fun _ t => progressInv t) (fun _ => True) NoFault := by
  have hC : s.C ≤ 4 := (headerLegal_dims hd).2.1
  have hsucc : (s.sq.p + 1).toNat = s.sq.p.toNat + 1 := by bv_omega
  have hdone : s.sq.planesDone + 1 = s.sq.p + 1 := by rw [hcount]
  show progressInv (gotoSeq (if (s.sq.p + 1).toNat < s.C then .awaitingTree else .assemble)
    { s with sq := { s.sq with planesDone := s.sq.planesDone + 1, p := s.sq.p + 1 } })
  split_ifs with hlt
  · refine (progressInv_awaitingTree rfl).2 ⟨hlt, hdone, ?_⟩
    show planesReady s (s.sq.p + 1).toNat
    rw [hsucc]
    exact hpr
  · have hall : s.sq.p.toNat + 1 = s.C := by omega
    refine (progressInv_assemble rfl).2 ⟨?_, ?_⟩
    · show (s.sq.planesDone + 1).toNat = s.C
      rw [hdone, hsucc, hall]
    · show planesReady s s.C
      rw [← hall]
      exact hpr

/-! ### The image -/

/-- A pixel of complete planes has its channels (R270). -/
theorem pixelChannels_written {s : State} {x y : Nat} (h : ∀ q, q < s.C → written s q x y) :
    ∃ ch, pixelChannels s x y = .ok ch := by
  have hv : ∀ q, ∃ v, q < s.C → sampleAt s q y x = .ok v := fun q => by
    by_cases hq : q < s.C
    · obtain ⟨v, hv⟩ := h q hq
      exact ⟨v, fun _ => hv⟩
    · exact ⟨0, fun hc => absurd hc hq⟩
  choose v hv using hv
  have hg := gatherSamples_ok (s := s) (x := x) (y := y) (v := v) (qs := List.range s.C)
    fun q hq => hv q (List.mem_range.1 hq)
  exact ⟨_, by simp only [pixelChannels, hg, bind, Except.bind]; rfl⟩

/-- Complete and recorded planes are assembled (R270, R271). -/
theorem assemble_progress {s : State} (hdone : s.sq.planesDone.toNat = s.C) (h : planesReady s s.C) :
    (assemble s).Post (fun _ t => progressInv t) (fun _ => True) NoFault := by
  have hcheck : checkPlanes (List.range s.C) s = .ok () s :=
    checkPlanes_ok fun q hq => (h q (List.mem_range.1 hq)).2
  have hwords : ∃ out, outputWords s (s.W * s.H) 0 = .ok out := outputWords_ok fun j _ hj => by
    rw [Nat.zero_add] at hj
    have hW : 0 < s.W := Nat.pos_of_mul_pos_right (Nat.zero_lt_of_lt hj)
    exact pixelChannels_written fun q hq => (h q hq).1 _ _ (Nat.mod_lt _ hW) (Nat.div_lt_of_lt_mul hj)
  obtain ⟨out, hout⟩ := hwords
  simp only [assemble, hdone, ne_eq, not_true_eq_false, if_false, hcheck, hout, Res.bind_ok, Res.ofExcept_ok]
  show progressInv (completeSession { s with output := out })
  exact progressInv_outside (by simp [Seq.payload, completeSession])

/-! ### A turn and a step -/

theorem parseThen_progress {op : State → Res Unit} {q q' : Seq} {s : State} (h : Parses q q' op) (hs : HeaderAt q s)
    (hq : ¬ q'.payload) : (parseThen op q' s).Post (fun _ t => progressInv t) (fun _ => True) NoFault :=
  ((h s hs).imp (fun _ _ ht => ht) (fun _ _ => trivial) fun _ h => h).bind fun _ _ _ => progressInv_outside hq

/-- A turn from a state that meets the three invariants does not fault, and goes on or ends the session. -/
theorem sequencerStep_progress {s : State} (hw : s.memoryWf = true) (hs : sessionInv s = true) (h : progressInv s) :
    (sequencerStep s).Post (fun _ t => progressInv t) (fun _ => True) NoFault := by
  have hh := ((sessionInv_iff s).1 hs).2.2.2.1
  have hd := fun hq => (Payload.of_sessionInv hs hq).2
  unfold sequencerStep
  cases hq : s.sq.seq
  all_goals rw [hq] at hh hd
  case idle => exact h
  case doneOk => exact h
  case doneErr => exact h
  case hdrMagic => exact parseThen_progress parseMagic_parses hh (by simp [Seq.payload])
  case hdrWidth => exact parseThen_progress parseWidth_parses hh (by simp [Seq.payload])
  case hdrHeight => exact parseThen_progress parseHeight_parses hh (by simp [Seq.payload])
  case hdrChannels => exact parseThen_progress parseChannels_parses hh (by simp [Seq.payload])
  case hdrDepth => exact parseThen_progress parseDepth_parses hh (by simp [Seq.payload])
  case hdrFlags => exact parseThen_progress parseFlags_parses hh (by simp [Seq.payload])
  case hdrChorder => exact parseThen_progress parseChorder_parses hh (by simp [Seq.payload])
  case hdrFrames => exact parseThen_progress parseFrames_parses hh (by simp [Seq.payload])
  case hdrMeta => exact parseThen_progress parseMeta_parses hh (by simp [Seq.payload])
  case acInit => exact turnAcInit_progress hh.2
  case awaitingTree =>
    obtain ⟨hp, hcount, hpr⟩ := (progressInv_awaitingTree hq).1 h
    exact turnTree_progress hw (hd (.inl rfl)) hp hcount hpr
  case reconstructingPass =>
    obtain ⟨hin, hpw, q, hat⟩ := (progressInv_reconstructingPass hq).1 h
    exact turnPixel_progress hw (hd (.inr (.inl rfl))) hin hpw hat
  case passComplete =>
    obtain ⟨hin, hpi, hpw⟩ := (progressInv_passComplete hq).1 h
    exact turnPassComplete_progress hin hpi hpw
  case planeComplete =>
    obtain ⟨hp, hcount, hpr⟩ := (progressInv_planeComplete hq).1 h
    exact turnPlaneComplete_progress (hd (.inr (.inr (.inr (.inl rfl))))) hp hcount hpr
  case assemble =>
    obtain ⟨hdone, hpr⟩ := (progressInv_assemble hq).1 h
    exact assemble_progress hdone hpr

/-- A session that has ended in an error asks nothing of its progress. -/
theorem sequencerStep_ended (s : State) :
    (sequencerStep s).Post (fun _ _ => True) (fun t => progressInv t) AnyFault := by
  refine (sequencerStep_post s).imp (fun _ _ _ => trivial) ?_ fun _ _ => trivial
  rintro t ⟨e, u, -, rfl⟩
  exact progressInv_outside (by simp [Seq.payload])

/-- Every move of the host keeps the progress invariant. -/
theorem HostMoved.progressInv {s t : State} (h : HostMoved s t) (hs : progressInv s) : progressInv t := by
  cases h with
  | start _ => exact progressInv_outside (by simp [Seq.payload])
  | reset => exact progressInv_outside (by simp [Seq.payload, State.reset])
  | inputByte a b => exact progressInv_congr (s := s) rfl rfl rfl rfl hs
  | inHandle v => exact progressInv_congr (s := s) rfl rfl rfl rfl hs
  | inSize v => exact progressInv_congr (s := s) rfl rfl rfl rfl hs
  | bus v f => exact progressInv_congr (s := s) rfl rfl rfl rfl hs

/-- An operation that does not fault completes its instruction. -/
theorem Res.Post.exists_next {α : Type} {r : Res α} {P : State → Prop} (h : r.Post (fun _ t => P t) P NoFault) :
    ∃ t, r.outcome = .next t ∧ P t := by
  cases r with
  | ok a t => exact ⟨t, rfl, h⟩
  | ended t => exact ⟨t, rfl, h⟩
  | fault f => exact h.elim

/-- Settles O56: a turn does not fault and a move completes; each keeps the three invariants. -/
theorem sessionsNeverFault : Obligations.SessionsNeverFault := by
  intro s hw hs hp
  obtain ⟨q, hq, hturn | ⟨t, ht, hm⟩⟩ := step_hostDriven ((sessionInv_iff s).1 hs).1
  all_goals
    have hs' := withInputs_sessionInv hq hs
    have hp' : progressInv (s.withInputs q) := progressInv_congr (s := s) rfl rfl rfl rfl hp
  · have hpost := ((sequencerStep_progress (s := s.withInputs q) hw hs' hp').and (sequencerStep_ended _)).and
      (sequencerStep_sessionInv hs')
    obtain ⟨t, ht, hpt, hst⟩ := (hpost.imp (Q := fun _ t => progressInv t ∧ sessionInv t = true)
      (fun _ _ h => ⟨h.1.1, h.2⟩) (fun _ h => ⟨h.1.2, h.2⟩) fun _ h => h.1.1).exists_next
    rw [← hturn] at ht
    exact ⟨t, ht, memoriesStayCanonical s t hw ht, hst, hpt⟩
  · exact ⟨t, ht, memoriesStayCanonical s t hw ht, hm.sessionInv hs', hm.progressInv hp'⟩

end Sys2Proof.Machine
end

-- ==== The host's access to INPUT and OUTPUT ====
section
/-! What a write of one INPUT byte and a read of one OUTPUT word do (R61, R63, R65, R71, R285, R289). -/

namespace Sys2Proof.Machine

/-! ### INPUT -/

/-- What the INPUT space holds after a write (R61): the new byte at its address, every other byte as before. -/
theorem storedByte_writeInputByte (a : Word) (b : Byte) (s : State) (a' : Nat) :
    storedByte (writeInputByte a b s) a' = if a' = a.toNat then b else storedByte s a' := by
  unfold storedByte
  rw [writeInputByte_input, Store.get?_put]
  split_ifs <;> rfl

/-- A write outside the region of a running session leaves no byte in doubt (U2). -/
theorem writeInputByte_stale_outside {a : Word} {s : State} (b : Byte) (h : inSessionRegion s a.toNat = false) :
    (writeInputByte a b s).stale = s.stale := by
  rw [writeInputByte_stale, h]
  rfl

/-- Settles O8: `storedByte_writeInputByte` at the written address and at another, and the fields of
`writeInputByte`. -/
theorem writeInputStoresOneByte : Obligations.WriteInputStoresOneByte := by
  intro s a b
  refine ⟨writeInputByte a b s, exec_writeInput a b s, ?_, fun a' hne => ?_, rfl, writeInputByte_stale_outside b⟩
  · rw [storedByte_writeInputByte, if_pos rfl]
  · rw [storedByte_writeInputByte, if_neg hne]

/-! ### OUTPUT -/

theorem exec_readOutput (a : BitVec 26) (s : State) :
    exec (.readOutput a) s = .next (onBus ((outputWord a.toNat s).1.setWidth 32) (outputWord a.toNat s).2) := rfl

/-- After success the words of the image are specified (R63). -/
theorem specifiedWords_done {s : State} (h : s.host.status = statusDone) :
    specifiedWords s = s.host.outWidth.toNat * s.host.outHeight.toNat * s.host.outChannels.toNat := if_pos h

/-- A specified word that is stored is read as it is, and no free value is drawn (R63, R65). -/
theorem outputWord_specified {s : State} {a : Nat} {w : Sample} (ha : a < specifiedWords s)
    (hw : Store.get? s.output a = some w) : outputWord a s = (w, s) := by
  simp only [outputWord, if_pos ha, hw]

/-- Settles O9: a read of a word draws a free value or nothing, and nothing when the word is specified and stored. -/
theorem outputReadsHaveNoSideEffect : Obligations.OutputReadsHaveNoSideEffect := by
  refine fun s a => ⟨?_, fun w hdone ha hw => ?_⟩
  · obtain ⟨f, hf⟩ := outputWord_snd a.toNat s
    exact ⟨(outputWord a.toNat s).1.setWidth 32, f, by rw [exec_readOutput, hf]; rfl⟩
  · rw [← specifiedWords_done hdone] at ha
    rw [exec_readOutput, outputWord_specified ha hw]
    rfl

end Sys2Proof.Machine
end

-- ==== Queue entries and table words ====
section
/-! The decoder undoes the encoder on every well-formed instruction (R110, R285 to R287), and the words the spec writes
out (R23, R93, R96, R99). -/

namespace Sys2Proof

/-- A call that names an instruction inside its contract decodes to it. -/
theorem decode_call {busy : Bool} {row : Nat} {args : List Int} {i : Instr} (hw : wellFormed i = true)
    (h : decodeCall row args = .ok i) : decode busy (.call row args) = .ok i := by
  simp only [decode, h, Except.bind, checkContract, hw, if_true]

/-- A write of CTRL with bit 0 = 1, whose other bits are ignored (R23, R286, R287). -/
theorem decode_ctrl_start (busy : Bool) (hi : BitVec 31) :
    decode busy (.move (.writeReg 1 (hi ++ 1#1))) = .ok (if busy then .startWhileBusy hi else .decode hi) := by
  have hstart : (hi ++ 1#1).getLsbD 0 = true := ctrl_start hi 1#1
  simp only [decode, decodeMove, hstart, ctrl_ignored, if_true]

/-- A write of CTRL with bit 0 = 0 (R23). -/
theorem decode_ctrl_nop (busy : Bool) (hi : BitVec 31) :
    decode busy (.move (.writeReg 1 (hi ++ 0#1))) = .ok (.ctrlNop hi) := by
  have hstart : (hi ++ 0#1).getLsbD 0 = false := ctrl_start hi 0#1
  simp only [decode, decodeMove, hstart, ctrl_ignored, if_true, Bool.false_eq_true, if_false]

/-- A write to a register that ignores writes (R289). -/
theorem decode_writeRoReg (busy : Bool) {n : Nat} (v : Word) (h : ignoresWrites n = true) :
    decode busy (.move (.writeReg n v)) = .ok (.writeRoReg n v) := by
  simp only [ignoresWrites, Bool.and_eq_true, bne_iff_ne] at h
  obtain ⟨⟨h1, h3⟩, h4⟩ := h
  simp only [decode, decodeMove, if_neg h1, if_neg h3, if_neg h4]

/-- A read of a register other than `HR[0]`, which is VERSION (R288, R289). -/
theorem decode_readReg (busy : Bool) {n : Nat} (h : n ≠ 0) :
    decode busy (.move (.readReg n)) = .ok (.readReg n) := by
  simp only [decode, decodeMove, if_neg h]

/-- The two arguments of a counter name it. -/
theorem decodeCall_ctrCode (k : CtrRef) : decodeCall 29 (ctrCode k) = .ok (.decodeCtx k) := by
  cases k with
  | metaCtr i => rw [ctrCode, decodeCall_decodeCtx, ctrArg_metaCtr]; rfl
  | leafCtr n j => rw [ctrCode, decodeCall_decodeCtx, ctrArg_leafCtr]; rfl

/-- Settles O3: an entry with operands goes through the argument decoders, which undo the encoders of operands; the
entry of any other instruction decodes by its row or its register alone. -/
theorem decodeOfEncodeIsTheInstruction : Obligations.DecodeOfEncodeIsTheInstruction := by
  intro i hw
  cases i with
  | zero k => exact decode_call hw (by rw [decodeCall_zero, setArg_setCode]; rfl)
  | sign k => exact decode_call hw (by rw [decodeCall_sign, setArg_setCode]; rfl)
  | exp k e => exact decode_call hw (by rw [decodeCall_exp, setArg_setCode, natArg_natCast]; rfl)
  | mant k j => exact decode_call hw (by rw [decodeCall_mant, setArg_setCode, natArg_natCast]; rfl)
  | readUint n => exact decode_call hw (by rw [decodeCall_readUint, natArg_natCast]; rfl)
  | skipBytes n => exact decode_call hw (by rw [decodeCall_skipBytes, bitsArg_toNat]; rfl)
  | decodeBit p => exact decode_call hw (by rw [decodeCall_decodeBit, bitsArg_toNat]; rfl)
  | ctrUpdate p b => exact decode_call hw (by rw [decodeCall_ctrUpdate, bitsArg_toNat, boolArg_toNat]; rfl)
  | decodeCtx k => exact decode_call hw (decodeCall_ctrCode k)
  | nzDecode k l e =>
    exact decode_call hw (by
      rw [errCode, decodeCall_nzDecode, setArg_setCode, natArg_natCast, errArg_errCode]; rfl)
  | decodeNode d => exact decode_call hw (by rw [decodeCall_decodeNode, natArg_natCast]; rfl)
  | treeLookup P => exact decode_call hw (decodeCall_treeLookup ..)
  | raise e => exact decode_call hw (by rw [errCode, decodeCall_raise, errArg_errCode]; rfl)
  | decode hi => exact decode_ctrl_start false hi
  | startWhileBusy hi => exact decode_ctrl_start true hi
  | ctrlNop hi => exact decode_ctrl_nop false hi
  | readReg n => exact decode_readReg false (by simpa [wellFormed] using hw)
  | writeRoReg n v => exact decode_writeRoReg false v hw
  | _ => rfl

/-- Settles O2: the raw words by the table's masks, a CTRL write by its bit 0, any other move by its register number. -/
theorem writtenOutWordsDecode : Obligations.WrittenOutWordsDecode :=
  ⟨by decide, by decide, by decide, by decide, decode_ctrl_start false 0, decode_ctrl_start true 0,
    decode_ctrl_nop false 0x7FFFFFFF, rfl, rfl, rfl, decode_writeRoReg true 7 rfl, decode_writeRoReg true 7 rfl⟩

end Sys2Proof
end

-- ==== Near-zero integers and their parts ====
section
/-! A near-zero integer and its single decisions run alone (R100, R102, R105, R170 to R173). -/

namespace Sys2Proof.Machine

/-! ### The whole integer -/

theorem exec_nzDecode (k : SetRef) (limit : Nat) (e : Err) (s : State) :
    exec (.nzDecode k limit e) s = (nzDecode k limit e s).outcomeRet fun v => [v] := rfl

/-- The limits inside the contract of `nz_decode` (R171). -/
theorem nzDecode_wellFormed_limit {k : SetRef} {limit : Nat} {e : Err} (h : wellFormed (.nzDecode k limit e) = true) :
    1 ≤ limit := by
  simp only [wellFormed, Bool.and_eq_true, decide_eq_true_eq] at h
  obtain ⟨⟨⟨-, hl⟩, -⟩, -⟩ := h
  exact hl

/-- Settles O21 by `nzDecode_ok` and `nzDecode_raise`, which go along the steps of R171. -/
theorem nzDecodesTheCodedInteger : Obligations.NzDecodesTheCodedInteger := by
  intro k limit e hw
  have hl := nzDecode_wellFormed_limit hw
  refine ⟨fun s t v hv ht => ?_, fun s t neg ht => ?_⟩
  · rw [exec_nzDecode, nzDecode_ok hl hv ht, Res.outcomeRet_ok]
  · rw [exec_nzDecode, nzDecode_raise hl ht, Res.outcomeRet_ended]

/-! ### One decision -/

theorem exec_zero_coded {k : SetRef} {b : Bool} {s t : State} (h : takes s [(k.ctr 0, b)] = some t) :
    exec (.zero k) s = .next (t.returning [(b.toNat : Int)]) := by
  show (decodeCtx (k.ctr 0) s).outcomeRet _ = _
  rw [takes_one.1 h, Res.outcomeRet_ok]

theorem exec_sign_coded {k : SetRef} {b : Bool} {s t : State} (h : takes s [(k.ctr 1, b)] = some t) :
    exec (.sign k) s = .next (t.returning [(b.toNat : Int)]) := by
  show (decodeCtx (k.ctr 1) s).outcomeRet _ = _
  rw [takes_one.1 h, Res.outcomeRet_ok]

theorem exec_mant_coded {k : SetRef} {i : Nat} {b : Bool} {s t : State} (h : takes s [(k.ctr (18 + i), b)] = some t) :
    exec (.mant k i) s = .next (t.returning [(b.toNat : Int)]) := by
  show (decodeCtx (k.ctr (18 + i)) s).outcomeRet _ = _
  rw [takes_one.1 h, Res.outcomeRet_ok]

/-- EXP[e]: a 1 at the last exponent below the set's limit is the set's error (R105). -/
theorem exec_exp_coded {k : SetRef} {e : Nat} {b : Bool} {s t : State} (h : takes s [(k.ctr (2 + e), b)] = some t) :
    exec (.exp k e) s = .next
      (if b = true ∧ (setLimit k s).1 ≤ e + 1 then takeError (setLimit k s).2 t else t.returning [(b.toNat : Int)]) := by
  show ((decodeCtx (k.ctr (2 + e)) s).bind _).outcomeRet _ = _
  rw [takes_one.1 h, Res.bind_ok]
  by_cases hr : b = true ∧ (setLimit k s).1 ≤ e + 1
  · have hb : (b && decide ((setLimit k s).1 ≤ e + 1)) = true := by simpa using hr
    rw [if_pos hr, if_pos hb, raiseErr_eq, Res.outcomeRet_ended]
  · have hb : ¬ (b && decide ((setLimit k s).1 ≤ e + 1)) = true := by simpa using hr
    rw [if_neg hr, if_neg hb, Res.outcomeRet_ok]

/-- The counters of the threshold set from its `i`-th on, as counters of META (R36, R170). -/
theorem thr_ctr_add (i j : Nat) : SetRef.thr.ctr (i + j) = .metaCtr (8 + i + j) :=
  congrArg CtrRef.metaCtr (Nat.add_assoc 8 i j).symm

/-- Settles O23: each part is the one decision of its set, and the set gives the counter's number. -/
theorem nzPartsUseTheirOwnCounters : Obligations.NzPartsUseTheirOwnCounters := by
  intro s t b j
  refine ⟨fun h => exec_zero_coded h, fun h => exec_sign_coded h, fun h => ?_, fun h => ?_, fun n =>
    ⟨fun h => exec_zero_coded h, fun h => exec_sign_coded h, fun h => exec_exp_coded h, fun h => exec_mant_coded h⟩⟩
  · exact exec_exp_coded (k := .thr) (by rw [thr_ctr_add]; exact h)
  · exact exec_mant_coded (k := .thr) (by rw [thr_ctr_add]; exact h)

end Sys2Proof.Machine
end

-- ==== Node records ====
section
/-! A node record with its subtrees, decoded from the next free arena entry on (R103, R182, R187, R189). -/

namespace Sys2Proof.Machine

theorem exec_decodeNode (d : Nat) (s : State) :
    exec (.decodeNode d) s = (decodeNodeFrom (12 - d) s).outcomeRet fun i => [(i : Int)] := rfl

/-- NODE stands at the depth in the depth register (log entry 15). -/
theorem exec_node (s : State) : exec .node s = exec (.decodeNode s.cm.depth.toNat) s := rfl

/-- The decisions of a tree leave the arena and the registers of tree decode as they are. -/
theorem takes_codedTree_keeps {T : TreeShape} {s t : State} (h : takes s (codedTree T) = some t) :
    t.withTree s.cm = t := by
  have hs := takes_withTree s.cm (codedTree_meta T) s
  rw [withTree_self, h] at hs
  exact (Option.some.inj hs).symm

/-- Beside decisions that keep the registers of tree decode, only the arena and nn have changed. -/
theorem Laid.eq_arena {s t u : State} {n : Nat} {a : Nat → Node} (h : Laid t s.cm n a u) (hk : t.withTree s.cm = t) :
    u = { t with cm := { t.cm with nodes := u.cm.nodes, nn := u.cm.nn } } := by
  obtain ⟨e, rfl, hdepth, hsp, hts, -⟩ := h
  rw [← hk]
  simp only [State.withTree, hdepth, hsp, hts]

/-- Settles O27: `decodeNodeFrom_laid` lays the tree out in the arena from entry nn on. -/
theorem nodeRecordIsStoredInPreOrder : Obligations.NodeRecordIsStoredInPreOrder := by
  intro T d s t hw hT hd hn ht
  have hc : Store.canonical s.cm.nodes = true := by
    obtain ⟨-, -, -, hc, -⟩ := (memoryWf_iff s).1 hw
    exact hc
  obtain ⟨u, hrun, hu⟩ := decodeNodeFrom_laid (more := 12 - d) T hT (by omega) (Laid.self hc) hn ht
  have hexec : exec (.decodeNode d) s = .next (u.returning [(s.cm.nn.toNat : Int)]) := by
    rw [exec_decodeNode, hrun, Res.outcomeRet_ok]
  have hnn : u.cm.nn = s.cm.nn + BitVec.ofNat 14 T.size := by
    apply BitVec.eq_of_toNat_eq
    rw [hu.nn, BitVec.toNat_add, BitVec.toNat_ofNat]
    omega
  have hnode : nodeAt (u.returning [(s.cm.nn.toNat : Int)]) = layTree T s.cm.nn.toNat (nodeAt s) := hu.arena
  refine ⟨u.returning [(s.cm.nn.toNat : Int)], hexec, fun h => ?_, ?_, ?_, fun j hj => ?_, fun j hj => ?_⟩
  · rw [exec_node, h, hexec]
  · rw [← hnn]
    exact congrArg (State.returning [(s.cm.nn.toNat : Int)]) (hu.eq_arena (takes_codedTree_keeps ht))
  · exact treeAt_layTree T hT hn fun j _ _ => congrFun hnode j
  · rw [hnode]
    exact layTree_leaves T _ hj
  · rw [hnode]
    exact layTree_other T _ hj

end Sys2Proof.Machine
end

-- ==== Varints and the whole header ====
section
/-! A varint read alone, and the header elements one after the other on the bytes that encode a legal header (R92, R94,
R134, R200 to R210). -/

namespace Sys2Proof.Machine

/-! ### A varint -/

theorem exec_readVarint (s : State) : exec .readVarint s = (readVarint s).outcomeRet fun v => [v.toNat] := rfl

/-- A field fits the 32 bits of a varint's value (R94). -/
theorem field_toNat {v : VarField} (hl : v.legal = true) : (BitVec.ofNat 32 v.value).toNat = v.value := by
  rw [BitVec.toNat_ofNat, Nat.mod_eq_of_lt (field_lt hl)]

/-- Settles O13: `readVarint_field` reads the field whole, and its value fits u32. -/
theorem readVarintReadsEveryForm : Obligations.ReadVarintReadsEveryForm := by
  intro s v hl hr hp
  rw [exec_readVarint, readVarint_field hl hr hp, Res.outcomeRet_ok, field_toNat hl]

/-! ### The bytes ahead -/

/-- The next bytes of an owned input are `bs`. -/
def BytesAhead (bs : List Byte) (s : State) : Prop :=
  s.readable (8 * bs.length) = true ∧ s.peekBytes bs.length = bs

/-- The state after the bytes `bs` of a header, which have changed the header registers by `f`. -/
def State.parsed (bs : List Byte) (f : Header → Header) (s : State) : State :=
  writeHeader f (s.advance (8 * bs.length))

theorem parsed_nil (s : State) : s.parsed [] id = s := advance_zero s

/-- Two runs of bytes parsed in turn are parsed together. -/
theorem parsed_parsed (bs cs : List Byte) (f g : Header → Header) (s : State) :
    (s.parsed bs f).parsed cs g = s.parsed (bs ++ cs) (g ∘ f) := by
  have hadv : (s.advance (8 * bs.length)).advance (8 * cs.length) = s.advance (8 * (bs ++ cs).length) := by
    rw [advance_advance, List.length_append, Nat.mul_add]
  exact congrArg (writeHeader (g ∘ f)) hadv

/-- A header register written leaves the bytes ahead as they are. -/
theorem bytesAhead_writeHeader {bs : List Byte} {f : Header → Header} {s : State} :
    BytesAhead bs (writeHeader f s) ↔ BytesAhead bs s := by
  have hbytes : (writeHeader f s).peekBytes bs.length = s.peekBytes bs.length :=
    bytesFrom_congr (s := writeHeader f s) (t := s) rfl rfl _ _
  rw [BytesAhead, hbytes]
  exact Iff.rfl

/-- Bytes ahead taken apart: the first of them are ahead, and the others are once those have been parsed. -/
theorem BytesAhead.split {bs cs : List Byte} {s : State} (h : BytesAhead (bs ++ cs) s) (f : Header → Header) :
    BytesAhead bs s ∧ BytesAhead cs (s.parsed bs f) := by
  obtain ⟨hr, hp⟩ := h
  rw [List.length_append] at hr hp
  obtain ⟨hbs, hr', hcs⟩ := peekBytes_append hr rfl hp
  exact ⟨⟨readable_of_le hr (by omega), hbs⟩, bytesAhead_writeHeader.2 ⟨hr', hcs⟩⟩

/-! ### Reads of the bytes ahead -/

theorem readUint8_ahead {b : Byte} {s : State} (h : BytesAhead [b] s) :
    readUint 8 s = .ok (b.setWidth 32) (s.advance 8) :=
  readUint8 h.1 (peekBytes_cons (g := 0) h.1 h.2).1

theorem setWidth_byte (b : Byte) : (b.setWidth 32).setWidth 8 = b := BitVec.setWidth_setWidth_of_le b (by norm_num)

theorem encode_length (v : VarField) : v.encode.length = v.bytes := varintBytes_length v.bytes v.value

theorem readVarint_ahead {v : VarField} {s : State} (hl : v.legal = true) (h : BytesAhead v.encode s) :
    readVarint s = .ok (BitVec.ofNat 32 v.value) (s.advance (8 * v.encode.length)) := by
  obtain ⟨hr, hp⟩ := h
  rw [encode_length] at hr hp ⊢
  exact readVarint_field hl hr hp

/-- A field that is not 0 is not 0 in its register. -/
theorem field_ne_zero {v : VarField} (hl : v.legal = true) (h : 1 ≤ v.value) : BitVec.ofNat 32 v.value ≠ 0 := by
  rw [Ne, ← BitVec.toNat_inj, field_toNat hl]
  exact Nat.one_le_iff_ne_zero.1 h

theorem skipBytes_ahead {n : Word} {bs : List Byte} {s : State} (hn : n.toNat = bs.length) (h : BytesAhead bs s) :
    skipBytes n s = .ok () (s.advance (8 * bs.length)) := by
  have hroom := ((readable_iff _ _).1 h.1).2
  rw [skipBytes_ok (by rw [hn]; exact hroom), hn]

/-! ### The elements -/

/-- With the bytes `bs` ahead of `s` the parser `op` takes exactly these, and changes the header registers by `f`. -/
def ParsesAs (bs : List Byte) (f : Header → Header) (op : State → Res Unit) (s : State) : Prop :=
  BytesAhead bs s → op s = .ok () (s.parsed bs f)

/-- One parser after another (R200). -/
theorem ParsesAs.bind {bs cs : List Byte} {f g : Header → Header} {op next : State → Res Unit} {s : State}
    (hop : ParsesAs bs f op s) (hnext : ParsesAs cs g next (s.parsed bs f)) :
    ParsesAs (bs ++ cs) (g ∘ f) (fun s => (op s).bind fun _ t => next t) s := by
  intro h
  obtain ⟨hbs, hcs⟩ := h.split f
  show (op s).bind _ = _
  rw [hop hbs, Res.bind_ok, hnext hcs, parsed_parsed]

theorem parseMagic_parsesAs (s : State) : ParsesAs Config.magic id parseMagic s := fun h => magicFrom_ok h.1 h.2

theorem parseWidth_parsesAs {v : VarField} (hl : v.legal = true) (h1 : 1 ≤ v.value) (s : State) :
    ParsesAs v.encode (fun r => { r with width := BitVec.ofNat 32 v.value }) parseWidth s := by
  intro h
  rw [parseWidth, readVarint_ahead hl h, Res.bind_ok]
  exact if_neg (field_ne_zero hl h1)

theorem parseHeight_parsesAs {v : VarField} {s : State} (hl : v.legal = true) (h1 : 1 ≤ v.value)
    (hmax : s.W * v.value ≤ Config.maxPixels) :
    ParsesAs v.encode (fun r => { r with height := BitVec.ofNat 32 v.value }) parseHeight s := by
  intro h
  rw [parseHeight, readVarint_ahead hl h, Res.bind_ok]
  refine (if_neg (field_ne_zero hl h1)).trans (if_neg (Nat.not_lt.2 ?_))
  show s.W * (BitVec.ofNat 32 v.value).toNat ≤ _
  rw [field_toNat hl]
  exact hmax

theorem parseChannels_parsesAs {b : Byte} (hb : 1 ≤ b.toNat ∧ b.toNat ≤ Config.maxChannels) (s : State) :
    ParsesAs [b] (fun r => { r with channels := b }) parseChannels s := by
  intro h
  rw [parseChannels, readUint8_ahead h, Res.bind_ok, setWidth_byte]
  exact if_pos hb

theorem parseDepth_parsesAs {b : Byte} (hb : 1 ≤ b.toNat ∧ b.toNat ≤ Config.maxDepth) (s : State) :
    ParsesAs [b] (fun r => { r with depth := b }) parseDepth s := by
  intro h
  rw [parseDepth, readUint8_ahead h, Res.bind_ok, setWidth_byte]
  exact if_pos hb

/-- A legal FLAGS byte passes the checks of R206. -/
theorem checks_of_flagsLegal {C : Nat} {flags : Byte} (h : flagsLegal C flags = true) :
    flags &&& 0xE0 = 0 ∧ flags &&& 0x10 = 0 ∧ ¬ 2 ≤ (tidOf flags).toNat ∧ ¬ (tidOf flags = 1 ∧ C < 3) := by
  have hbits : ∀ f : Byte, f.toNat ≤ 7 → f &&& 0xE0 = 0 ∧ f &&& 0x10 = 0 ∧ ¬ 2 ≤ (tidOf f).toNat := by decide
  have hplain : ∀ f : Byte, f.toNat ≤ 3 → tidOf f ≠ 1 := by decide
  simp only [flagsLegal, Bool.or_eq_true, Bool.and_eq_true, decide_eq_true_eq] at h
  obtain ⟨hres, hp, ht⟩ := hbits flags (by omega)
  refine ⟨hres, hp, ht, fun ⟨htid, hC⟩ => ?_⟩
  rcases h with h3 | ⟨-, h3⟩
  · exact hplain flags h3 htid
  · omega

theorem parseFlags_parsesAs {b : Byte} {s : State} (hb : flagsLegal s.C b = true) :
    ParsesAs [b] (fun r => { r with flags := b }) parseFlags s := by
  intro h
  obtain ⟨hres, hp, ht, hsub⟩ := checks_of_flagsLegal hb
  rw [parseFlags, readUint8_ahead h, Res.bind_ok, setWidth_byte]
  exact (if_neg (not_not.2 hres)).trans ((if_neg (not_not.2 hp)).trans ((if_neg ht).trans (if_neg hsub)))

theorem parseChorder_parsesAs {b : Byte} {s : State} (hb : chorderLegal s.C b = true) :
    ParsesAs [b] (fun r => { r with chorder := b }) parseChorder s := by
  intro h
  rw [parseChorder, readUint8_ahead h, Res.bind_ok, setWidth_byte]
  exact if_pos ((chorderLoop_eq_legal s.C b).trans hb)

theorem parseFrames_parsesAs {v : VarField} (hl : v.legal = true) (h1 : v.value = 1) (s : State) :
    ParsesAs v.encode (fun r => { r with frames := 1 }) parseFrames s := by
  intro h
  rw [parseFrames, readVarint_ahead hl h, Res.bind_ok, h1]
  rfl

theorem parseMetalen_parsesAs {v : VarField} {s : State} (hm : s.hasMeta = true) (hl : v.legal = true) :
    ParsesAs v.encode (fun r => { r with metalen := BitVec.ofNat 32 v.value }) parseMetalen s := by
  intro h
  rw [parseMetalen, if_pos hm, readVarint_ahead hl h, Res.bind_ok]
  rfl

theorem parseMetadata_parsesAs {bs : List Byte} {s : State} (hm : s.hasMeta = true)
    (hn : s.hdr.metalen.toNat = bs.length) : ParsesAs bs id parseMetadata s := by
  intro h
  rw [parseMetadata, if_pos hm]
  exact skipBytes_ahead hn h

/-- Without has_meta neither METALEN nor METADATA is in the stream (R209). -/
theorem parseMeta_absent {s : State} (hm : s.hasMeta = false) : ParsesAs [] id parseMeta s := by
  intro _
  have hno : ¬ s.hasMeta = true := by rw [hm]; exact Bool.false_ne_true
  rw [parseMeta, parseMetalen, if_neg hno, Res.bind_ok, parseMetadata, if_neg hno, parsed_nil]

/-! ### The whole header -/

/-- The bytes of METALEN and METADATA, if the header has them (R209). -/
def metaBytes (h : HeaderFields) : List Byte :=
  if h.flags.getLsbD 1 then h.metalen.encode ++ h.metadata else []

/-- The header registers after the fields of METALEN and METADATA: h_metalen is kept where they are absent (R209). -/
def storeMeta (h : HeaderFields) (r : Header) : Header :=
  { r with metalen := if h.flags.getLsbD 1 then BitVec.ofNat 32 h.metalen.value else r.metalen }

/-- The header registers that hold the fields of `h` (R34, R200). -/
def storeHeader (h : HeaderFields) (r : Header) : Header where
  width := BitVec.ofNat 32 h.width.value
  height := BitVec.ofNat 32 h.height.value
  channels := h.channels
  depth := h.depth
  flags := h.flags
  chorder := h.chorder
  frames := 1
  metalen := if h.flags.getLsbD 1 then BitVec.ofNat 32 h.metalen.value else r.metalen

/-- The encoding element by element, as the parser takes it. -/
theorem headerEncode_eq (h : HeaderFields) :
    h.encode = Config.magic ++ (h.width.encode ++ (h.height.encode ++ ([h.channels] ++ ([h.depth] ++ ([h.flags] ++
      ([h.chorder] ++ (h.frames.encode ++ metaBytes h))))))) := by
  simp only [HeaderFields.encode, metaBytes, List.append_assoc, List.cons_append, List.nil_append]

/-- METALEN and METADATA of a legal header (R209). -/
theorem parseMeta_parsesAs {h : HeaderFields} {s : State} (hf : s.hdr.flags = h.flags)
    (hl : h.flags.getLsbD 1 = true → h.metalen.legal = true ∧ h.metalen.value = h.metadata.length) :
    ParsesAs (metaBytes h) (storeMeta h) parseMeta s := by
  unfold metaBytes storeMeta
  by_cases hm : h.flags.getLsbD 1 = true
  · obtain ⟨hlen, hdata⟩ := hl hm
    have hs : s.hasMeta = true := by rw [State.hasMeta, hf, hm]
    simp only [if_pos hm]
    exact (parseMetalen_parsesAs hs hlen).bind (parseMetadata_parsesAs hs ((field_toNat hlen).trans hdata))
  · simp only [if_neg hm]
    exact parseMeta_absent (by rw [State.hasMeta, hf]; exact Bool.eq_false_iff.2 hm)

/-- R200: the elements of a legal header are parsed one after the other. -/
theorem parseHeader_parsesAs {h : HeaderFields} (hl : h.legal = true) (s : State) :
    ParsesAs h.encode (storeHeader h) parseHeader s := by
  simp only [HeaderFields.legal, Bool.and_eq_true, decide_eq_true_eq, Bool.if_true_right, Bool.or_eq_true,
    Bool.not_eq_true'] at hl
  obtain ⟨⟨⟨⟨⟨⟨⟨⟨⟨⟨⟨⟨⟨hw, hh⟩, hn⟩, hw1⟩, hh1⟩, hmax⟩, hc1⟩, hc4⟩, hd1⟩, hd16⟩, hflags⟩, hchorder⟩, hn1⟩, hmeta⟩ := hl
  rw [headerEncode_eq]
  refine (parseMagic_parsesAs s).bind <| (parseWidth_parsesAs hw hw1 _).bind <|
    (parseHeight_parsesAs hh hh1 ?_).bind <| (parseChannels_parsesAs ⟨hc1, hc4⟩ _).bind <|
    (parseDepth_parsesAs ⟨hd1, hd16⟩ _).bind <| (parseFlags_parsesAs ?_).bind <|
    (parseChorder_parsesAs ?_).bind <| (parseFrames_parsesAs hn hn1 _).bind <| parseMeta_parsesAs rfl ?_
  · show (BitVec.ofNat 32 h.width.value).toNat * _ ≤ _
    rw [field_toNat hw]
    exact hmax
  · exact hflags
  · exact hchorder
  · intro hm
    simpa [hm] using hmeta

theorem exec_parseHeader (s : State) : exec .parseHeader s = (parseHeader s).outcome := rfl

/-- Settles O38: the bytes ahead are those of the header, so `parseHeader_parsesAs` applies. -/
theorem headerOfItsEncodingIsParsed : Obligations.HeaderOfItsEncodingIsParsed := by
  intro h s hl hr hp
  rw [exec_parseHeader, parseHeader_parsesAs hl s ⟨hr, hp⟩, Res.outcome_ok]
  rfl

end Sys2Proof.Machine
end

-- ==== The Bit Reader's operations ====
section
/-! The operations of the Bit Reader run alone (R132 to R135): the bits and bytes they return, where they leave the
cursor, and the errors they take. -/

namespace Sys2Proof.Machine

/-! ### The meanings of the rows -/

theorem exec_readBit (s : State) : exec .readBit s = (readBit s).outcomeRet fun b => [(b.toNat : Int)] := rfl

theorem exec_readUint (n : Nat) (s : State) :
    exec (.readUint n) s = (readUint n s).outcomeRet fun v => [(v.toNat : Int)] := rfl

theorem exec_skipBytes (n : Word) (s : State) : exec (.skipBytes n) s = (skipBytes n s).outcome := rfl

/-! ### `read_bit` and `skip_bytes` -/

/-- Settles O11: the bit at the cursor by `readBit_readable`, the end of the input by `readBit_truncated`. -/
theorem readBitDeliversTheNextBit : Obligations.ReadBitDeliversTheNextBit := by
  refine fun s => ⟨fun h => ?_, fun h => ?_⟩
  · rw [exec_readBit, readBit_readable h, Res.outcomeRet_ok]
  · rw [exec_readBit, readBit_truncated h, Res.outcomeRet_ended]

/-- The cursor `n` bits further is the sum, in the 35 bits of the register. -/
theorem advance_eq_ofNat (n : Nat) (s : State) :
    s.advance n = { s with br := { s.br with cur := BitVec.ofNat 35 (s.br.cur.toNat + n) } } := by
  rw [State.advance, BitVec.ofNat_add, BitVec.ofNat_toNat, BitVec.setWidth_eq]

/-- Settles O15: `skipBytes_ok` and `skipBytes_truncated` are the two sides of its one test. -/
theorem skipBytesTestsTheWholeLength : Obligations.SkipBytesTestsTheWholeLength := by
  refine fun s n => ⟨fun h => ?_, fun h => ?_⟩
  · rw [exec_skipBytes, skipBytes_ok h, Res.outcome_ok, advance_eq_ofNat]
  · rw [exec_skipBytes, skipBytes_truncated h, Res.outcome_ended]

/-! ### `read_uint` -/

/-- One bit more stands below those before it. -/
theorem bitsFrom_snoc (s : State) (n c v : Nat) :
    s.bitsFrom (n + 1) c v = 2 * s.bitsFrom n c v + (s.bitAt (c + n)).toNat := by
  rw [bitsFrom_add]
  rfl

/-- Bit `i` of the byte that begins at a byte boundary, its most significant bit being number 0 (R62). -/
theorem bitAt_aligned {s : State} {c i : Nat} (hc : c % 8 = 0) (hi : i < 8) :
    s.bitAt (c + i) = (storedByte s (s.br.base.toNat + c / 8)).getLsbD (7 - i) := by
  have hbyte : (c + i) / 8 = c / 8 := by omega
  have hbit : (c + i) % 8 = i := by omega
  rw [State.bitAt, hbyte, hbit]

/-- The first `n` bits from a byte boundary are the high `n` bits of the byte (R62). -/
theorem bitsFrom_aligned {s : State} {c n : Nat} (hc : c % 8 = 0) (hn : n ≤ 8) :
    s.bitsFrom n c 0 = (storedByte s (s.br.base.toNat + c / 8)).toNat / 2 ^ (8 - n) := by
  induction n with
  | zero => exact (Nat.div_eq_of_lt (storedByte s _).isLt).symm
  | succ n ih =>
    have hpow : 2 ^ (8 - n) = 2 ^ (7 - n) * 2 := by rw [← pow_succ]; congr 1; omega
    have hexp : 8 - (n + 1) = 7 - n := by omega
    rw [bitsFrom_snoc, ih (by omega), bitAt_aligned hc (by omega), hpow, ← Nat.div_div_eq_div_mul, hexp,
      BitVec.getLsbD, Nat.toNat_testBit]
    exact Nat.div_add_mod _ 2

/-- Settles O12: `readUint_readable` and `readUint_truncated`, the value fitting the 32 bits it is returned in; all
eight bits of an aligned byte are the byte. -/
theorem readUintReadsMostSignificantFirst : Obligations.ReadUintReadsMostSignificantFirst := by
  refine ⟨fun s n hn => ⟨fun h => ?_, fun ho hc h => ?_⟩, fun s hc => ?_⟩
  · have hfit : s.peek n < 2 ^ 32 := (peek_lt s n).trans_le (Nat.pow_le_pow_right (by norm_num) hn)
    rw [exec_readUint, readUint_readable h, Res.outcomeRet_ok, BitVec.toNat_ofNat, Nat.mod_eq_of_lt hfit]
  · rw [exec_readUint, readUint_truncated ho hc h, Res.outcomeRet_ended]
  · rw [State.peek, bitsFrom_aligned hc le_rfl, Nat.sub_self, pow_zero, Nat.div_one]

/-! ### `read_varint` -/

/-- The bytes of a varint before its last, first the one of the highest group: all of them continue (R94). -/
theorem varintBytes_take_succ (n v : Nat) : (varintBytes (n + 2) v).take (n + 1) =
    BitVec.ofNat 8 (128 * 1 + v / 128 ^ (n + 1) % 128) :: (varintBytes (n + 1) v).take n := by
  rw [varintBytes_succ, if_neg n.succ_ne_zero, List.take_succ_cons]

/-- The groups of a varint before its last: the highest of them, and the others. -/
theorem varintGroups_succ (n v : Nat) :
    v / 128 % 128 ^ (n + 1) = v / 128 ^ (n + 1) % 128 * 128 ^ n + v / 128 % 128 ^ n := by
  have hdiv : v / 128 / 128 ^ n = v / 128 ^ (n + 1) := by rw [Nat.div_div_eq_div_mul, pow_succ']
  rw [pow_succ 128 n, Nat.mod_mul, hdiv, pow_succ 128 n, Nat.mul_comm, Nat.add_comm]

/-- `n` continuing bytes whose groups do not overflow: the loop of R134 has taken them all in and goes on. -/
theorem readVarintFrom_continuing {n k a v : Nat} {s : State} (hv : a * 128 ^ n + v / 128 % 128 ^ n < 2 ^ 32)
    (h : s.readable (8 * n) = true) (hp : s.peekBytes n = (varintBytes (n + 1) v).take n) :
    readVarintFrom (k + n) a s = readVarintFrom k (a * 128 ^ n + v / 128 % 128 ^ n) (s.advance (8 * n)) := by
  induction n generalizing a s with
  | zero => rw [advance_zero, pow_zero, Nat.mod_one, mul_one, Nat.add_zero, Nat.add_zero]
  | succ n ih =>
    rw [varintBytes_take_succ] at hp
    obtain ⟨hbyte, hrest, hprest⟩ := peekBytes_cons h hp
    have hsum : a * 128 ^ (n + 1) + v / 128 % 128 ^ (n + 1) =
        (a * 128 + v / 128 ^ (n + 1) % 128) * 128 ^ n + v / 128 % 128 ^ n := by
      rw [varintGroups_succ, pow_succ]; ring
    have hfit : a * 128 + v / 128 ^ (n + 1) % 128 < 2 ^ 32 := by
      have := Nat.le_mul_of_pos_right (a * 128 + v / 128 ^ (n + 1) % 128) (pow_pos (show 0 < 128 by norm_num) n)
      omega
    rw [hsum] at hv ⊢
    rw [← Nat.add_assoc, readVarintFrom_byte (readable_of_le h (by omega)) hbyte le_rfl (Nat.mod_lt _ (by norm_num)),
      if_neg (by omega), if_neg one_ne_zero, ih hv hrest hprest, advance_advance, Nat.add_comm 8 (8 * n),
      ← Nat.mul_succ]

/-- Settles O14: four continuing bytes hold at most 28 bits, so the loop reaches the fifth byte, where R134 tests the
overflow before the continuation bit. -/
theorem fiveByteVarints : Obligations.FiveByteVarints := by
  intro s v c hv hr hp
  obtain ⟨hp4, hr5, hp5⟩ := peekBytes_append (m := 4) (n := 1) hr
    (by rw [List.length_take, varintBytes_length]; rfl) hp
  obtain ⟨hbyte, -, -⟩ := peekBytes_cons (g := 0) hr5 hp5
  have hgroups : 0 * 128 ^ 4 + v / 128 % 128 ^ 4 = v / 128 := by omega
  have hfour : readVarint s = readVarintFrom 1 (v / 128) (s.advance 32) := by
    rw [← hgroups]
    exact readVarintFrom_continuing (by omega) (readable_of_le hr (by omega)) hp4
  have hfifth : readVarint s =
      if 0xFFFFFFFF < v then .ended (takeError ⟨.malformedVarint, 2⟩ (s.advance 40))
      else if c.toNat = 0 then .ok (BitVec.ofNat 32 v) (s.advance 40)
      else .ended (takeError ⟨.malformedVarint, 1⟩ (s.advance 40)) := by
    rw [hfour, readVarintFrom_byte (k := 0) hr5 hbyte (Bool.toNat_le c) (Nat.mod_lt _ (by norm_num)),
      advance_advance, Nat.div_add_mod']
    rfl
  rw [exec_readVarint, hfifth]
  by_cases hover : 2 ^ 32 ≤ v
  · rw [if_pos hover, if_pos (by omega), Res.outcomeRet_ended]
  · rw [if_neg hover, if_neg (by omega)]
    cases c with
    | true => rfl
    | false =>
      show Host.Outcome.next ((s.advance 40).returning [((BitVec.ofNat 32 v).toNat : Int)]) = _
      rw [BitVec.toNat_ofNat, Nat.mod_eq_of_lt (by omega)]
      rfl

end Sys2Proof.Machine
end

-- ==== The cursor and its limit ====
section
/-! The cursor invariant (R136) along every step, and what moves the cursor back: read off `Effect`. -/

namespace Sys2Proof.Machine

/-- IN_SIZE is read as i32, so a session has at most 2^31 - 1 bytes (R26, R131). -/
theorem limitOf_le (w : Word) : (limitOf w).toNat ≤ 8 * (2 ^ 31 - 1) := by
  unfold limitOf
  split_ifs with h
  · have hpos : 2 * w.toNat < 2 ^ 32 := by
      rw [BitVec.toInt_eq_toNat_cond] at h
      split_ifs at h <;> omega
    rw [BitVec.toNat_ofNat]
    omega
  · exact Nat.zero_le _

theorem cursorInv_iff (s : State) :
    cursorInv s = true ↔ s.br.cur.toNat ≤ s.br.lim.toNat ∧ s.br.lim.toNat ≤ 8 * (2 ^ 31 - 1) := by
  simp only [cursorInv, Bool.and_eq_true, decide_eq_true_eq]

/-- A session starts with the cursor at 0, inside its input (R45). -/
theorem cursorInv_startSession (s : State) : cursorInv (startSession s) = true :=
  (cursorInv_iff _).2 ⟨Nat.zero_le _, limitOf_le _⟩

/-- Every effect of an instruction keeps the cursor inside the input (R136). -/
theorem Effect.keeps_cursorInv {i : Instr} {s t : State} (h : Effect i s t) (hs : cursorInv s = true) :
    cursorInv t = true := by
  cases h with
  | work v h =>
    obtain ⟨-, -, -, hcur⟩ := h.keeps
    exact hcur hs
  | error e h =>
    obtain ⟨-, -, -, hcur⟩ := h.keeps
    exact hcur hs
  | start _ _ => exact cursorInv_startSession s
  | reset _ => rfl
  | image _ _ => exact hs
  | inputByte _ => exact hs
  | inHandle _ => exact hs
  | inSize _ => exact hs
  | bus v f => exact hs

/-- The session's region stays and the cursor does not move back. -/
def CursorForward (s t : State) : Prop :=
  t.br.base = s.br.base ∧ t.br.lim = s.br.lim ∧ s.br.cur.toNat ≤ t.br.cur.toNat

theorem CursorForward.of_br {s t : State} (h : t.br = s.br) : CursorForward s t := by
  rw [CursorForward, h]
  exact ⟨rfl, rfl, le_rfl⟩

theorem Turning.cursorForward {s t : State} (h : Turning s t) : CursorForward s t := by
  obtain ⟨-, hbase, hlim, -⟩ := h.same
  obtain ⟨-, -, hcur, -⟩ := h.keeps
  exact ⟨hbase, hlim, hcur⟩

/-- RESET, and START with no session running, set the cursor to 0; every other effect leaves the region as it is and
the cursor where it was or further on. -/
theorem Effect.cursorForward_or_zero {i : Instr} {s t : State} (h : Effect i s t) :
    CursorForward s t ∨
      t.br.cur = 0 ∧ (i = .reset ∨ s.busy = false ∧ ∃ hi, i = .decode hi ∨ i = .startWhileBusy hi) := by
  cases h with
  | work v h => exact .inl h.cursorForward
  | error e h => exact .inl h.cursorForward
  | start hi hb => exact .inr ⟨rfl, .inr ⟨hb, hi⟩⟩
  | reset hi => exact .inr ⟨rfl, .inl hi⟩
  | image _ _ => exact .inl (.of_br rfl)
  | inputByte _ => exact .inl (.of_br rfl)
  | inHandle _ => exact .inl (.of_br rfl)
  | inSize _ => exact .inl (.of_br rfl)
  | bus v f => exact .inl (.of_br rfl)

/-- A step has the effect of the instruction its queue entry decodes to, on a state that differs in the queue alone. -/
theorem step_effect_withInputs {s t : State} (h : step s = .next t) :
    ∃ i q, decode s.busy (nextIssue s).1 = .ok i ∧ Effect i (s.withInputs q) t := by
  obtain ⟨i, hdec, -, he⟩ := step_effect h
  obtain ⟨q, hq⟩ := nextIssue_snd s
  exact ⟨i, q, hdec, hq ▸ he⟩

/-- Settles O52: the queue is no part of the Bit Reader, so a step moves the cursor as its effect does. -/
theorem cursorStaysInTheInput : Obligations.CursorStaysInTheInput := by
  refine ⟨fun s t hs h => ?_, fun s t h => ?_⟩
  · obtain ⟨i, q, -, he⟩ := step_effect_withInputs h
    exact he.keeps_cursorInv hs
  · obtain ⟨i, q, hdec, he⟩ := step_effect_withInputs h
    rcases he.cursorForward_or_zero with hforward | ⟨hcur, hi⟩
    · exact .inl hforward
    · exact .inr ⟨hcur, i, hdec, hi⟩

end Sys2Proof.Machine
end

-- ==== The Arithmetic Decoder and its counters ====
section
/-! The operations of the Arithmetic Decoder as instructions (R151 to R155), and the range of the adaptive counters
(R157): along a step it is read off `Effect`, and it bounds the refills of a decision. -/

namespace Sys2Proof.Machine

/-! ### The instructions of the unit -/

theorem exec_acInitOp (s : State) : exec .acInitOp s = (acInit s).outcome := rfl

theorem exec_acinit (s : State) : exec .acinit s = (acInit s).outcome := rfl

theorem exec_renormalise (s : State) : exec .renormalise s = (renormalise s).outcome := rfl

theorem exec_decodeBit (p : Ctr) (s : State) :
    exec (.decodeBit p) s = (decodeBit p s).outcomeRet fun b => [(b.toNat : Int)] := rfl

theorem exec_ctrUpdate (p : Ctr) (bit : Bool) (s : State) :
    exec (.ctrUpdate p bit) s = .next (s.returning [((ctrUpdate p bit).toNat : Int)]) := rfl

theorem exec_decodeCtx (k : CtrRef) (s : State) :
    exec (.decodeCtx k) s = (decodeCtx k s).outcomeRet fun b => [(b.toNat : Int)] := rfl

/-- ACBYTE where a refill is due is the refill (R99). -/
theorem exec_acbyte_narrow {s : State} (h : s.ac.rng.toNat < 2 ^ 24) : exec .acbyte s = (refill s).outcome := by
  have hlt : s.ac.rng < Config.renormTop := BitVec.lt_def.2 h
  exact if_pos hlt

/-! ### The counters along a step -/

/-- Every effect of an instruction keeps the counters in range (R157). -/
theorem Effect.keeps_countersInv {i : Instr} {s t : State} (h : Effect i s t) (hs : countersInv s = true) :
    countersInv t = true := by
  cases h with
  | work v h =>
    obtain ⟨-, hctr, -⟩ := h.keeps
    exact hctr hs
  | error e h =>
    obtain ⟨-, hctr, -⟩ := h.keeps
    exact hctr hs
  | reset _ =>
    obtain ⟨-, -, hreset, -⟩ := resetMeetsTheInvariants
    exact hreset
  | start _ _ => exact hs
  | image _ _ => exact hs
  | inputByte _ => exact hs
  | inHandle _ => exact hs
  | inSize _ => exact hs
  | bus v f => exact hs

/-- Settles O53: the queue is no part of the Context Model, so a step keeps the counters as its effect does. -/
theorem countersStayInRange : Obligations.CountersStayInRange := by
  intro s t hs h
  obtain ⟨i, q, -, he⟩ := step_effect_withInputs h
  exact he.keeps_countersInv hs

/-! ### The start of the interval -/

/-- An `ac_init` that ends the session leaves the Context Model alone. -/
theorem acInit_ended_cm {s t : State} (h : acInit s = .ended t) : t.cm = s.cm := by
  have hw := acInit_within s
  rw [h] at hw
  obtain ⟨e, u, ⟨-, -, hcm, -⟩, rfl⟩ := hw
  exact hcm

/-- Settles O16: both names run `acInit`. -/
theorem acInitLoadsTheWindow : Obligations.AcInitLoadsTheWindow := by
  intro s i hi
  have hexec : exec i s = (acInit s).outcome := by
    rcases hi with rfl | rfl
    · exact exec_acInitOp s
    · exact exec_acinit s
  rw [hexec]
  constructor
  · intro hr
    rw [acInit_readable hr, Res.outcome_ok]
  · intro ho hc hlt
    obtain ⟨t, ht, hends⟩ := acInit_truncated ho hc hlt
    exact ⟨t, by rw [ht, Res.outcome_ended], hends, acInit_ended_cm ht⟩

/-! ### Refills -/

/-- A wider interval needs no more refill bytes. -/
theorem refills_anti {v w : Nat} (h : v ≤ w) : refills w ≤ refills v := by
  unfold refills
  split_ifs <;> omega

/-- A decision with a probability between a/4096 and 1 - a/4096 leaves a part of width a * 2^12 or more (R152). -/
theorem widthAfter_ge {s : State} {a p : Nat} (h1 : a ≤ p) (h2 : p + a ≤ 4096) (hr : 2 ^ 24 ≤ s.ac.rng.toNat) :
    2 ^ 12 * a ≤ s.widthAfter p := by
  unfold State.widthAfter State.bound
  have hq : 2 ^ 12 ≤ s.ac.rng.toNat / 4096 := by omega
  have hqr : s.ac.rng.toNat / 4096 * 4096 ≤ s.ac.rng.toNat := Nat.div_mul_le_self _ _
  generalize s.ac.rng.toNat / 4096 = q at hq hqr ⊢
  have ha : 2 ^ 12 * a ≤ q * a := Nat.mul_le_mul_right a hq
  have hlow : q * a ≤ q * p := Nat.mul_le_mul_left q h1
  have hhigh : q * p + q * a ≤ q * 4096 := by
    rw [← Nat.mul_add]
    exact Nat.mul_le_mul_left q h2
  split_ifs <;> omega

/-- R156: any decision needs at most two refill bytes. -/
theorem refills_widthAfter_le_two {s : State} {p : Ctr} (h1 : 1 ≤ p.toNat) (hr : 2 ^ 24 ≤ s.ac.rng.toNat) :
    refills (s.widthAfter p.toNat) ≤ 2 := by
  have hp := p.isLt
  exact refills_anti (widthAfter_ge h1 (by omega) hr)

/-- R157: a decision with a counter in range needs at most one refill byte. -/
theorem refills_widthAfter_le_one {s : State} {p : Ctr} (h1 : 31 ≤ p.toNat) (h2 : p.toNat ≤ 4065)
    (hr : 2 ^ 24 ≤ s.ac.rng.toNat) : refills (s.widthAfter p.toNat) ≤ 1 :=
  refills_anti (widthAfter_ge h1 (by omega) hr)

/-- Settles O18: the loop takes the refills its width needs, and ACBYTE is one of them. -/
theorem renormaliseRefillsToTheThreshold : Obligations.RenormaliseRefillsToTheThreshold := by
  refine ⟨fun s h0 => ⟨fun hr => ?_, fun ho hc hlt => ?_⟩, fun s hnarrow hr => ?_⟩
  · rw [exec_renormalise, renormalise_readable h0 hr, Res.outcome_ok]
  · obtain ⟨t, ht, hends, -⟩ := renormalise_truncated h0 ho hc hlt
    exact ⟨t, by rw [exec_renormalise, ht, Res.outcome_ended], hends⟩
  · rw [exec_acbyte_narrow hnarrow, refill_readable hr, Res.outcome_ok]

/-! ### Decisions -/

/-- Settles O17: the part taken is at least 2^12 wide, so two bytes refill it. -/
theorem decodeBitNarrowsAndRefills : Obligations.DecodeBitNarrowsAndRefills := by
  intro s p h1 hr
  refine ⟨refills_widthAfter_le_two h1 hr, fun hread => ?_, fun ho hc hlt => ?_⟩
  · rw [exec_decodeBit, decodeBit_readable h1 hr hread, Res.outcomeRet_ok]
  · obtain ⟨t, ht, hends, -⟩ := decodeBit_truncated h1 hr ho hc hlt
    exact ⟨t, by rw [exec_decodeBit, ht, Res.outcomeRet_ended], hends⟩

/-! ### Counters -/

/-- R154 after a 0: the sum stays below 2^12, so nothing is lost. -/
theorem ctrUpdate_false_toNat (p : Ctr) : (ctrUpdate p false).toNat = p.toNat + (4096 - p.toNat) / 32 := by
  have hp := p.isLt
  simp only [ctrUpdate, Bool.false_eq_true, if_false, Nat.shiftRight_eq_div_pow, BitVec.toNat_ofNat,
    Config.adaptShift, Config.probOne]
  omega

/-- R154 after a 1. -/
theorem ctrUpdate_true_toNat (p : Ctr) : (ctrUpdate p true).toNat = p.toNat - p.toNat / 32 := by
  have hp := p.isLt
  simp only [ctrUpdate, if_true, Nat.shiftRight_eq_div_pow, BitVec.toNat_ofNat, Config.adaptShift]
  omega

/-- Settles O19: the 12 bits of a counter hold the exact value of either formula. -/
theorem ctrUpdateMovesTowardsTheOutcome : Obligations.CtrUpdateMovesTowardsTheOutcome := by
  intro s p
  constructor
  · rw [exec_ctrUpdate, ctrUpdate_false_toNat]
  · rw [exec_ctrUpdate, ctrUpdate_true_toNat]

/-- Settles O20: the decision is `decode_bit` with the counter's value, and a counter in range leaves a part that one
byte refills. -/
theorem decodeCtxUpdatesItsCounter : Obligations.DecodeCtxUpdatesItsCounter := by
  refine ⟨fun s k p hk hlo hhi hr => ?_, fun s k k' p v hw hk => ctrAt_setCtr hw hk⟩
  have h1 : 1 ≤ p.toNat := by omega
  refine ⟨refills_widthAfter_le_one hlo hhi hr, fun hread => ?_, fun ho hc hlt => ?_⟩
  · rw [exec_decodeCtx, decodeCtx_readable hk h1 hr hread, Res.outcomeRet_ok]
  · obtain ⟨t, ht, hends, hcm⟩ := decodeCtx_truncated hk h1 hr ho hc hlt
    exact ⟨t, by rw [exec_decodeCtx, ht, Res.outcomeRet_ended], hends, hcm⟩

end Sys2Proof.Machine
end

-- ==== The coding of a near-zero integer ====
section
/-! What `nz_decode` answers was coded (R102, R172). -/

namespace Sys2Proof.Machine

/-- Settles O22: `nzDecode_inv` reads the decisions back off the run, exponent by exponent (`nzExponent_inv`) and mantissa
bit by mantissa bit (`nzMantissa_inv`); a well-formed limit is at least 1. -/
theorem nzResultIsUniquelyCoded : Obligations.NzResultIsUniquelyCoded := by
  intro k limit e s t v hw hrun
  exact nzDecode_inv (nzDecode_wellFormed_limit hw) hrun

end Sys2Proof.Machine
end

-- ==== The elements of a node record ====
section
/-! SPLIT, PROP and THR, each run alone with the decisions that code it (R101 to R103, R183 to R185), and the lookup in
the tree they describe (R186). -/

namespace Sys2Proof.Machine

/-! ### SPLIT -/

theorem exec_split (s : State) :
    exec .split s = (decodeSplit s.cm.depth.toNat s).outcomeRet fun b => [(b.toNat : Int)] := rfl

/-- SPLIT is one decision with META[0], and a 1 at depth 12 is an error (R183). -/
theorem decodeSplit_coded {b : Bool} {s t : State} (d : Nat) (h : takes s [(.metaCtr 0, b)] = some t) :
    decodeSplit d s = if b = true ∧ 12 ≤ d then .ended (takeError ⟨.corruptTree, 1⟩ t) else .ok b t := by
  rw [decodeSplit, takes_one.1 h, Res.bind_ok, raiseErr_eq]
  simp only [Bool.and_eq_true, decide_eq_true_eq, Config.maxTreeDepth]

/-- Settles O24: `decodeSplit_coded` at the depth in the depth register. -/
theorem splitIsOneDecision : Obligations.SplitIsOneDecision := by
  intro s t b h
  rw [exec_split, decodeSplit_coded _ h]
  by_cases herr : b = true ∧ 12 ≤ s.cm.depth.toNat
  · rw [if_pos herr, if_pos herr, Res.outcomeRet_ended]
  · rw [if_neg herr, if_neg herr, Res.outcomeRet_ok]

/-! ### PROP -/

theorem exec_prop (s : State) : exec .prop s = (decodeProp s).outcomeRet fun p => [(p.toNat : Int)] := rfl

/-- The number the three decisions of PROP make up, the most significant bit first (R184). -/
theorem propBits_coded {b2 b1 b0 : Bool} {s t : State}
    (h : takes s [(.metaCtr 1, b2), (.metaCtr (2 + b2.toNat), b1), (.metaCtr (4 + 2 * b2.toNat + b1.toNat), b0)] =
      some t) : propBits s = .ok (4 * b2.toNat + 2 * b1.toNat + b0.toNat) t := by
  rw [takes_cons] at h
  obtain ⟨u, hu, h⟩ := h
  rw [takes_cons] at h
  obtain ⟨v, hv, h⟩ := h
  simp only [propBits, hu, hv, takes_one.1 h, Res.bind_ok]

/-- Settles O25: an id below 6 fits in the three bits that hold it. -/
theorem propIsThreeDecisions : Obligations.PropIsThreeDecisions := by
  intro s t b2 b1 b0 h
  rw [exec_prop, decodeProp, propBits_coded h, Res.bind_ok]
  generalize 4 * b2.toNat + 2 * b1.toNat + b0.toNat = id
  by_cases hid : id < 6
  · have hfit : (BitVec.ofNat 3 id).toNat = id := by rw [BitVec.toNat_ofNat]; omega
    rw [if_pos hid, if_neg (Nat.not_le.2 hid), Res.outcomeRet_ok, hfit]
  · rw [if_neg hid, if_pos (Nat.not_lt.1 hid), raiseErr_eq, Res.outcomeRet_ended]

/-! ### THR -/

theorem exec_thr (s : State) : exec .thr s = (decodeThr s).outcomeRet fun v => [v] := rfl

/-- Settles O26: THR is `nz_decode` with the threshold set and limit 16. -/
theorem thrIsANearZeroInteger : Obligations.ThrIsANearZeroInteger := by
  refine ⟨fun s t v hlow hhigh h => ?_, fun s t neg h => ?_⟩
  · have hrange : propInRange v = true := by simp only [propInRange, hlow, hhigh, decide_true, Bool.and_self]
    rw [exec_thr, decodeThr_ok hrange h, Res.outcomeRet_ok]
  · rw [exec_thr, decodeThr, nzDecode_raise (by decide) h, Res.outcomeRet_ended]

/-! ### The lookup -/

theorem exec_treeLookup (P : PropVec) (s : State) :
    exec (.treeLookup P) s = (Res.ofExcept (treeLookup s P) s).outcomeRet fun n => [(n : Int)] := rfl

/-- A tree the stream may hold has legal fields and a height of at most 12 (R189). -/
theorem legal_iff (T : TreeShape) : T.legal = true ↔ T.fieldsLegal = true ∧ T.height ≤ 12 := by
  simp only [TreeShape.legal, Bool.and_eq_true, decide_eq_true_eq, Config.maxTreeDepth]

/-- Settles O31: a legal tree is at most 12 high, so the walk of `lookupFrom_tree` ends within its bound. -/
theorem lookupFollowsTheTree : Obligations.LookupFollowsTheTree := by
  intro T P s hT ht
  obtain ⟨hfields, hheight⟩ := (legal_iff T).1 hT
  have hwalk : treeLookup s P = .ok (selectFrom P T 0) := lookupFrom_tree T hfields ht (by omega)
  rw [exec_treeLookup, hwalk, Res.ofExcept_ok, Res.outcomeRet_ok]

/-! ### A node record at depth 12 -/

/-- One decision of META leaves the arena and the registers of tree decode as they are. -/
theorem takes_metaCtr_keeps {i : Nat} {b : Bool} {s t : State} (h : takes s [(.metaCtr i, b)] = some t) :
    t.withTree s.cm = t := by
  have hs := decodeCtx_keeps i s
  rw [takes_one.1 h, Res.mapState_ok] at hs
  obtain ⟨-, hs⟩ := Res.ok.inj hs
  exact hs

/-- The next free entry is taken, and beside the arena only nn changes (R182). -/
theorem allocNode_free {s : State} (h : s.cm.nn.toNat < 8191) :
    allocNode s = .ok s.cm.nn.toNat (s.withTree { s.cm with nn := s.cm.nn + 1 }) := if_pos h

/-- R182, R183: at depth 12 the entry is taken, and then the decision 1 is the error. -/
theorem decodeNodeFrom_zero_split {s t : State} (hn : s.cm.nn.toNat < 8191)
    (h : takes s [(.metaCtr 0, true)] = some t) :
    decodeNodeFrom 0 s =
      .ended (takeError ⟨.corruptTree, 1⟩ (t.withTree { s.cm with nn := s.cm.nn + 1 })) := by
  rw [decodeNodeFrom, allocNode_free hn, Res.bind_ok, decodeSplit_withTree, decodeSplit_coded _ h,
    if_pos ⟨rfl, le_rfl⟩]
  rfl

/-- Settles O28: `decodeNodeFrom_zero_split`, where the decision itself has kept the arena. -/
theorem splitAtDepthTwelveIsCorrupt : Obligations.SplitAtDepthTwelveIsCorrupt := by
  intro s t hn h
  have hexec : exec (.decodeNode 12) s =
      .next (takeError ⟨.corruptTree, 1⟩ (t.withTree { s.cm with nn := s.cm.nn + 1 })) := by
    rw [exec_decodeNode, decodeNodeFrom_zero_split hn h, Res.outcomeRet_ended]
  refine ⟨_, hexec, fun hd => ?_, ?_⟩
  · rw [exec_node, hd]
    exact hexec
  · rw [← takes_metaCtr_keeps h]
    rfl

end Sys2Proof.Machine
end

-- ==== The two forms of tree decode ====
section
/-! Both forms of tree decode from the start of a tree on (R181, R188): each is the decision process `decideTree` beside
an arena in which its tree is stored from entry 0 on. -/

namespace Sys2Proof.Machine

/-- `r` is the run of the decisions of a tree from fresh counters of META: it completes with that tree stored from entry
0 on and the registers depth, sp and TS as in `c`, or ends the session where the decisions do. -/
def DecodesTree (s : State) (c : ContextModel) (r : Res Unit) : Prop :=
  match decideTree 12 s.treeStart with
  | .ok T w => ∃ t, r = .ok () t ∧ Laid w c T.size (layTree T 0 (nodeAt s)) t
  | .ended w => ∃ e, r = .ended (w.withTree e)
  | .fault _ => False

/-- The start of a tree beside the registers of `c` (R181, R188). -/
theorem laid_treeStart {s : State} (hw : s.memoryWf = true) (c : ContextModel) :
    Laid s.treeStart c 0 (nodeAt s)
      (s.treeStart.withTree { s.treeStart.cm with depth := c.depth, sp := c.sp, ts := c.ts }) := by
  obtain ⟨-, -, -, hc, -⟩ := (memoryWf_iff s).1 hw
  exact ⟨_, rfl, rfl, rfl, rfl, rfl, hc, rfl⟩

/-- R181: the recursive form leaves depth, sp and TS alone. -/
theorem treeDecode_decodesTree {s : State} (hw : s.memoryWf = true) : DecodesTree s s.cm (treeDecode s) := by
  have hspec := decodeNodeFrom_spec (more := 12) (laid_treeStart hw s.cm) (by norm_num)
  have hrun : treeDecode s = (decodeNodeFrom 12 s.treeStart).bind fun _ t => .ok () t := rfl
  have hstart : s.treeStart.withTree
      { s.treeStart.cm with depth := s.cm.depth, sp := s.cm.sp, ts := s.cm.ts } = s.treeStart := rfl
  rw [hstart] at hspec
  unfold DecodesTree
  cases hd : decideTree 12 s.treeStart with
  | ok T w =>
    rw [hd] at hspec
    obtain ⟨t, hnode, hlaid⟩ := hspec
    rw [Nat.zero_add] at hlaid
    exact ⟨t, by rw [hrun, hnode, Res.bind_ok], hlaid⟩
  | ended w =>
    rw [hd] at hspec
    obtain ⟨e, hnode⟩ := hspec
    exact ⟨e, by rw [hrun, hnode]; rfl⟩
  | fault f => exact decideTree_noFault 12 _ f hd

/-- R188: the loop ends with an empty stack, that is, after the whole tree. -/
theorem treeDecodeIterative_decodesTree {s : State} (hw : s.memoryWf = true) :
    ∃ c, DecodesTree s c (treeDecodeIterative s) := by
  have hspec := treeLoop_spec (more := 12) (laid_treeStart hw { s.cm with depth := 0, sp := 0 })
    le_rfl rfl (Nat.zero_le _) (by norm_num)
  have hrun : treeDecodeIterative s = treeLoop (8192 - 0)
      (s.treeStart.withTree { s.treeStart.cm with depth := 0, sp := 0, ts := s.cm.ts }) := rfl
  unfold DecodesTree
  cases hd : decideTree 12 s.treeStart with
  | ok T w =>
    rw [hd] at hspec
    obtain ⟨t, c, hloop, hlaid, hsp, -⟩ := hspec
    obtain ⟨-, htsp, -⟩ := hlaid.registers
    rw [Nat.zero_add] at hlaid
    refine ⟨c, t, ?_, hlaid⟩
    rw [hrun, hloop, afterSubtree, if_pos (htsp.trans hsp)]
  | ended w =>
    rw [hd] at hspec
    obtain ⟨e, hloop⟩ := hspec
    exact ⟨s.cm, e, hrun.trans hloop⟩
  | fault f => exact absurd hd (decideTree_noFault 12 _ f)

/-- Only the arena and the registers of tree decode differ from the state of the decisions. -/
theorem Laid.withTree_cm {w u : State} {c : ContextModel} {n : Nat} {a : Nat → Node} (h : Laid w c n a u) :
    w.withTree u.cm = u := by
  obtain ⟨e, rfl, -⟩ := h
  rfl

/-- Two states beside the same decisions differ in their arenas and registers of tree decode alone. -/
theorem Laid.withTree_eq {w t u : State} {c d : ContextModel} {n m : Nat} {a b : Nat → Node} (ht : Laid w c n a t)
    (hu : Laid w d m b u) : t.withTree u.cm = u := by
  obtain ⟨e, rfl, -⟩ := ht
  exact hu.withTree_cm

/-- A form of tree decode completes when the decisions of a legal tree are taken: the tree is in the arena with fresh
leaves (R187), and the entries behind it are as they were. -/
theorem DecodesTree.coded {s w : State} {c : ContextModel} {r : Res Unit} {T : TreeShape} (h : DecodesTree s c r)
    (hT : T.legal = true) (ht : takes s.treeStart (codedTree T) = some w) :
    ∃ u, r = .ok () u ∧ w.withTree u.cm = u ∧ u.cm.nn.toNat = T.size ∧
      (u.cm.depth = c.depth ∧ u.cm.sp = c.sp ∧ u.cm.ts = c.ts) ∧ treeAt u T 0 = true ∧
      (∀ j ∈ leavesFrom T 0, (nodeAt u j).ctr = Vector.replicate 33 2048) ∧
      ∀ j, T.size ≤ j → nodeAt u j = nodeAt s j := by
  obtain ⟨hfields, hheight⟩ := (legal_iff T).1 hT
  have hsize := legal_size hT
  unfold DecodesTree at h
  rw [decideTree_ok T hfields hheight ht] at h
  obtain ⟨u, hrun, hu⟩ := h
  refine ⟨u, hrun, hu.withTree_cm, hu.nn, hu.registers, ?_, fun j hj => ?_, fun j hj => ?_⟩
  · exact treeAt_layTree T hfields (by omega) fun j _ _ => congrFun hu.arena j
  · rw [hu.arena]
    exact layTree_leaves T _ hj
  · rw [hu.arena]
    exact layTree_other T _ (by omega)

theorem exec_treeDecode (s : State) : exec .treeDecode s = (treeDecode s).outcome := rfl

theorem exec_treeDecodeIterative (s : State) : exec .treeDecodeIterative s = (treeDecodeIterative s).outcome := rfl

/-- Settles O29: each form stores the tree that `decideTree` reads off the decisions; the recursive one keeps the
registers besides. -/
theorem treeDecodeBuildsTheCodedTree : Obligations.TreeDecodeBuildsTheCodedTree := by
  intro T s t hw hT ht i hi
  rcases hi with rfl | rfl
  · obtain ⟨u, hrun, hframe, hnn, hregs, hstored⟩ := (treeDecode_decodesTree hw).coded hT ht
    exact ⟨u, by rw [exec_treeDecode, hrun, Res.outcome_ok], hframe, hnn, fun _ => hregs, hstored⟩
  · obtain ⟨c, hform⟩ := treeDecodeIterative_decodesTree hw
    obtain ⟨u, hrun, hframe, hnn, -, hstored⟩ := hform.coded hT ht
    exact ⟨u, by rw [exec_treeDecodeIterative, hrun, Res.outcome_ok], hframe, hnn, nofun, hstored⟩

/-- Settles O30: both forms are the run of the same decisions. -/
theorem treeFormsAgree : Obligations.TreeFormsAgree := by
  intro s hw
  have hrec := treeDecode_decodesTree hw
  obtain ⟨c, hiter⟩ := treeDecodeIterative_decodesTree hw
  unfold DecodesTree at hrec hiter
  cases hd : decideTree 12 s.treeStart with
  | ok T w =>
    rw [hd] at hrec hiter
    obtain ⟨t, hrun, ht⟩ := hrec
    obtain ⟨u, hrun', hu⟩ := hiter
    refine .inl ⟨t, u, hrun, hrun', ht.withTree_eq hu, ?_, fun j => ?_⟩
    · exact BitVec.eq_of_toNat_eq (ht.nn.trans hu.nn.symm)
    · rw [ht.arena, hu.arena]
  | ended w =>
    rw [hd] at hrec hiter
    obtain ⟨e, hrun⟩ := hrec
    obtain ⟨e', hrun'⟩ := hiter
    exact .inr ⟨_, _, hrun, hrun', rfl⟩
  | fault f => exact absurd hd (decideTree_noFault 12 _ f)

end Sys2Proof.Machine
end

-- ==== The checks of the header elements ====
section
/-! The header elements run alone (R201 to R209): each reads its field, stores it, and the first of its checks that fails
takes the error. -/

namespace Sys2Proof.Machine

/-! ### The meanings of the rows -/

theorem exec_parseMagic {i : Instr} (hi : i = .magic ∨ i = .parseMagic) (s : State) :
    exec i s = (parseMagic s).outcome := by
  rcases hi with rfl | rfl <;> rfl

theorem exec_width (s : State) : exec .width s = (parseWidth s).outcome := rfl

theorem exec_height (s : State) : exec .height s = (parseHeight s).outcome := rfl

theorem exec_channels (s : State) : exec .channels s = (parseChannels s).outcome := rfl

theorem exec_depth (s : State) : exec .depth s = (parseDepth s).outcome := rfl

theorem exec_parseFlags {i : Instr} (hi : i = .flags ∨ i = .parseFlags) (s : State) :
    exec i s = (parseFlags s).outcome := by
  rcases hi with rfl | rfl <;> rfl

theorem exec_parseChorder {i : Instr} (hi : i = .chorder ∨ i = .parseChorder) (s : State) :
    exec i s = (parseChorder s).outcome := by
  rcases hi with rfl | rfl <;> rfl

theorem exec_nframes (s : State) : exec .nframes s = (parseFrames s).outcome := rfl

theorem exec_metalen (s : State) : exec .metalen s = (parseMetalen s).outcome := rfl

theorem exec_metadata (s : State) : exec .metadata s = (parseMetadata s).outcome := rfl

/-! ### A check and its error -/

/-- A check that refuses the field, before the checks `r`: its condition may be stated in any equivalent form. -/
theorem outcome_refuseIf {c c' : Prop} [Decidable c] [Decidable c'] {e : Err} {s t : State} {r : Res Unit}
    (hc : c ↔ c') (hr : r.outcome = .next t) :
    (if c then raiseErr e s else r).outcome = .next (if c' then takeError e s else t) := by
  by_cases h : c
  · rw [if_pos h, if_pos (hc.1 h), raiseErr_eq, Res.outcome_ended]
  · rw [if_neg h, if_neg (mt hc.2 h), hr]

/-- A check that accepts the field, with no check after it. -/
theorem outcome_acceptIf {c c' : Prop} [Decidable c] [Decidable c'] {e : Err} {s : State} (hc : c ↔ c') :
    (if c then .ok () s else raiseErr e s : Res Unit).outcome = .next (if c' then s else takeError e s) := by
  by_cases h : c
  · rw [if_pos h, if_pos (hc.1 h), Res.outcome_ok]
  · rw [if_neg h, if_neg (mt hc.2 h), raiseErr_eq, Res.outcome_ended]

/-! ### The values of fields -/

/-- A field's register is 0 exactly if the field is (R94). -/
theorem field_eq_zero_iff {v : VarField} (hl : v.legal = true) : BitVec.ofNat 32 v.value = 0 ↔ v.value = 0 := by
  rw [← BitVec.toNat_inj, field_toNat hl]
  rfl

/-- Eight bits fit the register of a byte. -/
theorem peekByte_toNat (s : State) : (BitVec.ofNat 8 (s.peek 8)).toNat = s.peek 8 := by
  rw [BitVec.toNat_ofNat, Nat.mod_eq_of_lt (peek_lt s 8)]

/-! ### MAGIC -/

/-- Settles O32: the loop of R201 by `magicFrom_ok`, `magicFrom_wrong` and `magicFrom_truncated`. -/
theorem magicIsComparedByteByByte : Obligations.MagicIsComparedByteByByte := by
  intro s i hi
  rw [exec_parseMagic hi, parseMagic]
  refine ⟨fun hr hp => ?_, fun n hn hr hp hw => ?_, fun n hn hr hl hp => ?_⟩
  · rw [magicFrom_ok hr hp, Res.outcome_ok]
    rfl
  · rw [magicFrom_wrong hn hr hp hw, Res.outcome_ended, Nat.zero_add]
  · rw [magicFrom_truncated hn hr hl hp, Res.outcome_ended]

/-! ### WIDTH and HEIGHT -/

/-- Settles O33: `readVarint_field` reads the field, whose register holds it exactly, so the product is exact too. -/
theorem dimensionsAreStoredAndChecked : Obligations.DimensionsAreStoredAndChecked := by
  intro s v hl hr hp
  have hread := readVarint_field hl hr hp
  refine ⟨?_, ?_⟩
  · rw [exec_width, parseWidth, hread, Res.bind_ok]
    exact outcome_refuseIf (field_eq_zero_iff hl) rfl
  · have hprod : Config.maxPixels < s.hdr.width.toNat * (BitVec.ofNat 32 v.value).toNat ↔
        16777216 < s.hdr.width.toNat * v.value := by rw [field_toNat hl]
    rw [exec_height, parseHeight, hread, Res.bind_ok]
    exact outcome_refuseIf (field_eq_zero_iff hl) (outcome_refuseIf hprod rfl)

/-! ### CHANNELS and DEPTH -/

/-- The bounds of a byte's register are those of the byte read. -/
theorem peekByte_between (s : State) (m : Nat) :
    1 ≤ (BitVec.ofNat 8 (s.peek 8)).toNat ∧ (BitVec.ofNat 8 (s.peek 8)).toNat ≤ m ↔ 1 ≤ s.peek 8 ∧ s.peek 8 ≤ m := by
  rw [peekByte_toNat]

/-- Settles O34: one byte read and stored by `readUint8_setWidth`, then one check of its bounds. -/
theorem channelsAndDepthAreChecked : Obligations.ChannelsAndDepthAreChecked := by
  intro s hr
  obtain ⟨hread, hbyte⟩ := readUint8_setWidth hr
  refine ⟨?_, ?_⟩
  · rw [exec_channels, parseChannels, hread, Res.bind_ok, hbyte]
    exact outcome_acceptIf (peekByte_between s 4)
  · rw [exec_depth, parseDepth, hread, Res.bind_ok, hbyte]
    exact outcome_acceptIf (peekByte_between s 16)

/-! ### FLAGS -/

/-- Bits 7:5 of a FLAGS byte (R96). -/
theorem flagsReserved_iff (f : Byte) : f &&& 0xE0 ≠ 0 ↔ f.toNat / 32 ≠ 0 := by
  revert f
  decide

/-- Bit 4 of a FLAGS byte (R96). -/
theorem flagsBit4_iff (f : Byte) : f &&& 0x10 ≠ 0 ↔ f.toNat / 16 % 2 = 1 := by
  revert f
  decide

/-- Bits 3:2 of a FLAGS byte (R96). -/
theorem tidOf_toNat (f : Byte) : (tidOf f).toNat = f.toNat / 4 % 4 := by
  rw [tidOf, BitVec.extractLsb'_toNat, Nat.shiftRight_eq_div_pow]

theorem tidOf_eq_one_iff (f : Byte) : tidOf f = 1 ↔ f.toNat / 4 % 4 = 1 := by
  rw [← BitVec.toNat_inj, tidOf_toNat]
  rfl

/-- Settles O35: the model's four checks in their order, each read off the number that the byte is. -/
theorem flagsAreCheckedInOrder : Obligations.FlagsAreCheckedInOrder := by
  intro s i hi hr
  obtain ⟨hread, hbyte⟩ := readUint8_setWidth hr
  have hres := flagsReserved_iff (BitVec.ofNat 8 (s.peek 8))
  have hbit4 := flagsBit4_iff (BitVec.ofNat 8 (s.peek 8))
  have htid := tidOf_toNat (BitVec.ofNat 8 (s.peek 8))
  have hone := tidOf_eq_one_iff (BitVec.ofNat 8 (s.peek 8))
  rw [peekByte_toNat] at hres hbit4 htid hone
  rw [exec_parseFlags hi, parseFlags, hread, Res.bind_ok, hbyte]
  exact outcome_refuseIf hres <| outcome_refuseIf hbit4 <| outcome_refuseIf (iff_of_eq (congrArg (2 ≤ ·) htid)) <|
    outcome_refuseIf (and_congr_left' hone) rfl

/-! ### CHORDER -/

/-- The legal CHORDER bytes of R97 in the numbers of their fields, as R207 checks them. -/
theorem chorderLegal_iff_toNat (C : Nat) (v : Byte) : chorderLegal C v = true ↔
    (∀ k, k < 4 → k < C → v.toNat / 4 ^ k % 4 < C ∧ ∀ j, j < k → v.toNat / 4 ^ j % 4 ≠ v.toNat / 4 ^ k % 4) ∧
      (∀ k, k < 4 → C ≤ k → v.toNat / 4 ^ k % 4 = 0) := by
  simp only [chorderLegal_iff, ne_eq, ← BitVec.toNat_inj, orderField_toNat]
  exact Iff.rfl

/-- Settles O36: the loop of R207 accepts the legal bytes by `chorderLoop_eq_legal`, and these are R207's. -/
theorem chorderMustBeAPermutation : Obligations.ChorderMustBeAPermutation := by
  intro s i hi hr
  obtain ⟨hread, hbyte⟩ := readUint8_setWidth hr
  have hlegal := chorderLegal_iff_toNat s.C (BitVec.ofNat 8 (s.peek 8))
  rw [peekByte_toNat, ← chorderLoop_eq_legal] at hlegal
  rw [exec_parseChorder hi, parseChorder, hread, Res.bind_ok, hbyte]
  refine ⟨fun h => ?_, fun h => ?_⟩
  · exact congrArg Res.outcome (if_pos (hlegal.2 h))
  · exact congrArg Res.outcome (if_neg (mt hlegal.1 h))

/-! ### NFRAMES, METALEN and METADATA -/

theorem parseMetalen_absent {s : State} (hm : s.hasMeta = false) : parseMetalen s = .ok () s :=
  if_neg (Bool.eq_false_iff.1 hm)

theorem parseMetadata_absent {s : State} (hm : s.hasMeta = false) : parseMetadata s = .ok () s :=
  if_neg (Bool.eq_false_iff.1 hm)

theorem parseMetadata_present {s : State} (hm : s.hasMeta = true) : parseMetadata s = skipBytes s.hdr.metalen s :=
  if_pos hm

/-- Settles O37: NFRAMES as WIDTH, METALEN by `parseMetalen_parsesAs`, METADATA by the two sides of `skip_bytes`. -/
theorem framesAndMetadataAreRead : Obligations.FramesAndMetadataAreRead := by
  refine ⟨fun s v hl hr hp => ⟨?_, fun hm => ?_⟩, fun s hm => ⟨fun h => ?_, fun h => ?_⟩, fun s hm => ⟨?_, ?_⟩⟩
  · have hmany : Config.maxFrames < (BitVec.ofNat 32 v.value).toNat ↔ 1 < v.value := by rw [field_toNat hl]
    rw [exec_nframes, parseFrames, readVarint_field hl hr hp, Res.bind_ok]
    exact outcome_refuseIf (field_eq_zero_iff hl) (outcome_refuseIf hmany rfl)
  · rw [← encode_length] at hr hp ⊢
    rw [exec_metalen, parseMetalen_parsesAs hm hl ⟨hr, hp⟩, Res.outcome_ok]
    rfl
  · rw [exec_metadata, parseMetadata_present hm, skipBytes_ok h, Res.outcome_ok]
  · rw [exec_metadata, parseMetadata_present hm, skipBytes_truncated h, Res.outcome_ended]
  · rw [exec_metalen, parseMetalen_absent hm, Res.outcome_ok]
  · rw [exec_metadata, parseMetadata_absent hm, Res.outcome_ok]

end Sys2Proof.Machine
end

-- ==== The passes of an image ====
section
/-! The positions of a pass (R234), that every position is in exactly one pass (R235), and that a pixel reads earlier
positions only (R237, R238). -/

namespace Sys2Proof.Machine

/-! ### The positions of a pass -/

theorem exec_passPositions (s : State) : exec .passPositions s = (Res.ofExcept (currentPass s) s).outcomeRet fun q =>
    (q.positions s.W s.H).flatMap fun c => [(c.1 : Int), (c.2 : Int)] := rfl

/-- The terms of an arithmetic progression, by their index and by their remainder. -/
theorem exists_term_iff {a d x : Nat} : (∃ i, x = a + i * d) ↔ a ≤ x ∧ (x - a) % d = 0 := by
  constructor
  · rintro ⟨i, rfl⟩
    exact ⟨Nat.le_add_right a _, by rw [Nat.add_sub_cancel_left, Nat.mul_mod_left]⟩
  · rintro ⟨ha, hm⟩
    obtain ⟨i, hi⟩ := Nat.dvd_of_mod_eq_zero hm
    exact ⟨i, by rw [Nat.mul_comm]; omega⟩

/-- R234: the positions of a pass are the terms of its two progressions inside the image. -/
theorem Pass.mem_positions_iff_terms {q : Pass} {W H x y : Nat} (hx : 1 ≤ q.stepx) (hy : 1 ≤ q.stepy) :
    (x, y) ∈ q.positions W H ↔ x < W ∧ y < H ∧ ∃ i j, x = q.x0 + i * q.stepx ∧ y = q.y0 + j * q.stepy := by
  rw [Pass.mem_positions hx hy, Pass.has_iff, ← exists_term_iff, ← exists_term_iff]
  constructor
  · rintro ⟨⟨hW, i, hi⟩, hH, j, hj⟩
    exact ⟨hW, hH, i, j, hi, hj⟩
  · rintro ⟨hW, hH, i, j, hi, hj⟩
    exact ⟨⟨hW, i, hi⟩, hH, j, hj⟩

theorem Pass.positions_eq_nil_iff {q : Pass} {W H : Nat} (hx : 1 ≤ q.stepx) (hy : 1 ≤ q.stepy) :
    q.positions W H = [] ↔ W ≤ q.x0 ∨ H ≤ q.y0 := by
  rw [Pass.positions_eq_nil hx hy]
  simp only [Pass.nonempty, Bool.and_eq_false_iff, decide_eq_false_iff_not, Nat.not_lt]

/-- Settles O39: the list is `Pass.positions` of the current pass. -/
theorem passPositionsAreItsPositions : Obligations.PassPositionsAreItsPositions := by
  intro s q hq
  obtain ⟨-, -, hx, -, hy, -⟩ := passOf_bounds hq
  refine ⟨q.positions s.W s.H, ?_, fun x y => Pass.mem_positions_iff_terms hx hy, Pass.positions_sorted hx hy,
    Pass.positions_eq_nil_iff hx hy, fun c hc => ?_, fun L1 a b L2 h => Pass.advance_succ hx hy h, fun a ha => ?_⟩
  · rw [exec_passPositions, currentPass_eq_ok.2 hq, Res.ofExcept_ok, Res.outcomeRet_ok]
  · obtain ⟨L, hL⟩ := List.head?_eq_some_iff.1 hc
    exact Pass.positions_head hx hy hL
  · obtain ⟨L, hL⟩ := List.getLast?_eq_some_iff.1 ha
    exact Pass.advance_last hx hy hL

/-! ### One pass for every position -/

/-- Every pass but the first halves the lattice of the one before it (R233). -/
theorem passOf_succ_halves {interlaced : Bool} {i : Nat} {q : Pass} (hq : passOf interlaced (i + 1) = some q) :
    ∃ p, passOf interlaced i = some p ∧ (q.halvesRows p ∨ q.halvesColumns p) := by
  have rasterFirst : ∀ (b : Bool) (k : Nat) (hk : k < (passList b).length), (passList b)[k].kind = .R → k = 0 := by
    decide
  rcases passOf_cases hq with ⟨hR, -⟩ | ⟨k, p, hk, hp, hhalf⟩
  · obtain ⟨hlt, rfl⟩ := List.getElem?_eq_some_iff.1 hq
    exact absurd (rasterFirst interlaced _ hlt hR) (Nat.succ_ne_zero i)
  · obtain rfl : i = k := Nat.succ.inj hk
    exact ⟨p, hp, hhalf⟩

/-- The lattice of a pass holds the positions of the passes before it. -/
theorem earlier_lattice {interlaced : Bool} {W H x y i j : Nat} {q r : Pass} (hr : passOf interlaced j = some r)
    (h : r.has W H x y = true) (hji : j ≤ i) (hq : passOf interlaced i = some q) : x % q.dx = 0 ∧ y % q.dy = 0 := by
  have halved : ∀ {n d}, n % (2 * d) = 0 → n % d = 0 := fun {n d} hn =>
    Nat.mod_eq_zero_of_dvd (dvd_trans (dvd_mul_left d 2) (Nat.dvd_of_mod_eq_zero hn))
  induction i, hji using Nat.le_induction generalizing q with
  | base =>
    obtain rfl : r = q := Option.some.inj (hr.symm.trans hq)
    exact Pass.has_lattice hr h
  | succ i _ ih =>
    obtain ⟨p, hp, hhalf⟩ := passOf_succ_halves hq
    obtain ⟨hx, hy⟩ := ih hp
    rcases hhalf with ⟨-, -, -, -, -, hpx, hpy⟩ | ⟨-, -, -, -, -, hpx, hpy⟩
    · exact ⟨hpx ▸ hx, halved (hpy ▸ hy)⟩
    · exact ⟨halved (hpx ▸ hx), hpy ▸ hy⟩

/-- What lies between the multiples of `2·d` is not one of them. -/
theorem between_not_multiple {d n : Nat} (hd : 1 ≤ d) (hle : d ≤ n) (h : (n - d) % (2 * d) = 0) : n % (2 * d) ≠ 0 := by
  intro hn
  have hdvd := Nat.dvd_sub (Nat.dvd_of_mod_eq_zero hn) (Nat.dvd_of_mod_eq_zero h)
  rw [Nat.sub_sub_self hle] at hdvd
  have := Nat.le_of_dvd hd hdvd
  omega

/-- A pass fills positions between those of the passes before it. -/
theorem earlier_pass_excluded {interlaced : Bool} {W H x y i j : Nat} {q r : Pass} (hr : passOf interlaced j = some r)
    (hq : passOf interlaced i = some q) (hji : j < i) (h : r.has W H x y = true) : q.has W H x y = false := by
  obtain ⟨k, rfl⟩ : ∃ k, i = k + 1 := ⟨i - 1, by omega⟩
  obtain ⟨-, -, -, -, -, -, hdx, hdy⟩ := passOf_bounds hq
  obtain ⟨p, hp, hhalf⟩ := passOf_succ_halves hq
  obtain ⟨hx, hy⟩ := earlier_lattice hr h (Nat.le_of_lt_succ hji) hp
  by_contra hc
  obtain ⟨⟨-, hx0, hxm⟩, -, hy0, hym⟩ := Pass.has_iff.1 (by simpa using hc)
  rcases hhalf with ⟨-, -, ey0, -, esy, -, hpy⟩ | ⟨-, ex0, -, esx, -, hpx, -⟩
  · rw [ey0, esy] at hym
    exact between_not_multiple hdy (ey0 ▸ hy0) hym (hpy ▸ hy)
  · rw [ex0, esx] at hxm
    exact between_not_multiple hdx (ex0 ▸ hx0) hxm (hpx ▸ hx)

/-- No position is in two passes (R235). -/
theorem pass_unique {interlaced : Bool} {W H x y i j : Nat} {q r : Pass} (hq : passOf interlaced i = some q)
    (hr : passOf interlaced j = some r) (h : q.has W H x y = true) (h' : r.has W H x y = true) : i = j := by
  rcases Nat.lt_trichotomy i j with hlt | rfl | hlt
  · rw [earlier_pass_excluded hq hr hlt h] at h'
    exact Bool.noConfusion h'
  · rfl
  · rw [earlier_pass_excluded hr hq hlt h'] at h
    exact Bool.noConfusion h

/-- Settles O40: the passes fill the image (`position_inPass`), each between the positions of those before it. -/
theorem everyPositionIsInOnePass : Obligations.EveryPositionIsInOnePass := by
  intro interlaced W H x y hx hy
  obtain ⟨i, q, hq, hh⟩ := position_inPass interlaced hx hy
  exact ⟨i, ⟨q, hq, hh⟩, fun j ⟨r, hr, hh'⟩ => pass_unique hr hq hh' hh⟩

/-- Settles O41: the reads stand on the lattice of the pass, which the passes up to it fill
(`neighbourReads_comeBefore`). -/
theorem neighboursComeEarlier : Obligations.NeighboursComeEarlier :=
  fun _ _ _ _ _ _ _ hq h => neighbourReads_comeBefore hq h

end Sys2Proof.Machine
end

-- ==== The values of a pixel ====
section
/-! What a pixel is predicted from: its neighbours and its ahead neighbour (R237, R238), the prediction (R239) and the
properties (R240), each operation run alone. -/

namespace Sys2Proof.Machine

/-! ### The operations alone -/

theorem exec_neighbours (s : State) : exec .neighbours s = execNeighbours s := rfl

theorem exec_ahead (s : State) : exec .ahead s = execAhead s := rfl

theorem exec_predict (s : State) : exec .predict s = execPredict s := rfl

theorem exec_properties (s : State) : exec .properties s = execProperties s := rfl

theorem exec_neighbours_ok {s : State} {q : Pass} {v : Nat → Nat → Nat} (h : PixelReads s q v) :
    (let n := neighboursBy q s.W (2 ^ (s.D - 1)) s.sq.x.toNat s.sq.y.toNat v
     exec .neighbours s = .next
      (s.returning [(n.vW : Int), (n.vN : Int), (n.vNW : Int), (n.vNE : Int), (n.vNN : Int), (n.vWW : Int)])) := by
  simp only [exec_neighbours, execNeighbours, neighboursOf_ok h, Res.ofExcept_ok, Res.outcomeRet_ok]

theorem exec_ahead_ok {s : State} {q : Pass} {v : Nat → Nat → Nat} (h : PixelReads s q v) :
    exec .ahead s = .next (s.returning
      ((aheadBy q s.W s.H s.sq.x.toNat s.sq.y.toNat v).elim [0] fun a => [1, (a : Int)])) := by
  simp only [exec_ahead, execAhead, aheadOf_ok h, Res.ofExcept_ok, Res.outcomeRet_ok]
  cases aheadBy q s.W s.H s.sq.x.toNat s.sq.y.toNat v <;> rfl

theorem exec_predict_ok {s : State} {q : Pass} {v : Nat → Nat → Nat} (h : PixelReads s q v) :
    exec .predict s = .next (s.returning
      [predictFrom q.kind (neighboursBy q s.W (2 ^ (s.D - 1)) s.sq.x.toNat s.sq.y.toNat v)
        (aheadBy q s.W s.H s.sq.x.toNat s.sq.y.toNat v)]) := by
  simp only [exec_predict, execPredict, predictOf_ok h, Res.ofExcept_ok, Res.outcomeRet_ok]

theorem exec_properties_ok {s : State} {q : Pass} {v : Nat → Nat → Nat} (h : PixelReads s q v) :
    (let P := propertiesFrom q.kind (neighboursBy q s.W (2 ^ (s.D - 1)) s.sq.x.toNat s.sq.y.toNat v)
        (aheadBy q s.W s.H s.sq.x.toNat s.sq.y.toNat v)
     exec .properties s = .next (s.returning [P.p0, P.p1, P.p2, P.p3, P.p4, P.p5])) := by
  simp only [exec_properties, execProperties, propertiesOf_ok h, Res.ofExcept_ok, Res.outcomeRet_ok]

/-- Settles O42: the guarded reads of the model answer `neighboursBy` and `aheadBy` (`neighboursOf_ok`, `aheadOf_ok`). -/
theorem neighboursAreReadByR237 : Obligations.NeighboursAreReadByR237 := by
  intro s q v h
  refine ⟨exec_neighbours_ok h, ?_⟩
  rw [exec_ahead_ok h]
  cases aheadBy q s.W s.H s.sq.x.toNat s.sq.y.toNat v <;> rfl

/-! ### The prediction -/

/-- The known side of the gap: above in a V pass, to the left otherwise. -/
theorem Neighbours.behind_eq (nb : Neighbours) (k : PassKind) : nb.behind k = if k = .V then nb.vN else nb.vW := by
  cases k <;> rfl

theorem predictFrom_some (k : PassKind) (nb : Neighbours) (a : Nat) :
    predictFrom k nb (some a) = (((if k = .V then nb.vN else nb.vW) + a) / 2 : Nat) := by
  rw [predictFrom, Neighbours.behind_eq, Nat.shiftRight_eq_div_pow, pow_one]

theorem predictFrom_none (k : PassKind) (nb : Neighbours) :
    predictFrom k nb none = median3 nb.vW nb.vN ((nb.vW : Int) + nb.vN - nb.vNW) := rfl

theorem two_le_filter_length {p : Int → Bool} {a b c : Int}
    (h : p a = true ∧ p b = true ∨ p a = true ∧ p c = true ∨ p b = true ∧ p c = true) :
    2 ≤ ([a, b, c].filter p).length := by
  simp only [List.filter_cons, List.filter_nil]
  split_ifs <;> simp_all

/-- The median is one of the three, with two of them on either side of it or equal to it (R9). -/
theorem median3_middle (a b c : Int) :
    (median3 a b c = a ∨ median3 a b c = b ∨ median3 a b c = c) ∧
      2 ≤ ([a, b, c].filter fun z => decide (z ≤ median3 a b c)).length ∧
      2 ≤ ([a, b, c].filter fun z => decide (median3 a b c ≤ z)).length := by
  unfold median3
  refine ⟨by omega, two_le_filter_length ?_, two_le_filter_length ?_⟩
  all_goals
    simp only [decide_eq_true_eq]
    omega

/-- Settles O43: both cases of `predictFrom`, and its range (`predictFrom_bounds`). -/
theorem predictionIsAverageOrMedian : Obligations.PredictionIsAverageOrMedian := by
  intro s q v h
  refine ⟨_, exec_predict_ok h, ?_, fun hD _ hv => ?_⟩
  · generalize neighboursBy q s.W (2 ^ (s.D - 1)) s.sq.x.toNat s.sq.y.toNat v = nb
    cases aheadBy q s.W s.H s.sq.x.toNat s.sq.y.toNat v with
    | some a => exact predictFrom_some q.kind nb a
    | none => exact median3_middle nb.vW nb.vN _
  · obtain ⟨hlow, hhigh⟩ := predictFrom_bounds (q := q) (W := s.W) (H := s.H) hD fun c hc =>
      Nat.lt_of_le_pred (Nat.two_pow_pos s.D) (hv c hc)
    exact ⟨hlow, Int.le_sub_one_of_lt hhigh⟩

/-! ### The properties -/

theorem propertiesFrom_p5_some (k : PassKind) (nb : Neighbours) (a : Nat) :
    (propertiesFrom k nb (some a)).p5 = (if k = .V then (nb.vN : Int) else nb.vW) - a := by
  cases k <;> rfl

theorem propertiesFrom_p5_none (k : PassKind) (nb : Neighbours) : (propertiesFrom k nb none).p5 = 0 := rfl

/-- What holds of the difference of any two values a pixel is decoded from, and of 0, holds of each property (R240). -/
theorem properties_all {q : Pass} {W H m x y : Nat} {v : Nat → Nat → Nat} {Q : Nat → Prop} {R : Int → Prop} (hm : Q m)
    (hv : ∀ c ∈ neighbourReads q W H x y, Q (v c.1 c.2)) (h0 : R 0)
    (hR : ∀ a b : Nat, Q a → Q b → R ((a : Int) - b)) :
    (let P := propertiesFrom q.kind (neighboursBy q W m x y v) (aheadBy q W H x y v)
     R P.p0 ∧ R P.p1 ∧ R P.p2 ∧ R P.p3 ∧ R P.p4 ∧ R P.p5) := by
  obtain ⟨hW, hN, hNW, hNE, hNN, hWW, hA⟩ := neighboursBy_all hm hv
  refine ⟨hR _ _ hW hNW, hR _ _ hNW hN, hR _ _ hN hNE, hR _ _ hNN hN, hR _ _ hWW hW, ?_⟩
  cases ha : aheadBy q W H x y v with
  | none => exact h0
  | some a =>
    refine hR _ _ ?_ (hA a ha)
    rw [Neighbours.behind_eq]
    split_ifs
    exacts [hN, hW]

/-- Settles O44: each property is a difference of two samples, or of `MID` and one, so it lies in the range of such
differences, and is 0 where all of them are `MID`. -/
theorem propertiesAreNeighbourDifferences : Obligations.PropertiesAreNeighbourDifferences := by
  intro s q v h n p5 P
  have hp5 : p5 = (propertiesFrom q.kind n (aheadBy q s.W s.H s.sq.x.toNat s.sq.y.toNat v)).p5 := by
    simp only [p5]
    cases aheadBy q s.W s.H s.sq.x.toNat s.sq.y.toNat v with
    | some a => exact (propertiesFrom_p5_some q.kind n a).symm
    | none => exact (propertiesFrom_p5_none q.kind n).symm
  simp only [P, hp5]
  refine ⟨exec_properties_ok h, fun hD _ hv => ?_, fun hnone => ?_⟩
  · have hmid : 2 ^ (s.D - 1) ≤ 2 ^ s.D - 1 :=
      Nat.le_sub_one_of_lt (Nat.pow_lt_pow_right (by norm_num) (Nat.sub_one_lt_of_lt hD))
    have hmax : ((2 ^ s.D - 1 : Nat) : Int) = 2 ^ s.D - 1 := by simp
    obtain ⟨h0, h1, h2, h3, h4, h5⟩ := properties_all (Q := fun a => a ≤ 2 ^ s.D - 1)
      (R := fun d => -(2 ^ s.D - 1) ≤ d ∧ d ≤ 2 ^ s.D - 1) hmid hv (by omega) fun a b ha hb => by omega
    simp only [List.forall_mem_cons]
    exact ⟨h0, h1, h2, h3, h4, h5, nofun⟩
  · obtain ⟨h0, h1, h2, h3, h4, h5⟩ := properties_all (q := q) (W := s.W) (H := s.H) (x := s.sq.x.toNat)
      (y := s.sq.y.toNat) (v := v) (Q := fun a => a = 2 ^ (s.D - 1)) (R := fun d => d = 0) rfl
      (by simp [hnone]) rfl fun a b ha hb => by rw [ha, hb, sub_self]
    simp only [List.cons.injEq, and_true]
    exact ⟨h0, h1, h2, h3, h4, h5⟩

end Sys2Proof.Machine
end

-- ==== The pixel operation ====
section
/-! One pixel run alone: the prediction and the leaf it is decoded with (R239, R240, R186), the sample it stores and the
error it raises (R241). -/

namespace Sys2Proof.Machine

theorem exec_decodePixel {i : Instr} (hi : i = .decodePixel ∨ i = .resid) (s : State) :
    exec i s = (decodePixel s).outcome := by
  rcases hi with rfl | rfl <;> rfl

/-- What a pixel is decoded with, when its reads are known and the arena holds a tree (R239, R240, R186). -/
theorem pixelContext_tree {s : State} {q : Pass} {v : Nat → Nat → Nat} {T : TreeShape} (hr : PixelReads s q v)
    (hT : T.legal = true) (ht : treeAt s T 0 = true) :
    (let nb := neighboursBy q s.W (2 ^ (s.D - 1)) s.sq.x.toNat s.sq.y.toNat v
     let a := aheadBy q s.W s.H s.sq.x.toNat s.sq.y.toNat v
     pixelContext s = .ok (predictFrom q.kind nb a, selectFrom (propertiesFrom q.kind nb a) T 0)) := by
  obtain ⟨hfields, hheight⟩ := (legal_iff T).1 hT
  have hwalk : ∀ P, treeLookup s P = .ok (selectFrom P T 0) := fun P =>
    lookupFrom_tree T hfields ht (by omega)
  simp only [pixelContext, predictOf_ok hr, propertiesOf_ok hr, hwalk, bind, Except.bind]

/-- A clamped sum is a sample, and a sample of at most 16 bits is stored whole (R242). -/
theorem clamp_stored {s : State} (hD : s.D ≤ 16) (z : Int) :
    (BitVec.ofInt 16 (clamp z 0 s.maxSample)).toNat = (max 0 (min z (2 ^ s.D - 1))).toNat := by
  have h1 : 1 ≤ 2 ^ s.D := Nat.one_le_two_pow
  have h16 : 2 ^ s.D ≤ 2 ^ 16 := Nat.pow_le_pow_right (by norm_num) hD
  have hmax : (s.maxSample : Int) = 2 ^ s.D - 1 := by simp [State.maxSample]
  zify at h1 h16
  rw [clamp_eq _ _ _ (Int.natCast_nonneg _), hmax, BitVec.toNat_ofInt, Int.emod_eq_of_lt (by omega) (by norm_num; omega)]

/-- The decisions of a residual decoded, and the sum with the prediction stored (R241). -/
theorem decodePixel_stores {s t : State} {pred r : Int} {n : Nat} (hctx : pixelContext s = .ok (pred, n))
    (hp : s.sq.p.toNat < 4) (hD : 1 ≤ s.D ∧ s.D ≤ 16) (hr : r.natAbs < 2 ^ s.D)
    (ht : takes s (codedInt (.leaf (BitVec.ofNat 13 n)) r) = some t) :
    ∃ u, decodePixel s = .ok () u ∧ u = { t with plane := u.plane } ∧
      sampleAt u s.sq.p.toNat s.sq.y.toNat s.sq.x.toNat = .ok (max 0 (min (pred + r) (2 ^ s.D - 1))).toNat ∧
      ∀ p' y' x', planeKey p' y' x' ≠ planeKey s.sq.p.toNat s.sq.y.toNat s.sq.x.toNat →
        sampleAt u p' y' x' = sampleAt s p' y' x' := by
  obtain ⟨hwork, hhdr, hplane⟩ := takes_decoding ht
  obtain ⟨-, -, -, hsq, -⟩ := hwork.same
  have hmax : t.D = s.D := by rw [State.D, hhdr, State.D]
  obtain ⟨u, hstore, hframe, hnew, hold⟩ := writeSample_spec (y := s.sq.y.toNat) (x := s.sq.x.toNat)
    (BitVec.ofInt 16 (clamp (pred + r) 0 t.maxSample)) t hp
  refine ⟨u, ?_, hframe, ?_, fun p' y' x' hne => ?_⟩
  · simp only [decodePixel, hctx, Res.ofExcept_ok, Res.bind_ok, nzDecode_ok hD.1 hr ht, hsq, hstore]
  · rw [hnew, clamp_stored (by rw [hmax]; exact hD.2), hmax]
  · rw [hold p' y' x' hne, sampleAt_congr hplane]

/-- Settles O45: the prediction and the leaf are those of `pixelContext_tree`; then R171 inverts the coding of the
residual (`decodePixel_stores`), or raises (`nzDecode_raise`). -/
theorem pixelIsPredictionPlusResidual : Obligations.PixelIsPredictionPlusResidual := by
  intro s q v T i hi hr hp hD hD' hT ht
  have hctx := pixelContext_tree hr hT ht
  refine ⟨fun t r hlt htakes => ?_, fun t neg htakes => ?_⟩
  · obtain ⟨u, hrun, hframe, hnew, hold⟩ := decodePixel_stores hctx hp ⟨hD, hD'⟩ hlt htakes
    refine ⟨u, by rw [exec_decodePixel hi, hrun, Res.outcome_ok], hframe, hnew, fun p' y' x' hy hx hne => hold p' y' x' ?_⟩
    exact fun hk => hne (planeKey_inj hy hx s.sq.y.isLt s.sq.x.isLt hk)
  · simp only [exec_decodePixel hi, decodePixel, hctx, Res.ofExcept_ok, Res.bind_ok, nzDecode_raise hD htakes,
      Res.bind_ended, Res.outcome_ended]

end Sys2Proof.Machine
end

-- ==== The turns of the sequencer ====
section
/-! A step and its instruction (R12, R285); a turn of the sequencer: it waits, keeps the books of passes and planes, or runs
the element of its state and moves on (R245). -/

namespace Sys2Proof.Machine

/-! ### A step -/

theorem nextIssue_nil {s : State} (h : s.inputs = []) : nextIssue s = (.turn, s) := by
  simp only [nextIssue, h]

theorem nextIssue_cons {s : State} {q : Issue} {rest : List Issue} (h : s.inputs = q :: rest) :
    nextIssue s = (q, s.withInputs rest) := by
  simp only [nextIssue, h, State.withInputs]

/-- Settles O1: the three outcomes of `nextIssue` and `decode`. -/
theorem stepRunsTheDecodedInstruction : Obligations.StepRunsTheDecodedInstruction := by
  refine ⟨fun s h => ?_, fun s q rest i h hi => ?_, fun s q rest e h he => ?_⟩
  · simp only [step, nextIssue_nil h, decode]
  · simp only [step, nextIssue_cons h, hi]
  · simp only [step, nextIssue_cons h, he]

/-! ### Waiting and the books -/

theorem exec_sequencerStep (s : State) : exec .sequencerStep s = (sequencerStep s).outcome := rfl

/-- R230, R234: a pass is entered at its first position, which may lie outside the image. -/
theorem enterPass_ok {s : State} {q : Pass} (hq : passOf s.interlaced s.sq.pi.toNat = some q) :
    enterPass s = .ok () { s with sq := { s.sq with
      x := BitVec.ofNat 32 q.x0, y := BitVec.ofNat 32 q.y0,
      seq := if q.x0 < s.W ∧ q.y0 < s.H then .reconstructingPass else .passComplete } } := by
  rw [enterPass, currentPass_eq_ok.2 hq, Res.ofExcept_ok, Res.bind_ok]
  have hne : q.nonempty s.W s.H = true ↔ q.x0 < s.W ∧ q.y0 < s.H := by
    simp only [Pass.nonempty, Bool.and_eq_true, decide_eq_true_eq]
  simp only [← hne]
  rfl

/-- The state with the next pass current. -/
def State.nextPass (s : State) : State := { s with sq := { s.sq with pi := s.sq.pi + 1 } }

theorem turnPassComplete_eq (s : State) : turnPassComplete s =
    if s.nextPass.sq.pi.toNat < (passList s.interlaced).length then enterPass s.nextPass
    else .ok () (gotoSeq .planeComplete s.nextPass) := rfl

theorem sequencerStep_passComplete {s : State} (h : s.sq.seq = .passComplete) :
    sequencerStep s = turnPassComplete s := by simp only [sequencerStep, h]

theorem sequencerStep_planeComplete {s : State} (h : s.sq.seq = .planeComplete) :
    sequencerStep s = turnPlaneComplete s := by simp only [sequencerStep, h]

/-- Settles O48: passes and planes are counted in registers that do not wrap here (`pass_succ`), and a pass is entered as
`enterPass_ok` says. -/
theorem sequencerWaitsAndKeepsTheBooks : Obligations.SequencerWaitsAndKeepsTheBooks := by
  refine ⟨fun s h => ?_, fun s q h hq => ?_, fun s h hpi => ?_, fun s h hp => ?_⟩
  · rw [exec_sequencerStep, sequencerStep_waits h, Res.outcome_ok]
  · have hlt : s.sq.pi.toNat + 1 < (passList s.interlaced).length := passOf_isSome.1 (Option.isSome_of_mem hq)
    have hpi : s.nextPass.sq.pi.toNat = s.sq.pi.toNat + 1 := pass_succ (Nat.lt_of_succ_lt hlt)
    rw [exec_sequencerStep, sequencerStep_passComplete h, turnPassComplete_eq, if_pos (hpi ▸ hlt),
      enterPass_ok (s := s.nextPass) (hpi ▸ hq), Res.outcome_ok]
    rfl
  · have hlen : s.sq.pi.toNat + 1 = (passList s.interlaced).length := hpi.trans (passList_length _).symm
    have hpi : s.nextPass.sq.pi.toNat = s.sq.pi.toNat + 1 := pass_succ (by omega)
    rw [exec_sequencerStep, sequencerStep_passComplete h, turnPassComplete_eq, if_neg (by omega), Res.outcome_ok]
    rfl
  · have hp1 : (s.sq.p + 1).toNat = s.sq.p.toNat + 1 := by rw [BitVec.toNat_add]; simp; omega
    rw [exec_sequencerStep, sequencerStep_planeComplete h, ← hp1]
    rfl

/-! ### The element of a state -/

/-- An operation that goes on with `f`: an error it takes leaves that out (R309). -/
theorem outcome_then {r : Res Unit} {k : State → Res Unit} {f : State → State} {s t : State}
    (hin : r.Within Working s) (hs : s.sq.seq ≠ .doneErr) (hk : ∀ u, r = .ok () u → k u = .ok () (f u))
    (ht : r.outcome = .next t) :
    (r.bind fun _ u => k u).outcome = .next (if t.sq.seq = .doneErr then t else f t) := by
  cases r with
  | ok a u =>
    cases ht
    have hwork : Working s t := hin
    obtain ⟨-, -, -, hsq, -⟩ := hwork.same
    rw [Res.bind_ok, hk t rfl, Res.outcome_ok, if_neg (by rw [hsq]; exact hs)]
  | ended u =>
    cases ht
    obtain ⟨e, w, -, rfl⟩ := hin
    rw [Res.bind_ended, Res.outcome_ended, if_pos (by rw [takeError_sq])]
  | fault f => cases ht

/-- The header states, each with its one element and the state after it (R245, R41). -/
def headerTurns : List (Seq × Instr × Seq) :=
  [(.hdrMagic, .magic, .hdrWidth), (.hdrWidth, .width, .hdrHeight), (.hdrHeight, .height, .hdrChannels),
    (.hdrChannels, .channels, .hdrDepth), (.hdrDepth, .depth, .hdrFlags), (.hdrFlags, .flags, .hdrChorder),
    (.hdrChorder, .chorder, .hdrFrames), (.hdrFrames, .nframes, .hdrMeta)]

/-- A turn in a header state parses the element of the state. -/
theorem headerTurns_parse {s : State} {i : Instr} {q : Seq} (h : (s.sq.seq, i, q) ∈ headerTurns) :
    ∃ op : State → Res Unit, exec i s = (op s).outcome ∧ sequencerStep s = parseThen op q s ∧
      (op s).Within Working s := by
  simp only [headerTurns, List.mem_cons, Prod.mk.injEq, List.not_mem_nil, or_false] at h
  unfold sequencerStep
  rcases h with ⟨hs, rfl, rfl⟩ | ⟨hs, rfl, rfl⟩ | ⟨hs, rfl, rfl⟩ | ⟨hs, rfl, rfl⟩ | ⟨hs, rfl, rfl⟩ | ⟨hs, rfl, rfl⟩ |
    ⟨hs, rfl, rfl⟩ | ⟨hs, rfl, rfl⟩
  all_goals rw [hs]
  · exact ⟨_, rfl, rfl, (parseMagic_within s).mono And.left⟩
  · exact ⟨_, rfl, rfl, (parseWidth_within s).mono And.left⟩
  · exact ⟨_, rfl, rfl, (parseHeight_within s).mono And.left⟩
  · exact ⟨_, rfl, rfl, (parseChannels_within s).mono And.left⟩
  · exact ⟨_, rfl, rfl, (parseDepth_within s).mono And.left⟩
  · exact ⟨_, rfl, rfl, (parseFlags_within s).mono And.left⟩
  · exact ⟨_, rfl, rfl, (parseChorder_within s).mono And.left⟩
  · exact ⟨_, rfl, rfl, (parseFrames_within s).mono And.left⟩

theorem headerTurns_running {q q' : Seq} {i : Instr} (h : (q, i, q') ∈ headerTurns) : q ≠ .doneErr := by
  rintro rfl
  revert h
  simp [headerTurns]

/-- A turn in a header state (R245). -/
theorem headerTurn {s t : State} {i : Instr} {q : Seq} (h : (s.sq.seq, i, q) ∈ headerTurns)
    (ht : exec i s = .next t) :
    exec .sequencerStep s = .next (if t.sq.seq = .doneErr then t else gotoSeq q t) := by
  obtain ⟨op, hexec, hstep, hin⟩ := headerTurns_parse h
  rw [exec_sequencerStep, hstep]
  exact outcome_then hin (headerTurns_running h) (fun _ _ => rfl) (hexec ▸ ht)

/-- A turn in HDR_META: METALEN, then METADATA (R209, R245). -/
theorem metaTurn {s t : State} (hs : s.sq.seq = .hdrMeta) (ht : exec .metalen s = .next t) :
    (t.sq.seq = .doneErr → exec .sequencerStep s = .next t) ∧
    (∀ u, t.sq.seq ≠ .doneErr → exec .metadata t = .next u →
      exec .sequencerStep s = .next (if u.sq.seq = .doneErr then u else gotoSeq .acInit u)) := by
  have hstep : sequencerStep s = (parseMetalen s).bind fun _ u => parseThen parseMetadata .acInit u := by
    rw [show sequencerStep s = parseThen parseMeta .acInit s by simp only [sequencerStep, hs]]
    exact Res.bind_assoc _ _ _
  have hin := parseMetalen_within s
  rw [exec_metalen] at ht
  rw [exec_sequencerStep, hstep]
  cases hr : parseMetalen s with
  | ok a u =>
    rw [hr] at ht hin
    cases ht
    have hwork : Working s t := And.left hin
    obtain ⟨-, -, -, hsq, -⟩ := hwork.same
    have hrun : t.sq.seq ≠ .doneErr := by rw [hsq, hs]; decide
    exact ⟨fun h => absurd h hrun, fun u _ hu => outcome_then (r := parseMetadata t)
      ((parseMetadata_within t).mono And.left) hrun (fun _ _ => rfl) hu⟩
  | ended u =>
    rw [hr] at ht hin
    cases ht
    obtain ⟨e, w, -, rfl⟩ := hin
    exact ⟨fun _ => rfl, fun _ h => absurd (by rw [takeError_sq]) h⟩
  | fault f =>
    rw [hr] at ht
    cases ht

/-- A turn in AC_INIT (R151, R245). -/
theorem acInitTurn {s t : State} (hs : s.sq.seq = .acInit) (ht : exec .acinit s = .next t) :
    exec .sequencerStep s = .next (if t.sq.seq = .doneErr then t
      else { t with sq := { t.sq with p := 0, planesDone := 0, seq := .awaitingTree } }) := by
  have hstep : sequencerStep s = turnAcInit s := by simp only [sequencerStep, hs]
  rw [exec_sequencerStep, hstep]
  exact outcome_then ((acInit_within s).mono And.left) (by rw [hs]; decide) (fun _ _ => rfl) ht

/-- The first pass of either mode begins at (0, 0) (R232, R233). -/
theorem passOf_zero (interlaced : Bool) : ∃ q, passOf interlaced 0 = some q ∧ q.x0 = 0 ∧ q.y0 = 0 := by
  cases interlaced <;> exact ⟨_, rfl, rfl, rfl⟩

/-- A turn in AWAITING_TREE: the plane is recorded, its tree decoded, and its first pass entered (R39, R188, R245). -/
theorem treeTurn_of_element {s t : State} (hs : s.sq.seq = .awaitingTree) (hp : s.sq.p.toNat < 4) (hW : 1 ≤ s.W)
    (hH : 1 ≤ s.H) (ht : exec .treeDecodeIterative s.recorded = .next t) :
    exec .sequencerStep s = .next (if t.sq.seq = .doneErr then t
      else { t with sq := { t.sq with pi := 0, x := 0, y := 0, seq := .reconstructingPass } }) := by
  have hrec : recordPlane s = .ok () s.recorded := if_pos hp
  have hstep : sequencerStep s = (treeDecodeIterative s.recorded).bind fun _ u =>
      enterPass { u with sq := { u.sq with pi := 0 } } := by
    simp only [sequencerStep, hs, turnTree, hrec, Res.bind_ok]
  have hin := treeDecodeIterative_within s.recorded
  rw [exec_sequencerStep, hstep]
  refine outcome_then (f := fun u => { u with sq := { u.sq with pi := 0, x := 0, y := 0, seq := .reconstructingPass } })
    (hin.mono And.left) (by rw [State.recorded, hs]; decide) (fun u hu => ?_) ht
  rw [hu] at hin
  obtain ⟨-, hhdr, -⟩ := hin
  obtain ⟨q, hq, hx0, hy0⟩ := passOf_zero u.interlaced
  have hW' : u.W = s.W := congrArg (fun h => h.width.toNat) hhdr
  have hH' : u.H = s.H := congrArg (fun h => h.height.toNat) hhdr
  rw [enterPass_ok (s := { u with sq := { u.sq with pi := 0 } }) hq, hx0, hy0, if_pos]
  · rfl
  · exact ⟨hW'.symm ▸ hW, hH'.symm ▸ hH⟩

/-- R241: a pixel leaves the header as it is. -/
theorem decodePixel_hdr (s : State) :
    (decodePixel s).Post (fun _ t => t.hdr = s.hdr) (fun _ => True) AnyFault := by
  unfold decodePixel
  cases pixelContext s with
  | error f => trivial
  | ok c =>
    rw [Res.ofExcept_ok, Res.bind_ok]
    have hin := nzDecode_within (.leaf (BitVec.ofNat 13 c.2)) s.D ⟨.corruptPixelValue, 0⟩ s
    have hkeep := hin.imp (Q := fun _ t => t.hdr = s.hdr) (E' := fun _ => True) (F' := AnyFault)
      (fun _ _ ⟨_, hhdr, _⟩ => hhdr) (fun _ _ => trivial) fun _ _ => trivial
    refine hkeep.bind fun r t ht => ?_
    unfold writeSample
    split_ifs
    · exact ht
    · trivial

/-- The next position, coordinate by coordinate (R234). -/
theorem Pass.advance_eq (q : Pass) (W x y : Nat) : q.advance W x y =
    (if W ≤ x + q.stepx then q.x0 else x + q.stepx, if W ≤ x + q.stepx then y + q.stepy else y) := by
  unfold Pass.advance
  split_ifs <;> rfl

/-- A turn in RECONSTRUCTING_PASS: one pixel, and the advance to the next position (R234, R241, R245). -/
theorem pixelTurn {s t : State} {q : Pass} (hs : s.sq.seq = .reconstructingPass)
    (hq : passOf s.interlaced s.sq.pi.toNat = some q) (ht : exec .resid s = .next t) :
    (let xy := q.advance s.W s.sq.x.toNat s.sq.y.toNat
     exec .sequencerStep s = .next (if t.sq.seq = .doneErr then t
      else gotoSeq (if xy.2 < s.H then .reconstructingPass else .passComplete) (moveTo xy t))) := by
  intro xy
  have hstep : sequencerStep s = turnPixel s := by simp only [sequencerStep, hs]
  have hin := decodePixel_within s
  have hkeep := decodePixel_hdr s
  rw [exec_sequencerStep, hstep]
  refine outcome_then (f := fun u => gotoSeq (if xy.2 < s.H then .reconstructingPass else .passComplete) (moveTo xy u))
    hin (by rw [hs]; decide) (fun u hu => ?_) ht
  rw [hu] at hin hkeep
  have hwork : Working s u := hin
  obtain ⟨-, -, -, hsq, -⟩ := hwork.same
  have hhdr : u.hdr = s.hdr := hkeep
  have hcur : currentPass u = .ok q := currentPass_eq_ok.2 (by rw [State.interlaced, hhdr, hsq]; exact hq)
  have hW : u.W = s.W := congrArg (fun h => h.width.toNat) hhdr
  have hH : u.H = s.H := congrArg (fun h => h.height.toNat) hhdr
  simp only [hcur, Res.ofExcept_ok, Res.bind_ok, hW, hH, hsq, xy]

/-- Settles O49: the turn in each state that decodes elements is the element's operation and a move, and an error the
element takes leaves the move out (`outcome_then`). -/
theorem sequencerRunsTheElementOfItsState : Obligations.SequencerRunsTheElementOfItsState := by
  refine ⟨fun s t i q h ht => headerTurn h ht, fun s t hs ht => metaTurn hs ht, fun s t hs ht => acInitTurn hs ht,
    fun s t hs hp hW hH ht => treeTurn_of_element hs hp hW hH ht, fun s t q hs hq _ _ _ _ ht => ?_, fun s hs => ?_⟩
  · rw [pixelTurn hs hq ht, Pass.advance_eq]
    rfl
  · have hstep : sequencerStep s = assemble s := by simp only [sequencerStep, hs]
    rw [exec_sequencerStep, hstep]
    rfl

end Sys2Proof.Machine
end

-- ==== The plane loop ====
section
/-! `plane_loop` run alone: it is the turns of the sequencer from the first tree up to ASSEMBLE (R231, R245), and they decode
the image whose trees and residuals the decisions code. -/

namespace Sys2Proof.Machine

/-- The state in which `plane_loop` takes its first turn (R231, log entry 22). -/
def State.planesStart (s : State) : State :=
  { s with sq := { s.sq with p := 0, planesDone := 0, seq := .awaitingTree } }

theorem exec_planeLoop {s : State} (hC : 1 ≤ s.C) :
    exec .planeLoop s = (planeTurns (s.C * (s.W * s.H + 11)) s.planesStart).outcome := by
  have hloop : planeLoop s = planeTurns (s.C * (s.W * s.H + 11)) s.planesStart := if_neg (Nat.ne_of_gt hC)
  rw [← hloop]
  rfl

/-- Turns that reach ASSEMBLE within the bound are what `plane_loop` answers. -/
theorem exec_planeLoop_of_turns {s t : State} {n : Nat} (hC : 1 ≤ s.C) (h : Turns n s.planesStart t)
    (ht : t.sq.seq = .assemble) (hn : n ≤ s.C * (s.W * s.H + 11)) : exec .planeLoop s = .next t := by
  rw [exec_planeLoop hC, planeTurns_of_turns h ht hn, Res.outcome_ok]

/-! ### Turns that end in ASSEMBLE -/

theorem turnsTo_succ {n : Nat} {s t : State} :
    turnsTo (n + 1) s = some t ↔ ∃ u, sequencerStep s = .ok () u ∧ turnsTo n u = some t := by
  rw [turnsTo]
  cases sequencerStep s <;> simp

/-- A finished session waits (R245). -/
theorem turnsTo_doneOk {n : Nat} {s t : State} (hs : s.sq.seq = .doneOk) (h : turnsTo n s = some t) : t = s := by
  induction n with
  | zero => exact (Option.some.inj h).symm
  | succ n ih =>
    obtain ⟨u, hstep, hu⟩ := turnsTo_succ.1 h
    rw [sequencerStep_waits (.inr (.inl hs))] at hstep
    cases hstep
    exact ih hu

/-- A turn in ASSEMBLE that does not end the session finishes it (R275). -/
theorem sequencerStep_assemble_ok {s u : State} (hs : s.sq.seq = .assemble) (h : sequencerStep s = .ok () u) :
    u.sq.seq = .doneOk := by
  have hstep : sequencerStep s = assemble s := by simp only [sequencerStep, hs]
  rw [hstep] at h
  rcases assemble_cases s with ⟨out, hout, -⟩ | ⟨info, herr⟩ | ⟨f, hf⟩
  · rw [hout] at h
    cases h
    rfl
  · rw [herr] at h
    cases h
  · rw [hf] at h
    cases h

/-- Turns that lead to ASSEMBLE did not pass through it: from there a session only finishes. -/
theorem turns_of_turnsTo {n : Nat} {s t : State} (h : turnsTo n s = some t) (ht : t.sq.seq = .assemble) : Turns n s t := by
  induction n generalizing s with
  | zero =>
    obtain rfl : s = t := Option.some.inj h
    exact Turns.refl s
  | succ n ih =>
    obtain ⟨u, hstep, hu⟩ := turnsTo_succ.1 h
    refine Turns.step (fun ha => ?_) hstep (ih hu)
    have hdone := sequencerStep_assemble_ok ha hstep
    rw [turnsTo_doneOk hdone hu, hdone] at ht
    cases ht

/-- Settles O50: the turns do not pass through ASSEMBLE, so `plane_loop` does not stop before the last of them. -/
theorem planeLoopRunsItsTurns : Obligations.PlaneLoopRunsItsTurns := by
  intro s t n hC hn h ht
  exact exec_planeLoop_of_turns hC (turns_of_turnsTo h ht) ht hn

/-! ### The coded image -/

/-- Settles O60: the turns of one plane after the other (`planesTurns`), each plane decoded in an order in which every pixel
reads earlier ones and no position is met twice (R235). -/
theorem planeLoopDecodesTheCodedImage : Obligations.PlaneLoopDecodesTheCodedImage := by
  intro s t T v hw _ _ _ hC hC4 hD hD16 hT hv ht
  rw [List.range_eq_range'] at ht
  have coded : ∀ p, p < s.planesStart.C → ∀ q : Sequencer, q.p.toNat = p →
      PlaneCoded { s.planesStart with sq := q } (T p) (v p) := fun p hp q hq =>
    { legal := hT p hp
      plane := hq ▸ lt_of_lt_of_le hp hC4
      depth := ⟨hD, hD16⟩
      values := fun x y => hv p x y hp
      earlier := fun _ _ _ _ hpass hh => neighbourReads_comeBefore hpass hh }
  obtain ⟨n, u, hn, hturns, ⟨hframe, -⟩, hseq, hp, hpd, hplanes, hsamples⟩ := planesTurns (d := s) (m := s.planesStart) s.C
    (Nat.zero_add _) hC4 coded (fun _ _ _ _ _ _ hq hr h h' => pass_unique hq hr h h')
    (fun x y hx hy => position_inPass _ hx hy) ⟨rfl, hw, hw, fun _ h => h.elim⟩ (if_pos hC).symm rfl ht
  refine ⟨u, exec_planeLoop_of_turns hC hturns hseq hn, hframe, hseq, hp, hpd ▸ hp,
    fun q hq => (hplanes q).1 ⟨Nat.zero_le q, hq⟩, fun q hq => (hplanes q).2 fun h => Nat.not_lt.2 hq h.2,
    fun p x y hx hy => ?_⟩
  rw [hsamples p y x hy hx]
  exact if_congr (and_congr_left' ⟨And.right, fun h => ⟨Nat.zero_le p, h⟩⟩) rfl rfl

end Sys2Proof.Machine
end

-- ==== The assembled image ====
section
/-! What `assemble` answers: the errors of its check (R271), or the whole image at its OUTPUT words, which the host then
reads (R270, R272 to R275, R63). -/

namespace Sys2Proof.Machine

theorem exec_assemble (s : State) : exec .assemble s = (assemble s).outcome := rfl

/-! ### The check -/

/-- A number of completed planes other than `C` ends the session (R271). -/
theorem assemble_countMismatch {s : State} (h : s.sq.planesDone.toNat ≠ s.C) :
    assemble s = .ended (takeError ⟨.channelCountMismatch, 1⟩ s) := if_pos h

/-- Past the count, `assemble` is what the check of the planes lets it be (R271). -/
theorem assemble_counted {s : State} (h : s.sq.planesDone.toNat = s.C) :
    assemble s = (checkPlanes (List.range s.C) s).bind fun _ s =>
      (Res.ofExcept (outputWords s (s.W * s.H) 0) s).bind fun out s => .ok () (completeSession { s with output := out }) :=
  if_neg (not_not_intro h)

/-- Settles O47: the count is compared first, then the planes (`checkPlanes_mismatch`), both before any word. -/
theorem assembleChecksThePlanes : Obligations.AssembleChecksThePlanes := by
  refine fun s => ⟨fun hcount => ?_, fun hcount hC ⟨q, w, h, hq, hw, hh, hne⟩ => ?_⟩
  · rw [exec_assemble, assemble_countMismatch hcount, Res.outcome_ended]
  · have hcheck : checkPlanes (List.range s.C) s = .ended (takeError ⟨.channelCountMismatch, 2⟩ s) := by
      refine checkPlanes_mismatch (fun q hq => (List.mem_range.1 hq).trans_le hC) ⟨q, List.mem_range.2 hq, ?_⟩
      rw [hw, hh]
      exact hne.imp (mt Option.some.inj) (mt Option.some.inj)
    rw [exec_assemble, assemble_counted hcount, hcheck, Res.bind_ended, Res.outcome_ended]

/-! ### The words of the image -/

/-- The number of pixel (x, y) in raster order is that of a pixel of the image (R274). -/
theorem rasterNumber_lt {W H x y : Nat} (hx : x < W) (hy : y < H) : y * W + x < W * H :=
  calc y * W + x < (y + 1) * W := by rw [Nat.succ_mul]; omega
    _ ≤ H * W := Nat.mul_le_mul_right W hy
    _ = W * H := Nat.mul_comm H W

/-- Complete planes of known samples are assembled into the words of every pixel (R270). -/
theorem assemble_ok {s : State} {v : Nat → Nat → Nat → Nat} (hcount : s.sq.planesDone.toNat = s.C)
    (hdim : ∀ q, q < s.C → s.sq.plW[q]? = some s.hdr.width ∧ s.sq.plH[q]? = some s.hdr.height)
    (hv : ∀ q x y, q < s.C → x < s.W → y < s.H → sampleAt s q y x = .ok (v q x y)) :
    ∃ out, outputWords s (s.W * s.H) 0 = .ok out ∧ assemble s = .ok () (completeSession { s with output := out }) := by
  have hcheck : checkPlanes (List.range s.C) s = .ok () s := checkPlanes_ok fun q hq => hdim q (List.mem_range.1 hq)
  obtain ⟨out, hout⟩ : ∃ out, outputWords s (s.W * s.H) 0 = .ok out := outputWords_ok fun j _ hj => by
    rw [Nat.zero_add] at hj
    have hW : 0 < s.W := Nat.pos_of_mul_pos_right (Nat.zero_lt_of_lt hj)
    exact pixelChannels_written fun q hq => ⟨_, hv q _ _ hq (Nat.mod_lt _ hW) (Nat.div_lt_of_lt_mul hj)⟩
  exact ⟨out, hout, by rw [assemble_counted hcount, hcheck, Res.bind_ok, hout, Res.ofExcept_ok, Res.bind_ok]⟩

/-- The word of channel `k` of pixel (x, y) holds the transformed sample of plane `order[k]` there (R272 to R274). -/
theorem outputWords_get {s : State} {out : Store Sample} {v : Nat → Nat} {x y k : Nat}
    (hout : outputWords s (s.W * s.H) 0 = .ok out) (hv : ∀ q, q < s.C → sampleAt s q y x = .ok (v q))
    (ho : ∀ k, k < s.C → (s.order k).toNat < s.C) (hx : x < s.W) (hy : y < s.H) (hk : k < s.C) :
    Store.get? out ((y * s.W + x) * s.C + k) = some (BitVec.ofNat 16
      (if s.tid = 1 ∧ ((s.order k).toNat = 1 ∨ (s.order k).toNat = 2)
        then (v (s.order k).toNat + v 0) % 2 ^ s.D else v (s.order k).toNat)) := by
  obtain ⟨-, -, hwords⟩ := outputWords_spec hout
  obtain ⟨ch, hch, hget⟩ := hwords (y * s.W + x) k (Nat.zero_le _) (by rw [Nat.zero_add]; exact rasterNumber_lt hx hy) hk
  have hcol : (y * s.W + x) % s.W = x := by rw [Nat.mul_add_mod', Nat.mod_eq_of_lt hx]
  have hrow : (y * s.W + x) / s.W = y := by
    rw [Nat.mul_comm, Nat.mul_add_div (Nat.zero_lt_of_lt hx), Nat.div_eq_of_lt hx, Nat.add_zero]
  rw [hcol, hrow, pixelChannels_ok hv ho] at hch
  cases hch
  rw [hget, List.getElem?_map, List.getElem?_range hk]
  rfl

/-! ### The host's read -/

/-- A finished session leaves `W·H·C` words specified (R63, R275). -/
theorem specifiedWords_completeSession (s : State) : specifiedWords (completeSession s) = s.W * s.H * s.C := by
  have hC : (s.hdr.channels.setWidth 32).toNat = s.C := BitVec.toNat_setWidth_of_le (by decide)
  rw [specifiedWords_done rfl, ← hC]
  rfl

/-- The host reads a specified word of a finished session as it is stored (R63). -/
theorem readOutput_completeSession {s : State} {a : BitVec 26} {w : Sample} (ha : a.toNat < s.W * s.H * s.C)
    (hw : Store.get? s.output a.toNat = some w) :
    exec (.readOutput a) (completeSession s) = .next { completeSession s with busData := w.setWidth 32 } := by
  rw [exec_readOutput, outputWord_specified (s := completeSession s) (w := w) (by rwa [specifiedWords_completeSession]) hw]
  rfl

/-- Settles O46: the words stand in the completed state (`assemble_ok`, `outputWords_get`), and each address is below the
`W·H·C` specified words, so that it fits in the 26 bits the host reads it by. -/
theorem assembleWritesTheImage : Obligations.AssembleWritesTheImage := by
  intro s v hcount _ hC hpixels hdim hv ho
  obtain ⟨out, hout, hassemble⟩ := assemble_ok hcount hdim hv
  refine ⟨completeSession { s with output := out }, by rw [exec_assemble, hassemble, Res.outcome_ok], rfl, fun x y k hx hy hk => ?_⟩
  have hword := outputWords_get hout (fun q hq => hv q x y hq hx hy) ho hx hy hk
  refine ⟨hword, ?_⟩
  have hspecified : (y * s.W + x) * s.C + k < s.W * s.H * s.C :=
    calc (y * s.W + x) * s.C + k < (y * s.W + x + 1) * s.C := by rw [Nat.succ_mul]; omega
      _ ≤ s.W * s.H * s.C := Nat.mul_le_mul_right _ (rasterNumber_lt hx hy)
  have hcapacity : s.W * s.H * s.C ≤ 16777216 * 4 := Nat.mul_le_mul hpixels hC
  have haddr : (BitVec.ofNat 26 ((y * s.W + x) * s.C + k)).toNat = (y * s.W + x) * s.C + k := by
    rw [BitVec.toNat_ofNat, Nat.mod_eq_of_lt (hspecified.trans_le hcapacity)]
  exact readOutput_completeSession (by rwa [haddr]) (by rwa [haddr])

end Sys2Proof.Machine
end

-- ==== The terminal error and whole runs ====
section
/-! The terminal error action and the state it ends in (R245, R309); runs of a host-driven machine from reset (R67, R285,
R321). -/

namespace Sys2Proof.Machine

/-! ### The terminal error -/

theorem exec_raise (e : Err) (s : State) : exec (.raise e) s = .next (takeError e s) := rfl

/-- Settles O10: raising takes the error, whose number is that of its kind, and DONE_ERR is a state a turn waits in. -/
theorem raiseIsTerminal : Obligations.RaiseIsTerminal := by
  refine ⟨fun s k info => ?_, fun s h => ?_⟩
  · rw [exec_raise]
    cases k <;> rfl
  · rw [exec_sequencerStep, sequencerStep_waits (.inr (.inr h)), Res.outcome_ok]

/-! ### Runs -/

theorem run_succ {M : Host.Core} {s t : M.State} (k : Nat) (h : M.step s = .next t) : M.run (k + 1) s = M.run k t := by
  rw [Host.Core.run, h]

/-- An invariant from which every step completes and which every step keeps: runs of any length complete, and it holds
after them. -/
theorem run_of_step_invariant {M : Host.Core} {I : M.State → Prop} (hstep : ∀ s, I s → ∃ t, M.step s = .next t ∧ I t)
    (k : Nat) {s : M.State} (hs : I s) : ∃ t, M.run k s = .next t ∧ I t := by
  induction k generalizing s with
  | zero => exact ⟨s, rfl, hs⟩
  | succ k ih =>
    obtain ⟨u, hu, hI⟩ := hstep s hs
    rw [run_succ k hu]
    exact ih hI

/-- What a host-driven machine keeps from reset on: canonical memories, the session's books and its progress. -/
def SafeState (s : State) : Prop := s.memoryWf = true ∧ sessionInv s = true ∧ progressInv s

theorem SafeState.step {s : State} (h : SafeState s) : ∃ t, step s = .next t ∧ SafeState t := by
  obtain ⟨hmem, hsession, hprogress⟩ := h
  exact sessionsNeverFault s hmem hsession hprogress

/-- The queue is free at reset: whatever turns and moves the host puts there (R285). -/
theorem reset_withInputs_safe {q : List Issue} (hq : hostDriven q = true) : SafeState (State.reset.withInputs q) := by
  obtain ⟨hmem, -, -, hsession, hprogress⟩ := resetMeetsTheInvariants
  exact ⟨hmem, withInputs_sessionInv hq hsession, progressInv_congr (s := State.reset) rfl rfl rfl rfl hprogress⟩

/-- Settles O57 by induction on the number of steps, each of them safe by O56. -/
theorem hostRunsAreSafe : Obligations.HostRunsAreSafe := by
  intro q k hq
  obtain ⟨t, ht, -⟩ := run_of_step_invariant (M := Sys2Proof.core) (fun _ => SafeState.step) k (reset_withInputs_safe hq)
  exact ⟨t, ht⟩

end Sys2Proof.Machine
end

-- ==== Every session ends ====
section
/-! A count of the turns a running session can still take, by the rows of R245: every turn that does not end the session
lowers it, so that a session left alone ends (R244, R321, R345). -/

namespace Sys2Proof.Machine

/-! ### The count of turns -/

/-- The turns of one pass: at most `MAX_PIXELS` pixels, and its end. -/
def passBound : Nat := Config.maxPixels + 1

/-- The turns of one plane: its tree, nine passes, and its own end. -/
def planeBound : Nat := 9 * passBound + 2

/-- The turns after the current plane: the planes up to the fourth, and the assembly. -/
def State.turnsAfterPlane (s : State) : Nat := (3 - s.sq.p.toNat) * planeBound + 1

/-- The turns after the end of the current pass: the passes up to the ninth, the end of the plane, and what follows it. -/
def State.turnsAfterPass (s : State) : Nat :=
  (8 - s.sq.pi.toNat) * passBound + 1 + s.turnsAfterPlane

/-- The positions of the image that raster order has from the current one on; those of the pass are among them. -/
def State.positionsLeft (s : State) : Nat := (s.H - s.sq.y.toNat) * s.W - s.sq.x.toNat

/-- A bound on the turns until the session ends: in the header and in AC_INIT one for each of those states, and the
four planes and the assembly; then the rest of the plane, and what follows it. -/
def turnsLeft (s : State) : Nat :=
  match s.sq.seq with
  | .idle => 0
  | .doneOk => 0
  | .doneErr => 0
  | .assemble => 1
  | .planeComplete => 1 + s.turnsAfterPlane
  | .passComplete => 1 + s.turnsAfterPass
  | .reconstructingPass => s.positionsLeft + 1 + s.turnsAfterPass
  | .awaitingTree => planeBound + s.turnsAfterPlane
  | q => (11 - q.code.toNat) + (4 * planeBound + 1)

section
variable {s : State}

theorem turnsLeft_header (h1 : 1 ≤ s.sq.seq.code.toNat) (h10 : s.sq.seq.code.toNat ≤ 10) :
    turnsLeft s = (11 - s.sq.seq.code.toNat) + (4 * planeBound + 1) := by
  unfold turnsLeft
  split
  case h_9 => rfl
  -- no other state is numbered from 1 to 10
  all_goals
    next h => simp [h, Seq.code] at h1 h10

theorem turnsLeft_awaitingTree (h : s.sq.seq = .awaitingTree) : turnsLeft s = planeBound + s.turnsAfterPlane := by
  simp only [turnsLeft, h]

theorem turnsLeft_reconstructingPass (h : s.sq.seq = .reconstructingPass) :
    turnsLeft s = s.positionsLeft + 1 + s.turnsAfterPass := by
  simp only [turnsLeft, h]

theorem turnsLeft_passComplete (h : s.sq.seq = .passComplete) : turnsLeft s = 1 + s.turnsAfterPass := by
  simp only [turnsLeft, h]

theorem turnsLeft_planeComplete (h : s.sq.seq = .planeComplete) : turnsLeft s = 1 + s.turnsAfterPlane := by
  simp only [turnsLeft, h]

theorem turnsLeft_assemble (h : s.sq.seq = .assemble) : turnsLeft s = 1 := by
  simp only [turnsLeft, h]

theorem turnsLeft_done (h : s.sq.seq = .doneOk ∨ s.sq.seq = .doneErr) : turnsLeft s = 0 := by
  rcases h with h | h <;> simp only [turnsLeft, h]

end

theorem turnsAfterPlane_le (s : State) : s.turnsAfterPlane ≤ 3 * planeBound + 1 :=
  Nat.add_le_add_right (Nat.mul_le_mul_right planeBound (Nat.sub_le 3 _)) 1

/-- Whatever pass is current, eight at most come after it. -/
theorem turnsAfterPass_le (s : State) : s.turnsAfterPass ≤ 8 * passBound + 1 + s.turnsAfterPlane :=
  Nat.add_le_add_right (Nat.add_le_add_right (Nat.mul_le_mul_right passBound (Nat.sub_le 8 _)) 1) _

/-- R203, R210: past the header the image has at most `MAX_PIXELS` pixels. -/
theorem headerLegal_pixels {s : State} (h : headerLegalAt .acInit s.hdr = true) : s.W * s.H ≤ Config.maxPixels := by
  simp [headerLegalAt, Seq.code] at h
  simp only [State.W, State.H]
  omega

theorem positionsLeft_lt {s : State} (h : s.W * s.H ≤ Config.maxPixels) : s.positionsLeft < passBound :=
  Nat.lt_succ_of_le <|
  calc s.positionsLeft ≤ (s.H - s.sq.y.toNat) * s.W := Nat.sub_le _ _
    _ ≤ s.H * s.W := Nat.mul_le_mul_right _ (Nat.sub_le _ _)
    _ = s.W * s.H := Nat.mul_comm _ _
    _ ≤ Config.maxPixels := h

/-! ### The rows of R245 -/

/-- Where the turn `r` taken from `s` goes on, fewer turns are left. -/
def Descends (s : State) (r : Res Unit) : Prop :=
  r.Post (fun _ t => turnsLeft t < turnsLeft s) (fun _ => True) AnyFault

/-- A header state is left for the one after it. -/
theorem parseThen_descends {s : State} {op : State → Res Unit} {q : Seq} (h1 : 1 ≤ s.sq.seq.code.toNat)
    (hq : q.code.toNat = s.sq.seq.code.toNat + 1) (h10 : q.code.toNat ≤ 10) : Descends s (parseThen op q s) := by
  refine Res.Post.bind (P := fun _ _ => True) ?_ fun _ t _ => ?_
  · cases op s <;> trivial
  · show turnsLeft (gotoSeq q t) < turnsLeft s
    rw [turnsLeft_header (s := gotoSeq q t) (show 1 ≤ q.code.toNat by omega) h10, turnsLeft_header h1 (by omega)]
    show 11 - q.code.toNat + (4 * planeBound + 1) < _
    omega

/-- AC_INIT is left for the tree of plane 0. -/
theorem turnAcInit_descends {s : State} (hs : s.sq.seq = .acInit) : Descends s (turnAcInit s) := by
  refine Res.Post.bind (P := fun _ _ => True) ?_ fun _ t _ => ?_
  · cases acInit s <;> trivial
  · have hbefore : turnsLeft s = 1 + (4 * planeBound + 1) := by simp only [turnsLeft, hs, Seq.code]; rfl
    show turnsLeft { t with sq := { t.sq with p := 0, planesDone := 0, seq := .awaitingTree } } < turnsLeft s
    rw [turnsLeft_awaitingTree rfl, hbefore]
    have hplanes := turnsAfterPlane_le { t with sq := { t.sq with p := 0, planesDone := 0, seq := .awaitingTree } }
    omega

/-- A pass entered takes at most the turns of its pixels, and its end. -/
theorem enterPass_turnsLeft {s : State} (h : s.W * s.H ≤ Config.maxPixels) :
    (enterPass s).Post (fun _ t => turnsLeft t ≤ passBound + s.turnsAfterPass) (fun _ => True) AnyFault := by
  unfold enterPass
  cases currentPass s with
  | error f => trivial
  | ok q =>
    have hafter : ∀ c, (gotoSeq c (moveTo (q.x0, q.y0) s)).turnsAfterPass = s.turnsAfterPass := fun _ => rfl
    show turnsLeft (gotoSeq (if q.nonempty s.W s.H then .reconstructingPass else .passComplete)
      (moveTo (q.x0, q.y0) s)) ≤ passBound + s.turnsAfterPass
    split_ifs
    · rw [turnsLeft_reconstructingPass rfl, hafter]
      exact Nat.add_le_add_right (positionsLeft_lt (s := gotoSeq _ (moveTo (q.x0, q.y0) s)) h) _
    · rw [turnsLeft_passComplete rfl, hafter]
      exact Nat.add_le_add_right (Nat.le_add_left 1 _) _

/-- The tree is decoded, and nine passes of the plane are left. -/
theorem turnTree_descends {s : State} (hs : s.sq.seq = .awaitingTree) (hp : s.sq.p.toNat < 4)
    (h : s.W * s.H ≤ Config.maxPixels) : Descends s (turnTree s) := by
  have hrec : recordPlane s = .ok () s.recorded := if_pos hp
  simp only [Descends, turnTree, hrec, Res.bind_ok]
  refine ((treeDecodeIterative_within s.recorded).imp (fun _ _ ht => ht) (fun _ _ => trivial) fun _ _ => trivial).bind ?_
  rintro _ t ⟨hwork, hhdr, -⟩
  obtain ⟨-, -, -, hsq, -⟩ := hwork.same
  have hdims : t.W * t.H ≤ Config.maxPixels := by
    rw [State.W, State.H, hhdr]
    exact h
  refine (enterPass_turnsLeft (s := { t with sq := { t.sq with pi := 0 } }) hdims).imp (fun _ u hu => ?_)
    (fun _ h => h) fun _ h => h
  have hpass := turnsAfterPass_le { t with sq := { t.sq with pi := 0 } }
  have hplane : State.turnsAfterPlane { t with sq := { t.sq with pi := 0 } } = s.turnsAfterPlane := by
    simp only [State.turnsAfterPlane, hsq]
    rfl
  rw [turnsLeft_awaitingTree hs, planeBound]
  omega

/-- The next position of a pass comes later in raster order, so that fewer positions are left (R234). -/
theorem positions_advance {q : Pass} {W H x y : Nat} (hsx : 1 ≤ q.stepx) (hsy : 1 ≤ q.stepy) (hx : x < W) (hy : y < H) :
    (H - (q.advance W x y).2) * W - (q.advance W x y).1 < (H - y) * W - x := by
  have row : W ≤ (H - y) * W := Nat.le_mul_of_pos_left W (Nat.sub_pos_of_lt hy)
  unfold Pass.advance
  split_ifs with hend
  · have rows : (H - (y + q.stepy)) * W + W ≤ (H - y) * W := by
      rw [← Nat.succ_mul]
      exact Nat.mul_le_mul_right W (by omega)
    show (H - (y + q.stepy)) * W - q.x0 < (H - y) * W - x
    omega
  · show (H - y) * W - (x + q.stepx) < (H - y) * W - x
    omega

/-- A pixel is decoded, and the pass goes on to a later position or ends. -/
theorem turnPixel_descends {s : State} (hs : s.sq.seq = .reconstructingPass) {q : Pass} (hat : AtPosition s q) :
    Descends s (turnPixel s) := by
  obtain ⟨hq, hhas, -⟩ := hat
  obtain ⟨-, -, hsx, -, hsy, -⟩ := passOf_bounds hq
  obtain ⟨⟨hx, -⟩, hy, -⟩ := Pass.has_iff.1 hhas
  refine ((decodePixel_within s).and (decodePixel_hdr s)).imp (fun _ _ ht => ht) (fun _ _ => trivial)
    (fun _ _ => trivial) |>.bind ?_
  rintro _ t ⟨hwork, hhdr⟩
  obtain ⟨-, -, -, hsq, -⟩ := hwork.same
  obtain ⟨eW, eH, -, eI⟩ : t.W = s.W ∧ t.H = s.H ∧ t.C = s.C ∧ t.interlaced = s.interlaced := by
    simp only [State.W, State.H, State.C, State.interlaced, hhdr, and_self]
  have hcur : currentPass t = .ok q := currentPass_eq_ok.2 (by rw [eI, hsq]; exact hq)
  simp only [hcur, Res.ofExcept_ok, Res.bind_ok, eW, eH, hsq]
  have hless := positions_advance hsx hsy hx hy
  obtain ⟨hadvW, -⟩ := Pass.advance_spec hsx hsy hhas
  generalize q.advance s.W s.sq.x.toNat s.sq.y.toNat = xy at hless hadvW ⊢
  have hafter : ∀ c, (gotoSeq c (moveTo xy t)).turnsAfterPass = s.turnsAfterPass := fun c => by
    simp only [State.turnsAfterPass, State.turnsAfterPlane, gotoSeq_sq, moveTo_sq, hsq]
  show turnsLeft (gotoSeq _ (moveTo xy t)) < turnsLeft s
  rw [turnsLeft_reconstructingPass hs]
  split_ifs with hlt
  · have hleft : (gotoSeq .reconstructingPass (moveTo xy t)).positionsLeft < s.positionsLeft := by
      show ((gotoSeq .reconstructingPass (moveTo xy t)).H - (BitVec.ofNat 32 xy.2).toNat) * t.W
        - (BitVec.ofNat 32 xy.1).toNat < s.positionsLeft
      rw [coordinate_toNat _ hadvW, coordinate_toNat _ hlt, eW]
      exact eH ▸ hless
    rw [turnsLeft_reconstructingPass rfl, hafter]
    omega
  · rw [turnsLeft_passComplete rfl, hafter]
    have : 0 < s.positionsLeft := Nat.zero_lt_of_lt hless
    omega

/-- The next pass, of at most nine, is entered, or the plane is complete. -/
theorem turnPassComplete_descends {s : State} (hs : s.sq.seq = .passComplete) (h : s.W * s.H ≤ Config.maxPixels)
    (hpi : s.sq.pi.toNat < (passList s.interlaced).length) : Descends s (turnPassComplete s) := by
  have hsucc : s.nextPass.sq.pi.toNat = s.sq.pi.toNat + 1 := pass_succ hpi
  have hplane : s.nextPass.turnsAfterPlane = s.turnsAfterPlane := rfl
  have hafter : s.turnsAfterPass = (8 - s.sq.pi.toNat) * passBound + 1 + s.turnsAfterPlane := rfl
  rw [Descends, turnPassComplete_eq, turnsLeft_passComplete hs]
  split_ifs with hnext
  · refine (enterPass_turnsLeft (s := s.nextPass) h).imp (fun _ t ht => ?_) (fun _ h => h) fun _ h => h
    have hnine : s.sq.pi.toNat + 1 ≤ 8 := by
      have hlen : (passList s.interlaced).length ≤ 9 := by
        rw [passList_length]
        split_ifs <;> norm_num
      have : s.nextPass.sq.pi.toNat < (passList s.interlaced).length := hnext
      omega
    have hnextAfter : s.nextPass.turnsAfterPass + passBound = s.turnsAfterPass := by
      rw [hafter, State.turnsAfterPass, hplane, hsucc, show 8 - s.sq.pi.toNat = 8 - (s.sq.pi.toNat + 1) + 1 by omega]
      ring
    omega
  · show turnsLeft (gotoSeq .planeComplete s.nextPass) < 1 + s.turnsAfterPass
    rw [turnsLeft_planeComplete rfl]
    show 1 + s.turnsAfterPlane < 1 + s.turnsAfterPass
    omega

/-- The next plane, of at most four, is begun, or the image is complete. -/
theorem turnPlaneComplete_descends {s : State} (hs : s.sq.seq = .planeComplete) (hp : s.sq.p.toNat < s.C)
    (hC : s.C ≤ 4) : Descends s (turnPlaneComplete s) := by
  have hsucc : (s.sq.p + 1).toNat = s.sq.p.toNat + 1 := by bv_omega
  show turnsLeft (gotoSeq (if (s.sq.p + 1).toNat < s.C then .awaitingTree else .assemble)
    { s with sq := { s.sq with planesDone := s.sq.planesDone + 1, p := s.sq.p + 1 } }) < turnsLeft s
  rw [turnsLeft_planeComplete hs]
  split_ifs with hlt
  · rw [turnsLeft_awaitingTree rfl]
    show planeBound + ((3 - (s.sq.p + 1).toNat) * planeBound + 1) < 1 + ((3 - s.sq.p.toNat) * planeBound + 1)
    rw [hsucc, show 3 - s.sq.p.toNat = 3 - (s.sq.p.toNat + 1) + 1 by omega, Nat.succ_mul]
    omega
  · rw [turnsLeft_assemble rfl, State.turnsAfterPlane]
    omega

theorem assemble_descends {s : State} (hs : s.sq.seq = .assemble) : Descends s (assemble s) := by
  rw [Descends, turnsLeft_assemble hs]
  rcases assemble_cases s with ⟨out, hout, -⟩ | ⟨info, herr⟩ | ⟨f, hf⟩
  · rw [hout]
    show turnsLeft (completeSession { s with output := out }) < 1
    rw [turnsLeft_done (.inl rfl)]
    exact Nat.one_pos
  · rw [herr]
    trivial
  · rw [hf]
    trivial

/-! ### A turn and a step -/

/-- A turn of a running session that goes on leaves fewer turns. -/
theorem sequencerStep_descends {s : State} (hs : sessionInv s = true) (h : progressInv s) (hrun : s.sq.seq.running) :
    Descends s (sequencerStep s) := by
  have hd := fun hq => (Payload.of_sessionInv hs hq).2
  obtain ⟨hidle, hok, herr⟩ := hrun.ne_done
  unfold sequencerStep
  cases hq : s.sq.seq
  all_goals rw [hq] at hd
  case idle => exact absurd hq hidle
  case doneOk => exact absurd hq hok
  case doneErr => exact absurd hq herr
  case acInit => exact turnAcInit_descends hq
  case awaitingTree =>
    obtain ⟨hp, -⟩ := (progressInv_awaitingTree hq).1 h
    have hlegal := hd (.inl rfl)
    exact turnTree_descends hq (hp.trans_le (headerLegal_dims hlegal).2.1) (headerLegal_pixels hlegal)
  case reconstructingPass =>
    obtain ⟨-, -, q, hat⟩ := (progressInv_reconstructingPass hq).1 h
    exact turnPixel_descends hq hat
  case passComplete =>
    obtain ⟨-, hpi, -⟩ := (progressInv_passComplete hq).1 h
    exact turnPassComplete_descends hq (headerLegal_pixels (hd (.inr (.inr (.inl rfl))))) hpi
  case planeComplete =>
    obtain ⟨hp, -⟩ := (progressInv_planeComplete hq).1 h
    obtain ⟨-, hC, -⟩ := headerLegal_dims (hd (.inr (.inr (.inr (.inl rfl)))))
    exact turnPlaneComplete_descends hq hp hC
  case assemble => exact assemble_descends hq
  all_goals
    -- the nine header states
    refine parseThen_descends ?_ ?_ ?_
    all_goals simp [hq, Seq.code]

/-- Assembling leaves the queue to the host, and ends the session. -/
theorem assemble_stays (s : State) : (assemble s).Post (fun _ t => t.inputs = s.inputs ∧ t.sq.seq ≠ .idle)
    (fun t => t.inputs = s.inputs ∧ t.sq.seq ≠ .idle ∧ turnsLeft t = 0) AnyFault := by
  rcases assemble_cases s with ⟨out, hout, -⟩ | ⟨info, herr⟩ | ⟨f, hf⟩
  · rw [hout]
    exact ⟨rfl, Seq.noConfusion⟩
  · rw [herr]
    exact ⟨rfl, Seq.noConfusion, turnsLeft_done (.inr rfl)⟩
  · rw [hf]
    trivial

/-- A turn of a running session leaves the queue to the host and does not lead back to IDLE; after an error no turn is
left. -/
theorem sequencerStep_stays {s : State} (hs : sessionInv s = true) (hrun : s.sq.seq.running) :
    (sequencerStep s).Post (fun _ t => t.inputs = s.inputs ∧ t.sq.seq ≠ .idle)
      (fun t => t.inputs = s.inputs ∧ t.sq.seq ≠ .idle ∧ turnsLeft t = 0) AnyFault := by
  by_cases ha : s.sq.seq = .assemble
  · have hstep : sequencerStep s = assemble s := by simp only [sequencerStep, ha]
    rw [hstep]
    exact assemble_stays s
  · refine ((sequencerStep_within ha).and (sequencerStep_turned hs hrun ha)).imp (fun _ t ⟨hturn, hto⟩ => ?_)
      (fun t ⟨herr, _⟩ => ?_) fun _ _ => trivial
    · obtain ⟨-, -, -, -, -, -, hqueue, -⟩ := hturn.same
      exact ⟨hqueue, hto.1.ne_done.1⟩
    · obtain ⟨e, u, hu, rfl⟩ := herr
      obtain ⟨-, -, -, -, -, -, hqueue, -⟩ := hu.same
      exact ⟨hqueue, Seq.noConfusion, turnsLeft_done (.inr rfl)⟩

theorem turnsLeft_pos {s : State} (hrun : s.sq.seq.running) : 0 < turnsLeft s := by
  obtain ⟨hidle, hok, herr⟩ := hrun.ne_done
  have hplane : 0 < s.turnsAfterPlane := Nat.succ_pos _
  unfold turnsLeft
  split
  case h_1 h => exact absurd h hidle
  case h_2 h => exact absurd h hok
  case h_3 h => exact absurd h herr
  all_goals omega

/-- A session the host has started and leaves alone. -/
def Alone (s : State) : Prop := SafeState s ∧ s.inputs = [] ∧ s.sq.seq ≠ .idle

/-- The session has ended (R275, R309). -/
def Ended (s : State) : Prop := s.sq.seq = .doneOk ∨ s.sq.seq = .doneErr

theorem Alone.running {s : State} (h : Alone s) (hend : ¬ Ended s) : s.sq.seq.running := by
  obtain ⟨-, -, hidle⟩ := h
  exact (Seq.running_or _).resolve_right fun hwait => hwait.elim hidle hend

/-- Until it has ended, a session left alone takes a step that leaves fewer turns. -/
theorem Alone.step {s : State} (h : Alone s) (hend : ¬ Ended s) :
    ∃ t, step s = .next t ∧ Alone t ∧ turnsLeft t < turnsLeft s := by
  have hrun := h.running hend
  obtain ⟨hsafe, hqueue, -⟩ := h
  have ⟨_, hsession, hprogress⟩ := hsafe
  obtain ⟨t, ht, hsafe'⟩ := hsafe.step
  have hturn : (sequencerStep s).outcome = .next t := by
    rw [← exec_sequencerStep, ← stepRunsTheDecodedInstruction.1 s hqueue, ht]
  have hpost := ((sequencerStep_stays hsession hrun).and (sequencerStep_descends hsession hprogress hrun)).imp
    (Q := fun _ t => t.inputs = s.inputs ∧ t.sq.seq ≠ .idle ∧ turnsLeft t < turnsLeft s)
    (E' := fun t => t.inputs = s.inputs ∧ t.sq.seq ≠ .idle ∧ turnsLeft t < turnsLeft s)
    (fun _ _ ⟨⟨hin, hne⟩, hless⟩ => ⟨hin, hne, hless⟩)
    (fun _ ⟨⟨hin, hne, hzero⟩, _⟩ => ⟨hin, hne, hzero ▸ turnsLeft_pos hrun⟩) fun _ h => h
  obtain ⟨hin, hne, hless⟩ := hpost.outcome hturn
  exact ⟨t, ht, ⟨hsafe', hin.trans hqueue, hne⟩, hless⟩

/-! ### The run -/

/-- A machine that keeps `I` and, until `D` holds, takes steps that lower `μ`, reaches `D` within `μ` steps. -/
theorem run_reaches {M : Host.Core} {I D : M.State → Prop} {μ : M.State → Nat}
    (hstep : ∀ s, I s → ¬ D s → ∃ t, M.step s = .next t ∧ I t ∧ μ t < μ s) {n : Nat} {s : M.State} (hs : I s)
    (hn : μ s ≤ n) : ∃ k t, k ≤ n ∧ M.run k s = .next t ∧ I t ∧ D t := by
  induction n generalizing s with
  | zero =>
    by_cases hd : D s
    · exact ⟨0, s, le_refl 0, rfl, hs, hd⟩
    · obtain ⟨t, -, -, hless⟩ := hstep s hs hd
      omega
  | succ n ih =>
    by_cases hd : D s
    · exact ⟨0, s, Nat.zero_le _, rfl, hs, hd⟩
    · obtain ⟨u, hu, hI, hless⟩ := hstep s hs hd
      obtain ⟨k, t, hk, hrun, ht⟩ := ih hI (by omega)
      exact ⟨k + 1, t, Nat.succ_le_succ hk, by rw [run_succ k hu, hrun], ht⟩

theorem Seq.code_pos {q : Seq} (h : q ≠ .idle) : 1 ≤ q.code.toNat := by
  revert h
  cases q <;> decide

/-- The whole session has the turns of its ten first states, of four planes, and of the assembly. -/
theorem turnsLeft_le {s : State} (hs : sessionInv s = true) : turnsLeft s ≤ 11 + 4 * planeBound := by
  have hplane := turnsAfterPlane_le s
  have hpass := turnsAfterPass_le s
  have hK : planeBound = 9 * passBound + 2 := rfl
  by_cases hq : s.sq.seq = .reconstructingPass
  · have hd := (Payload.of_sessionInv hs (.inr (.inl hq))).2
    have hpixels := positionsLeft_lt (headerLegal_pixels hd)
    rw [turnsLeft_reconstructingPass hq]
    omega
  · unfold turnsLeft
    split
    case h_7 h => exact absurd h hq
    case h_9 hidle _ _ _ _ _ _ _ =>
      have hcode := Seq.code_pos hidle
      omega
    all_goals omega

/-- STATUS of a session that has ended: DONE and not BUSY (R24). -/
theorem Ended.status {s : State} (hs : sessionInv s = true) (h : Ended s) :
    s.host.status.getLsbD 1 = true ∧ s.host.status.getLsbD 0 = false := by
  obtain ⟨-, hstatus, -⟩ := (sessionInv_iff s).1 hs
  rw [hstatus]
  rcases h with h | h <;> rw [h] <;> decide

/-- Settles O59: every turn lowers the count of the turns left (`Alone.step`), which is at most the stated bound. -/
theorem everySessionEnds : Obligations.EverySessionEnds := by
  intro s hmem hsession hprogress hqueue hidle
  obtain ⟨k, t, hk, hrun, ⟨⟨-, hsession', -⟩, -⟩, hend⟩ := run_reaches (M := Sys2Proof.core) (D := Ended) (μ := turnsLeft)
    (fun _ => Alone.step) ⟨⟨hmem, hsession, hprogress⟩, hqueue, hidle⟩ (turnsLeft_le hsession)
  exact ⟨k, t, hk, hrun, hend, hend.status hsession'⟩

end Sys2Proof.Machine
end
